-- ==== Sys2Proof/Word.lean ====
section
/-! DEFINITION. The word and byte types of the machine and their plainest arithmetic. -/

namespace Sys2Proof

/-- A 64-bit scalar register, CSR or address (R270, R272). -/
abbrev Word := BitVec 64

/-- One byte of memory. -/
abbrev Byte := BitVec 8

/-- A 64-bit word with the value `n mod 2^64`. -/
abbrev word (n : Nat) : Word := BitVec.ofNat 64 n

end Sys2Proof
end

