-- ==== Sys2Proof/Syntax.lean ====
section
/-! DEFINITION. The syntax of the machine: operand shapes (R281, Table 11.9) and the one inductive `Instr` with one
constructor for every row of the opcode table. The first part are FLN instructions, which have an encoding; the second part are
the device's own steps and its inputs from the host, from other packages and from the management controller. -/

namespace Sys2Proof

/-- Scalar register number, s0 to s63. -/
abbrev SReg := BitVec 6
/-- Mask register number, q0 to q7. -/
abbrev QReg := BitVec 3
/-- Gate register number, g0 to g7. -/
abbrev GReg := BitVec 3
/-- Matrix register number, m0 to m511. -/
abbrev MReg := BitVec 9
/-- An element type code as an instruction holds it (Table 6.1). -/
abbrev TypeCode := BitVec 6

/-- A vector source: register and chain bit (R281). The chain bit never changes a result (R136). -/
structure VSrc where
  reg : BitVec 5
  chain : Bool
  deriving DecidableEq, Repr

/-- A vector destination: register and zeroing bit (R281). -/
structure VDst where
  reg : BitVec 5
  zeroing : Bool
  deriving DecidableEq, Repr

/-- A matrix source with its last-use hint (R166). -/
structure MSrc where
  reg : MReg
  last : Bool
  deriving DecidableEq, Repr

/-- The second operand of a vector instruction as W selects it (R352). -/
inductive YSel where
  | vec (c : VSrc)
  | scalar (c : SReg)
  | imm (i : BitVec 16)
  deriving DecidableEq, Repr

/-- The second operand of vcmp: its immediate has 13 bits (R366). -/
inductive CSel where
  | vec (c : VSrc)
  | scalar (c : SReg)
  | imm (i : BitVec 13)
  deriving DecidableEq, Repr

/-- The second operand of a floating vector instruction: W = 0 or 1 (Table 15.2). -/
inductive FSel where
  | vec (c : VSrc)
  | scalar (c : SReg)
  deriving DecidableEq, Repr

/-- An amount, index or count: W = 1 or 2 (Table 15.8). -/
inductive NSel where
  | scalar (c : SReg)
  | imm (n : BitVec 8)
  deriving DecidableEq, Repr

/-- A scalar or an immediate of 16 bits: vbcast (Table 15.8). -/
inductive BSel where
  | scalar (c : SReg)
  | imm (i : BitVec 16)
  deriving DecidableEq, Repr

/-- The row operand of mrow and mput: RSRC = 1 or 0 (R402). -/
inductive RowSel where
  | scalar (s : SReg)
  | imm (r : BitVec 6)
  deriving DecidableEq, Repr

/-- A gate operand: the gate when GE = 1, and the segment GSEG (R383). -/
structure GateSel where
  gate : Option GReg
  seg : BitVec 4
  deriving DecidableEq, Repr

/-- The forms of qmov, one for each W (R380). -/
inductive QMov where
  | maskToMask (dst src : QReg)
  | scalarToLow (dst : QReg) (c : SReg)
  | scalarToHigh (dst : QReg) (c : SReg)
  | lowToScalar (dst : SReg) (src : QReg)
  | highToScalar (dst : SReg) (src : QReg)
  deriving DecidableEq, Repr

/-- The data operand of capp: W = 0 a vector, W = 1 the positions (R423). -/
inductive CappSrc where
  | vec (b : VSrc)
  | idx
  deriving DecidableEq, Repr

/-- Scopes in the order of Table 8.2; the code is the position (R313). -/
inductive Scope where
  | t | c | h | d | p | x | s
  deriving DecidableEq, Repr

/-- Which CSR write a tmaprx write is (R339). -/
inductive CsrOp where
  | write | set | clear
  deriving DecidableEq, Repr

/-- A DKCP datagram as it reaches the device: the header of Table 3.2, the number of payload bytes the datagram really
has, and the payload. -/
structure DkcpMsg where
  magic : BitVec 16
  ver : BitVec 8
  typ : BitVec 8
  part : BitVec 6
  rsvd : BitVec 8
  ar : Bool
  more : Bool
  len : BitVec 16
  seq : BitVec 32
  session : BitVec 32
  payload : List Byte
  deriving DecidableEq, Repr

/-- A Sperov-defined UALink message: common word (Table 2.2), the words that follow it, and for TILE the poison map and the
payload bytes (R46). -/
structure LinkMsg where
  common : Word
  words : List Word
  pmap : List Byte
  payload : List Byte
  deriving DecidableEq, Repr

/-- What an incoming UALink request asks (Table 2.1): a write carries a byte for each of its places that it changes. -/
inductive LinkReq where
  | read (bytes : Nat)
  | write (data : List (Option Byte))
  | atomic (op : Nat) (size : Nat) (operand compare : Word)
  deriving DecidableEq, Repr

/-- Where the cells lie that hold a 32-byte burst of HBM (R19, R25): in the row of its address, in a spare row of its bank, or in the park
bank. -/
inductive DramSite where
  | home
  | spare (row : Nat)
  | park
  deriving DecidableEq, Repr

/-- An error that has come into an array of the package, uncorrectable when `ue`: in the cells of a burst of HBM (R20), in one copy of an entry
of a stack's row-remap and swap table (R30) or one copy of its bank tag (R28), in a word of MSM, or in a word of a line of an L2 slice (R15). -/
inductive ArrayError where
  | burst (b : Nat) (site : DramSite) (ue : Bool)
  | entry (stack index : Nat) (second ue : Bool)
  | tag (stack index copy : Nat) (value : BitVec 6)
  | msm (core granule word : Nat) (ue : Bool)
  | l2 (line word : Nat) (ue : Bool)
  deriving DecidableEq, Repr

/-- One sample of the management controller (R35): temperatures of the 16 sensors of each of the nine dies in 0.1 degrees, supply of each die in
millivolts and its current in 0.1 A, package power in watts (1 ms average) and package current in 0.1 A, the local SRAM supply
being that of the die; and the errors that have come into the arrays since the last sample. -/
structure Sample where
  temps : Vector (Vector Nat 16) 9
  vdd : Vector Nat 9
  idd : Vector Nat 9
  power : Nat
  current : Nat
  errors : List ArrayError
  deriving DecidableEq, Repr

/-- The outcome of a run-time bank test (Table 1.3): the failing rows. -/
structure TestResult where
  failing : List Nat
  deriving DecidableEq, Repr

inductive Instr where
  -- majors 0x01, 0x02: register ALU, multiply, divide (R320, R321)
  | add (a b c : SReg) | sub (a b c : SReg) | and (a b c : SReg) | or (a b c : SReg) | xor (a b c : SReg)
  | sll (a b c : SReg) | srl (a b c : SReg) | sra (a b c : SReg) | slt (a b c : SReg) | sltu (a b c : SReg)
  | min (a b c : SReg) | max (a b c : SReg) | minu (a b c : SReg) | maxu (a b c : SReg)
  | mul (a b c : SReg) | mulh (a b c : SReg) | mulhu (a b c : SReg)
  | div (a b c : SReg) | divu (a b c : SReg) | rem (a b c : SReg) | remu (a b c : SReg)
  -- majors 0x03 to 0x0B: immediate ALU (R322)
  | addi (a b : SReg) (imm : BitVec 10) | andi (a b : SReg) (imm : BitVec 10) | ori (a b : SReg) (imm : BitVec 10)
  | xori (a b : SReg) (imm : BitVec 10)
  | slli (a b : SReg) (sh : BitVec 6) | srli (a b : SReg) (sh : BitVec 6) | srai (a b : SReg) (sh : BitVec 6)
  | slti (a b : SReg) (imm : BitVec 10) | sltiu (a b : SReg) (imm : BitVec 10)
  -- major 0x0C: bit operations (R320)
  | clz (a b : SReg) | ctz (a b : SReg) | popc (a b : SReg) | addw (a b c : SReg)
  -- major 0x0D: literals (R323)
  | li (a : SReg) (lit : BitVec 32) | lih (a b : SReg) (lit : BitVec 32)
  -- major 0x0E: scalar FP32 (R324 to R326)
  | fadd (a b c : SReg) | fsub (a b c : SReg) | fmul (a b c : SReg) | fma (a b c d : SReg) | fdiv (a b c : SReg)
  | fsqrt (a b : SReg) | fcvt (a b : SReg) (dst src : BitVec 4) | fcmp (a b c : SReg) (pred : BitVec 2)
  -- majors 0x20 to 0x22: branches and jumps (R327, R328)
  | beq (b c : SReg) (loff : BitVec 27) (hidx : BitVec 5) | bne (b c : SReg) (loff : BitVec 27) (hidx : BitVec 5)
  | blt (b c : SReg) (loff : BitVec 27) (hidx : BitVec 5) | bge (b c : SReg) (loff : BitVec 27) (hidx : BitVec 5)
  | bltu (b c : SReg) (loff : BitVec 27) (hidx : BitVec 5) | bgeu (b c : SReg) (loff : BitVec 27) (hidx : BitVec 5)
  | jal (a : SReg) (loff : BitVec 27) (hidx : BitVec 5) | jalr (a b : SReg) (imm : BitVec 10)
  -- major 0x23: CSR access (R339)
  | csrr (a : SReg) (csr : BitVec 12) | csrw (b : SReg) (csr : BitVec 12)
  | csrs (b : SReg) (csr : BitVec 12) | csrc (b : SReg) (csr : BitVec 12)
  -- majors 0x24 to 0x29: traps and system (R340 to R344)
  | ecall (code : BitVec 6) | brk (code : BitVec 6) | eret | sleep (a : SReg) | halt | tmsw (b : SReg) (e : Bool)
  -- majors 0x30 to 0x3A: loads and stores (R330)
  | ldb (a b : SReg) (imm : BitVec 10) | ldbu (a b : SReg) (imm : BitVec 10)
  | ldh (a b : SReg) (imm : BitVec 10) | ldhu (a b : SReg) (imm : BitVec 10)
  | ldw (a b : SReg) (imm : BitVec 10) | ldwu (a b : SReg) (imm : BitVec 10) | ldd (a b : SReg) (imm : BitVec 10)
  | stb (a b : SReg) (imm : BitVec 10) | sth (a b : SReg) (imm : BitVec 10)
  | stw (a b : SReg) (imm : BitVec 10) | std (a b : SReg) (imm : BitVec 10)
  -- major 0x3B: atomics, acquire, release (R333, R334); `wide` selects 8 bytes, else 4
  | amoAdd (a b c : SReg) (scope : Scope) (wide : Bool) (off : BitVec 14)
  | amoAnd (a b c : SReg) (scope : Scope) (wide : Bool) (off : BitVec 14)
  | amoOr (a b c : SReg) (scope : Scope) (wide : Bool) (off : BitVec 14)
  | amoXor (a b c : SReg) (scope : Scope) (wide : Bool) (off : BitVec 14)
  | amoMin (a b c : SReg) (scope : Scope) (wide : Bool) (off : BitVec 14)
  | amoMax (a b c : SReg) (scope : Scope) (wide : Bool) (off : BitVec 14)
  | amoMinu (a b c : SReg) (scope : Scope) (wide : Bool) (off : BitVec 14)
  | amoMaxu (a b c : SReg) (scope : Scope) (wide : Bool) (off : BitVec 14)
  | amoSwap (a b c : SReg) (scope : Scope) (wide : Bool) (off : BitVec 14)
  | amoCas (a b c d : SReg) (scope : Scope) (wide : Bool) (off : BitVec 14)
  | ldAcq (a b : SReg) (scope : Scope) (size : BitVec 2) (off : BitVec 14)
  | stRel (b c : SReg) (scope : Scope) (size : BitVec 2) (off : BitVec 14)
  -- major 0x3C: fence, bar, wait, wake (R335 to R338)
  | fence (scope : Scope) | bar (n : BitVec 3) | wait (a b c : SReg) (imm : BitVec 16) | wake (b : SReg) (imm : BitVec 16)
  -- major 0x74: hints and maintenance (R345 to R347)
  | ipf (b : SReg) (nm1 : BitVec 3) (imm : BitVec 16) | dpf (b : SReg) (nm1 : BitVec 3) (imm : BitVec 16)
  | cflush (b : SReg) (block : Bool) (imm : BitVec 16) | cinv (b : SReg) (block : Bool) (imm : BitVec 16)
  | tlbinv (kind : BitVec 2) (b c : SReg)
  -- majors 0x40, 0x41: vector configuration (R357 to R360)
  | setvl (a b : SReg) (ty : TypeCode) | setvl2 (a b c : SReg) (ty : TypeCode) | vrel
  | stripm (a b c d : SReg) (sizes : BitVec 12) (ty : TypeCode) (p3 p4 : SReg)
  -- major 0x42: vector loads and stores (R361)
  | vld (a : VDst) (b : SReg) (k : QReg) (bit : BitVec 3) (imm : BitVec 16)
  | vst (b : SReg) (c : VSrc) (k : QReg) (bit : BitVec 3) (imm : BitVec 16)
  | vlds (a : VDst) (b c : SReg) (k : QReg) (imm : BitVec 16)
  | vsts (b : SReg) (c : VSrc) (d : SReg) (k : QReg) (imm : BitVec 16)
  | vldx (a : VDst) (b : SReg) (c : VSrc) (k : QReg) (scale : BitVec 3) (imm : BitVec 16)
  | vstx (b : SReg) (c d : VSrc) (k : QReg) (scale : BitVec 3) (imm : BitVec 16)
  -- major 0x43: integer (R365)
  | vadd (a : VDst) (b : VSrc) (y : YSel) (k : QReg) | vsub (a : VDst) (b : VSrc) (y : YSel) (k : QReg)
  | vmul (a : VDst) (b : VSrc) (y : YSel) (k : QReg) | vmulh (a : VDst) (b : VSrc) (y : YSel) (k : QReg)
  | vand (a : VDst) (b : VSrc) (y : YSel) (k : QReg) | vor (a : VDst) (b : VSrc) (y : YSel) (k : QReg)
  | vxor (a : VDst) (b : VSrc) (y : YSel) (k : QReg) | vsll (a : VDst) (b : VSrc) (y : YSel) (k : QReg)
  | vsrl (a : VDst) (b : VSrc) (y : YSel) (k : QReg) | vsra (a : VDst) (b : VSrc) (y : YSel) (k : QReg)
  | vmin (a : VDst) (b : VSrc) (y : YSel) (k : QReg) | vmax (a : VDst) (b : VSrc) (y : YSel) (k : QReg)
  | vminu (a : VDst) (b : VSrc) (y : YSel) (k : QReg) | vmaxu (a : VDst) (b : VSrc) (y : YSel) (k : QReg)
  | vsadd (a : VDst) (b : VSrc) (y : YSel) (k : QReg) | vssub (a : VDst) (b : VSrc) (y : YSel) (k : QReg)
  -- major 0x44: compare and select (R366, R367)
  | vcmp (a : QReg) (b : VSrc) (y : CSel) (k : QReg) (pred : BitVec 3)
  | vfcmp (a : QReg) (b : VSrc) (y : FSel) (k : QReg) (pred : BitVec 3)
  | vsel (a : BitVec 5) (b : VSrc) (y : YSel) (k : QReg)
  -- major 0x45: floating point and conversion (R368 to R370)
  | vfadd (a : VDst) (b : VSrc) (y : FSel) (k : QReg) | vfsub (a : VDst) (b : VSrc) (y : FSel) (k : QReg)
  | vfmul (a : VDst) (b : VSrc) (y : FSel) (k : QReg)
  | vfma (a : VDst) (b : VSrc) (y : FSel) (d : VSrc) (k : QReg)
  | vfnma (a : VDst) (b : VSrc) (y : FSel) (d : VSrc) (k : QReg)
  | vfdiv (a : VDst) (b : VSrc) (y : FSel) (k : QReg) | vfsqrt (a : VDst) (b : VSrc) (k : QReg)
  | vfmin (a : VDst) (b : VSrc) (y : FSel) (k : QReg) | vfmax (a : VDst) (b : VSrc) (y : FSel) (k : QReg)
  | vfexp2 (a : VDst) (b : VSrc) (k : QReg) | vflog2 (a : VDst) (b : VSrc) (k : QReg)
  | vfrcp (a : VDst) (b : VSrc) (k : QReg) | vfrsq (a : VDst) (b : VSrc) (k : QReg)
  | vftanh (a : VDst) (b : VSrc) (k : QReg) | vcvt (a : VDst) (b : VSrc) (k : QReg) (src : TypeCode)
  -- major 0x46: cross-lane (R372 to R377)
  | vslideup (a : VDst) (b : VSrc) (n : NSel) (d : SReg) (k : QReg) | vslidedn (a : VDst) (b : VSrc) (n : NSel) (k : QReg)
  | vperm (a : VDst) (b c : VSrc) (k : QReg) | vcompress (a : VDst) (b : VSrc) (k : QReg)
  | vexpand (a : VDst) (b : VSrc) (k : QReg) | vbcast (a : VDst) (y : BSel) (k : QReg)
  | vmvx (a : SReg) (b : VSrc) (i : NSel) | vmvs (a : BitVec 5) (c : SReg) (i : NSel)
  | viota (a : VDst) (c : QReg) (k : QReg) | vconflict (a : QReg) (b : VSrc) (k : QReg)
  -- major 0x47: reductions and top-k (R378, R379)
  | vredsum (a : SReg) (b : VSrc) (k : QReg) | vredmax (a : SReg) (b : VSrc) (k : QReg)
  | vredmin (a : SReg) (b : VSrc) (k : QReg) | vfredsum (a : SReg) (b : VSrc) (k : QReg)
  | vfredmax (a : SReg) (b : VSrc) (k : QReg) | vfredmin (a : SReg) (b : VSrc) (k : QReg)
  | vtopk (a : VDst) (b : VSrc) (n : NSel) (k : QReg)
  -- major 0x48: masks (R380)
  | qand (a b c : QReg) | qor (a b c : QReg) | qxor (a b c : QReg) | qnot (a b : QReg)
  | qpopc (a : SReg) (b : QReg) | qfirst (a : SReg) (b : QReg) | qmov (m : QMov)
  -- majors 0x60, 0x61: shape grant and matrix (R391 to R405)
  | setts (a b c d : SReg)
  | mld (d : MReg) (base stride : SReg) (ty : TypeCode) | mst (src : MSrc) (base stride : SReg)
  | mzero (d : MReg) (ty : TypeCode)
  | mmul (d : MReg) (ma mb : MSrc) (g : GateSel) (walk : BitVec 2) (tb acc : Bool) (nm1 : BitVec 8)
  | mcvt (d : MReg) (src : MSrc) (ty : TypeCode) | mtr (d : MReg) (src : MSrc) | mmov (d : MReg) (src : MSrc)
  | mscale (d : MReg) (src : MSrc) (v : VSrc) (cols : Bool)
  | mrow (a : BitVec 5) (src : MSrc) (row : RowSel) | mput (d : MReg) (v : VSrc) (row : RowSel)
  | mrel (d : MReg) (nm1 : BitVec 8) | mpf (d : MReg) (g : GateSel) (nm1 : BitVec 8)
  | mcb (cb : BitVec 2) (base : SReg) | mrmax (a : BitVec 5) (src : MSrc) | mrsum (a : BitVec 5) (src : MSrc)
  -- major 0x62: scout and gates (R406 to R409)
  | scout (a : BitVec 5) (query key : MSrc) (g : GateSel) (nm1 : BitVec 7)
  | gthr (a : GReg) (v : VSrc) (t : SReg) (seg : BitVec 4) (nm1 : BitVec 7)
  | gtopk (a : GReg) (v : VSrc) (n : SReg) (seg : BitVec 4) (nm1 : BitVec 7)
  | gand (a b c : GReg) | gor (a b c : GReg) | gnot (a b : GReg)
  | gpop (a : SReg) (b : GReg) (seg : BitVec 4) (nm1 : BitVec 8) | gnext (a : SReg) (b : GReg) (start : SReg)
  | gld (a : GReg) (base : SReg) | gst (b : GReg) (base : SReg)
  | sacc (base : SReg) (w : MSrc) (g : GateSel) (nm1 : BitVec 8)
  -- majors 0x70 to 0x73: engines (R410 to R429)
  | cpgo (a : SReg) | rinit (ring : BitVec 2) (b c : SReg) | rwait (b : SReg) | rrel (ring : BitVec 2) (b : SReg)
  | rpoll (a b : SReg) | sbind (a : BitVec 5) (b : SReg) | sfree (a : BitVec 5)
  | capp (a : SReg) (src : CappSrc) (c : SReg) (k : QReg) (landing : BitVec 3)
  | qpop (a b : SReg) (d : BitVec 5)
  | flpop (a : QReg) (b c : SReg) (k : QReg) (imm : BitVec 16) | flpush (a : QReg) (b c : SReg) (k : QReg) (imm : BitVec 16)
  | msend (src : MSrc) (dest : SReg) | mwait (d : MReg)
  -- CSR accesses with rows of their own (R277, R174)
  | csrrCpgo (a : SReg) | tmaprxWrite (op : CsrOp) (b : SReg)
  -- remote tile messages (R46 to R49)
  | tile (m : LinkMsg) | tack (m : LinkMsg) | tnak (m : LinkMsg)
  -- stores that reach a control page (R200, R255, R260): partition, offset and value
  | controlPageWrite (part : Nat) (off : Nat) (v : Word) | asidRootWordWrite (part : Nat) (v : Word)
  | leaseEntryWrite (part : Nat) (v : Word) | translationRequest (part : Nat) (v : Word) | counterClear (part : Nat) (v : Word)
  -- steps of the cores; `tid` is a slot: core * 4 + slot
  | convoyIssue (tid : Nat) | tileEngineStart (tid : Nat) | tileEngineDone (tid : Nat) | tileFaultTaken (tid : Nat)
  | mapCacheFill (tid : Nat) (reg : MReg) | fillComplete (tid : Nat) (reg : MReg) | spillComplete (tid : Nat) (reg : MReg)
  | tlbWalkComplete (die : Nat) | icacheFillComplete (core : Nat) (line : Nat) | l1LineExpiry (core : Nat) (line : Nat)
  | streamRunaheadLoad (tid : Nat) (reg : BitVec 5)
  | gxuRequest (tid : Nat) (dst : BitVec 5) (size : Nat) (idx : List (Nat × Nat))
  | gxuForeignRequest (req : Nat) (stack : Nat) | gxuGroupReturn (req : Nat) (group : Nat)
  | cpeTransferComplete (tid : Nat) (id : Nat) | asyncDelivery (tid : Nat) | barrierComplete (tid : Nat)
  | waitResume (tid : Nat) | waitTimeout (tid : Nat) | sleepEnd (tid : Nat) | mwaitDone (tid : Nat)
  | cappRoom (tid : Nat) | qpopReady (tid : Nat) | rwaitDone (tid : Nat) | haltDrained (tid : Nat)
  | msendWindowOpen (tid : Nat) | fenceDone (tid : Nat) | cflushDone (tid : Nat) | cinvDone (tid : Nat) | tlbinvDone (tid : Nat)
  | translationDone (part : Nat) (image : List Byte) (entryOff : Nat) (at_ : Nat)
  | vectorUnitGrant (tid : Nat) | vectorUnitStarvation (tid : Nat) | vectorStateRestore (tid : Nat)
  -- steps of the distributors
  | preemption (tid : Nat) | taskPlace | quarterDrain (core quarter : Nat) | quarterLend (core quarter : Nat)
  | quarterScrub (core quarter : Nat) | quarterFree (core quarter : Nat) | gangStart (launch : Nat) | launchComplete (launch : Nat)
  | dstEpoch (die : Nat) | currentGovernor (core : Nat) | pcSample (core : Nat)
  -- DKCP messages and the timers of the protocol
  | hello (m : DkcpMsg) | ack (m : DkcpMsg) | bye (m : DkcpMsg) | dkcpRetransmit (session : BitVec 32) (seq : BitVec 32)
  | dkcpSessionIdle (session : BitVec 32) | launch (m : DkcpMsg) | launchFenceResolved (n : Nat) | fenceTimeout (n : Nat)
  | abort (m : DkcpMsg) | attestReq (m : DkcpMsg) | fwLoad (m : DkcpMsg)
  -- management requests (Table 3.5), each a MGMT_REQ datagram
  | status (m : DkcpMsg) | partCreate (m : DkcpMsg) | partDestroy (m : DkcpMsg) | asidAssign (m : DkcpMsg)
  | asidRelease (m : DkcpMsg) | mrRegister (m : DkcpMsg) | mrDeregister (m : DkcpMsg) | queueCreate (m : DkcpMsg)
  | queueDestroy (m : DkcpMsg) | qpCreate (m : DkcpMsg) | qpDestroy (m : DkcpMsg) | pkgIdSet (m : DkcpMsg)
  | portTable (m : DkcpMsg) | portEnable (m : DkcpMsg) (trained : BitVec 16) | tickConfig (m : DkcpMsg) | lendMark (m : DkcpMsg)
  | lendUnmark (m : DkcpMsg) | revoke (m : DkcpMsg) | bistStart (m : DkcpMsg) | lifetimeRead (m : DkcpMsg)
  | telemetryCfg (m : DkcpMsg) | supvStart (m : DkcpMsg) | measure (m : DkcpMsg) | pmemWrite (m : DkcpMsg)
  | telemetryPeriod
  -- RDMA requests of the host on a local queue pair
  | rdmaWrite (qpn : Nat) (psn : BitVec 24) (rkey : BitVec 32) (va : Word) (data : List Byte)
  | rdmaRead (qpn : Nat) (psn : BitVec 24) (rkey : BitVec 32) (va : Word) (bytes : Nat)
  | rdmaSend (qpn : Nat) (psn : BitVec 24) (data : List Byte) | rdmaInvalidRequest (qpn : Nat) (psn : BitVec 24)
  -- UALink messages, timers and requests
  | tileResendTimeout (dest : Nat) | busyBackoffExpiry (dest : Nat)
  | fabricError (dest : Nat) | tsyncPeriod | tsync (m : LinkMsg) (port : Nat) | tsyncr (m : LinkMsg) | tsyncLossTimeout
  | syncedClear | lreq (m : LinkMsg) | lgrant (m : LinkMsg) | ldeny (m : LinkMsg) | lrevoke (m : LinkMsg)
  | leaseRelease (idx : Nat) | leaseBorrowerDeadline (idx : Nat) | leaseDrainComplete (idx : Nat) | lreleased (m : LinkMsg)
  | leaseLenderDeadline (idx : Nat) | ualinkRequest (src : Nat) (offset : Nat) (r : LinkReq) | portDown (port : Nat)
  -- boot, reset and the management controller
  | coldBoot | warmReset | orderlyShutdown | mcSample (x : Sample) | lifetimeFlush
  | regulatorTrim (core unit lane : Nat) (atLimit failing : Bool) | laneMapRewrite (core unit : Nat)
  | writeAssistEnter (core : Nat) | writeAssistExit (core : Nat) | bistScheduled (stack pch bank : Nat)
  | bistParkComplete (stack : Nat) | bistTestComplete (stack : Nat) (r : TestResult) | bistReturnComplete (stack : Nat)
  | ualinkCompletion (tid : Nat) (error : Bool) (data : List Byte) | syncedSet | portUp (port : Nat)
  | ualinkLaneFailure (port : Nat) | powerLoss
  deriving DecidableEq, Repr

end Sys2Proof
end

