-- ==== Sys2Proof/WellFormed.lean ====
section
/-! DEFINITION. Which instructions have an encoding that the decoder accepts: the checks of Table 13.4, step 8, that the operand
types of Syntax do not already make. Steps of the device and inputs have no encoding; of them only slot and core numbers are
checked. -/

namespace Sys2Proof

/-- A size code of stripm names its pointer: a pointer field whose size code is 0 must be 0 (R359). -/
def ptrOk (size : BitVec 3) (p : SReg) : Bool := size != 0 || p == 0

/-- A slot of the package: core * 4 + slot, of 576 cores (R117). -/
def slotOk (tid : Nat) : Bool := decide (tid < 2304)

/-- The instruction's operands have an encoding that step 8 of Table 13.4 accepts. -/
def Instr.wf : Instr → Bool
  | .csrr _ csr => csr != 0x084
  | .csrw _ csr | .csrs _ csr | .csrc _ csr => csr != 0x041
  | .tlbinv kind b c => kind != 3 && (kind != 2 || (b == 0 && c == 0))
  | .stripm _ _ c d sizes _ p3 p4 =>
    ptrOk (sizes.extractLsb' 0 3) c && ptrOk (sizes.extractLsb' 3 3) d && ptrOk (sizes.extractLsb' 6 3) p3 &&
    ptrOk (sizes.extractLsb' 9 3) p4
  | .vcmp a _ _ _ _ | .vfcmp a _ _ _ _ | .vconflict a _ _ | .qand a _ _ | .qor a _ _ | .qxor a _ _ | .qnot a _
  | .flpop a _ _ _ _ | .flpush a _ _ _ _ => a != 0
  | .qmov (.maskToMask dst _) | .qmov (.scalarToLow dst _) | .qmov (.scalarToHigh dst _) => dst != 0
  | .gthr a _ _ _ _ | .gtopk a _ _ _ _ | .gand a _ _ | .gor a _ _ | .gnot a _ | .gld a _ => a != 0
  | .convoyIssue tid | .tileEngineStart tid | .tileEngineDone tid | .tileFaultTaken tid | .asyncDelivery tid
  | .barrierComplete tid | .waitResume tid | .waitTimeout tid | .sleepEnd tid | .mwaitDone tid | .cappRoom tid | .qpopReady tid
  | .rwaitDone tid | .haltDrained tid | .msendWindowOpen tid | .fenceDone tid | .cflushDone tid | .cinvDone tid
  | .tlbinvDone tid | .vectorUnitGrant tid | .vectorUnitStarvation tid | .vectorStateRestore tid | .preemption tid => slotOk tid
  | .mapCacheFill tid _ | .fillComplete tid _ | .spillComplete tid _ | .streamRunaheadLoad tid _ => slotOk tid
  | .gxuRequest tid _ _ _ | .cpeTransferComplete tid _ => slotOk tid
  | .ualinkCompletion tid _ _ => decide (tid ≤ 2304)
  | .icacheFillComplete core _ | .l1LineExpiry core _ | .quarterDrain core _ | .quarterLend core _ | .quarterScrub core _
  | .quarterFree core _ | .currentGovernor core | .pcSample core | .laneMapRewrite core _ | .writeAssistEnter core
  | .writeAssistExit core | .regulatorTrim core _ _ _ _ => decide (core < 576)
  | .tlbWalkComplete die | .dstEpoch die => decide (die < 9)
  | _ => true

end Sys2Proof
end

