-- ==== Sys2Proof/Decode.lean ====
section
/-! DEFINITION. The decoder, total on every instruction value of 16, 32, 64 or 96 bits (R279), and after it the encoder, written
from the same tables: Table 11.7 (head), Table 11.8 (forms), Tables 13.1 to 13.4, and the field-use tables 14.1, 15.2, 15.8,
15.10, 16.1, 16.2 and 17.1. -/

namespace Sys2Proof

/-! ## Heads, forms and tails -/

/-- The forms of Table 11.8; the W form lies over M-V for every major that has it (R311). -/
inductive Form where
  | h | sr | si | mv | mx | mb | w
  deriving DecidableEq, Repr

/-- The tail fields of each form (Table 11.8). -/
inductive Tail where
  | h
  | sr (b c : BitVec 6) (fn : BitVec 4)
  | si (b : BitVec 6) (imm : BitVec 10)
  | mv (b c d : BitVec 6) (k : BitVec 3) (fn : BitVec 8) (w : BitVec 3) (imm : BitVec 16)
  | mx (mdh : BitVec 3) (ma mb : BitVec 9) (g : BitVec 3) (ge la lb : BitVec 1) (fn : BitVec 5) (x : BitVec 16)
  | mb (b c : BitVec 6) (cond : BitVec 4) (loff : BitVec 27) (hidx : BitVec 5)
  | w (lit : BitVec 32) (b c d : BitVec 6) (k : BitVec 3) (fn : BitVec 8) (w : BitVec 3) (imm : BitVec 16)
  deriving DecidableEq, Repr

/-- The tail length code L that a form has (Table 11.8). -/
def Form.lcode : Form → BitVec 2
  | .h => 0
  | .sr | .si => 1
  | .mv | .mx | .mb => 2
  | .w => 3

/-- The form of an assigned major; none for a reserved one (Tables 13.1 to 13.3). -/
def majorForm (m : Nat) : Option Form :=
  if m == 0 then none
  else if m ≤ 0x02 then some .sr
  else if m ≤ 0x0B then some .si
  else if m == 0x0C then some .sr
  else if m == 0x0D then some .w
  else if m == 0x0E then some .mv
  else if m ≤ 0x1F then none
  else if m ≤ 0x21 then some .mb
  else if m == 0x22 then some .si
  else if m == 0x23 then some .mv
  else if m ≤ 0x28 then some .h
  else if m == 0x29 then some .si
  else if m ≤ 0x2F then none
  else if m ≤ 0x3A then some .si
  else if m ≤ 0x3C then some .mv
  else if m ≤ 0x3F then none
  else if m == 0x41 then some .w
  else if m ≤ 0x48 then some .mv
  else if m ≤ 0x5F then none
  else if m == 0x60 then some .mv
  else if m ≤ 0x62 then some .mx
  else if m ≤ 0x6F then none
  else if m ≤ 0x72 then some .mv
  else if m == 0x73 then some .mx
  else if m == 0x74 then some .mv
  else none

/-- How many function values an assigned major lists, counted from 0 (Tables 13.1 to 13.3). -/
def majorFns (m : Nat) : Nat :=
  match m with
  | 0x01 => 14 | 0x02 => 7 | 0x0C => 4 | 0x0D => 2 | 0x0E => 8 | 0x23 => 4 | 0x3B => 12 | 0x3C => 4 | 0x40 => 4
  | 0x42 => 6 | 0x43 => 16 | 0x44 => 3 | 0x45 => 15 | 0x46 => 10 | 0x47 => 7 | 0x48 => 7 | 0x61 => 15 | 0x62 => 11
  | 0x70 => 5 | 0x71 => 2 | 0x72 => 4 | 0x73 => 2 | 0x74 => 5
  | _ => 1

/-- The major opcode of an instruction value. -/
def majorOf (v : BitVec 96) : Nat := (v.extractLsb' 6 7).toNat

/-- The tail fields of a value under a form. -/
def splitTail (f : Form) (v : BitVec 96) : Tail :=
  match f with
  | .h => .h
  | .sr => .sr (v.extractLsb' 26 6) (v.extractLsb' 20 6) (v.extractLsb' 16 4)
  | .si => .si (v.extractLsb' 26 6) (v.extractLsb' 16 10)
  | .mv => .mv (v.extractLsb' 58 6) (v.extractLsb' 52 6) (v.extractLsb' 46 6) (v.extractLsb' 43 3) (v.extractLsb' 35 8)
      (v.extractLsb' 32 3) (v.extractLsb' 16 16)
  | .mx => .mx (v.extractLsb' 61 3) (v.extractLsb' 52 9) (v.extractLsb' 43 9) (v.extractLsb' 40 3) (v.extractLsb' 39 1)
      (v.extractLsb' 38 1) (v.extractLsb' 37 1) (v.extractLsb' 32 5) (v.extractLsb' 16 16)
  | .mb => .mb (v.extractLsb' 58 6) (v.extractLsb' 52 6) (v.extractLsb' 48 4) (v.extractLsb' 21 27) (v.extractLsb' 16 5)
  | .w => .w (v.extractLsb' 64 32) (v.extractLsb' 58 6) (v.extractLsb' 52 6) (v.extractLsb' 46 6) (v.extractLsb' 43 3)
      (v.extractLsb' 35 8) (v.extractLsb' 32 3) (v.extractLsb' 16 16)

/-- The value of a head and a tail: tail :: head (R279). -/
def joinTail (major : BitVec 7) (a : BitVec 6) (t : Tail) : BitVec 96 :=
  match t with
  | .h => (0 : BitVec 80) ++ ((0 : BitVec 2) ++ (0 : BitVec 1) ++ major ++ a)
  | .sr b c fn => (0 : BitVec 64) ++ (b ++ c ++ fn) ++ ((1 : BitVec 2) ++ (0 : BitVec 1) ++ major ++ a)
  | .si b imm => (0 : BitVec 64) ++ (b ++ imm) ++ ((1 : BitVec 2) ++ (0 : BitVec 1) ++ major ++ a)
  | .mv b c d k fn w imm =>
    (0 : BitVec 32) ++ (b ++ c ++ d ++ k ++ fn ++ w ++ imm) ++ ((2 : BitVec 2) ++ (0 : BitVec 1) ++ major ++ a)
  | .mx mdh ma mb g ge la lb fn x =>
    (0 : BitVec 32) ++ (mdh ++ ma ++ mb ++ g ++ ge ++ la ++ lb ++ fn ++ x) ++ ((2 : BitVec 2) ++ (0 : BitVec 1) ++ major ++ a)
  | .mb b c cond loff hidx =>
    (0 : BitVec 32) ++ (b ++ c ++ cond ++ loff ++ hidx) ++ ((2 : BitVec 2) ++ (0 : BitVec 1) ++ major ++ a)
  | .w lit b c d k fn w imm =>
    lit ++ (b ++ c ++ d ++ k ++ fn ++ w ++ imm) ++ ((3 : BitVec 2) ++ (0 : BitVec 1) ++ major ++ a)

/-- The function field that the decode-table index uses, by form (R312). -/
def fnOf (f : Form) (v : BitVec 96) : Nat :=
  match f with
  | .sr => (v.extractLsb' 16 4).toNat
  | .mv | .w => (v.extractLsb' 35 8).toNat
  | .mx => (v.extractLsb' 32 5).toNat
  | .h | .si | .mb => 0

/-- Decode-table index of a value (R263, R312). -/
def tableIndex (v : BitVec 96) : Nat :=
  match majorForm (majorOf v) with
  | some f => majorOf v * 256 + fnOf f v
  | none => majorOf v * 256 + (if v.extractLsb' 14 2 == 0 then 0 else (v.extractLsb' 16 8).toNat)

/-- ACT of an entry of the shipped decode table (R264): listed mnemonics native, majors 0x7C to 0x7F ABSENT, all else ILLEGAL. -/
def shippedAct (idx : Nat) : Nat :=
  let m := idx / 256
  let fn := idx % 256
  if (majorForm m).isSome && decide (fn < majorFns m) && !(m == 0x40 && fn == 2) then 0
  else if 0x7C ≤ m && m ≤ 0x7F then 2
  else 3

/-- Convoy class B, T or S of R314: a listed mnemonic of majors 0x20 to 0x22 or 0x24 to 0x29 whose entry is native. -/
def lastOnly (act : Nat → Nat) (v : BitVec 96) : Bool :=
  let m := majorOf v
  let listed := if m == 0x20 then decide ((v.extractLsb' 48 4).toNat ≤ 5)
    else if m == 0x21 then v.extractLsb' 48 4 == 0
    else m == 0x22 || (0x24 ≤ m && m ≤ 0x29)
  listed && decide (act (tableIndex v) ≤ 1)

/-! ## Operand fields -/

/-- A vector source field: [4:0] register, [5] chain (Table 11.9). -/
def vsrc (f : BitVec 6) : VSrc := { reg := f.extractLsb' 0 5, chain := f.getLsbD 5 }
/-- A vector destination field: [4:0] register, [5] zeroing. -/
def vdst (f : BitVec 6) : VDst := { reg := f.extractLsb' 0 5, zeroing := f.getLsbD 5 }
/-- The instruction when the fields it does not use are right, else nothing (R280). -/
def need (c : Bool) (i : Instr) : Option Instr := if c then some i else none
/-- A mask or gate field: bits [5:3] must be 0 (R281). -/
def lo3 (f : BitVec 6) : BitVec 3 := f.extractLsb' 0 3
def hi3 (f : BitVec 6) : BitVec 3 := f.extractLsb' 3 3
/-- A mask or gate destination: q0 and g0 are no destinations (R271). -/
def dst3 (f : BitVec 6) : Bool := hi3 f == 0 && lo3 f != 0
/-- A vector destination without zeroing bit. -/
def noZ (f : BitVec 6) : Bool := !f.getLsbD 5
/-- The scalar of an M-X field: bits [8:6] must be 0 (R382). -/
def s9 (f : BitVec 9) : BitVec 6 := f.extractLsb' 0 6
def s9ok (f : BitVec 9) : Bool := f.extractLsb' 6 3 == 0
/-- The gate of an M-X field: bits [8:3] must be 0. -/
def g9 (f : BitVec 9) : BitVec 3 := f.extractLsb' 0 3
def g9ok (f : BitVec 9) : Bool := f.extractLsb' 3 6 == 0

/-- W and the second operand of R352. -/
def ysel (w : BitVec 3) (c : BitVec 6) (imm : BitVec 16) : Option YSel :=
  if w == 0 then (if imm == 0 then some (.vec (vsrc c)) else none)
  else if w == 1 then (if imm == 0 then some (.scalar c) else none)
  else if w == 2 then (if c == 0 then some (.imm imm) else none)
  else none

/-- The second operand of vcmp, whose immediate has 13 bits (R366). -/
def csel (w : BitVec 3) (c : BitVec 6) (imm : BitVec 13) : Option CSel :=
  if w == 0 then (if imm == 0 then some (.vec (vsrc c)) else none)
  else if w == 1 then (if imm == 0 then some (.scalar c) else none)
  else if w == 2 then (if c == 0 then some (.imm imm) else none)
  else none

/-- The second operand of the floating instructions. -/
def fsel (w : BitVec 3) (c : BitVec 6) : Option FSel :=
  if w == 0 then some (.vec (vsrc c)) else if w == 1 then some (.scalar c) else none

/-- An amount, index or count (Table 15.8). -/
def nsel (w : BitVec 3) (c : BitVec 6) (imm : BitVec 16) : Option NSel :=
  if w == 1 then (if imm == 0 then some (.scalar c) else none)
  else if w == 2 then (if c == 0 && imm.extractLsb' 8 8 == 0 then some (.imm (imm.extractLsb' 0 8)) else none)
  else none

/-- The operand of vbcast. -/
def bsel (w : BitVec 3) (c : BitVec 6) (imm : BitVec 16) : Option BSel :=
  if w == 1 then (if imm == 0 then some (.scalar c) else none)
  else if w == 2 then (if c == 0 then some (.imm imm) else none)
  else none

/-- A scope code; 7 is none (R313). -/
def scopeOf (w : BitVec 3) : Option Scope :=
  match w.toNat with
  | 0 => some .t | 1 => some .c | 2 => some .h | 3 => some .d | 4 => some .p | 5 => some .x | 6 => some .s
  | _ => none

/-- The code of a scope (Table 4.2). -/
def Scope.code : Scope → BitVec 3
  | .t => 0 | .c => 1 | .h => 2 | .d => 3 | .p => 4 | .x => 5 | .s => 6

/-- The gate operand: GE = 0 requires G = 0 (Table 11.9). -/
def gateSel (g : BitVec 3) (ge : BitVec 1) (seg : BitVec 4) : Option GateSel :=
  if ge == 1 then some { gate := some g, seg := seg } else if g == 0 then some { gate := none, seg := seg } else none

/-! ## Parsing, by form -/

def parseSR (m : Nat) (a b c : BitVec 6) (fn : Nat) : Option Instr :=
  match m, fn with
  | 0x01, 0 => some (.add a b c) | 0x01, 1 => some (.sub a b c) | 0x01, 2 => some (.and a b c) | 0x01, 3 => some (.or a b c)
  | 0x01, 4 => some (.xor a b c) | 0x01, 5 => some (.sll a b c) | 0x01, 6 => some (.srl a b c) | 0x01, 7 => some (.sra a b c)
  | 0x01, 8 => some (.slt a b c) | 0x01, 9 => some (.sltu a b c) | 0x01, 10 => some (.min a b c) | 0x01, 11 => some (.max a b c)
  | 0x01, 12 => some (.minu a b c) | 0x01, 13 => some (.maxu a b c)
  | 0x02, 0 => some (.mul a b c) | 0x02, 1 => some (.mulh a b c) | 0x02, 2 => some (.mulhu a b c) | 0x02, 3 => some (.div a b c)
  | 0x02, 4 => some (.divu a b c) | 0x02, 5 => some (.rem a b c) | 0x02, 6 => some (.remu a b c)
  | 0x0C, 0 => need (c == 0) (.clz a b) | 0x0C, 1 => need (c == 0) (.ctz a b) | 0x0C, 2 => need (c == 0) (.popc a b)
  | 0x0C, 3 => some (.addw a b c)
  | _, _ => none

def parseSI (m : Nat) (a b : BitVec 6) (imm : BitVec 10) : Option Instr :=
  let sh : BitVec 6 := imm.extractLsb' 0 6
  let shOk : Bool := imm.extractLsb' 6 4 == 0
  match m with
  | 0x03 => some (.addi a b imm) | 0x04 => some (.andi a b imm) | 0x05 => some (.ori a b imm) | 0x06 => some (.xori a b imm)
  | 0x07 => need shOk (.slli a b sh) | 0x08 => need shOk (.srli a b sh) | 0x09 => need shOk (.srai a b sh)
  | 0x0A => some (.slti a b imm) | 0x0B => some (.sltiu a b imm)
  | 0x22 => some (.jalr a b imm)
  | 0x29 => need (a == 0 && imm.extractLsb' 1 9 == 0) (.tmsw b (imm.getLsbD 0))
  | 0x30 => some (.ldb a b imm) | 0x31 => some (.ldbu a b imm) | 0x32 => some (.ldh a b imm) | 0x33 => some (.ldhu a b imm)
  | 0x34 => some (.ldw a b imm) | 0x35 => some (.ldwu a b imm) | 0x36 => some (.ldd a b imm)
  | 0x37 => some (.stb a b imm) | 0x38 => some (.sth a b imm) | 0x39 => some (.stw a b imm) | 0x3A => some (.std a b imm)
  | _ => none

def parseH (m : Nat) (a : BitVec 6) : Option Instr :=
  match m with
  | 0x24 => some (.ecall a) | 0x25 => some (.brk a) | 0x26 => need (a == 0) .eret | 0x27 => some (.sleep a)
  | 0x28 => need (a == 0) .halt
  | _ => none

def parseMB (m : Nat) (a b c : BitVec 6) (cond : Nat) (loff : BitVec 27) (hidx : BitVec 5) : Option Instr :=
  match m, cond with
  | 0x20, 0 => need (a == 0) (.beq b c loff hidx) | 0x20, 1 => need (a == 0) (.bne b c loff hidx)
  | 0x20, 2 => need (a == 0) (.blt b c loff hidx) | 0x20, 3 => need (a == 0) (.bge b c loff hidx)
  | 0x20, 4 => need (a == 0) (.bltu b c loff hidx) | 0x20, 5 => need (a == 0) (.bgeu b c loff hidx)
  | 0x21, 0 => need (b == 0 && c == 0) (.jal a loff hidx)
  | _, _ => none

def parseW (m : Nat) (a : BitVec 6) (lit : BitVec 32) (b c d : BitVec 6) (k : BitVec 3) (fn : Nat) (w : BitVec 3)
    (imm : BitVec 16) : Option Instr :=
  match m, fn with
  | 0x0D, 0 => need (b == 0 && c == 0 && d == 0 && k == 0 && w == 0 && imm == 0) (.li a lit)
  | 0x0D, 1 => need (c == 0 && d == 0 && k == 0 && w == 0 && imm == 0) (.lih a b lit)
  | 0x41, 0 =>
    need (k == 0 && w == 0 && imm.extractLsb' 12 4 == 0 && lit.extractLsb' 18 14 == 0 &&
        ptrOk (imm.extractLsb' 0 3) c && ptrOk (imm.extractLsb' 3 3) d && ptrOk (imm.extractLsb' 6 3) (lit.extractLsb' 6 6) &&
        ptrOk (imm.extractLsb' 9 3) (lit.extractLsb' 12 6))
      (.stripm a b c d (imm.extractLsb' 0 12) (lit.extractLsb' 0 6) (lit.extractLsb' 6 6) (lit.extractLsb' 12 6))
  | _, _ => none

/-- Majors 0x0E, 0x23, 0x3B, 0x3C and 0x74 (Table 14.1): K is always unused. -/
def parseScalarMV (m : Nat) (a b c d : BitVec 6) (k : BitVec 3) (fn : Nat) (w : BitVec 3) (imm : BitVec 16) : Option Instr :=
  if k != 0 then none else
  match m, fn with
  | 0x0E, 0 => need (d == 0 && w == 0 && imm == 0) (.fadd a b c) | 0x0E, 1 => need (d == 0 && w == 0 && imm == 0) (.fsub a b c)
  | 0x0E, 2 => need (d == 0 && w == 0 && imm == 0) (.fmul a b c) | 0x0E, 3 => need (w == 0 && imm == 0) (.fma a b c d)
  | 0x0E, 4 => need (d == 0 && w == 0 && imm == 0) (.fdiv a b c)
  | 0x0E, 5 => need (c == 0 && d == 0 && w == 0 && imm == 0) (.fsqrt a b)
  | 0x0E, 6 => need (c == 0 && d == 0 && w == 0 && imm.extractLsb' 8 8 == 0)
      (.fcvt a b (imm.extractLsb' 4 4) (imm.extractLsb' 0 4))
  | 0x0E, 7 => need (d == 0 && w == 0 && imm.extractLsb' 2 14 == 0) (.fcmp a b c (imm.extractLsb' 0 2))
  | 0x23, 0 => need (b == 0 && c == 0 && d == 0 && w == 0 && imm.extractLsb' 12 4 == 0)
      (if imm.extractLsb' 0 12 == 0x084 then .csrrCpgo a else .csrr a (imm.extractLsb' 0 12))
  | 0x23, 1 => need (a == 0 && c == 0 && d == 0 && w == 0 && imm.extractLsb' 12 4 == 0)
      (if imm.extractLsb' 0 12 == 0x041 then .tmaprxWrite .write b else .csrw b (imm.extractLsb' 0 12))
  | 0x23, 2 => need (a == 0 && c == 0 && d == 0 && w == 0 && imm.extractLsb' 12 4 == 0)
      (if imm.extractLsb' 0 12 == 0x041 then .tmaprxWrite .set b else .csrs b (imm.extractLsb' 0 12))
  | 0x23, 3 => need (a == 0 && c == 0 && d == 0 && w == 0 && imm.extractLsb' 12 4 == 0)
      (if imm.extractLsb' 0 12 == 0x041 then .tmaprxWrite .clear b else .csrc b (imm.extractLsb' 0 12))
  | 0x3C, 0 => if a == 0 && b == 0 && c == 0 && d == 0 && imm == 0 then (scopeOf w).map .fence else none
  | 0x3C, 1 => need (a == 0 && b == 0 && c == 0 && d == 0 && w == 0 && imm.extractLsb' 3 13 == 0) (.bar (imm.extractLsb' 0 3))
  | 0x3C, 2 => need (d == 0 && w == 0) (.wait a b c imm)
  | 0x3C, 3 => need (a == 0 && c == 0 && d == 0 && w == 0) (.wake b imm)
  | 0x74, 0 => need (a == 0 && c == 0 && d == 0) (.ipf b w imm)
  | 0x74, 1 => need (a == 0 && c == 0 && d == 0) (.dpf b w imm)
  | 0x74, 2 => need (a == 0 && c == 0 && d == 0 && w.extractLsb' 1 2 == 0) (.cflush b (w.getLsbD 0) imm)
  | 0x74, 3 => need (a == 0 && c == 0 && d == 0 && w.extractLsb' 1 2 == 0) (.cinv b (w.getLsbD 0) imm)
  | 0x74, 4 => need (a == 0 && d == 0 && imm == 0 && decide (w.toNat < 3) && (w != 2 || (b == 0 && c == 0)))
      (.tlbinv (w.extractLsb' 0 2) b c)
  | _, _ => none

/-- Major 0x3B: the scope in W, the size in IMM[15:14] (R333). -/
def parseAmo (a b c d : BitVec 6) (k : BitVec 3) (fn : Nat) (w : BitVec 3) (imm : BitVec 16) : Option Instr :=
  if k != 0 then none else
  match scopeOf w with
  | none => none
  | some sc =>
    let off : BitVec 14 := imm.extractLsb' 0 14
    let size : BitVec 2 := imm.extractLsb' 14 2
    let ok := d == 0 && size.getLsbD 1
    let wide := size.getLsbD 0
    match fn with
    | 0 => need ok (.amoAdd a b c sc wide off) | 1 => need ok (.amoAnd a b c sc wide off)
    | 2 => need ok (.amoOr a b c sc wide off) | 3 => need ok (.amoXor a b c sc wide off)
    | 4 => need ok (.amoMin a b c sc wide off) | 5 => need ok (.amoMax a b c sc wide off)
    | 6 => need ok (.amoMinu a b c sc wide off) | 7 => need ok (.amoMaxu a b c sc wide off)
    | 8 => need ok (.amoSwap a b c sc wide off) | 9 => need (size.getLsbD 1) (.amoCas a b c d sc wide off)
    | 10 => need (c == 0 && d == 0) (.ldAcq a b sc size off) | 11 => need (a == 0 && d == 0) (.stRel b c sc size off)
    | _ => none

/-- Majors 0x40 and 0x42 (Table 15.2). -/
def parseVecMem (m : Nat) (a b c d : BitVec 6) (k : BitVec 3) (fn : Nat) (w : BitVec 3) (imm : BitVec 16) : Option Instr :=
  match m, fn with
  | 0x40, 0 => need (c == 0 && d == 0 && k == 0 && w == 0 && imm.extractLsb' 6 10 == 0) (.setvl a b (imm.extractLsb' 0 6))
  | 0x40, 1 => need (d == 0 && k == 0 && w == 0 && imm.extractLsb' 6 10 == 0) (.setvl2 a b c (imm.extractLsb' 0 6))
  | 0x40, 3 => need (a == 0 && b == 0 && c == 0 && d == 0 && k == 0 && w == 0 && imm == 0) .vrel
  | 0x42, 0 => need (c == 0 && d == 0) (.vld (vdst a) b k w imm)
  | 0x42, 1 => need (a == 0 && d == 0) (.vst b (vsrc c) k w imm)
  | 0x42, 2 => need (d == 0 && w == 0) (.vlds (vdst a) b c k imm)
  | 0x42, 3 => need (a == 0 && w == 0) (.vsts b (vsrc c) d k imm)
  | 0x42, 4 => need (d == 0) (.vldx (vdst a) b (vsrc c) k w imm)
  | 0x42, 5 => need (a == 0) (.vstx b (vsrc c) (vsrc d) k w imm)
  | _, _ => none

/-- Major 0x43 (Table 15.5). -/
def parseVecInt (a b c d : BitVec 6) (k : BitVec 3) (fn : Nat) (w : BitVec 3) (imm : BitVec 16) : Option Instr :=
  if d != 0 then none else
  match ysel w c imm with
  | none => none
  | some y =>
    let x := vsrc b
    let r := vdst a
    match fn with
    | 0 => some (.vadd r x y k) | 1 => some (.vsub r x y k) | 2 => some (.vmul r x y k) | 3 => some (.vmulh r x y k)
    | 4 => some (.vand r x y k) | 5 => some (.vor r x y k) | 6 => some (.vxor r x y k) | 7 => some (.vsll r x y k)
    | 8 => some (.vsrl r x y k) | 9 => some (.vsra r x y k) | 10 => some (.vmin r x y k) | 11 => some (.vmax r x y k)
    | 12 => some (.vminu r x y k) | 13 => some (.vmaxu r x y k) | 14 => some (.vsadd r x y k) | 15 => some (.vssub r x y k)
    | _ => none

/-- Major 0x44 (R366, R367). -/
def parseVecCmp (a b c d : BitVec 6) (k : BitVec 3) (fn : Nat) (w : BitVec 3) (imm : BitVec 16) : Option Instr :=
  if d != 0 then none else
  match fn with
  | 0 => if dst3 a then (csel w c (imm.extractLsb' 0 13)).map fun y => .vcmp (lo3 a) (vsrc b) y k (imm.extractLsb' 13 3) else none
  | 1 => if dst3 a && imm.extractLsb' 0 13 == 0 then
      (fsel w c).map fun y => .vfcmp (lo3 a) (vsrc b) y k (imm.extractLsb' 13 3) else none
  | 2 => if noZ a then (ysel w c imm).map fun y => .vsel (a.extractLsb' 0 5) (vsrc b) y k else none
  | _ => none

/-- Major 0x45 (R368 to R370). -/
def parseVecFp (a b c d : BitVec 6) (k : BitVec 3) (fn : Nat) (w : BitVec 3) (imm : BitVec 16) : Option Instr :=
  let r := vdst a
  let x := vsrc b
  let one := c == 0 && d == 0 && w == 0 && imm == 0
  match fn with
  | 6 => need one (.vfsqrt r x k) | 9 => need one (.vfexp2 r x k) | 10 => need one (.vflog2 r x k) | 11 => need one (.vfrcp r x k)
  | 12 => need one (.vfrsq r x k) | 13 => need one (.vftanh r x k)
  | 14 => need (c == 0 && d == 0 && w == 0 && imm.extractLsb' 6 10 == 0) (.vcvt r x k (imm.extractLsb' 0 6))
  | _ =>
    match fsel w c with
    | none => none
    | some y =>
      let two := d == 0 && imm == 0
      match fn with
      | 0 => need two (.vfadd r x y k) | 1 => need two (.vfsub r x y k) | 2 => need two (.vfmul r x y k)
      | 3 => need (imm == 0) (.vfma r x y (vsrc d) k) | 4 => need (imm == 0) (.vfnma r x y (vsrc d) k)
      | 5 => need two (.vfdiv r x y k) | 7 => need two (.vfmin r x y k) | 8 => need two (.vfmax r x y k)
      | _ => none

/-- Major 0x46 (Table 15.8). -/
def parseCross (a b c d : BitVec 6) (k : BitVec 3) (fn : Nat) (w : BitVec 3) (imm : BitVec 16) : Option Instr :=
  let plain := d == 0 && w == 0 && imm == 0
  match fn with
  | 0 => (nsel w c imm).map fun n => .vslideup (vdst a) (vsrc b) n d k
  | 1 => if d == 0 then (nsel w c imm).map fun n => .vslidedn (vdst a) (vsrc b) n k else none
  | 2 => need plain (.vperm (vdst a) (vsrc b) (vsrc c) k)
  | 3 => need (plain && c == 0) (.vcompress (vdst a) (vsrc b) k)
  | 4 => need (plain && c == 0) (.vexpand (vdst a) (vsrc b) k)
  | 5 => if b == 0 && d == 0 then (bsel w c imm).map fun y => .vbcast (vdst a) y k else none
  | 6 => if d == 0 && k == 0 then (nsel w c imm).map fun n => .vmvx a (vsrc b) n else none
  | 7 => if noZ a && b == 0 && k == 0 then (nsel w d imm).map fun n => .vmvs (a.extractLsb' 0 5) c n else none
  | 8 => need (plain && b == 0 && hi3 c == 0) (.viota (vdst a) (lo3 c) k)
  | 9 => need (plain && c == 0 && dst3 a) (.vconflict (lo3 a) (vsrc b) k)
  | _ => none

/-- Majors 0x47 and 0x48 (Tables 15.2 and 15.10). -/
def parseRedMask (m : Nat) (a b c d : BitVec 6) (k : BitVec 3) (fn : Nat) (w : BitVec 3) (imm : BitVec 16) : Option Instr :=
  let plain := d == 0 && w == 0 && imm == 0
  match m, fn with
  | 0x47, 0 => need (plain && c == 0) (.vredsum a (vsrc b) k) | 0x47, 1 => need (plain && c == 0) (.vredmax a (vsrc b) k)
  | 0x47, 2 => need (plain && c == 0) (.vredmin a (vsrc b) k) | 0x47, 3 => need (plain && c == 0) (.vfredsum a (vsrc b) k)
  | 0x47, 4 => need (plain && c == 0) (.vfredmax a (vsrc b) k) | 0x47, 5 => need (plain && c == 0) (.vfredmin a (vsrc b) k)
  | 0x47, 6 => if d == 0 then (nsel w c imm).map fun n => .vtopk (vdst a) (vsrc b) n k else none
  | 0x48, 0 => need (plain && k == 0 && dst3 a && hi3 b == 0 && hi3 c == 0) (.qand (lo3 a) (lo3 b) (lo3 c))
  | 0x48, 1 => need (plain && k == 0 && dst3 a && hi3 b == 0 && hi3 c == 0) (.qor (lo3 a) (lo3 b) (lo3 c))
  | 0x48, 2 => need (plain && k == 0 && dst3 a && hi3 b == 0 && hi3 c == 0) (.qxor (lo3 a) (lo3 b) (lo3 c))
  | 0x48, 3 => need (plain && k == 0 && dst3 a && hi3 b == 0 && c == 0) (.qnot (lo3 a) (lo3 b))
  | 0x48, 4 => need (plain && k == 0 && hi3 b == 0 && c == 0) (.qpopc a (lo3 b))
  | 0x48, 5 => need (plain && k == 0 && hi3 b == 0 && c == 0) (.qfirst a (lo3 b))
  | 0x48, 6 =>
    if d == 0 && k == 0 && imm == 0 then
      match w.toNat with
      | 0 => need (dst3 a && hi3 b == 0 && c == 0) (.qmov (.maskToMask (lo3 a) (lo3 b)))
      | 1 => need (dst3 a && b == 0) (.qmov (.scalarToLow (lo3 a) c))
      | 2 => need (dst3 a && b == 0) (.qmov (.scalarToHigh (lo3 a) c))
      | 3 => need (hi3 b == 0 && c == 0) (.qmov (.lowToScalar a (lo3 b)))
      | 4 => need (hi3 b == 0 && c == 0) (.qmov (.highToScalar a (lo3 b)))
      | _ => none
    else none
  | _, _ => none

/-- Majors 0x60 and 0x70 to 0x72 (R391, Table 17.1). -/
def parseEngine (m : Nat) (a b c d : BitVec 6) (k : BitVec 3) (fn : Nat) (w : BitVec 3) (imm : BitVec 16) : Option Instr :=
  match m, fn with
  | 0x60, 0 => need (k == 0 && w == 0 && imm == 0) (.setts a b c d)
  | 0x70, 0 => need (b == 0 && c == 0 && d == 0 && k == 0 && w == 0 && imm == 0) (.cpgo a)
  | 0x70, 1 => need (a == 0 && d == 0 && k == 0 && w == 0 && imm.extractLsb' 2 14 == 0) (.rinit (imm.extractLsb' 0 2) b c)
  | 0x70, 2 => need (a == 0 && c == 0 && d == 0 && k == 0 && w == 0 && imm == 0) (.rwait b)
  | 0x70, 3 => need (a == 0 && c == 0 && d == 0 && k == 0 && w == 0 && imm.extractLsb' 2 14 == 0) (.rrel (imm.extractLsb' 0 2) b)
  | 0x70, 4 => need (c == 0 && d == 0 && k == 0 && w == 0 && imm == 0) (.rpoll a b)
  | 0x71, 0 => need (noZ a && c == 0 && d == 0 && k == 0 && w == 0 && imm == 0) (.sbind (a.extractLsb' 0 5) b)
  | 0x71, 1 => need (noZ a && b == 0 && c == 0 && d == 0 && k == 0 && w == 0 && imm == 0) (.sfree (a.extractLsb' 0 5))
  | 0x72, 0 =>
    if d == 0 && imm.extractLsb' 3 13 == 0 then
      match w.toNat with
      | 0 => some (.capp a (.vec (vsrc b)) c k (imm.extractLsb' 0 3))
      | 1 => need (b == 0) (.capp a .idx c k (imm.extractLsb' 0 3))
      | _ => none
    else none
  | 0x72, 1 => need (noZ d && c == 0 && k == 0 && w == 0 && imm == 0) (.qpop a b (d.extractLsb' 0 5))
  | 0x72, 2 => need (d == 0 && w == 0 && dst3 a) (.flpop (lo3 a) b c k imm)
  | 0x72, 3 => need (d == 0 && w == 0 && dst3 a) (.flpush (lo3 a) b c k imm)
  | _, _ => none

/-- Every M-V major, sent to its family. -/
def parseMV (m : Nat) (a b c d : BitVec 6) (k : BitVec 3) (fn : Nat) (w : BitVec 3) (imm : BitVec 16) : Option Instr :=
  match m with
  | 0x0E | 0x23 | 0x3C | 0x74 => parseScalarMV m a b c d k fn w imm
  | 0x3B => parseAmo a b c d k fn w imm
  | 0x40 | 0x42 => parseVecMem m a b c d k fn w imm
  | 0x43 => parseVecInt a b c d k fn w imm
  | 0x44 => parseVecCmp a b c d k fn w imm
  | 0x45 => parseVecFp a b c d k fn w imm
  | 0x46 => parseCross a b c d k fn w imm
  | 0x47 | 0x48 => parseRedMask m a b c d k fn w imm
  | 0x60 | 0x70 | 0x71 | 0x72 => parseEngine m a b c d k fn w imm
  | _ => none

/-- The matrix source of a field with its last-use bit. -/
def msrc (r : BitVec 9) (l : BitVec 1) : MSrc := { reg := r, last := l == 1 }

/-- The row operand of mrow and mput: RSRC in X[6], the row in X[5:0] (R402). -/
def rowSel (mb : BitVec 9) (x : BitVec 16) : Option RowSel :=
  if x.extractLsb' 7 9 != 0 then none
  else if x.getLsbD 6 then (if s9ok mb && x.extractLsb' 0 6 == 0 then some (.scalar (s9 mb)) else none)
  else if mb == 0 then some (.imm (x.extractLsb' 0 6)) else none

/-- A vector source in an M-X field: bits [8:6] must be 0. -/
def v9 (f : BitVec 9) : VSrc := vsrc (s9 f)

/-- Major 0x61 (Table 16.1). `md` is MDH :: A. -/
def parseMat (mdh : BitVec 3) (a : BitVec 6) (ma mb : BitVec 9) (g : BitVec 3) (ge la lb : BitVec 1) (fn : Nat)
    (x : BitVec 16) : Option Instr :=
  let md : BitVec 9 := mdh ++ a
  let noG := g == 0 && ge == 0
  let noL := la == 0 && lb == 0
  let vd := mdh == 0 && noZ a
  let x6 := x.extractLsb' 6 10 == 0
  match fn with
  | 0 => need (s9ok ma && s9ok mb && noG && noL && x6) (.mld md (s9 ma) (s9 mb) (x.extractLsb' 0 6))
  | 1 => need (md == 0 && s9ok mb && noG && lb == 0 && x6) (.mst (msrc ma la) (s9 mb) (x.extractLsb' 0 6))
  | 2 => need (ma == 0 && mb == 0 && noG && noL && x6) (.mzero md (x.extractLsb' 0 6))
  | 3 => (gateSel g ge (x.extractLsb' 8 4)).map fun gs =>
      .mmul md (msrc ma la) (msrc mb lb) gs (x.extractLsb' 14 2) (x.getLsbD 13) (x.getLsbD 12) (x.extractLsb' 0 8)
  | 4 => need (mb == 0 && noG && lb == 0 && x6) (.mcvt md (msrc ma la) (x.extractLsb' 0 6))
  | 5 => need (mb == 0 && noG && lb == 0 && x == 0) (.mtr md (msrc ma la))
  | 6 => if vd && noG && lb == 0 then (rowSel mb x).map fun r => .mrow (a.extractLsb' 0 5) (msrc ma la) r else none
  | 7 => if s9ok ma && noG && noL then (rowSel mb x).map fun r => .mput md (v9 ma) r else none
  | 8 => need (mb == 0 && noG && lb == 0 && x == 0) (.mmov md (msrc ma la))
  | 9 => need (ma == 0 && mb == 0 && noG && noL && x.extractLsb' 8 8 == 0) (.mrel md (x.extractLsb' 0 8))
  | 10 => if ma == 0 && mb == 0 && noL && x.extractLsb' 12 4 == 0 then
      (gateSel g ge (x.extractLsb' 8 4)).map fun gs => .mpf md gs (x.extractLsb' 0 8) else none
  | 11 => need (md == 0 && s9ok ma && mb == 0 && noG && noL && x.extractLsb' 2 14 == 0) (.mcb (x.extractLsb' 0 2) (s9 ma))
  | 12 => need (vd && mb == 0 && noG && lb == 0 && x == 0) (.mrmax (a.extractLsb' 0 5) (msrc ma la))
  | 13 => need (vd && mb == 0 && noG && lb == 0 && x == 0) (.mrsum (a.extractLsb' 0 5) (msrc ma la))
  | 14 => need (s9ok mb && noG && lb == 0 && x.extractLsb' 1 15 == 0) (.mscale md (msrc ma la) (v9 mb) (x.getLsbD 0))
  | _ => none

/-- Major 0x62 (Table 16.2). -/
def parseGate (mdh : BitVec 3) (a : BitVec 6) (ma mb : BitVec 9) (g : BitVec 3) (ge la lb : BitVec 1) (fn : Nat)
    (x : BitVec 16) : Option Instr :=
  let noG := g == 0 && ge == 0
  let noL := la == 0 && lb == 0
  let n7 := x.extractLsb' 12 4 == 0 && !x.getLsbD 7
  let n8 := x.extractLsb' 12 4 == 0
  let gd := mdh == 0 && dst3 a
  match fn with
  | 0 => if mdh == 0 && noZ a && n7 then
      (gateSel g ge (x.extractLsb' 8 4)).map fun gs =>
        .scout (a.extractLsb' 0 5) (msrc ma la) (msrc mb lb) gs (x.extractLsb' 0 7)
    else none
  | 1 => need (gd && s9ok ma && s9ok mb && noG && noL && n7) (.gthr (lo3 a) (v9 ma) (s9 mb) (x.extractLsb' 8 4) (x.extractLsb' 0 7))
  | 2 => need (gd && s9ok ma && s9ok mb && noG && noL && n7) (.gtopk (lo3 a) (v9 ma) (s9 mb) (x.extractLsb' 8 4) (x.extractLsb' 0 7))
  | 3 => need (gd && g9ok ma && g9ok mb && noG && noL && x == 0) (.gand (lo3 a) (g9 ma) (g9 mb))
  | 4 => need (gd && g9ok ma && g9ok mb && noG && noL && x == 0) (.gor (lo3 a) (g9 ma) (g9 mb))
  | 5 => need (gd && g9ok ma && mb == 0 && noG && noL && x == 0) (.gnot (lo3 a) (g9 ma))
  | 6 => need (mdh == 0 && g9ok ma && mb == 0 && noG && noL && n8) (.gpop a (g9 ma) (x.extractLsb' 8 4) (x.extractLsb' 0 8))
  | 7 => need (mdh == 0 && g9ok ma && s9ok mb && noG && noL && x == 0) (.gnext a (g9 ma) (s9 mb))
  | 8 => need (gd && s9ok ma && mb == 0 && noG && noL && x == 0) (.gld (lo3 a) (s9 ma))
  | 9 => need (mdh == 0 && a == 0 && g9ok ma && s9ok mb && noG && noL && x == 0) (.gst (g9 ma) (s9 mb))
  | 10 => if mdh == 0 && a == 0 && s9ok mb && lb == 0 && n8 then
      (gateSel g ge (x.extractLsb' 8 4)).map fun gs => .sacc (s9 mb) (msrc ma la) gs (x.extractLsb' 0 8) else none
  | _ => none

/-- Major 0x73 (Table 17.1). -/
def parseRemote (mdh : BitVec 3) (a : BitVec 6) (ma mb : BitVec 9) (g : BitVec 3) (ge la lb : BitVec 1) (fn : Nat)
    (x : BitVec 16) : Option Instr :=
  let noG := g == 0 && ge == 0
  match fn with
  | 0 => need (mdh == 0 && a == 0 && s9ok mb && noG && lb == 0 && x == 0) (.msend (msrc ma la) (s9 mb))
  | 1 => need (ma == 0 && mb == 0 && noG && la == 0 && lb == 0 && x == 0) (.mwait (mdh ++ a))
  | _ => none

/-- The instruction that a major, A and a tail name; nothing where step 8 of Table 13.4 fails. -/
def parse (m : Nat) (a : BitVec 6) : Tail → Option Instr
  | .h => parseH m a
  | .sr b c fn => parseSR m a b c fn.toNat
  | .si b imm => parseSI m a b imm
  | .mv b c d k fn w imm => parseMV m a b c d k fn.toNat w imm
  | .mx mdh ma mb g ge la lb fn x =>
    match m with
    | 0x61 => parseMat mdh a ma mb g ge la lb fn.toNat x
    | 0x62 => parseGate mdh a ma mb g ge la lb fn.toNat x
    | 0x73 => parseRemote mdh a ma mb g ge la lb fn.toNat x
    | _ => none
  | .mb b c cond loff hidx => parseMB m a b c cond.toNat loff hidx
  | .w lit b c d k fn w imm => parseW m a lit b c d k fn.toNat w imm

/-! ## The decoder -/

/-- What the decoder makes of an instruction value: an instruction, or the name of its refusal (Table 13.4, steps 4 to 8). -/
inductive Decoded where
  | instr (i : Instr)
  | illegal
  | absent
  deriving DecidableEq, Repr

/-- Decode an instruction value under the ACT values of a decode table (Table 13.4, steps 4 to 8). -/
def decode (act : Nat → Nat) (v : BitVec 96) : Decoded :=
  if majorOf v == 0 then .illegal
  else if act (tableIndex v) == 3 then .illegal
  else if act (tableIndex v) == 2 then .absent
  else
    match majorForm (majorOf v) with
    | none => .illegal
    | some f =>
      if v.extractLsb' 14 2 != f.lcode then .illegal
      else
        match parse (majorOf v) (v.extractLsb' 0 6) (splitTail f v) with
        | some i => .instr i
        | none => .illegal

/-- Bytes of a tail by its length code (R119). -/
def tailBytes (l : BitVec 2) : Nat :=
  match l.toNat with
  | 0 => 0 | 1 => 2 | 2 => 6 | _ => 10

/-- The bits of an instruction: its head and the tail that its L gives. -/
def valueBits (v : BitVec 96) : Nat := 16 + 8 * tailBytes (v.extractLsb' 14 2)

/-- The instruction that the decoder reads from the low `nbits` bits of `w`, numbered as the opcode table numbers them, under the
shipped decode table; nothing where it refuses, or where J is set on an instruction that must stand last in its convoy (R122). -/
def decodeTableWord (nbits w : Nat) : Option Instr :=
  let v : BitVec 96 := BitVec.ofNat 96 (w % 2 ^ nbits)
  let v := BitVec.ofNat 96 (v.toNat % 2 ^ valueBits v)
  if v.getLsbD 13 && lastOnly shippedAct v then none
  else
    match decode shippedAct v with
    | .instr i => some i
    | _ => none

/-! ## The encoder -/

/-- The field of a vector source. -/
def VSrc.field (x : VSrc) : BitVec 6 := BitVec.ofBool x.chain ++ x.reg
/-- The field of a vector destination. -/
def VDst.field (x : VDst) : BitVec 6 := BitVec.ofBool x.zeroing ++ x.reg
/-- A vector register without chain or zeroing bit. -/
def vfield (r : BitVec 5) : BitVec 6 := (0 : BitVec 1) ++ r
/-- A mask or gate register in a field of six bits. -/
def qfield (r : BitVec 3) : BitVec 6 := (0 : BitVec 3) ++ r
/-- A scalar register in an M-X field. -/
def sfield9 (r : BitVec 6) : BitVec 9 := (0 : BitVec 3) ++ r
/-- A gate register in an M-X field. -/
def gfield9 (r : BitVec 3) : BitVec 9 := (0 : BitVec 6) ++ r

/-- W, C and IMM of a second operand. -/
def YSel.fields : YSel → BitVec 3 × BitVec 6 × BitVec 16
  | .vec c => (0, c.field, 0)
  | .scalar c => (1, c, 0)
  | .imm i => (2, 0, i)

def CSel.fields : CSel → BitVec 3 × BitVec 6 × BitVec 13
  | .vec c => (0, c.field, 0)
  | .scalar c => (1, c, 0)
  | .imm i => (2, 0, i)

def FSel.fields : FSel → BitVec 3 × BitVec 6
  | .vec c => (0, c.field)
  | .scalar c => (1, c)

def NSel.fields : NSel → BitVec 3 × BitVec 6 × BitVec 16
  | .scalar c => (1, c, 0)
  | .imm n => (2, 0, (0 : BitVec 8) ++ n)

def BSel.fields : BSel → BitVec 3 × BitVec 6 × BitVec 16
  | .scalar c => (1, c, 0)
  | .imm i => (2, 0, i)

/-- G and GE of a gate operand. -/
def GateSel.fields (x : GateSel) : BitVec 3 × BitVec 1 :=
  match x.gate with
  | some g => (g, 1)
  | none => (0, 0)

/-- MB and X[6:0] of a row operand. -/
def RowSel.fields : RowSel → BitVec 9 × BitVec 16
  | .scalar s => (sfield9 s, 0x40)
  | .imm r => (0, (0 : BitVec 10) ++ r)

/-- An instruction's major, A and tail. -/
structure Code where
  major : BitVec 7
  a : BitVec 6
  tail : Tail
  deriving DecidableEq, Repr

/-- The M-V code of an integer vector instruction (major 0x43). -/
def codeInt (fn : BitVec 8) (a : VDst) (b : VSrc) (y : YSel) (k : QReg) : Code :=
  { major := 0x43, a := a.field, tail := .mv b.field y.fields.2.1 0 k fn y.fields.1 y.fields.2.2 }

/-- The M-V code of a floating vector instruction with two sources (major 0x45). -/
def codeFp2 (fn : BitVec 8) (a : VDst) (b : VSrc) (y : FSel) (d : BitVec 6) (k : QReg) : Code :=
  { major := 0x45, a := a.field, tail := .mv b.field y.fields.2 d k fn y.fields.1 0 }

/-- The M-V code of a floating vector instruction with one source. -/
def codeFp1 (fn : BitVec 8) (a : VDst) (b : VSrc) (k : QReg) (imm : BitVec 16) : Code :=
  { major := 0x45, a := a.field, tail := .mv b.field 0 0 k fn 0 imm }

/-- The M-V code of an atomic (major 0x3B). -/
def codeAmo (fn : BitVec 8) (a b c d : SReg) (sc : Scope) (size : BitVec 2) (off : BitVec 14) : Code :=
  { major := 0x3B, a := a, tail := .mv b c d 0 fn sc.code (size ++ off) }

/-- The size code of an atomic: 0b11 is 8 bytes, 0b10 is 4 (R333). -/
def amoSize (wide : Bool) : BitVec 2 := (1 : BitVec 1) ++ BitVec.ofBool wide

/-- The low six and the high three bits of a matrix destination, A and MDH. -/
def mlo (d : MReg) : BitVec 6 := d.extractLsb' 0 6
def mhi (d : MReg) : BitVec 3 := d.extractLsb' 6 3

/-- An M-X code without a gate. -/
def codeMX (major : BitVec 7) (fn : BitVec 5) (d : MReg) (ma mb : BitVec 9) (la : Bool) (x : BitVec 16) : Code :=
  { major := major, a := mlo d, tail := .mx (mhi d) ma mb 0 0 (BitVec.ofBool la) 0 fn x }

/-- The encoding of an instruction; none for the device's own steps and inputs, which have no words. -/
def code : Instr → Option Code
  | .add a b c => some ⟨1, a, .sr b c 0⟩ | .sub a b c => some ⟨1, a, .sr b c 1⟩ | .and a b c => some ⟨1, a, .sr b c 2⟩
  | .or a b c => some ⟨1, a, .sr b c 3⟩ | .xor a b c => some ⟨1, a, .sr b c 4⟩ | .sll a b c => some ⟨1, a, .sr b c 5⟩
  | .srl a b c => some ⟨1, a, .sr b c 6⟩ | .sra a b c => some ⟨1, a, .sr b c 7⟩ | .slt a b c => some ⟨1, a, .sr b c 8⟩
  | .sltu a b c => some ⟨1, a, .sr b c 9⟩ | .min a b c => some ⟨1, a, .sr b c 10⟩ | .max a b c => some ⟨1, a, .sr b c 11⟩
  | .minu a b c => some ⟨1, a, .sr b c 12⟩ | .maxu a b c => some ⟨1, a, .sr b c 13⟩
  | .mul a b c => some ⟨2, a, .sr b c 0⟩ | .mulh a b c => some ⟨2, a, .sr b c 1⟩ | .mulhu a b c => some ⟨2, a, .sr b c 2⟩
  | .div a b c => some ⟨2, a, .sr b c 3⟩ | .divu a b c => some ⟨2, a, .sr b c 4⟩ | .rem a b c => some ⟨2, a, .sr b c 5⟩
  | .remu a b c => some ⟨2, a, .sr b c 6⟩
  | .addi a b i => some ⟨3, a, .si b i⟩ | .andi a b i => some ⟨4, a, .si b i⟩ | .ori a b i => some ⟨5, a, .si b i⟩
  | .xori a b i => some ⟨6, a, .si b i⟩ | .slli a b n => some ⟨7, a, .si b ((0 : BitVec 4) ++ n)⟩
  | .srli a b n => some ⟨8, a, .si b ((0 : BitVec 4) ++ n)⟩ | .srai a b n => some ⟨9, a, .si b ((0 : BitVec 4) ++ n)⟩
  | .slti a b i => some ⟨10, a, .si b i⟩ | .sltiu a b i => some ⟨11, a, .si b i⟩
  | .clz a b => some ⟨12, a, .sr b 0 0⟩ | .ctz a b => some ⟨12, a, .sr b 0 1⟩ | .popc a b => some ⟨12, a, .sr b 0 2⟩
  | .addw a b c => some ⟨12, a, .sr b c 3⟩
  | .li a lit => some ⟨0x0D, a, .w lit 0 0 0 0 0 0 0⟩ | .lih a b lit => some ⟨0x0D, a, .w lit b 0 0 0 1 0 0⟩
  | .fadd a b c => some ⟨0x0E, a, .mv b c 0 0 0 0 0⟩ | .fsub a b c => some ⟨0x0E, a, .mv b c 0 0 1 0 0⟩
  | .fmul a b c => some ⟨0x0E, a, .mv b c 0 0 2 0 0⟩ | .fma a b c d => some ⟨0x0E, a, .mv b c d 0 3 0 0⟩
  | .fdiv a b c => some ⟨0x0E, a, .mv b c 0 0 4 0 0⟩ | .fsqrt a b => some ⟨0x0E, a, .mv b 0 0 0 5 0 0⟩
  | .fcvt a b dst src => some ⟨0x0E, a, .mv b 0 0 0 6 0 ((0 : BitVec 8) ++ dst ++ src)⟩
  | .fcmp a b c p => some ⟨0x0E, a, .mv b c 0 0 7 0 ((0 : BitVec 14) ++ p)⟩
  | .beq b c l h => some ⟨0x20, 0, .mb b c 0 l h⟩ | .bne b c l h => some ⟨0x20, 0, .mb b c 1 l h⟩
  | .blt b c l h => some ⟨0x20, 0, .mb b c 2 l h⟩ | .bge b c l h => some ⟨0x20, 0, .mb b c 3 l h⟩
  | .bltu b c l h => some ⟨0x20, 0, .mb b c 4 l h⟩ | .bgeu b c l h => some ⟨0x20, 0, .mb b c 5 l h⟩
  | .jal a l h => some ⟨0x21, a, .mb 0 0 0 l h⟩ | .jalr a b i => some ⟨0x22, a, .si b i⟩
  | .csrr a n => some ⟨0x23, a, .mv 0 0 0 0 0 0 ((0 : BitVec 4) ++ n)⟩
  | .csrw b n => some ⟨0x23, 0, .mv b 0 0 0 1 0 ((0 : BitVec 4) ++ n)⟩
  | .csrs b n => some ⟨0x23, 0, .mv b 0 0 0 2 0 ((0 : BitVec 4) ++ n)⟩
  | .csrc b n => some ⟨0x23, 0, .mv b 0 0 0 3 0 ((0 : BitVec 4) ++ n)⟩
  | .csrrCpgo a => some ⟨0x23, a, .mv 0 0 0 0 0 0 0x084⟩
  | .tmaprxWrite .write b => some ⟨0x23, 0, .mv b 0 0 0 1 0 0x041⟩
  | .tmaprxWrite .set b => some ⟨0x23, 0, .mv b 0 0 0 2 0 0x041⟩
  | .tmaprxWrite .clear b => some ⟨0x23, 0, .mv b 0 0 0 3 0 0x041⟩
  | .ecall n => some ⟨0x24, n, .h⟩ | .brk n => some ⟨0x25, n, .h⟩ | .eret => some ⟨0x26, 0, .h⟩ | .sleep a => some ⟨0x27, a, .h⟩
  | .halt => some ⟨0x28, 0, .h⟩ | .tmsw b e => some ⟨0x29, 0, .si b ((0 : BitVec 9) ++ BitVec.ofBool e)⟩
  | .ldb a b i => some ⟨0x30, a, .si b i⟩ | .ldbu a b i => some ⟨0x31, a, .si b i⟩ | .ldh a b i => some ⟨0x32, a, .si b i⟩
  | .ldhu a b i => some ⟨0x33, a, .si b i⟩ | .ldw a b i => some ⟨0x34, a, .si b i⟩ | .ldwu a b i => some ⟨0x35, a, .si b i⟩
  | .ldd a b i => some ⟨0x36, a, .si b i⟩ | .stb a b i => some ⟨0x37, a, .si b i⟩ | .sth a b i => some ⟨0x38, a, .si b i⟩
  | .stw a b i => some ⟨0x39, a, .si b i⟩ | .std a b i => some ⟨0x3A, a, .si b i⟩
  | .amoAdd a b c sc w o => some (codeAmo 0 a b c 0 sc (amoSize w) o) | .amoAnd a b c sc w o => some (codeAmo 1 a b c 0 sc (amoSize w) o)
  | .amoOr a b c sc w o => some (codeAmo 2 a b c 0 sc (amoSize w) o) | .amoXor a b c sc w o => some (codeAmo 3 a b c 0 sc (amoSize w) o)
  | .amoMin a b c sc w o => some (codeAmo 4 a b c 0 sc (amoSize w) o) | .amoMax a b c sc w o => some (codeAmo 5 a b c 0 sc (amoSize w) o)
  | .amoMinu a b c sc w o => some (codeAmo 6 a b c 0 sc (amoSize w) o)
  | .amoMaxu a b c sc w o => some (codeAmo 7 a b c 0 sc (amoSize w) o)
  | .amoSwap a b c sc w o => some (codeAmo 8 a b c 0 sc (amoSize w) o)
  | .amoCas a b c d sc w o => some (codeAmo 9 a b c d sc (amoSize w) o)
  | .ldAcq a b sc n o => some (codeAmo 10 a b 0 0 sc n o) | .stRel b c sc n o => some (codeAmo 11 0 b c 0 sc n o)
  | .fence sc => some ⟨0x3C, 0, .mv 0 0 0 0 0 sc.code 0⟩ | .bar n => some ⟨0x3C, 0, .mv 0 0 0 0 1 0 ((0 : BitVec 13) ++ n)⟩
  | .wait a b c i => some ⟨0x3C, a, .mv b c 0 0 2 0 i⟩ | .wake b i => some ⟨0x3C, 0, .mv b 0 0 0 3 0 i⟩
  | .ipf b n i => some ⟨0x74, 0, .mv b 0 0 0 0 n i⟩ | .dpf b n i => some ⟨0x74, 0, .mv b 0 0 0 1 n i⟩
  | .cflush b z i => some ⟨0x74, 0, .mv b 0 0 0 2 ((0 : BitVec 2) ++ BitVec.ofBool z) i⟩
  | .cinv b z i => some ⟨0x74, 0, .mv b 0 0 0 3 ((0 : BitVec 2) ++ BitVec.ofBool z) i⟩
  | .tlbinv kind b c => some ⟨0x74, 0, .mv b c 0 0 4 ((0 : BitVec 1) ++ kind) 0⟩
  | .setvl a b ty => some ⟨0x40, a, .mv b 0 0 0 0 0 ((0 : BitVec 10) ++ ty)⟩
  | .setvl2 a b c ty => some ⟨0x40, a, .mv b c 0 0 1 0 ((0 : BitVec 10) ++ ty)⟩
  | .vrel => some ⟨0x40, 0, .mv 0 0 0 0 3 0 0⟩
  | .stripm a b c d sz ty p3 p4 =>
    some ⟨0x41, a, .w ((0 : BitVec 14) ++ p4 ++ p3 ++ ty) b c d 0 0 0 ((0 : BitVec 4) ++ sz)⟩
  | .vld a b k bit i => some ⟨0x42, a.field, .mv b 0 0 k 0 bit i⟩ | .vst b c k bit i => some ⟨0x42, 0, .mv b c.field 0 k 1 bit i⟩
  | .vlds a b c k i => some ⟨0x42, a.field, .mv b c 0 k 2 0 i⟩ | .vsts b c d k i => some ⟨0x42, 0, .mv b c.field d k 3 0 i⟩
  | .vldx a b c k sc i => some ⟨0x42, a.field, .mv b c.field 0 k 4 sc i⟩
  | .vstx b c d k sc i => some ⟨0x42, 0, .mv b c.field d.field k 5 sc i⟩
  | .vadd a b y k => some (codeInt 0 a b y k) | .vsub a b y k => some (codeInt 1 a b y k) | .vmul a b y k => some (codeInt 2 a b y k)
  | .vmulh a b y k => some (codeInt 3 a b y k) | .vand a b y k => some (codeInt 4 a b y k) | .vor a b y k => some (codeInt 5 a b y k)
  | .vxor a b y k => some (codeInt 6 a b y k) | .vsll a b y k => some (codeInt 7 a b y k) | .vsrl a b y k => some (codeInt 8 a b y k)
  | .vsra a b y k => some (codeInt 9 a b y k) | .vmin a b y k => some (codeInt 10 a b y k) | .vmax a b y k => some (codeInt 11 a b y k)
  | .vminu a b y k => some (codeInt 12 a b y k) | .vmaxu a b y k => some (codeInt 13 a b y k)
  | .vsadd a b y k => some (codeInt 14 a b y k) | .vssub a b y k => some (codeInt 15 a b y k)
  | .vcmp a b y k p => some ⟨0x44, qfield a, .mv b.field y.fields.2.1 0 k 0 y.fields.1 (p ++ y.fields.2.2)⟩
  | .vfcmp a b y k p => some ⟨0x44, qfield a, .mv b.field y.fields.2 0 k 1 y.fields.1 (p ++ (0 : BitVec 13))⟩
  | .vsel a b y k => some ⟨0x44, vfield a, .mv b.field y.fields.2.1 0 k 2 y.fields.1 y.fields.2.2⟩
  | .vfadd a b y k => some (codeFp2 0 a b y 0 k) | .vfsub a b y k => some (codeFp2 1 a b y 0 k)
  | .vfmul a b y k => some (codeFp2 2 a b y 0 k) | .vfma a b y d k => some (codeFp2 3 a b y d.field k)
  | .vfnma a b y d k => some (codeFp2 4 a b y d.field k) | .vfdiv a b y k => some (codeFp2 5 a b y 0 k)
  | .vfsqrt a b k => some (codeFp1 6 a b k 0) | .vfmin a b y k => some (codeFp2 7 a b y 0 k)
  | .vfmax a b y k => some (codeFp2 8 a b y 0 k) | .vfexp2 a b k => some (codeFp1 9 a b k 0)
  | .vflog2 a b k => some (codeFp1 10 a b k 0) | .vfrcp a b k => some (codeFp1 11 a b k 0)
  | .vfrsq a b k => some (codeFp1 12 a b k 0) | .vftanh a b k => some (codeFp1 13 a b k 0)
  | .vcvt a b k ty => some (codeFp1 14 a b k ((0 : BitVec 10) ++ ty))
  | .vslideup a b n d k => some ⟨0x46, a.field, .mv b.field n.fields.2.1 d k 0 n.fields.1 n.fields.2.2⟩
  | .vslidedn a b n k => some ⟨0x46, a.field, .mv b.field n.fields.2.1 0 k 1 n.fields.1 n.fields.2.2⟩
  | .vperm a b c k => some ⟨0x46, a.field, .mv b.field c.field 0 k 2 0 0⟩
  | .vcompress a b k => some ⟨0x46, a.field, .mv b.field 0 0 k 3 0 0⟩ | .vexpand a b k => some ⟨0x46, a.field, .mv b.field 0 0 k 4 0 0⟩
  | .vbcast a y k => some ⟨0x46, a.field, .mv 0 y.fields.2.1 0 k 5 y.fields.1 y.fields.2.2⟩
  | .vmvx a b n => some ⟨0x46, a, .mv b.field n.fields.2.1 0 0 6 n.fields.1 n.fields.2.2⟩
  | .vmvs a c n => some ⟨0x46, vfield a, .mv 0 c n.fields.2.1 0 7 n.fields.1 n.fields.2.2⟩
  | .viota a c k => some ⟨0x46, a.field, .mv 0 (qfield c) 0 k 8 0 0⟩
  | .vconflict a b k => some ⟨0x46, qfield a, .mv b.field 0 0 k 9 0 0⟩
  | .vredsum a b k => some ⟨0x47, a, .mv b.field 0 0 k 0 0 0⟩ | .vredmax a b k => some ⟨0x47, a, .mv b.field 0 0 k 1 0 0⟩
  | .vredmin a b k => some ⟨0x47, a, .mv b.field 0 0 k 2 0 0⟩ | .vfredsum a b k => some ⟨0x47, a, .mv b.field 0 0 k 3 0 0⟩
  | .vfredmax a b k => some ⟨0x47, a, .mv b.field 0 0 k 4 0 0⟩ | .vfredmin a b k => some ⟨0x47, a, .mv b.field 0 0 k 5 0 0⟩
  | .vtopk a b n k => some ⟨0x47, a.field, .mv b.field n.fields.2.1 0 k 6 n.fields.1 n.fields.2.2⟩
  | .qand a b c => some ⟨0x48, qfield a, .mv (qfield b) (qfield c) 0 0 0 0 0⟩
  | .qor a b c => some ⟨0x48, qfield a, .mv (qfield b) (qfield c) 0 0 1 0 0⟩
  | .qxor a b c => some ⟨0x48, qfield a, .mv (qfield b) (qfield c) 0 0 2 0 0⟩
  | .qnot a b => some ⟨0x48, qfield a, .mv (qfield b) 0 0 0 3 0 0⟩
  | .qpopc a b => some ⟨0x48, a, .mv (qfield b) 0 0 0 4 0 0⟩ | .qfirst a b => some ⟨0x48, a, .mv (qfield b) 0 0 0 5 0 0⟩
  | .qmov (.maskToMask x y) => some ⟨0x48, qfield x, .mv (qfield y) 0 0 0 6 0 0⟩
  | .qmov (.scalarToLow x c) => some ⟨0x48, qfield x, .mv 0 c 0 0 6 1 0⟩
  | .qmov (.scalarToHigh x c) => some ⟨0x48, qfield x, .mv 0 c 0 0 6 2 0⟩
  | .qmov (.lowToScalar x y) => some ⟨0x48, x, .mv (qfield y) 0 0 0 6 3 0⟩
  | .qmov (.highToScalar x y) => some ⟨0x48, x, .mv (qfield y) 0 0 0 6 4 0⟩
  | .setts a b c d => some ⟨0x60, a, .mv b c d 0 0 0 0⟩
  | .mld d b st ty => some (codeMX 0x61 0 d (sfield9 b) (sfield9 st) false ((0 : BitVec 10) ++ ty))
  | .mst m b st => some (codeMX 0x61 1 0 m.reg (sfield9 b) m.last ((0 : BitVec 10) ++ st))
  | .mzero d ty => some (codeMX 0x61 2 d 0 0 false ((0 : BitVec 10) ++ ty))
  | .mmul d x y g walk tb acc n =>
    some ⟨0x61, mlo d, .mx (mhi d) x.reg y.reg g.fields.1 g.fields.2 (BitVec.ofBool x.last) (BitVec.ofBool y.last) 3
      (walk ++ BitVec.ofBool tb ++ BitVec.ofBool acc ++ g.seg ++ n)⟩
  | .mcvt d m ty => some (codeMX 0x61 4 d m.reg 0 m.last ((0 : BitVec 10) ++ ty))
  | .mtr d m => some (codeMX 0x61 5 d m.reg 0 m.last 0) | .mmov d m => some (codeMX 0x61 8 d m.reg 0 m.last 0)
  | .mscale d m v cols => some (codeMX 0x61 14 d m.reg (sfield9 v.field) m.last ((0 : BitVec 15) ++ BitVec.ofBool cols))
  | .mrow a m r => some ⟨0x61, vfield a, .mx 0 m.reg r.fields.1 0 0 (BitVec.ofBool m.last) 0 6 r.fields.2⟩
  | .mput d v r => some (codeMX 0x61 7 d (sfield9 v.field) r.fields.1 false r.fields.2)
  | .mrel d n => some (codeMX 0x61 9 d 0 0 false ((0 : BitVec 8) ++ n))
  | .mpf d g n => some ⟨0x61, mlo d, .mx (mhi d) 0 0 g.fields.1 g.fields.2 0 0 10 ((0 : BitVec 4) ++ g.seg ++ n)⟩
  | .mcb cb b => some (codeMX 0x61 11 0 (sfield9 b) 0 false ((0 : BitVec 14) ++ cb))
  | .mrmax a m => some ⟨0x61, vfield a, .mx 0 m.reg 0 0 0 (BitVec.ofBool m.last) 0 12 0⟩
  | .mrsum a m => some ⟨0x61, vfield a, .mx 0 m.reg 0 0 0 (BitVec.ofBool m.last) 0 13 0⟩
  | .scout a q key g n =>
    some ⟨0x62, vfield a, .mx 0 q.reg key.reg g.fields.1 g.fields.2 (BitVec.ofBool q.last) (BitVec.ofBool key.last) 0
      ((0 : BitVec 4) ++ g.seg ++ (0 : BitVec 1) ++ n)⟩
  | .gthr a v t seg n => some ⟨0x62, qfield a, .mx 0 (sfield9 v.field) (sfield9 t) 0 0 0 0 1 ((0 : BitVec 4) ++ seg ++ (0 : BitVec 1) ++ n)⟩
  | .gtopk a v t seg n => some ⟨0x62, qfield a, .mx 0 (sfield9 v.field) (sfield9 t) 0 0 0 0 2 ((0 : BitVec 4) ++ seg ++ (0 : BitVec 1) ++ n)⟩
  | .gand a b c => some ⟨0x62, qfield a, .mx 0 (gfield9 b) (gfield9 c) 0 0 0 0 3 0⟩
  | .gor a b c => some ⟨0x62, qfield a, .mx 0 (gfield9 b) (gfield9 c) 0 0 0 0 4 0⟩
  | .gnot a b => some ⟨0x62, qfield a, .mx 0 (gfield9 b) 0 0 0 0 0 5 0⟩
  | .gpop a b seg n => some ⟨0x62, a, .mx 0 (gfield9 b) 0 0 0 0 0 6 ((0 : BitVec 4) ++ seg ++ n)⟩
  | .gnext a b st => some ⟨0x62, a, .mx 0 (gfield9 b) (sfield9 st) 0 0 0 0 7 0⟩
  | .gld a b => some ⟨0x62, qfield a, .mx 0 (sfield9 b) 0 0 0 0 0 8 0⟩
  | .gst g b => some ⟨0x62, 0, .mx 0 (gfield9 g) (sfield9 b) 0 0 0 0 9 0⟩
  | .sacc b w g n => some ⟨0x62, 0, .mx 0 w.reg (sfield9 b) g.fields.1 g.fields.2 (BitVec.ofBool w.last) 0 10 ((0 : BitVec 4) ++ g.seg ++ n)⟩
  | .cpgo a => some ⟨0x70, a, .mv 0 0 0 0 0 0 0⟩ | .rinit r b c => some ⟨0x70, 0, .mv b c 0 0 1 0 ((0 : BitVec 14) ++ r)⟩
  | .rwait b => some ⟨0x70, 0, .mv b 0 0 0 2 0 0⟩ | .rrel r b => some ⟨0x70, 0, .mv b 0 0 0 3 0 ((0 : BitVec 14) ++ r)⟩
  | .rpoll a b => some ⟨0x70, a, .mv b 0 0 0 4 0 0⟩
  | .sbind a b => some ⟨0x71, vfield a, .mv b 0 0 0 0 0 0⟩ | .sfree a => some ⟨0x71, vfield a, .mv 0 0 0 0 1 0 0⟩
  | .capp a (.vec v) c k l => some ⟨0x72, a, .mv v.field c 0 k 0 0 ((0 : BitVec 13) ++ l)⟩
  | .capp a .idx c k l => some ⟨0x72, a, .mv 0 c 0 k 0 1 ((0 : BitVec 13) ++ l)⟩
  | .qpop a b d => some ⟨0x72, a, .mv b 0 (vfield d) 0 1 0 0⟩
  | .flpop a b c k i => some ⟨0x72, qfield a, .mv b c 0 k 2 0 i⟩ | .flpush a b c k i => some ⟨0x72, qfield a, .mv b c 0 k 3 0 i⟩
  | .msend m b => some ⟨0x73, 0, .mx 0 m.reg (sfield9 b) 0 0 (BitVec.ofBool m.last) 0 0 0⟩
  | .mwait d => some ⟨0x73, mlo d, .mx (mhi d) 0 0 0 0 0 0 1 0⟩
  | _ => none

/-- The instruction value of an instruction that has an encoding, J = 0. -/
def encode (i : Instr) : Option (BitVec 96) := (code i).map fun c => joinTail c.major c.a c.tail

end Sys2Proof
end

