-- ==== Sys2Proof/Config.lean ====
section
/-! DEFINITION. What an implementation fixes and the free values: constants without a body, so that nothing can be proved
about which value they take (log entries 2, 5, 6, 7, 8, 40, 45, 46, 56, 69). -/

namespace Sys2Proof.Config

/-- DESIGN CHOICE (log 2). Core cycles that the `n`-th step of the machine takes; the manual's timing is left out. -/
opaque stepCycles : Nat → Nat

/-- DESIGN CHOICE (log 2). Difference between the cycle count of a core and the package's own count: the counts of the
cores are not synchronised (R276). -/
opaque cycleSkew : Nat → Nat

/-- DESIGN CHOICE (log 2). Cycles for which the fill of a `dpf` line, by its number, counts as in flight (R199). -/
opaque hintCycles : Nat → Nat

/-- DESIGN CHOICE (log 40). The manual gives no order to what is due together: where the `n`-th step starts to look among the steps of the
device and among the cores that can issue, and which of the two it looks at first. -/
opaque dueFrom : Nat → Nat
opaque coreFrom : Nat → Nat
opaque issueFirst : Nat → Bool

/-- DESIGN CHOICE (log 5). Whether a byte of a copy at or after its lowest failing byte was performed (R415). -/
opaque copyPerformed : Nat → Nat → Bool

/-- DESIGN CHOICE (log 5). Whether a transfer performs a byte ahead of its completion, at the `n`-th step (R220). -/
opaque copyEarly : Nat → Nat → Bool

/-- DESIGN CHOICE (log 5). Whether a transfer reads a byte ahead of its completion, at the `n`-th step (R220). -/
opaque copyTaken : Nat → Nat → Bool

/-- DESIGN CHOICE (log 5). Where a transfer overlaps itself: whether a byte that the transfer also writes was read before that write, and
the value of which of its writers such a byte then held (R415), by the free-value counter and the byte. -/
opaque copyBefore : Nat → Nat → Bool
opaque copyPick : Nat → Nat → Nat

/-- DESIGN CHOICE (log 5). What an element of a vector register, and a mask register, holds after `vrel` has discarded it (R360), by the
free-value counter, register and position. -/
opaque discardedElem : Nat → Nat → Nat → BitVec 32
opaque discardedMask : Nat → Nat → BitVec 128

/-- DESIGN CHOICE (log 6). Whether a signature over these bytes verifies against its fused key, of RSA-3072 (0) and of SLH-DSA (1); the security
version of an image, and the fused minimum (R73). -/
opaque signatureOk : Nat → List Byte → Bool
opaque securityVersion : List Byte → Nat
opaque minimumVersion : Nat

/-- DESIGN CHOICE (log 6). The bytes of a signature of the device identity key over these bytes; `which` is 0 for RSA-3072
and 1 for SLH-DSA (R75). -/
opaque signature : Nat → List Byte → List Byte

/-- DESIGN CHOICE (log 6). The 16 bytes of the device serial number (R75). -/
opaque serialNumber : BitVec 128

/-- DESIGN CHOICE (log 7). The estimate of a core's VDDC current, in milliamperes, at the `n`-th governor interval; the
manual gives no rule from activity to current (R115). -/
opaque coreCurrent : Nat → Nat → Nat

/-- DESIGN CHOICE (log 8). The pseudo-channel and the bank, 0 to 14, that hold a physical address of a stack; the manual gives no
such function (R18, R19, R30). -/
opaque bankOf : Nat → Nat × Nat

/-- DESIGN CHOICE (log 8). The row of its bank in which a physical address of a stack lies (R25, R29); the manual gives no such function. -/
opaque rowOf : Nat → Nat

/-- DESIGN CHOICE (log 45). What a package knows of its domain at the `n`-th derivation of its upstream path: which ids other packages hold,
which of them are eligible as time master, which are its neighbours, and how many hops a package lies from the master; the manual gives a package
no way to learn it (R42). -/
opaque domainHolds : Nat → Nat → Bool
opaque domainEligible : Nat → Nat → Bool
opaque domainNeighbour : Nat → Nat → Bool
opaque domainHops : Nat → Nat → Nat

/-- DESIGN CHOICE (log 6). The bytes of the shipped image of a kind (0 to 4, R80), while flash holds no other. -/
opaque shippedImage : Nat → List Byte

/-- DESIGN CHOICE (log 6). What a decode table image holds: entries that differ from the shipped table, GEN, and type descriptors as code,
bits, exponent bits, fraction bits, bias, infinities, NaN; the manual gives the image no layout (R263, R266). -/
opaque tableEntries : List Byte → List (Nat × BitVec 32)
opaque tableGen : List Byte → Word
opaque tableTypes : List Byte → List (TypeCode × (Nat × Nat × Nat × Nat) × Bool × Bool)

/-- DESIGN CHOICE (log 6). The memory range of partition 0 that a configuration record names; the manual gives the record no layout (R457). -/
opaque recordRange : List Byte → Option (Nat × Nat)

/-- DESIGN CHOICE (log 46). Whether the `n`-th flash record that is read passes its checks, and the data rate, 0 to 2, that the `n`-th training
reaches (R17, R31, R32). -/
opaque flashGood : Nat → Bool
opaque trainedRate : Nat → Nat

/-- DESIGN CHOICE (log 46). The delays of all lanes, as one number, and Vref that the `n`-th training of a stack sets, and the serial number
that a stack reports (R31). -/
opaque trainedDelays : Nat → Nat → Nat
opaque trainedVref : Nat → Nat → Nat
opaque stackSerial : Nat → Nat → Nat

/-- DESIGN CHOICE (log 2). Whether a thread that waits for nothing the model holds is, at the `n`-th sample, in the cycle in which a convoy of it
issues (code 0) or is held by a reason of Table 9.6 that is a matter of timing (its code). -/
opaque sampled : Nat → Nat → Bool

/-- DESIGN CHOICE (log 7). The decay slope that the management controller programs at boot, in milliamperes for 64 cycles (R116). -/
opaque decaySlope : Nat

/-- DESIGN CHOICE (log 56). Where the save records of a partition begin in its memory, in units of 32 KiB, which the manual does not give (R81,
R250). -/
opaque saveBase : Nat → Nat

/-- DESIGN CHOICE (log 69). Whether the members of a flight instance on other packages are all found to have arrived at the `n`-th step: the manual gives no
message by which packages would tell (R88). -/
opaque othersArrived : Nat → Bool

/-- DESIGN CHOICE (log 5). The row of a step at which an `mmul` that is to stop is found in the MXA (R244, R249): its index is that of the next free value. -/
opaque stopRow : Nat → Nat

end Sys2Proof.Config
end

