-- ==== Sys2Proof/Machine/State.lean ====
section
/-! DEFINITION. The state of one DK940 package as plain data, what a step can stop with, and the state right after reset.
Where a docstring says DESIGN CHOICE the manual gives no reset value and log entry 4 names the value. -/

namespace Sys2Proof.Machine

/-! ## Element types, tiles and tile sets -/

/-- The element types of Table 6.1; `cb4 j` names codebook cbj. -/
inductive ETy where
  | i8 | n8 | i16 | n16 | i32 | n32 | i40 | e4m3 | e5m2 | e3m2 | cb4 (j : BitVec 2) | fp16 | bf16 | fp32 | a40
  deriving DecidableEq, Repr

/-- The value of one matrix register (R147): the element type, the 4,096 element codes in row-major order, one poison bit
for each 8-byte word of the tile's image, and the narrow type code when the type was widened (R266). -/
structure Tile where
  ety : ETy
  elems : Vector (BitVec 40) 4096
  poison : BitVec 2560
  narrow : Option TypeCode
  deriving DecidableEq, Repr

/-- A context: a map base with its partition and address space (06, Switching contexts). -/
structure Ctx where
  part : Nat
  asid : BitVec 16
  base : Word
  deriving DecidableEq, Repr

/-- A resident version: its context and register, its value, its marks and the granules that hold it (R154, R157, R166). `filling` with `dirty` is PRODUCING: the CPE has not written its last byte
(R156). -/
structure TileSet where
  ctx : Ctx
  reg : MReg
  tile : Tile
  dirty : Bool
  lastUsed : Bool
  filling : Bool
  hinted : Bool
  spilling : Bool
  /-- a blocked eviction (R164): the binding number of the task that was told, or none when the partition was notified -/
  blocked : Option (Option Nat)
  granules : List Nat
  /-- the number under which the FSE works on the set, unlike that of any other set (the model's own) -/
  job : Nat
  deriving DecidableEq, Repr

/-- A map-cache entry: the TMAP entry of Table 6.2, and whether it differs from memory (R152). -/
structure MapLine where
  reg : MReg
  entry : BitVec 128
  changed : Bool
  deriving DecidableEq, Repr

/-! ## Places of bytes -/

/-- How an access reaches HBM: through L1 and L2, past L1 but through L2 (the FSE, the CPE, what a home slice serialises; R149), or, on
a GX or a DEV page, past both (R189, R191). -/
inductive Via where
  | l1 | l2 | gx | dev
  deriving DecidableEq, Repr

/-- Where a byte lies: HBM (element-ordered when SH), a scratchpad byte, a control page word, the decode table copy, or leased memory: its address
in the aperture, and the package and HBM offset that it stands for. -/
inductive Place where
  | hbm (pa : Nat) (via : Via) (sh : Bool)
  | spad (key : Nat)
  | ctl (off : Nat)
  | dtab (off : Nat)
  | lease (pa peer off : Nat) (via : Via) (sh : Bool)
  deriving DecidableEq, Repr

/-! ## Threads -/

/-- The trap causes of Table 9.1. -/
inductive Cause where
  | illegal | absent | illegalLine | illegalConvoy | vtypeIllegal | ecall | brk | barRange | fetchFault | addrFault | pageFault
  | memProt | leaseFault | streamFault | landingFault | tmapFault | tileInvalid | fillFault | spillFault | memUe | remoteNak
  | leaseRevoke
  deriving DecidableEq, Repr

/-- A pending asynchronous cause with the trap fields it will report (R244). -/
structure Async where
  cause : Cause
  xaddr : Word
  xelem : Word
  reg : MReg
  deriving DecidableEq, Repr

/-- A skip-mode resume that the next issue of the member at `vstart` honours (R241). -/
structure Skip where
  cause : Cause
  elem : Nat
  mask : Word
  deriving DecidableEq, Repr

/-- Why a slot does not issue: the waiting instruction and its operands. -/
inductive Stall where
  | none
  /-- a gang task held until GSTART (R104) -/
  | gang
  /-- `wait`: destination, address, physical line and the cycle it began (R337) -/
  | wait (a : SReg) (addr : Word) (line : Nat) (since : Nat)
  /-- `sleep`: the deadline (R342) -/
  | sleep (deadline : Word)
  /-- `bar` of a flight (R336) -/
  | bar (n : Nat)
  /-- `bar` of a pre-empted member whose barrier has completed, which completes as its thread resumes (R336) -/
  | barDone
  /-- `capp` without room (R91); `since` is the cycle it began waiting (R98) -/
  | capp (a : SReg) (src : CappSrc) (c : SReg) (k : QReg) (landing : Nat) (since : Nat)
  /-- `qpop` on an empty, open landing (R424) -/
  | qpop (a b : SReg) (d : BitVec 5)
  /-- `rwait` of a transfer (R420) -/
  | rwait (id : Nat)
  /-- `cpgo` or `rinit` that waits for transfers (R414, R418) -/
  | copy
  /-- `mwait` (R429) -/
  | mwait (reg : MReg)
  /-- `msend` with a full window (R49) -/
  | msendWindow (dest : Nat)
  /-- `halt` until sends are answered (R343) -/
  | halt
  /-- `fence`, `cflush`, `cinv`, `tlbinv` until acknowledged (R335, R346, R347) -/
  | fence (scope : Scope)
  | cflush (first lines : Nat)
  | cinv (first lines : Nat)
  | tlbinv (kind : BitVec 2) (va : Word) (asid : BitVec 16)
  /-- a vector unit (R132) since a cycle -/
  | vectorUnit (since : Nat)
  /-- the restore of saved vector state (R134) -/
  | vectorRestore
  /-- the groups of a `vldx` that a GXU returns (R193) -/
  | gather (req : Nat)
  /-- a tile entry that is not RESOLVED or not DONE (R142, R388) -/
  | tile
  /-- a walk between two of its steps (R399, R400) -/
  | walk
  /-- a granule set (R159) or a blocked spill (R164) -/
  | granules
  /-- issue that the current governor withholds (R115) -/
  | governed
  /-- a granule set, and the dirty version chosen to be spilled for it (R158) -/
  | spill (c : Ctx) (reg : MReg)
  /-- a leased access over UALink that has not been answered (R52) -/
  | lease
  /-- writes to leased memory that have not been acknowledged, those of the thread and of a line (R227) -/
  | links (line : Option Nat)
  /-- a line of code that an `ipf` is filling (R123) -/
  | code (line : Nat)
  /-- a miss slot of the core (R185) -/
  | missSlot
  deriving DecidableEq, Repr

/-- A bound stream: the pattern record of Table 7.8, the position, and the run-ahead vectors with the lines they read (R194 to
R196). A run-ahead vector is its first position, its elements (none where the load failed) and its lines. -/
structure Stream where
  reg : BitVec 5
  record : Word
  dbase : Word
  btab : Word
  start : BitVec 32
  count : BitVec 32
  bsh : Nat
  tsh : Nat
  indirect : Bool
  esz : Nat
  depth : Nat
  pos : Nat
  ahead : List (Nat × List (Option (BitVec 32)) × List Nat)
  deriving DecidableEq, Repr

/-- A completion ring slot (R418, R419): base, log2 entries, and the counts of entries reserved, written and released. -/
structure Ring where
  base : Word
  log2 : Nat
  reserved : Nat
  written : Nat
  released : Nat
  deriving DecidableEq, Repr

/-- A launched copy (R414): its id, status (0 in progress, 1 OK, 2 faulted, 3 poison carried), recorded cause and failing VA, and
the shadow registers, the mode and the tile map base as they were at launch. -/
structure Transfer where
  id : Nat
  status : Nat
  cause : BitVec 16
  fva : Word
  src : Word
  dst : Word
  ndim : Word
  ring : Word
  ext : Vector Word 10
  sst : Vector Word 10
  dstStride : Vector Word 10
  sup : Bool
  map : Word
  /-- bytes performed so far by iteration index, those of a tile image with their poison, and whether one of them was poisoned (R220) -/
  done : List Nat
  image : List (Nat × Byte × Bool)
  tainted : Bool
  /-- bytes read and not yet written, by iteration index, with their poison (R220) -/
  taken : List (Nat × Byte × Bool)
  /-- all bytes are performed, with this status, cause and failing VA, and its writes are not yet visible at its scope (R221) -/
  result : Option (Nat × BitVec 16 × Word)
  deriving DecidableEq, Repr

/-- A task: one instance of a stage bound to a slot (R90), or a system-queue task (`launch = none`, R81, R99). -/
structure Task where
  launch : Option Nat
  stage : Nat
  index : Nat
  part : Nat
  asid : BitVec 16
  prio : Nat
  heat : Nat
  spadu : Nat
  /-- byte offset of the scratchpad allocation in the core's scratchpad -/
  spadBase : Nat
  /-- scratchpad split of the launch; none for a system task (R97) -/
  split : Option Nat
  /-- tile map slot of the launch's pool, when TILES = 1 (R95) -/
  mapSlot : Option Nat
  entry : Word
  sarg : Word
  supervisor : Bool
  /-- a translator task: the partition's translation that it serves (R260) -/
  translator : Bool
  /-- cycle at which the task last became pending (R100) or was last bound (R101) -/
  since : Nat
  /-- the task has made its first qpop (R92) -/
  popped : Bool
  /-- counts the tasks bound before it; 0 before its first binding (the model's own) -/
  uid : Nat
  deriving DecidableEq, Repr

/-- One thread slot (Table 5.1, Table 11.1, Table 11.2). -/
structure Thread where
  /-- 64 bits; PC of the first head of the convoy in issue (R118). Reset 0: no task (DESIGN CHOICE, log 4). -/
  pc : Word
  /-- 2 bits of meaning; member of the convoy that issues next (R128). Reset 0 (the model's own). -/
  member : Nat
  /-- members of the convoy in issue (R122). Reset 1 (the model's own). -/
  convoyLen : Nat
  /-- 64 bits; the PC that sequential fetch reaches after the convoy (R318). Reset 0 (the model's own). -/
  nextPc : Word
  /-- 96 bits; instruction value of the member in issue (R279), reported by R233. Reset 0 (the model's own). -/
  ir : BitVec 96
  /-- the slot's line buffer (Table 5.1): line address and contents of the line that sequential issue uses. Reset empty. -/
  lineBuf : Option (Word × BitVec 512)
  /-- the line after it, looked up as the last convoy of the line issued, and whether it is poisoned (R126). Reset none. -/
  nextLine : Option (Word × BitVec 512 × Bool)
  /-- s0 to s63, 64 bits each (R270). Reset 0 (Table 11.6). -/
  regs : Vector Word 64
  /-- v0 to v31, 128 elements of 32 bits each (R270). Reset 0: not readable until a configuration clears them (Table 11.6). -/
  v : Vector (Vector (BitVec 32) 128) 32
  /-- q0 to q7, 128 bits each; q0 reads as ones (R270, R271). Reset 0 (as v). -/
  q : Vector (BitVec 128) 8
  /-- g0 to g7, 4,096 bits each; g0 reads as ones (R270, R271). Reset 0 (Table 11.6). -/
  g : Vector (BitVec 4096) 8
  /-- cb0 to cb3, 16 BF16 entries each (R270, R297). Reset 0 (Table 11.6). -/
  cb : Vector (BitVec 256) 4
  /-- 64 bits; CSR 0x001, rounding mode and flags (Table 11.3). Reset 0. -/
  fcsr : Word
  /-- 64 bits; CSR 0x010 (R272). Reset 0. -/
  vl : Word
  /-- 64 bits; CSR 0x011 (R272). Reset 1. -/
  vlr : Word
  /-- 64 bits; CSR 0x012 (Table 11.4). Reset VCFG = 0. -/
  vtype : Word
  /-- 64 bits; CSR 0x013, resumption point (R237). Reset 0. -/
  vstart : Word
  /-- 64 bits; CSR 0x014 (Table 11.5). Reset K = COLS = ROWS = 64. -/
  tshape : Word
  /-- 64 bits; CSR 0x040, tile map base (R149). Reset 0 (R95). -/
  tmapbase : Word
  /-- 64 bits; CSR 0x041 (Table 6.6). Reset 0. -/
  tmaprx : Word
  /-- 64 bits; CSR 0x080 (R277). Reset 0. -/
  cpsrc : Word
  /-- 64 bits; CSR 0x081. Reset 0. -/
  cpdst : Word
  /-- 64 bits; CSR 0x082 (Table 17.2). Reset 1. -/
  cpndim : Word
  /-- 64 bits; CSR 0x083 (Table 17.3). Reset 0. -/
  cpring : Word
  /-- ten of 64 bits; CSRs 0x090 to 0x099. Reset 0. -/
  cpext : Vector Word 10
  /-- ten of 64 bits; CSRs 0x0A0 to 0x0A9. Reset 0. -/
  cpsst : Vector Word 10
  /-- ten of 64 bits; CSRs 0x0B0 to 0x0B9. Reset 0. -/
  cpdstS : Vector Word 10
  /-- 64 bits; CSR 0x100 (R236). Reset 0. -/
  xcause : Word
  /-- 64 bits; CSR 0x101 (R234). Reset 0. -/
  xepc : Word
  /-- 64 bits; CSR 0x102 (R236). Reset 0. -/
  xconvoy : Word
  /-- 64 bits; CSR 0x103 (Table 9.1). Reset 0. -/
  xelem : Word
  /-- 64 bits; CSR 0x104 (Table 9.1). Reset 0. -/
  xaddr : Word
  /-- 64 bits; CSR 0x105 (R236). Reset 0. -/
  xmask : Word
  /-- CSR 0x106 bit 0, the mode (Table 9.2). Reset 0. -/
  sup : Bool
  /-- CSR 0x106 bit 1, PSUP. Reset 0. -/
  psup : Bool
  /-- CSR 0x106 bit 2, INH. Reset 0. -/
  inh : Bool
  /-- CSR 0x106 bit 5, SKIP. Reset 0. -/
  skipBit : Bool
  /-- CSR 0x106 bit 6, NTF (R248). Reset 0. -/
  ntf : Bool
  /-- 64 bits; CSR 0x107, handler entry (R234). Reset 0. -/
  xvec : Word
  /-- 64 bits; CSR 0x108 (R236). Reset 0. -/
  xscratch : Word
  /-- pending asynchronous causes, at most one a code (R244); PEND reads whether there is one. Reset none. -/
  pend : List Async
  /-- skip mode of the resumed member (R241). Reset none (the model's own). -/
  skip : Option Skip
  /-- an `eret` has resumed a member that has not performed anything since (R242). Reset false (the model's own). -/
  resumed : Bool
  /-- the vector unit of the core that the thread holds (R132). Reset none. -/
  unit : Option Nat
  /-- a configuring instruction has run since task start or vrel (R357). Reset false. -/
  vlive : Bool
  /-- high-water element count L (R197). Reset 0. -/
  vhigh : Nat
  /-- bound streams, at most four (R194). Reset none. -/
  streams : List Stream
  /-- completion ring slots 0 to 3 (R418). Reset none. -/
  rings : Vector (Option Ring) 4
  /-- the transfers issued and not yet forgotten, newest first (R420). Reset none. -/
  transfers : List Transfer
  /-- 32 bits; the next transfer id (R414). Reset 1. -/
  nextId : Nat
  /-- the slot's map cache (R152). Reset empty. -/
  mapCache : List MapLine
  /-- what the slot waits for. Reset none (the model's own). -/
  stall : Stall
  /-- the launch or partition of the task is being ended (R94, R71, R72). Reset false. -/
  ending : Bool
  /-- pre-emption chosen by the DST, taken at the next convoy boundary (R101). Reset false. -/
  preempt : Bool
  /-- the thread has stored since its last fence, so that a store may be unacknowledged (Table 8.4, R335). Reset false (the
  model's own). -/
  stored : Bool
  /-- the last setvl, setts of the thread was cut by a cap (R114). Reset false. -/
  cut : Bool
  /-- elements of the vector store in hand below this one are performed (R229; the model's own). Reset 0. -/
  vdone : Nat
  /-- tiles that the steps of the gated walk in hand have read (R158; the model's own). Reset none. -/
  walked : List Tile
  /-- the backing slots of the gated walk in hand, which is RESOLVED: for each register that its checks translated, the place of each 4 KiB of the slot
  (R399; the model's own). Reset none. -/
  checked : Option (List (MReg × List Place))
  /-- source versions of the queued tile instruction that were superseded after its dispatch (R155, R156). Reset none. -/
  held : List TileSet
  /-- the number of the thread's save record in partition memory, while it holds what the thread does not (R197, R250). Reset none. -/
  save : Option Nat
  /-- the bound task (R90). Reset none. -/
  task : Option Task
  deriving DecidableEq, Repr

/-! ## Cores and dies -/

/-- A TLB entry: one page of one size under one ASID, with its leaf (R184). -/
structure TlbEntry where
  asid : BitVec 16
  page : Nat
  sizeLog : Nat
  leaf : Word
  deriving DecidableEq, Repr

/-- A walk-cache entry: the pointer that a level holds for a VA prefix (R184). -/
structure WalkPtr where
  asid : BitVec 16
  level : Nat
  idx : Nat
  table : Nat
  deriving DecidableEq, Repr

/-- A line of a hint that waits for a walk (R198): its slot and task, address and kind (0 ipf, 1 dpf), and the partition and mode of the task that
issued it. -/
structure HintLine where
  tid : Nat
  uid : Nat
  va : Word
  kind : Nat
  part : Nat
  sup : Bool
  deriving DecidableEq, Repr

/-- A walk that hints started and that has not ended: the address space and the 4 KiB page of the first line, the lines that share it, and the result
that a demand access which shares it has found: a leaf, or none (R185, R455). -/
structure Walk where
  asid : BitVec 16
  page : Nat
  hints : List HintLine
  result : Option (Option TlbEntry)
  deriving DecidableEq, Repr

/-- A line held in an L1 or an instruction cache: line number, contents, one poison bit for each 8-byte word (R15), whether a hint brought it
and no demand access has used it yet (R189, R199), whether the access that waited for it has not touched it yet (R454), the partition charged, and the
cycle it was filled in (R207). -/
structure Line where
  num : Nat
  data : BitVec 512
  bad : BitVec 8
  hinted : Bool
  fresh : Bool
  part : Nat
  filled : Nat
  deriving DecidableEq, Repr

/-- An L2 line: line number, dirty bit and the partition that last wrote it (R190). The newest bytes of the line lie in `State.mem`; `below` and
`belowBad` are what HBM still holds, with its poison, while the line is dirty (R191) or an uncorrectable error has `hurt` its copy in L2 (R15). A leased line has its bytes in `State.mem` under its address
in the aperture; `home` is its lender and the offset of the line there, none for a line of HBM, `mask` the bytes written and not written back, `users`
the tasks whose threads have cached it (R52, R227), `filled` the cycle of its fill, and `fresh` says that the access that filled it has not
touched it yet (R192). -/
structure L2Line where
  num : Nat
  dirty : Bool
  part : Nat
  below : BitVec 512
  belowBad : BitVec 8
  hurt : Bool
  home : Option (Nat × Nat)
  mask : BitVec 64
  users : List Nat
  filled : Nat
  fresh : Bool
  deriving DecidableEq, Repr

/-- Lending states of Table 4.7. -/
inductive QState where
  | free | reserved | draining | lent | reclaim | scrub
  deriving DecidableEq, Repr

/-- One quarter of a dark core: its state, the launch it is lent to and that launch's scratchpad split, which gives its size (R107, R108). -/
structure Quarter where
  st : QState
  launch : Option Nat
  split : Nat
  deriving DecidableEq, Repr

/-- Tile queue entry states of Table 5.6 that an entry can rest in; one whose sources are all present is not queued. -/
inductive TqState where
  | waitFill | resolved | executing | done | faulted
  deriving DecidableEq, Repr

/-- A tile queue entry: its slot, its instruction, its state, the registers whose values it awaits, those that it pins (R158), and the
fault it met. -/
structure TileEntry where
  tid : Nat
  instr : Instr
  st : TqState
  fills : List MReg
  uses : List MReg
  fault : Option (Cause × Word × Word)
  deriving DecidableEq, Repr

/-- A vector unit: holder, lane map, retired lanes and lanes marked for retirement (R132, R138, R139). -/
structure VUnit where
  holder : Option Nat
  laneMap : List Nat
  retired : List Nat
  marked : List Nat
  acquired : Nat
  deriving DecidableEq, Repr

/-- The accumulator bank of an MXA (R146): the register that it accumulates for and its value, which the register's granule set does not hold
until the bank is written back. -/
structure Bank where
  ctx : Ctx
  reg : MReg
  tile : Tile
  deriving DecidableEq, Repr

/-- One core (Table 5.1). -/
structure Core where
  /-- scratchpad and L1 split, 0 to 2 (R97, R186). Reset 0 (DESIGN CHOICE, log 4: taken from the first task). -/
  split : Nat
  /-- write-assist, bit WA of `heat` (R34, R130). Reset 0. -/
  wa : Bool
  /-- the cycle in which write-assist last ended (R130; the model's own). Reset none. -/
  waOff : Option Nat
  /-- the two vector units (R117). Reset not held, lanes 0 to 15. -/
  unit0 : VUnit
  unit1 : VUnit
  /-- the slots that have waited longest allowed for a unit, since when, and the unit whose holder is pre-empted for each (R133). Reset none. -/
  starved : List (Nat × Nat × Nat)
  /-- 64-entry L1 TLB, most recently used first (R184). Reset empty (DESIGN CHOICE, log 4). -/
  tlb : List TlbEntry
  /-- instruction cache lines, most recently used first (R123). Reset empty (DESIGN CHOICE, log 4). -/
  icache : List Line
  /-- instruction line fills that hints requested, the first 8 of them in flight: PA line, partition, whether a demand lookup waits for it, and how its
  page is cached (R123, R191, R454). Reset none. -/
  icFills : List (Nat × Nat × Bool × Via)
  /-- L1 data lines, most recently used first (R189, R207). Reset empty (DESIGN CHOICE, log 4). -/
  l1 : List Line
  /-- resident granule sets, least recently used first (R154, R158). Reset none. -/
  sets : List TileSet
  /-- sets of `mpf` fills whose versions were superseded or released unread, which run on (R167). Reset none. -/
  gone : List TileSet
  /-- the MXA's accumulator bank (R146). Reset none. -/
  acc : Option Bank
  /-- tile queue, oldest first (R140). Reset empty. -/
  tileq : List TileEntry
  /-- lending state of the core's four quarters (Table 4.7). Reset FREE. -/
  quarters : Vector Quarter 4
  /-- the slot the issue arbiter took last (R103). Reset 3 (DESIGN CHOICE, log 4). -/
  lastSlot : Nat
  /-- governed current of the core in milliamperes (R115, R116). Reset 0 (DESIGN CHOICE, log 4). -/
  governed : Nat
  /-- current that the ballast draws in milliamperes, 0 to 20,000 (R116). Reset 0 (DESIGN CHOICE, log 4). -/
  ballast : Nat
  /-- the governor withholds MXA, Goral and vector issue (R115). Reset false. -/
  withheld : Bool
  /-- the package's clock cycle at the core's last PC sample (R252). Reset 0 (DESIGN CHOICE, log 4). -/
  sampledAt : Nat
  deriving DecidableEq, Repr

/-- One compute die with its L2 slice and DST instance. -/
structure Die where
  /-- die TLB of 8,192 entries (R184). Reset empty (DESIGN CHOICE, log 4). -/
  tlb : List TlbEntry
  /-- walk cache of 256 entries (R184). Reset empty (DESIGN CHOICE, log 4). -/
  walkCache : List WalkPtr
  /-- hint walks in progress on the die's 64 walkers (R185). Reset none. -/
  walks : List Walk
  /-- tags of the L2 slice, most recently used first (R190). Reset empty (DESIGN CHOICE, log 4). -/
  l2 : List L2Line
  /-- thermal grant level 0 to 3 and the epochs for which every lower condition has held (R113). Reset 0. -/
  level : Nat
  calm : Nat
  /-- placement stopped at 105 degrees (R35). Reset false. -/
  stop : Bool
  /-- latest sensor sample: temperatures in 0.1 degrees, supply in mV, current in 0.1 A (R35). Reset 0 (DESIGN CHOICE, log 4). -/
  temps : Vector Nat 16
  vdd : Nat
  idd : Nat
  /-- thermal grant level and cores in write-assist at that sample (R79). Reset 0. -/
  levelSeen : Nat
  wacSeen : Nat
  /-- slot quotas: launch, stage, whether of the lit pool, and count (R98). Reset none. -/
  quota : List (Nat × Nat × Bool × Nat)
  /-- the cycle at which the current epoch began (R98). Reset 0. -/
  epoch : Nat
  deriving DecidableEq, Repr

/-! ## The distributor: launches, landings, queues -/

/-- Flight descriptor (Table 4.2). -/
structure Flight where
  domain : Nat
  scope : Nat
  count : Nat
  deriving DecidableEq, Repr

/-- Stage descriptor (Table 4.3) and the stage's progress: tasks created so far, tasks ended, and activated tasks that have not
popped yet (R92, R93). -/
structure Stage where
  barf : Nat
  tlim : Nat
  spadu : Nat
  inv : Bool
  inl : Nat
  tiles : Bool
  demote : Bool
  heat : Nat
  sarg : Word
  entry : Word
  created : Nat
  ended : Nat
  owed : Nat
  /-- a task of the stage stalled in capp for the whole last epoch (R98) -/
  stalled : Bool
  deriving DecidableEq, Repr

/-- Landing descriptor (Table 4.4) and its pointers: entries popped, published and reserved so far (R91, R423). -/
structure Landing where
  pmask : BitVec 8
  home : Nat
  cstg : Nat
  wide : Bool
  lsz : Nat
  base : Word
  head : Nat
  tail : Nat
  deriving DecidableEq, Repr

/-- A launch from its record (Table 4.1), while it runs. -/
structure Launch where
  key : Nat
  part : Nat
  qid : Nat
  id : Word
  asid : BitVec 16
  args : Word
  prio : Nat
  split : Nat
  gang : Bool
  gstart : Word
  grank : Nat
  npkg : Nat
  tmpool : Word
  /-- free tile map slots of the pool -/
  maps : List Nat
  flights : List Flight
  stages : List Stage
  landings : List Landing
  /-- its tasks may issue: always but for a gang before GSTART (R104) -/
  started : Bool
  /-- domain instances that its placed tasks have fixed: flight, flight instance, domain instance (R87, R97) -/
  fixedDom : List (Nat × Nat × Nat)
  /-- ticks at which its first task was bound and at which its last task so far ended (R68) -/
  stick : Option Word
  etick : Option Word
  /-- cause of the first unresumed trap (R94) -/
  cause : Option (BitVec 16)
  aborted : Bool
  deriving DecidableEq, Repr

/-- A pending task (R458): the task, and the core it must resume on with what the device keeps of its thread beside the save record in memory
(R102, R250). -/
structure Pending where
  task : Task
  home : Option (Nat × Nat)
  saved : Option Thread
  deriving DecidableEq, Repr

/-- A launch queue (R66): a ring of records in device memory. -/
structure Queue where
  part : Nat
  qid : Nat
  base : Word
  size : Nat
  asid : BitVec 16
  tail : Nat
  read : Nat
  /-- records between `read` and `tail` (the model's own: it tells a full ring from an empty one) -/
  unread : Nat
  session : BitVec 32
  deriving DecidableEq, Repr

/-- A LAUNCH that waits for a PSN (R66). -/
structure FenceWait where
  n : Nat
  session : BitVec 32
  part : Nat
  qid : Nat
  tail : BitVec 32
  qpn : Nat
  psn : BitVec 24
  deriving DecidableEq, Repr

/-- A completion entry (R68) and the queue it belongs to. -/
structure CompEntry where
  qid : Nat
  id : Word
  status : BitVec 16
  cause : BitVec 16
  stick : Word
  etick : Word
  deriving DecidableEq, Repr

/-! ## Partitions, sessions, RDMA -/

/-- An event ring descriptor (R253). -/
structure EvRing where
  base : Word
  log2 : Word
  head : Word
  tail : Word
  deriving DecidableEq, Repr

/-- A waiting notification (R248). -/
structure Notif where
  code : BitVec 16
  xelem : BitVec 32
  xaddr : Word
  deriving DecidableEq, Repr

/-- A memory region (R60). -/
structure Region where
  key : BitVec 32
  asid : BitVec 16
  read : Bool
  write : Bool
  va : Word
  bytes : Word
  deriving DecidableEq, Repr

/-- A translation cache entry: its key, and the place and length of the image (R262). -/
structure TransEntry where
  key : BitVec 384
  pa : Word
  bytes : Nat
  deriving DecidableEq, Repr

/-- A translation in progress: its key, H, the bytes of the module as the request named it, and the offset at which the module is refused (R260). -/
structure TransJob where
  key : BitVec 384
  h : Nat
  code : List Byte
  bad : Option (BitVec 32)
  deriving DecidableEq, Repr

/-- A partition with the words of its control page (R72, R200). -/
structure Partition where
  id : Nat
  pairs : BitVec 36
  memPa : Nat
  memBytes : Nat
  /-- control page words (Table 7.11): XVEC, PSHIFT, ASID select, lease index, low lease word, translation request. Reset 0. -/
  xvec : Word
  pshift : Word
  /-- the cycle in which PSHIFT was last set (the model's own). Reset 0. -/
  pshiftAt : Nat
  asidSel : Word
  leaseIdx : Word
  leaseLow : Word
  transVa : Word
  transH : Word
  /-- translation status, the offset at which the module is refused, and the result (Table 7.11). Reset idle. -/
  transState : Nat
  transBad : Option (BitVec 32)
  transResult : Word
  /-- the key of the latest request, whose result is to be posted (R262). Reset 0. -/
  transKey : BitVec 384
  /-- the translations in progress, oldest first (R260, R262). Reset none. -/
  transJobs : List TransJob
  /-- translation cache, most recently requested first (R262). Reset empty. -/
  transCache : List TransEntry
  /-- event rings 0 to 3 (R253). Reset 0. -/
  rings : Vector EvRing 4
  /-- counters of Table 9.9. Reset 0. -/
  counters : Vector Word 64
  /-- notifications waiting, at most 16 (R248). Reset none. -/
  notifs : List Notif
  /-- memory regions (R60). Reset none. -/
  regions : List Region
  /-- completion queue of 4,096 (R68). Reset empty. -/
  comps : List CompEntry
  /-- a launch of the partition has started (R43). Reset false. -/
  launched : Bool
  /-- the partition is being destroyed: its tasks are ending (R72). Reset false. -/
  closing : Bool
  deriving DecidableEq, Repr

/-- ASID table entry (Table 7.2): partition, V and ROOT; an assigned ASID may have V = 0. -/
structure AsidEntry where
  asid : BitVec 16
  part : Nat
  valid : Bool
  root : Nat
  deriving DecidableEq, Repr

/-- A message of the device in a session that has not been acknowledged (R64). -/
structure Unacked where
  seq : BitVec 32
  typ : Nat
  ver : BitVec 8
  /-- a further fragment follows -/
  more : Bool
  payload : List Byte
  tries : Nat
  comps : List CompEntry
  deriving DecidableEq, Repr

/-- An open DKCP session (R64, R65). -/
structure Session where
  id : BitVec 32
  part : Nat
  ver : BitVec 8
  received : List (BitVec 32)
  /-- the lowest number after that of HELLO that has not been received -/
  expect : BitVec 32
  frags : List (BitVec 32 × Nat × Bool × List Byte)
  nextSeq : BitVec 32
  unacked : List Unacked
  deriving DecidableEq, Repr

/-- A queue pair (R59): sequence number expected next and the last one committed. -/
structure Qp where
  qpn : Nat
  part : Nat
  remote : BitVec 24
  mtu : Nat
  addr : Word × Word
  sendPsn : BitVec 24
  recvPsn : BitVec 24
  error : Bool
  deriving DecidableEq, Repr

/-- A request to the memory of another package: the package, the offset in its HBM and what is asked (Table 2.1, R52). -/
structure LeaseReq where
  dest : Nat
  offset : Nat
  req : LinkReq
  deriving DecidableEq, Repr

/-- What the device sends to the host or to another package, oldest last. -/
inductive Out where
  | dkcp (session : BitVec 32) (part : Nat) (seq : BitVec 32) (ver : BitVec 8) (typ : Nat) (ar : Bool) (more : Bool) (payload : List Byte)
  | rdmaAck (qpn : Nat) (psn : BitVec 24)
  | rdmaData (qpn : Nat) (psn : BitVec 24) (data : List Byte)
  | rdmaNak (qpn : Nat) (psn : BitVec 24) (kind : Nat)
  | link (port : Nat) (m : LinkMsg)
  | linkReq (port tag : Nat) (r : LeaseReq)
  | linkReply (port dest : Nat) (error : Bool) (data : List Byte)
  deriving DecidableEq, Repr

/-! ## UALink -/

/-- A UALink port (R37, R38). -/
structure Port where
  enabled : Bool
  up : Bool
  /-- it went down while no port was up, and the entries that name it have not moved yet (R38; log 80) -/
  stranded : Bool
  lanes : Nat
  /-- asymmetry allowance A in ns (R44). Reset 4. -/
  asym : Nat
  deriving DecidableEq, Repr

/-- A TILE message that has not been answered (R49): its sequence number, the message, the binding of the task that sent it, its place in the
order of all sends, and whether it has been injected (R50). -/
structure Sent where
  seq : BitVec 16
  msg : LinkMsg
  uid : Nat
  ord : Nat
  injected : Bool
  deriving DecidableEq, Repr

/-- The messages to one destination that await an answer, oldest first, the next sequence number, the resends without an answer, and the
message refused with BUSY (R48, R49). -/
structure TxWin where
  dest : Nat
  next : BitVec 16
  unacked : List Sent
  resends : Nat
  backoff : Option (BitVec 16)
  deriving DecidableEq, Repr

/-- A tile registration (R174). -/
structure RxReg where
  part : Nat
  asid : BitVec 16
  tag : BitVec 16
  base : Word
  first : Nat
  last : Nat
  deriving DecidableEq, Repr

/-- A lease table entry (Table 2.4) and what the device keeps beside it. -/
structure Lease where
  entry : BitVec 128
  /-- deadline of the revocation (R55) -/
  deadline : Word
  /-- LEND_UNMARK caused the revocation (R56) -/
  drop : Bool
  /-- the borrower has stopped new accesses and drains (Table 2.6) -/
  draining : Bool
  deriving DecidableEq, Repr

/-- Tick synchronisation (R42 to R45): eligibility, Eu + A of the last exchange in ns, offset still to slew in ns, the send tick of the TSYNC in
flight, the upstream neighbour, the tick of the last valid exchange, the last eight rate samples in parts of 10^9, whether
the package has stepped to the domain's time, and the ticks since the last one that slewing added or withheld. -/
structure TSync where
  eligible : Bool
  err : Nat
  offset : Int
  sent : Option Word
  /-- the upstream neighbour (R42) -/
  upstream : Option Nat
  lastGood : Word
  rates : List Int
  joined : Bool
  slewed : Nat
  /-- the package has found itself to be the time master -/
  master : Bool
  /-- rate trim in parts of 10^9, and the part of a tick that it has come to (R43) -/
  trim : Int
  trimPart : Int
  /-- the package joined more than 1 µs ahead and has not been SYNCED since (R43) -/
  ahead : Bool
  /-- eligibility and the allowances of ports 0 to 15 that TICK_CONFIG has set, until the next exchange takes them (R78) -/
  config : Option (Bool × List Nat)
  deriving DecidableEq, Repr

/-! ## Management controller -/

/-- A run-time bank test in progress (Table 1.3): state 0 PARKING, 1 PARKED, 2 RETURNING, and the table indices of the row remaps that it has
added, which go with it when a reset abandons it (R27). -/
structure Bist where
  stack : Nat
  pch : Nat
  bank : Nat
  index : Nat
  st : Nat
  added : List Nat
  deriving DecidableEq, Repr

/-- An error in the cells of a burst that no read has met, and whether it is uncorrectable (R20). -/
structure Latent where
  burst : Nat
  site : DramSite
  ue : Bool
  deriving DecidableEq, Repr

/-- An error in one copy of an entry of a row-remap and swap table that no access has met (R30). -/
structure EntryError where
  stack : Nat
  index : Nat
  second : Bool
  ue : Bool
  deriving DecidableEq, Repr

/-- A training record (R31): data rate code (0 for 9.6, 1 for 8.0, 2 for 6.4 Gb/s), the delays of all lanes as one number, Vref, and the serial
number that the stack reported. -/
structure Training where
  rate : Nat
  delays : Nat
  vref : Nat
  serial : Nat
  deriving DecidableEq, Repr

/-- What the management controller logs: a stack that trained at a fall-back rate (R17), a table entry that is ignored as invalid (R29), a bank
for retirement (R30), a core that is withdrawn from placement (R139). -/
inductive McEvent where
  | fallBack (stack rate : Nat)
  | ignoredEntry (stack index : Nat) (entry : BitVec 64)
  | retire (stack pch bank : Nat)
  | withdrawn (core : Nat)
  deriving DecidableEq, Repr

/-- A firmware load in progress (R80). -/
structure FwLoad where
  tag : BitVec 16
  kind : Nat
  total : Nat
  image : List (Nat × Byte)
  deriving DecidableEq, Repr

/-- The lifetime record of Table 9.10. -/
structure Lifetime where
  voltage : List (Nat × Nat × Nat)
  temperature : List (Nat × Nat × Nat)
  wa : List (Nat × Nat)
  corrected : List (Nat × Nat)
  uncorrectable : List (Nat × Nat)
  lanes : List (Word × Nat × Nat × Nat)
  remaps : List (Word × Nat × BitVec 64)
  deriving DecidableEq, Repr

/-- A decode-table type descriptor (R266). -/
structure TypeDesc where
  code : TypeCode
  bits : Nat
  expBits : Nat
  fracBits : Nat
  bias : Nat
  hasInf : Bool
  hasNan : Bool
  deriving DecidableEq, Repr

/-- A gather of a `vldx` at its originating GXU (R21, R193): its slot, destination and element size, every active element (logical
index, position, VA), the positions that zeroing clears, whether the GXU has received the indices, those not served yet (position
and physical address), the elements that have arrived with their poison, and the groups that have been returned. -/
structure Gather where
  req : Nat
  tid : Nat
  dst : BitVec 5
  size : Nat
  origin : Nat
  elems : List (Nat × Nat × Word)
  zero : List Nat
  sent : Bool
  idx : List (Nat × Nat)
  got : List (Nat × BitVec 32 × Bool)
  /-- faults of active elements found at the core; `elems` are those below the lowest -/
  refused : List (Nat × Word × Cause)
  returned : List Nat
  deriving DecidableEq, Repr

/-- A line of leased memory that is requested ahead of the access that needs it (R52, R126, R345): the core, the kind (0 ipf, 1 dpf, 2 the lookup of
the next sequential line), the partition charged, the line, its lender and offset there, the task it is for, whether an acquire of that task's thread
has made it worthless before it came (R227), and the tasks whose members wait for it. -/
structure HintFill where
  core : Nat
  kind : Nat
  part : Nat
  line : Nat
  home : Nat × Nat
  uid : Nat
  dead : Bool
  wants : List Nat
  deriving DecidableEq, Repr

/-- Who has asked for an access to leased memory (the model's own): the member in issue of a task, a copy transfer of a task, the map cache of a task,
the FSE for a granule set, a received tile, the DST for a record of a queue, the DST for the tile map of a task that it starts, a line requested ahead,
a write of cached bytes with the tasks that cached them and the line, or nobody any more. -/
inductive Asker where
  | member (uid : Nat)
  | copy (uid id : Nat)
  | map (uid : Nat) (reg : MReg)
  | tiles (job : Nat)
  | commit (src : Nat) (seq : BitVec 16)
  | record (part qid : Nat)
  | pool (key stage index : Nat)
  | line (h : HintFill)
  | post (uids : List Nat) (line : Nat)
  | gone
  deriving DecidableEq, Repr

/-- A request to leased memory that has been sent: its number, who asked, the partition, the request, and the answer once it has come: whether it is an
error, and the bytes (R40, R52). -/
structure Ask where
  tag : Nat
  who : Asker
  part : Nat
  req : LeaseReq
  reply : Option (Bool × List Byte)
  deriving DecidableEq, Repr

/-- Whose turn it is when no input waits: the arbiter chooses, or a slot has been chosen. -/
inductive Turn where
  | arbiter
  | slot (tid : Nat)
  deriving DecidableEq, Repr

/-- The state of the package. -/
structure State where
  /-- inputs that reach the device and steps of it that are due, in order (the model's own). Reset none. -/
  inbox : List Instr
  /-- whose turn it is (the model's own). Reset the arbiter. -/
  turn : Turn
  /-- steps taken, the index of the free number of cycles of a step (the model's own). Reset 0 (DESIGN CHOICE, log 2). -/
  steps : Nat
  /-- index of the next free value (the model's own). Reset 0 (DESIGN CHOICE, log 5). -/
  free : Nat
  /-- the package has power (R256). Reset true. -/
  powered : Bool
  /-- both firmware slots were rejected (R74). Reset false. -/
  recovery : Bool
  /-- cycles counted (R276). Reset 0 (DESIGN CHOICE, log 4: `cycle` counts from the core's last reset). -/
  now : Nat
  /-- 64 bits; package tick counter (R42) and the fifths of a tick above it. Reset 0 (DESIGN CHOICE, log 4). -/
  tick : Word
  tickRem : Nat
  /-- HBM, scratchpads: bytes by physical key (R177, R186). Reset nothing listed (log 1). -/
  mem : List Host.Cell
  /-- poisoned 8-byte words by key (R15). Reset none. -/
  poison : List Nat
  /-- fenced banks: stack, pseudo-channel, bank (R30). Reset none. -/
  fenced : List (Nat × Nat × Nat)
  /-- errors that lie in HBM (R20). Reset none. -/
  latent : List Latent
  /-- errors that lie in the copies of the remap tables' entries (R30). Reset none. -/
  entryErrors : List EntryError
  /-- fenced banks whose notifications are due (R30, R248). Reset none. -/
  fenceNews : List (Nat × Nat × Nat)
  /-- the slot whose thread is in hand: core * 4 + slot (the model's own). Reset 0. -/
  cur : Nat
  /-- the thread in hand. -/
  t : Thread
  /-- the other threads that are not as at reset, by slot. -/
  parked : List (Nat × Thread)
  /-- every core that is not as at reset, by core id. -/
  cores : List (Nat × Core)
  /-- the nine dies. -/
  dies : Vector Die 9
  /-- package grant level and calm epochs, power in W and current in 0.1 A (R113). Reset 0. -/
  level : Nat
  calm : Nat
  power : Nat
  current : Nat
  /-- decay slope of the governed currents, in milliamperes for 64 cycles (R116). Reset 17 (DESIGN CHOICE, log 4). -/
  decay : Nat
  /-- existing partitions by id (R72). Reset partition 0 with every hall pair (R457). -/
  parts : List Partition
  /-- assigned ASIDs (Table 7.2). Reset none. -/
  asids : List AsidEntry
  /-- launches that have not completed, launch queues, LAUNCH messages that wait for a fence, pending tasks (04). Reset none. -/
  launches : List Launch
  nextLaunch : Nat
  queues : List Queue
  fences : List FenceWait
  nextFence : Nat
  pending : List Pending
  /-- the number of the next task that is bound for the first time (the model's own). Reset 1. -/
  nextUid : Nat
  /-- DKCP sessions, oldest first, the next session id, messages discarded (R62 to R65). Reset none, 1, 0. -/
  sessions : List Session
  nextSession : Nat
  discarded : Nat
  nextKey : Nat
  /-- queue pairs (R59). Reset none. -/
  qps : List Qp
  nextQpn : Nat
  /-- messages sent, newest first (the model's own record of its outputs). Reset none. -/
  out : List Out
  /-- package id (R39). Reset not written. -/
  pkgId : Option (BitVec 10)
  /-- sixteen UALink ports (R37, R38). Reset disabled, down, four lanes, A = 4. -/
  ports : Vector Port 16
  /-- port table entries written: package and port (R38). Reset none. -/
  portMap : List (Nat × Nat)
  /-- remote tile windows by destination and the sequence number expected from each source (R49). Reset none. -/
  tx : List TxWin
  rx : List (Nat × BitVec 16)
  /-- tile registrations (R174), and the messages that hold a receive slot because their commit waits for granules (R47). Reset none. -/
  rxRegs : List RxReg
  rxHeld : List LinkMsg
  /-- the place of the next send in the order of all sends (the model's own). Reset 0. -/
  nextSend : Nat
  /-- lease table of 256 entries, those ever written, and the lendable pool: HBM offset and units in 64 MiB (R51, R53). Reset none. -/
  leases : List (Nat × Lease)
  lendable : List (Nat × Nat)
  /-- requests to leased memory that have been sent and whose answers have not come or have not been used, oldest first, and the number of the next
  (R52). Reset none, 0 (the model's own). -/
  asks : List Ask
  nextTag : Nat
  /-- the agent of the device in whose name a computation runs; none for the member of the thread in hand (the model's own). Reset none. -/
  agent : Option Asker
  /-- what waits for the port of its destination to come up, oldest first (R38). Reset none. -/
  linkWait : List (Nat × Out)
  /-- the number of the next granule set that the FSE works on (the model's own). Reset 0. -/
  nextJob : Nat
  /-- Sperov messages discarded, out-of-order TILE messages, fabric errors, lease entries ignored (R41, R49, R51). Reset 0. -/
  linkDiscarded : Nat
  tileEarly : Nat
  fabricErrors : Nat
  leaseBad : Nat
  writebackErrors : Nat
  /-- tick synchronisation (R42 to R45) and SYNCED (R44). Reset alone, E = 0, not SYNCED (Table 4.9). -/
  ts : TSync
  synced : Bool
  /-- gathers at the GXUs (R21) and the next request number. Reset none, 0. -/
  gathers : List Gather
  nextGather : Nat
  /-- measurement registers M0 to M7, 384 bits each (R74). Reset 0. -/
  meas : Vector (BitVec 384) 8
  /-- flash slots A and B: images by kind (R74, R80), the active slot, loads in progress. Reset empty (DESIGN CHOICE, log 4). -/
  flashA : List (Nat × List Byte)
  flashB : List (Nat × List Byte)
  activeB : Bool
  /-- an image was accepted since the last boot, so that the other slot comes first at the next (R80). Reset false. -/
  staged : Bool
  fwLoads : List FwLoad
  /-- decode table entries that differ from the shipped table (R263, R264), GEN, type descriptors (R266). Reset none, 0. -/
  decodeOver : List (Nat × BitVec 32)
  gen : Word
  typeDescs : List TypeDesc
  /-- row-remap and swap table entries by stack and index (Table 1.4) in its two copies, V, KIND and BANK of each entry in the three copies of
  the bank tag array, the table's two flash generations, banks retiring (R28 to R32). Reset none. -/
  remap : List (Nat × Nat × BitVec 64)
  remapCopy : List (Nat × Nat × BitVec 64)
  bankTags : Vector (List (Nat × Nat × BitVec 6)) 3
  remapFlash : List (Nat × Nat × BitVec 64)
  remapOld : List (Nat × Nat × BitVec 64)
  retiring : List (Nat × Nat × Nat)
  /-- run-time bank tests in progress (R24). Reset none. -/
  bists : List Bist
  /-- training records on flash by stack (R31), and the rate code at which each stack runs (R17). Reset none (DESIGN CHOICE, log 4). -/
  training : List (Nat × Training)
  rates : List (Nat × Nat)
  /-- log of the management controller, newest first (R17, R29, R30). Reset empty (DESIGN CHOICE, log 4). -/
  mcLog : List McEvent
  /-- lifetime record in RAM, and the generations on flash, newest first (R256). Reset empty. -/
  life : Lifetime
  lifeFlash : List Lifetime
  /-- telemetry period in ms, 0 off (R79). Reset 0. -/
  telemetry : Nat
  /-- SYNCED and the package grant level at the latest sample (R79). Reset false, 0. -/
  syncedSeen : Bool
  levelSeen : Nat
  deriving DecidableEq, Repr

/-! ## How a step stops -/

/-- Why the machine stops. -/
inductive Fault where
  /-- Raised by every step but COLD_BOOT while the package has no power (R256): nothing runs. Safe: no claim about a next
  state can be drawn from it. -/
  | noPower
  deriving DecidableEq, Repr

/-- Why the model gives no next state. -/
inductive Refusal where
  /-- Raised by an arm of `exec` that has no meaning yet. Safe: it stops where the hardware goes on. -/
  | notModelled (mnemonic : String)
  deriving DecidableEq, Repr

/-! ## Reset -/

/-- A slot with no task. CSR values are those of the Reset column of Table 11.2. -/
def Thread.reset : Thread where
  pc := 0
  member := 0
  convoyLen := 1
  nextPc := 0
  ir := 0
  lineBuf := none
  nextLine := none
  regs := Vector.replicate 64 0
  v := Vector.replicate 32 (Vector.replicate 128 0)
  q := Vector.replicate 8 0
  g := Vector.replicate 8 0
  cb := Vector.replicate 4 0
  fcsr := 0
  vl := 0
  vlr := 1
  vtype := 0
  vstart := 0
  tshape := 0x404040
  tmapbase := 0
  tmaprx := 0
  cpsrc := 0
  cpdst := 0
  cpndim := 1
  cpring := 0
  cpext := Vector.replicate 10 0
  cpsst := Vector.replicate 10 0
  cpdstS := Vector.replicate 10 0
  xcause := 0
  xepc := 0
  xconvoy := 0
  xelem := 0
  xaddr := 0
  xmask := 0
  sup := false
  psup := false
  inh := false
  skipBit := false
  ntf := false
  xvec := 0
  xscratch := 0
  pend := []
  skip := none
  resumed := false
  unit := none
  vlive := false
  vhigh := 0
  streams := []
  rings := Vector.replicate 4 none
  transfers := []
  nextId := 1
  mapCache := []
  stall := .none
  ending := false
  preempt := false
  stored := false
  cut := false
  vdone := 0
  walked := []
  checked := none
  held := []
  save := none
  task := none

/-- A vector unit that nobody holds, with lanes 0 to 15 in use (R138). -/
def VUnit.reset : VUnit := { holder := none, laneMap := List.range 16, retired := [], marked := [], acquired := 0 }

/-- A core with no task. -/
def Core.reset : Core where
  split := 0
  wa := false
  waOff := none
  unit0 := VUnit.reset
  unit1 := VUnit.reset
  starved := []
  tlb := []
  icache := []
  icFills := []
  l1 := []
  sets := []
  gone := []
  acc := none
  tileq := []
  quarters := Vector.replicate 4 { st := .free, launch := none, split := 0 }
  lastSlot := 3
  governed := 0
  ballast := 0
  withheld := false
  sampledAt := 0

/-- A die with nothing cached and no sample taken. -/
def Die.reset : Die where
  tlb := []
  walkCache := []
  walks := []
  l2 := []
  level := 0
  calm := 0
  stop := false
  temps := Vector.replicate 16 0
  vdd := 0
  idd := 0
  levelSeen := 0
  wacSeen := 0
  quota := []
  epoch := 0

/-- A partition as the management controller initialises it (R78, R200). -/
def Partition.fresh (id : Nat) (pairs : BitVec 36) (memPa memBytes : Nat) : Partition where
  id := id
  pairs := pairs
  memPa := memPa
  memBytes := memBytes
  xvec := 0
  pshift := 0
  pshiftAt := 0
  asidSel := 0
  leaseIdx := 0
  leaseLow := 0
  transVa := 0
  transH := 0
  transState := 0
  transBad := none
  transResult := 0
  transKey := 0
  transJobs := []
  transCache := []
  rings := Vector.replicate 4 { base := 0, log2 := 0, head := 0, tail := 0 }
  counters := Vector.replicate 64 0
  notifs := []
  regions := []
  comps := []
  launched := false
  closing := false

/-- Bytes of the memory of partition 0 when the flash configuration record names no range (R457). -/
def bootMemBytes : Nat := 575999574016

/-- The lifetime record before its first sample. -/
def Lifetime.empty : Lifetime :=
  { voltage := [], temperature := [], wa := [], corrected := [], uncorrectable := [], lanes := [], remaps := [] }

/-- The package right after boot: partition 0 holds all 36 hall pairs and the memory of R457, no task is bound, no session is
open, and every register holds its reset value. -/
def State.reset : State where
  inbox := []
  turn := .arbiter
  steps := 0
  free := 0
  powered := true
  recovery := false
  now := 0
  tick := 0
  tickRem := 0
  mem := []
  poison := []
  fenced := []
  latent := []
  entryErrors := []
  fenceNews := []
  cur := 0
  t := Thread.reset
  parked := []
  cores := []
  dies := Vector.replicate 9 Die.reset
  level := 0
  calm := 0
  power := 0
  current := 0
  decay := 17
  parts := [Partition.fresh 0 0xFFFFFFFFF 0 bootMemBytes]
  asids := []
  launches := []
  nextLaunch := 1
  queues := []
  fences := []
  nextFence := 0
  pending := []
  nextUid := 1
  sessions := []
  nextSession := 1
  discarded := 0
  nextKey := 1
  qps := []
  nextQpn := 1
  out := []
  pkgId := none
  ports := Vector.replicate 16 { enabled := false, up := false, stranded := false, lanes := 4, asym := 4 }
  portMap := []
  tx := []
  rx := []
  rxRegs := []
  rxHeld := []
  nextSend := 0
  leases := []
  lendable := []
  asks := []
  nextTag := 0
  agent := none
  linkWait := []
  nextJob := 0
  linkDiscarded := 0
  tileEarly := 0
  fabricErrors := 0
  leaseBad := 0
  writebackErrors := 0
  ts := { eligible := false, err := 0, offset := 0, sent := none, upstream := none, lastGood := 0, rates := [], joined := false, slewed := 0, master := false
          trim := 0, trimPart := 0, ahead := false, config := none }
  synced := false
  gathers := []
  nextGather := 0
  meas := Vector.replicate 8 0
  flashA := []
  flashB := []
  activeB := false
  staged := false
  fwLoads := []
  decodeOver := []
  gen := 0
  typeDescs := []
  remap := []
  remapCopy := []
  bankTags := Vector.replicate 3 []
  remapFlash := []
  remapOld := []
  retiring := []
  bists := []
  training := []
  rates := []
  mcLog := []
  life := Lifetime.empty
  lifeFlash := []
  telemetry := 0
  syncedSeen := false
  levelSeen := 0

end Sys2Proof.Machine
end

