-- ==== Sys2Proof/Machine/Memory.lean ====
section
/-! DEFINITION. Memory as a list of cells in canonical form, little-endian access of several bytes, poison marks, and the
association lists that hold parked threads and cores. What an unlisted address reads as is `unlisted` (log 1). -/

namespace Sys2Proof.Machine

/-- The byte that an address with no cell reads as (DESIGN CHOICE, log 1: the manual gives no contents after power-on). -/
def unlisted : Byte := 0

/-- The byte at a key. -/
def memRead : List Host.Cell → Nat → Byte
  | [], _ => unlisted
  | (k, b) :: rest, a => if k = a then b else if a < k then unlisted else memRead rest a

/-- Put a byte at a key; a byte equal to what an unlisted address reads as is not listed. -/
def memWrite : List Host.Cell → Nat → Byte → List Host.Cell
  | [], a, b => if b = unlisted then [] else [(a, b)]
  | (k, c) :: rest, a, b =>
    if a < k then (if b = unlisted then (k, c) :: rest else (a, b) :: (k, c) :: rest)
    else if a = k then (if b = unlisted then rest else (a, b) :: rest)
    else (k, c) :: memWrite rest a b

/-- The canonical form: addresses strictly rising, no cell that reads as an unlisted address does. -/
def memWf : List Host.Cell → Bool
  | [] => true
  | [(_, b)] => b != unlisted
  | (k, b) :: (k', b') :: rest => b != unlisted && decide (k < k') && memWf ((k', b') :: rest)

/-- `n` bytes from a key on. -/
def memReadN (m : List Host.Cell) (a n : Nat) : List Byte := (List.range n).map fun i => memRead m (a + i)

/-- Write bytes from a key on. -/
def memWriteN (m : List Host.Cell) (a : Nat) : List Byte → List Host.Cell
  | [] => m
  | b :: rest => memWriteN (memWrite m a b) (a + 1) rest

/-- The number that bytes hold, lowest byte first. -/
def leNat : List Byte → Nat
  | [] => 0
  | b :: rest => b.toNat + 256 * leNat rest

/-- The `n` bytes of a number, lowest first. -/
def leBytes : Nat → Nat → List Byte
  | 0, _ => []
  | n + 1, v => BitVec.ofNat 8 v :: leBytes n (v / 256)

/-- Members of a strictly rising list of numbers. -/
def nset (x : Nat) : List Nat → List Nat
  | [] => [x]
  | y :: rest => if x < y then x :: y :: rest else if x = y then y :: rest else y :: nset x rest

/-- Look a key up in an association list. -/
def alookup {α : Type} (k : Nat) : List (Nat × α) → Option α
  | [] => none
  | (k', v) :: rest => if k' = k then some v else alookup k rest

/-- Put an entry into an association list whose keys rise. -/
def ainsert {α : Type} (k : Nat) (v : α) : List (Nat × α) → List (Nat × α)
  | [] => [(k, v)]
  | (k', v') :: rest => if k < k' then (k, v) :: (k', v') :: rest else if k = k' then (k, v) :: rest else (k', v') :: ainsert k v rest

/-- Remove an entry. -/
def aerase {α : Type} (k : Nat) : List (Nat × α) → List (Nat × α)
  | [] => []
  | (k', v') :: rest => if k' = k then rest else (k', v') :: aerase k rest

/-- The low `w` bits of a number. -/
def lowBits (w v : Nat) : Nat := v % 2 ^ w

/-- A number of `w` bits read as two's complement. -/
def signedOf (w v : Nat) : Int := if v % 2 ^ w < 2 ^ (w - 1) then (v % 2 ^ w : Nat) else (v % 2 ^ w : Nat) - (2 ^ w : Nat)

/-- Two's complement of an integer in `w` bits. -/
def wrapInt (w : Nat) (v : Int) : Nat := (v % ((2 ^ w : Nat) : Int)).toNat

/-- Division rounded up. -/
def ceilDiv (a b : Nat) : Nat := (a + b - 1) / b

/-- Bits [lo+len-1:lo] of a number. -/
def fld (v lo len : Nat) : Nat := v / 2 ^ lo % 2 ^ len

/-- Replace bits [lo+len-1:lo]. -/
def setFld (v lo len x : Nat) : Nat := v - fld v lo len * 2 ^ lo + x % 2 ^ len * 2 ^ lo

/-- A vector given by a function of the index. -/
def vtab {α : Type} (n : Nat) (f : Nat → α) : Vector α n := Vector.ofFn fun i => f i.val

/-- Element `i` of a vector, or a default beyond its end. -/
def vget {α : Type} {n : Nat} (v : Vector α n) (i : Nat) (d : α) : α := if h : i < n then v[i] else d

/-- Replace element `i`; nothing changes beyond the end. -/
def vput {α : Type} {n : Nat} (v : Vector α n) (i : Nat) (x : α) : Vector α n := v.setIfInBounds i x

end Sys2Proof.Machine
end

