-- ==== Sys2Proof/Machine/Flags.lean ====
section
/-! DEFINITION. The flags and the rounding mode of `fcsr` (R274, Table 11.3) and the comparisons that raise them are named here; every
flag accrues. -/

namespace Sys2Proof.Machine

/-! ## Flags (Table 11.3) -/

def flagNV : Word := 0x100
def flagDZ : Word := 0x200
def flagOF : Word := 0x400
def flagUF : Word := 0x800
def flagNX : Word := 0x1000
def flagSAT : Word := 0x2000

/-- A flag raised when a condition holds. -/
def flagIf (c : Bool) (f : Word) : Word := if c then f else 0

/-- The rounding modes of R300, in the order of the RM codes. -/
inductive RM where
  | rne | rtz | rup | rdn
  deriving DecidableEq, Repr

/-- The rounding mode in `fcsr` (Table 11.3). -/
def rmOf (fcsr : Word) : RM :=
  match (fcsr.extractLsb' 0 2).toNat with
  | 0 => .rne | 1 => .rtz | 2 => .rup | _ => .rdn

/-- A write to `fcsr`: reserved bits are discarded, and user mode leaves SUBST (R274). -/
def fcsrWrite (old v : Word) (sup : Bool) : Word :=
  if sup then v &&& 0x7F03 else (v &&& 0x3F03) ||| (old &&& 0x4000)

/-- The flags of several results together. -/
def joinFlags (l : List Word) : Word := l.foldl (· ||| ·) 0

end Sys2Proof.Machine
end

