-- ==== Sys2Proof/Machine/Num.lean ====
section
/-! DEFINITION. Number formats and exact arithmetic with one rounding (12, R292 to R310): decoding and encoding of elements,
rounding with its flags, conversions, CB4 encoding, and the transcendental functions of R369. -/

namespace Sys2Proof.Machine

/-! ## Formats (Table 12.2) -/

/-- Which special values a format has. `infOnly` is for a type descriptor with infinities and no NaN, of which the spec gives no encoding: its
exponent of all ones is infinity whatever the fraction, and a NaN converts to it as to E3M2 (R266, R305; DESIGN CHOICE, log 86). -/
inductive Special where
  | ieee | nanOnly | finiteOnly | infOnly
  deriving DecidableEq, Repr

/-- A floating format: total bits, exponent bits, fraction bits, bias. -/
structure Fmt where
  bits : Nat
  e : Nat
  m : Nat
  bias : Nat
  special : Special
  deriving DecidableEq, Repr

def fp32 : Fmt := ⟨32, 8, 23, 127, .ieee⟩
def fp16 : Fmt := ⟨16, 5, 10, 15, .ieee⟩
def bf16 : Fmt := ⟨16, 8, 7, 127, .ieee⟩
def a40 : Fmt := ⟨40, 8, 31, 127, .ieee⟩
def e5m2 : Fmt := ⟨8, 5, 2, 15, .ieee⟩
def e4m3 : Fmt := ⟨8, 4, 3, 7, .nanOnly⟩
def e3m2 : Fmt := ⟨6, 3, 2, 3, .finiteOnly⟩

/-- A floating value: NaN (signalling or quiet), infinity, or mant * 2^exp with a sign, zeros included. -/
inductive FVal where
  | nan (signalling : Bool)
  | inf (neg : Bool)
  | fin (neg : Bool) (mant : Nat) (exp : Int)
  deriving DecidableEq, Repr

/-- The value that an element code has in a format (R294, R295). -/
def Fmt.decode (f : Fmt) (c : Nat) : FVal :=
  let neg := fld c (f.bits - 1) 1 == 1
  let ex := fld c f.m f.e
  let fr := fld c 0 f.m
  if f.special == .ieee && ex == 2 ^ f.e - 1 then (if fr == 0 then .inf neg else .nan (decide (fr < 2 ^ (f.m - 1))))
  else if f.special == .infOnly && ex == 2 ^ f.e - 1 then .inf neg
  else if f.special == .nanOnly && ex == 2 ^ f.e - 1 && fr == 2 ^ f.m - 1 then .nan false
  else if ex == 0 then .fin neg fr (1 - (f.bias : Int) - f.m)
  else .fin neg (2 ^ f.m + fr) ((ex : Int) - f.bias - f.m)

/-- The canonical NaN (Table 12.3); a format without NaN gives +0 (Table 12.4). -/
def Fmt.canonNan (f : Fmt) : Nat :=
  match f.special with
  | .ieee => (2 ^ f.e - 1) * 2 ^ f.m + 2 ^ (f.m - 1)
  | .nanOnly => 2 ^ (f.e + f.m) - 1
  | .finiteOnly | .infOnly => 0

/-- Whether a format encodes infinity. -/
def Fmt.hasInf (f : Fmt) : Bool := f.special == .ieee || f.special == .infOnly

/-- The code of the greatest finite magnitude, without sign. -/
def Fmt.maxCode (f : Fmt) : Nat :=
  match f.special with
  | .ieee | .infOnly => (2 ^ f.e - 1) * 2 ^ f.m - 1
  | .nanOnly => 2 ^ (f.e + f.m) - 2
  | .finiteOnly => 2 ^ (f.e + f.m) - 1

/-- The sign bit of a format. -/
def Fmt.sign (f : Fmt) (neg : Bool) : Nat := if neg then 2 ^ (f.bits - 1) else 0

/-- Divide a magnitude by 2^sh with one rounding; the second part says whether anything was lost. -/
def roundShift (rm : RM) (neg : Bool) (mant sh : Nat) : Nat × Bool :=
  let d := mant / 2 ^ sh
  let r := mant % 2 ^ sh
  let half := 2 ^ (sh - 1)
  let up := match rm with
    | .rne => decide (sh ≠ 0) && (decide (half < r) || (r == half && d % 2 == 1))
    | .rtz => false
    | .rup => decide (0 < r) && !neg
    | .rdn => decide (0 < r) && neg
  (if up then d + 1 else d, decide (r ≠ 0))

/-- Round mant * 2^exp to a multiple of 2^q. -/
def roundAt (rm : RM) (neg : Bool) (mant : Nat) (exp q : Int) : Nat × Bool :=
  if q ≤ exp then (mant * 2 ^ (exp - q).toNat, false) else roundShift rm neg mant (q - exp).toNat

/-- The result of an overflow (R301): infinity or the greatest finite number by mode; formats without infinity always the
latter. -/
def Fmt.overflow (f : Fmt) (rm : RM) (neg : Bool) : Nat :=
  let toInf := match rm with
    | .rne => true | .rtz => false | .rup => !neg | .rdn => neg
  if f.hasInf && toInf then f.sign neg + (2 ^ f.e - 1) * 2 ^ f.m else f.sign neg + f.maxCode

/-- Round an exact non-zero magnitude, to which `sticky` adds something below its last bit, into a format (R300, R301): the code
and the flags NX, UF and OF. -/
def Fmt.round (f : Fmt) (rm : RM) (neg : Bool) (mant0 : Nat) (exp0 : Int) (sticky : Bool) : Nat × Word :=
  let mant := if sticky then 4 * mant0 + 1 else mant0
  let exp := if sticky then exp0 - 2 else exp0
  if mant == 0 then (f.sign neg, 0)
  else
    let top : Int := exp + Nat.log2 mant
    let emin : Int := 1 - (f.bias : Int)
    let unb := roundAt rm neg mant exp (top - f.m)
    let tiny := decide (top < emin) && !(top == emin - 1 && decide (2 ^ (f.m + 1) ≤ unb.1))
    let q := max top emin - f.m
    let r := roundAt rm neg mant exp q
    let wrapped := decide (2 ^ (f.m + 1) ≤ r.1)
    let sig := if wrapped then r.1 / 2 else r.1
    let ex : Int := if wrapped then q + 1 + f.m + f.bias else q + f.m + f.bias
    let code : Int := if sig < 2 ^ f.m then (sig : Int) else ex * (2 ^ f.m : Nat) + ((sig : Int) - (2 ^ f.m : Nat))
    if code > (f.maxCode : Int) then (f.overflow rm neg, flagOF ||| flagNX)
    else (f.sign neg + code.toNat, flagIf r.2 flagNX ||| flagIf (r.2 && tiny) flagUF)

/-- Round a value into a format; NaN and infinity as Table 12.4 converts them. -/
def Fmt.encode (f : Fmt) (rm : RM) : FVal → Nat × Word
  | .nan sig => (f.canonNan, flagIf (sig || f.special == .finiteOnly || f.special == .infOnly) flagNV)
  | .inf neg => if f.hasInf then (f.sign neg + (2 ^ f.e - 1) * 2 ^ f.m, 0) else (f.sign neg + f.maxCode, flagOF)
  | .fin neg 0 _ => (f.sign neg, 0)
  | .fin neg mant exp => f.round rm neg mant exp false

/-! ## Exact operations -/

def FVal.isNan : FVal → Bool
  | .nan _ => true
  | _ => false

def FVal.isSig : FVal → Bool
  | .nan s => s
  | _ => false

def FVal.isZero : FVal → Bool
  | .fin _ 0 _ => true
  | _ => false

def FVal.neg : FVal → FVal
  | .nan s => .nan s
  | .inf n => .inf (!n)
  | .fin n m e => .fin (!n) m e

def FVal.sgn : FVal → Bool
  | .nan _ => false
  | .inf n => n
  | .fin n _ _ => n

/-- The exact sum of dyadic numbers, as an integer at the exponent `q`, which no addend lies below. -/
def sumAt (q : Int) : List FVal → Int
  | [] => 0
  | .fin n m e :: rest => (if n then -((m * 2 ^ (e - q).toNat : Nat) : Int) else ((m * 2 ^ (e - q).toNat : Nat) : Int)) + sumAt q rest
  | _ :: rest => sumAt q rest

/-- The least exponent of a list of values. -/
def minExp : List FVal → Int
  | [] => 0
  | .fin _ _ e :: rest => min e (minExp rest)
  | _ :: rest => minExp rest

/-- The exact sum of a list, with NV for signalling NaNs and for infinities of both signs, beside a NaN too (R295, R307), and the zero sign of
R301. -/
def sumVals (rm : RM) (l : List FVal) : FVal × Word :=
  let pinf := l.any fun x => x == .inf false
  let ninf := l.any fun x => x == .inf true
  let nv := flagIf (l.any FVal.isSig || (pinf && ninf)) flagNV
  if l.any FVal.isNan then (.nan false, nv)
  else
    if pinf && ninf then (.nan false, nv)
    else if pinf then (.inf false, 0)
    else if ninf then (.inf true, 0)
    else
      let q := minExp l
      let v := sumAt q l
      if v == 0 then
        let allNegZero := l.all fun x => x.isZero && x.sgn
        let allPosZero := l.all fun x => x.isZero && !x.sgn
        (.fin (allNegZero || (rm == .rdn && !allPosZero)) 0 0, 0)
      else (.fin (decide (v < 0)) v.natAbs q, 0)

/-- The exact product, with NV for a signalling operand and for infinity times zero. -/
def mulVals (x y : FVal) : FVal × Word :=
  let nv := flagIf (x.isSig || y.isSig) flagNV
  match x, y with
  | .nan _, _ => (.nan false, nv)
  | _, .nan _ => (.nan false, nv)
  | .inf a, y => if y.isZero then (.nan false, flagNV) else (.inf (a != y.sgn), 0)
  | x, .inf b => if x.isZero then (.nan false, flagNV) else (.inf (b != x.sgn), 0)
  | .fin a m e, .fin b n g => (.fin (a != b) (m * n) (e + g), 0)

/-- Round a value and join its flags with those found before. -/
def Fmt.finish (f : Fmt) (rm : RM) (x : FVal × Word) : Nat × Word :=
  let r := f.encode rm x.1
  (r.1, r.2 ||| x.2)

def Fmt.add (f : Fmt) (rm : RM) (x y : FVal) : Nat × Word := f.finish rm (sumVals rm [x, y])
def Fmt.sub (f : Fmt) (rm : RM) (x y : FVal) : Nat × Word := f.finish rm (sumVals rm [x, y.neg])
def Fmt.mul (f : Fmt) (rm : RM) (x y : FVal) : Nat × Word := f.finish rm (mulVals x y)

/-- x * y + z rounded once; a product of infinity and zero raises NV even when z is a quiet NaN (R324). -/
def Fmt.fma (f : Fmt) (rm : RM) (x y z : FVal) : Nat × Word :=
  let p := mulVals x y
  let s := sumVals rm [p.1, z]
  f.finish rm (s.1, s.2 ||| p.2)

/-- x / y (R301, R324). -/
def Fmt.div (f : Fmt) (rm : RM) (x y : FVal) : Nat × Word :=
  let nv := flagIf (x.isSig || y.isSig) flagNV
  let neg := x.sgn != y.sgn
  match x, y with
  | .nan _, _ => (f.canonNan, nv)
  | _, .nan _ => (f.canonNan, nv)
  | .inf _, .inf _ => (f.canonNan, flagNV)
  | .inf _, .fin _ _ _ => f.encode rm (.inf neg)
  | .fin _ _ _, .inf _ => f.encode rm (.fin neg 0 0)
  | .fin _ m e, .fin _ n g =>
    if n == 0 then (if m == 0 then (f.canonNan, flagNV) else f.finish rm (.inf neg, flagDZ))
    else if m == 0 then f.encode rm (.fin neg 0 0)
    else f.round rm neg (m * 2 ^ 128 / n) (e - g - 128) (decide (m * 2 ^ 128 % n ≠ 0))

/-- Integer square root by one bit at a time, from bit `k - 1` down. -/
def isqrtGo : Nat → Nat → Nat → Nat
  | 0, _, r => r
  | k + 1, n, r => if (r + 2 ^ k) * (r + 2 ^ k) ≤ n then isqrtGo k n (r + 2 ^ k) else isqrtGo k n r

/-- floor(sqrt n) for n below 2^320. -/
def isqrt (n : Nat) : Nat := isqrtGo 160 n 0

/-- A significand and an even exponent for a root. -/
def evenExp (m : Nat) (e : Int) : Nat × Int := if e % 2 == 0 then (m, e) else (2 * m, e - 1)

/-- The square root (R324). -/
def Fmt.sqrt (f : Fmt) (rm : RM) (x : FVal) : Nat × Word :=
  match x with
  | .nan s => (f.canonNan, flagIf s flagNV)
  | .inf neg => if neg then (f.canonNan, flagNV) else f.encode rm (.inf false)
  | .fin neg m e =>
    if m == 0 then f.encode rm (.fin neg 0 0)
    else if neg then (f.canonNan, flagNV)
    else
      let p := evenExp m e
      let n := p.1 * 2 ^ 160
      let r := isqrt n
      f.round rm false r (p.2 / 2 - 80) (decide (r * r ≠ n))

/-- Order of two values that are no NaNs, -0 equal to +0. -/
def cmpVals (x y : FVal) : Ordering :=
  match x, y with
  | .inf a, .inf b => if a == b then .eq else if a then .lt else .gt
  | .inf a, _ => if a then .lt else .gt
  | _, .inf b => if b then .gt else .lt
  | x, y =>
    let q := minExp [x, y]
    compare (sumAt q [x]) (sumAt q [y])

/-- Maximum and minimum of R310: NaN to the canonical NaN, -0 below +0. `less` picks the minimum. -/
def Fmt.minmax (f : Fmt) (less : Bool) (cx cy : Nat) : Nat × Word :=
  let x := f.decode cx
  let y := f.decode cy
  if x.isNan || y.isNan then (f.canonNan, flagIf (x.isSig || y.isSig) flagNV)
  else
    match cmpVals x y with
    | .lt => (if less then cx else cy, 0)
    | .gt => (if less then cy else cx, 0)
    | .eq => if x.sgn == y.sgn then (cx, 0) else if x.sgn == less then (cx, 0) else (cy, 0)

/-- The predicates of Table 15.6; codes 6 and 7 are unordered and ordered. -/
def fpredicate (p : Nat) (x y : FVal) : Bool :=
  let un := x.isNan || y.isNan
  let c := cmpVals x y
  match p with
  | 0 => !un && c == .eq
  | 1 => un || c != .eq
  | 2 => !un && c == .lt
  | 3 => !un && c != .lt
  | 4 => !un && c != .gt
  | 5 => !un && c == .gt
  | 6 => un
  | _ => !un

/-- NV of a comparison: order predicates for any NaN, the others for a signalling one (R326, R366). -/
def fpredFlags (p : Nat) (x y : FVal) : Word :=
  if 2 ≤ p && p ≤ 5 then flagIf (x.isNan || y.isNan) flagNV else flagIf (x.isSig || y.isSig) flagNV

/-! ## Integers -/

/-- An integer element: width and signedness. -/
structure IFmt where
  w : Nat
  signed : Bool
  deriving DecidableEq, Repr

def IFmt.min (i : IFmt) : Int := if i.signed then -((2 ^ (i.w - 1) : Nat) : Int) else 0
def IFmt.max (i : IFmt) : Int := if i.signed then ((2 ^ (i.w - 1) : Nat) : Int) - 1 else ((2 ^ i.w : Nat) : Int) - 1
def IFmt.decode (i : IFmt) (c : Nat) : Int := if i.signed then signedOf i.w c else (c % 2 ^ i.w : Nat)

/-- Clamp to the range; the second part says whether the value changed. -/
def IFmt.clamp (i : IFmt) (v : Int) : Int × Bool :=
  if v < i.min then (i.min, true) else if i.max < v then (i.max, true) else (v, false)

/-- Floating value to integer (R304, Table 12.4): the code in `w` bits and the flags. -/
def IFmt.ofVal (i : IFmt) (rm : RM) (x : FVal) : Nat × Word :=
  match x with
  | .nan _ => (0, flagNV)
  | .inf neg => (wrapInt i.w (if neg then i.min else i.max), flagNV)
  | .fin neg m e =>
    let r := roundAt rm neg m e 0
    let v : Int := if neg then -(r.1 : Int) else r.1
    let c := i.clamp v
    (wrapInt i.w c.1, if c.2 then flagNV else flagIf r.2 flagNX)

/-- An integer as a value. -/
def valOfInt (v : Int) : FVal := .fin (decide (v < 0)) v.natAbs 0

/-! ## Element types (Tables 6.1, 12.1, 12.2) -/

def ETy.code : ETy → TypeCode
  | .i8 => 0x01 | .n8 => 0x02 | .i16 => 0x03 | .n16 => 0x04 | .i32 => 0x05 | .n32 => 0x06 | .i40 => 0x07 | .e4m3 => 0x08
  | .e5m2 => 0x09 | .e3m2 => 0x0A | .cb4 j => (0x0C : BitVec 6) + j.setWidth 6 | .fp16 => 0x10 | .bf16 => 0x11 | .fp32 => 0x12
  | .a40 => 0x13

/-- The type that a code names; none where Table 6.1 reserves it. -/
def etyOf (c : TypeCode) : Option ETy :=
  match c.toNat with
  | 0x01 => some .i8 | 0x02 => some .n8 | 0x03 => some .i16 | 0x04 => some .n16 | 0x05 => some .i32 | 0x06 => some .n32
  | 0x07 => some .i40 | 0x08 => some .e4m3 | 0x09 => some .e5m2 | 0x0A => some .e3m2
  | 0x0C => some (.cb4 0) | 0x0D => some (.cb4 1) | 0x0E => some (.cb4 2) | 0x0F => some (.cb4 3)
  | 0x10 => some .fp16 | 0x11 => some .bf16 | 0x12 => some .fp32 | 0x13 => some .a40
  | _ => none

/-- Element width in bits. -/
def ETy.width : ETy → Nat
  | .i8 | .n8 | .e4m3 | .e5m2 => 8
  | .i16 | .n16 | .fp16 | .bf16 => 16
  | .i32 | .n32 | .fp32 => 32
  | .i40 | .a40 => 40
  | .e3m2 => 6
  | .cb4 _ => 4

/-- Footprint in bytes and granules (Table 6.1). -/
def ETy.bytes (t : ETy) : Nat := 4096 * t.width / 8
def ETy.granules (t : ETy) : Nat := ceilDiv t.bytes 4096

/-- The integer format of a type. -/
def ETy.int? : ETy → Option IFmt
  | .i8 => some ⟨8, true⟩ | .n8 => some ⟨8, false⟩ | .i16 => some ⟨16, true⟩ | .n16 => some ⟨16, false⟩
  | .i32 => some ⟨32, true⟩ | .n32 => some ⟨32, false⟩ | .i40 => some ⟨40, true⟩
  | _ => none

/-- The floating format of a type; CB4 has none of its own. -/
def ETy.fmt? : ETy → Option Fmt
  | .e4m3 => some Machine.e4m3 | .e5m2 => some Machine.e5m2 | .e3m2 => some Machine.e3m2 | .fp16 => some Machine.fp16
  | .bf16 => some Machine.bf16 | .fp32 => some Machine.fp32 | .a40 => some Machine.a40
  | _ => none

def ETy.isCb4 : ETy → Bool
  | .cb4 _ => true
  | _ => false

/-- A legal vector type (R275): any type of Table 6.1 but i40 and A40. -/
def vecType (c : TypeCode) : Option ETy :=
  match etyOf c with
  | some .i40 => none
  | some .a40 => none
  | t => t

/-- Canonical form of a vector element (R348): sign-extended for i8, i16, else zero-extended to 32 bits. -/
def canon (t : ETy) (x : Nat) : BitVec 32 :=
  match t with
  | .i8 => BitVec.ofInt 32 (signedOf 8 x)
  | .i16 => BitVec.ofInt 32 (signedOf 16 x)
  | t => BitVec.ofNat 32 (x % 2 ^ t.width)

/-- The value that entry `c` of a codebook register names (R297). -/
def cbEntry (cb : BitVec 256) (c : Nat) : Nat := fld cb.toNat (16 * (c % 16)) 16

/-- The value of an element as a number or a special value: floating types, CB4 through its codebook, integers exactly. -/
def elemVal (cb : BitVec 256) (t : ETy) (c : Nat) : FVal :=
  match t with
  | .cb4 _ => bf16.decode (cbEntry cb c)
  | t =>
    match t.fmt?, t.int? with
    | some f, _ => f.decode c
    | none, some i => valOfInt (i.decode c)
    | none, none => .fin false 0 0

/-- |x - y| of finite values as (mantissa, exponent). -/
def distance (x y : FVal) : FVal :=
  match sumVals .rne [x, y.neg] with
  | (.fin _ m e, _) => .fin false m e
  | (v, _) => v

/-- Lowest index among `idx` whose measure is least, comparing with `cmpVals` and a missing measure last. -/
def leastIdx (d : Nat → FVal) : List Nat → Option Nat
  | [] => none
  | c :: rest =>
    match leastIdx d rest with
    | none => some c
    | some b => if cmpVals (d b) (d c) == .lt then some b else some c

/-- Encoding into CB4 (R298). -/
def cb4Encode (x : FVal) (cb : BitVec 256) : Nat × Word :=
  let ent := fun c => bf16.decode (cbEntry cb c)
  let cands := (List.range 16).filter fun c => !(ent c).isNan
  match x with
  | .nan _ => (0, flagNV)
  | .inf neg =>
    if cands.isEmpty then (0, flagNV)
    else
      match cands.find? fun c => ent c == .inf neg with
      | some c => (c, 0)
      | none =>
        let key := fun c => if neg then ent c else (ent c).neg
        ((leastIdx key cands).getD 0, flagOF ||| flagNX)
  | x =>
    if cands.isEmpty then (0, flagNV)
    else
      let d := fun c => match ent c with
        | .fin n m e => distance x (.fin n m e)
        | _ => FVal.inf false
      let c := (leastIdx d cands).getD 0
      (c, flagIf (cmpVals (ent c) x != .eq) flagNX)

/-- Conversion of one element (R303, R304, R370): integer to integer saturates with SAT; into CB4 by R298; CB4 to BF16 copies
the entry. -/
def convert (rm : RM) (srcCb dstCb : BitVec 256) (src dst : ETy) (c : Nat) : Nat × Word :=
  match dst, src with
  | .cb4 _, src => cb4Encode (elemVal srcCb src c) dstCb
  | .bf16, .cb4 _ => (cbEntry srcCb c, 0)
  | dst, src =>
    match dst.int?, src.int? with
    | some i, some j =>
      let r := i.clamp (j.decode c)
      (wrapInt i.w r.1, flagIf r.2 flagSAT)
    | some i, none => i.ofVal rm (elemVal srcCb src c)
    | none, _ =>
      match dst.fmt? with
      | some f => f.encode rm (elemVal srcCb src c)
      | none => (0, 0)

/-! ## Transcendental functions (R369), by fixed point with 320 fraction bits and a sticky bit (log 12) -/

/-- Fraction bits of the working precision and of the result. -/
def prec : Nat := 400
def kept : Nat := 320

/-- Sum of x^n / n!, `k` terms from term n on, at scale 2^prec. -/
def expSum (x : Nat) : Nat → Nat → Nat → Nat → Nat
  | 0, _, _, acc => acc
  | k + 1, n, term, acc =>
    let t := term * x / 2 ^ prec / n
    expSum x k (n + 1) t (acc + t)

/-- Sum of 2 z^(2i+1) / (2i+1), `k` terms, at scale 2^prec. -/
def atanhSum (z2 : Nat) : Nat → Nat → Nat → Nat → Nat
  | 0, _, _, acc => acc
  | k + 1, i, pow, acc => atanhSum z2 k (i + 1) (pow * z2 / 2 ^ prec) (acc + 2 * pow / (2 * i + 1))

/-- Natural logarithm of num / den in [1, 2], at scale 2^prec. -/
def lnFix (num den : Nat) : Nat :=
  let z := (num - den) * 2 ^ prec / (num + den)
  atanhSum (z * z / 2 ^ prec) 140 0 z 0

/-- ln 2 at scale 2^prec. -/
def ln2Fix : Nat := lnFix 2 1

/-- 2^f for a fraction f at scale 2^prec. -/
def exp2Fix (f : Nat) : Nat := expSum (f * ln2Fix / 2 ^ prec) 100 1 (2 ^ prec) (2 ^ prec)

/-- A value as a floor integer and a fraction at scale 2^prec, for a magnitude below 2^16. -/
def splitFix (neg : Bool) (m : Nat) (e : Int) : Int × Nat :=
  let v : Int := ((if 0 ≤ e + prec then m * 2 ^ (e + prec).toNat else m / 2 ^ (-(e + prec)).toNat : Nat) : Int)
  let v := if neg then -v else v
  (v / (2 ^ prec : Nat), (v % (2 ^ prec : Nat)).toNat)

/-- Round a number at scale 2^prec times 2^k whose last bits are not exact. -/
def Fmt.roundFix (f : Fmt) (rm : RM) (neg : Bool) (v : Nat) (k : Int) : Nat × Word :=
  f.round rm neg (v / 2 ^ (prec - kept)) (k - kept) true

/-- 2^x. -/
def Fmt.exp2 (f : Fmt) (rm : RM) (x : FVal) : Nat × Word :=
  match x with
  | .nan s => (f.canonNan, flagIf s flagNV)
  | .inf neg => if neg then (0, 0) else f.encode rm (.inf false)
  | .fin neg m e =>
    if m == 0 then f.encode rm (.fin false 1 0)
    else if (Nat.log2 m : Int) + e > 14 then
      f.round rm false 1 (if neg then -100000 else 100000) true
    else
      let s := splitFix neg m e
      if s.2 == 0 then f.round rm false 1 s.1 false else f.roundFix rm false (exp2Fix s.2) s.1

/-- Whether a number is a power of two. -/
def isPow2 (m : Nat) : Bool := m == 2 ^ Nat.log2 m

/-- log2 x. -/
def Fmt.log2 (f : Fmt) (rm : RM) (x : FVal) : Nat × Word :=
  match x with
  | .nan s => (f.canonNan, flagIf s flagNV)
  | .inf neg => if neg then (f.canonNan, flagNV) else f.encode rm (.inf false)
  | .fin neg m e =>
    if m == 0 then f.finish rm (.inf true, flagDZ)
    else if neg then (f.canonNan, flagNV)
    else
      let k := Nat.log2 m
      let n : Int := e + k
      if isPow2 m then f.encode rm (valOfInt n)
      else
        let frac := lnFix m (2 ^ k) * 2 ^ prec / ln2Fix
        if 0 ≤ n then f.roundFix rm false (n.toNat * 2 ^ prec + frac) 0
        else f.roundFix rm true ((-n).toNat * 2 ^ prec - frac - 1) 0

/-- 1 / x. -/
def Fmt.rcp (f : Fmt) (rm : RM) (x : FVal) : Nat × Word := f.div rm (.fin false 1 0) x

/-- 1 / sqrt x: floor of the root of 2^k / m, exact where m is an even power of two. -/
def Fmt.rsq (f : Fmt) (rm : RM) (x : FVal) : Nat × Word :=
  match x with
  | .nan s => (f.canonNan, flagIf s flagNV)
  | .inf neg => if neg then (f.canonNan, flagNV) else (0, 0)
  | .fin neg m e =>
    if m == 0 then f.finish rm (.inf neg, flagDZ)
    else if neg then (f.canonNan, flagNV)
    else
      let p := evenExp m e
      let n := 2 ^ 200 / p.1
      let r := isqrt n
      f.round rm false r (-(p.2 / 2) - 100) (decide (r * r * p.1 ≠ 2 ^ 200))

/-- tanh x = 1 - 2 / (e^(2x) + 1); for a tiny x the result lies just below x in magnitude, for a great one just below 1. -/
def Fmt.tanh (f : Fmt) (rm : RM) (x : FVal) : Nat × Word :=
  match x with
  | .nan s => (f.canonNan, flagIf s flagNV)
  | .inf neg => f.encode rm (.fin neg 1 0)
  | .fin neg m e =>
    if m == 0 then f.encode rm (.fin neg 0 0)
    else
      let top : Int := (Nat.log2 m : Int) + e
      if top < -40 then f.round rm neg (m * 2 ^ 64 - 1) (e - 64) true
      else if top ≥ 7 then f.round rm neg (2 ^ 100 - 1) (-100) true
      else
        let s := splitFix false (2 * m) e
        let y := (s.1.toNat * 2 ^ prec + s.2) * 2 ^ prec / ln2Fix
        let ex := exp2Fix (y % 2 ^ prec) * 2 ^ (y / 2 ^ prec)
        f.roundFix rm neg (2 ^ prec - 2 * 2 ^ prec * 2 ^ prec / (ex + 2 ^ prec) - 1) 0

/-! ## Group sums of mmul (R306 to R308) -/

/-- One group of at most 16 products into an A40 accumulator: the exact sum, rounded, then accumulated and rounded. -/
def a40Group (acc : Nat) (ps : List (FVal × FVal)) : Nat × Word :=
  let prods := ps.map fun p => mulVals p.1 p.2
  let s := sumVals .rne (prods.map (·.1))
  let fl := prods.foldl (fun w p => w ||| p.2) s.2
  let p := a40.encode .rne s.1
  let r := a40.add .rne (a40.decode acc) (a40.decode p.1)
  (r.1, fl ||| p.2 ||| r.2)

/-- One group into an I40 accumulator, with saturation. -/
def i40Group (acc : Nat) (ps : List (Int × Int)) : Nat × Word :=
  let i40 : IFmt := ⟨40, true⟩
  let s := i40.decode acc + (ps.map fun p => p.1 * p.2).sum
  let r := i40.clamp s
  (wrapInt 40 r.1, flagIf r.2 flagSAT)

end Sys2Proof.Machine
end

