-- ==== Sys2Proof/Machine/Base.lean ====
section
/-! DEFINITION. Accessors of the state: registers, threads, cores, dies, partitions, counters, geometry (R106), the `heat` register
(R112) and its caps (R113), and the shape of a computation that may trap or stall. -/

namespace Sys2Proof.Machine

/-! ## Slots, cores and their places (R106) -/

def dieOf (core : Nat) : Nat := core / 64
def coreX (core : Nat) : Nat := core % 8
def coreY (core : Nat) : Nat := core % 64 / 8
/-- Hall of a core on its die, 0 to 7. -/
def hallOf (core : Nat) : Nat := 2 * (coreY core / 2) + coreX core / 4
/-- Colour 0 is lit, colour 1 dark (R106, R107). -/
def lit (core : Nat) : Bool := (coreX core + coreY core) % 2 == 0
/-- The neighbour in direction 0 N, 1 E, 2 S, 3 W on the same die. -/
def neighbour (core dir : Nat) : Option Nat :=
  match dir with
  | 0 => if coreY core == 0 then none else some (core - 8)
  | 1 => if coreX core == 7 then none else some (core + 1)
  | 2 => if coreY core == 7 then none else some (core + 8)
  | _ => if coreX core == 0 then none else some (core - 1)
/-- The quarter of the neighbour in direction `dir` that it lends to this core: the quarter on the side that faces it (R107). -/
def quarterOf (dir : Nat) : Nat := (dir + 2) % 4

/-! ## Threads -/

/-- The thread of a slot. -/
def State.thread (s : State) (tid : Nat) : Thread := if tid = s.cur then s.t else (alookup tid s.parked).getD Thread.reset

/-- Put the thread of a slot. -/
def State.setThread (s : State) (tid : Nat) (t : Thread) : State :=
  if tid = s.cur then { s with t := t } else { s with parked := ainsert tid t s.parked }

/-- Take a slot's thread in hand. -/
def State.switchTo (s : State) (tid : Nat) : State :=
  if tid = s.cur then s
  else { s with t := s.thread tid, cur := tid, parked := aerase tid (ainsert s.cur s.t s.parked) }

/-- Change the thread in hand. -/
def State.modT (s : State) (f : Thread → Thread) : State := { s with t := f s.t }

/-- The slots whose threads are not as at reset. -/
def State.slots (s : State) : List Nat := s.cur :: s.parked.map (·.1)

/-- The core of the thread in hand. -/
def State.core (s : State) : Nat := s.cur / 4

def State.getCore (s : State) (c : Nat) : Core := (alookup c s.cores).getD Core.reset
def State.setCore (s : State) (c : Nat) (k : Core) : State := { s with cores := ainsert c k s.cores }
def State.modCore (s : State) (c : Nat) (f : Core → Core) : State := s.setCore c (f (s.getCore c))

def State.getDie (s : State) (d : Nat) : Die := vget s.dies d Die.reset
def State.modDie (s : State) (d : Nat) (f : Die → Die) : State := { s with dies := vput s.dies d (f (s.getDie d)) }

/-- Apply a function to every thread that is not as at reset. -/
def State.mapThreads (s : State) (f : Nat → Thread → Thread) : State :=
  { s with t := f s.cur s.t, parked := s.parked.map fun p => (p.1, f p.1 p.2) }

/-- Apply a function to every core that is not as at reset. -/
def State.mapCores (s : State) (f : Nat → Core → Core) : State := { s with cores := s.cores.map fun p => (p.1, f p.1 p.2) }

/-! ## Registers -/

/-- A scalar register; s0 reads 0 (R270). -/
def Thread.reg (t : Thread) (r : SReg) : Word := if r = 0 then 0 else t.regs[r.toNat]
/-- Write a scalar register; a write to s0 is discarded (R271). -/
def Thread.setReg (t : Thread) (r : SReg) (v : Word) : Thread := if r = 0 then t else { t with regs := t.regs.set r.toNat v }
/-- A mask register; q0 reads all ones. -/
def Thread.qreg (t : Thread) (r : QReg) : BitVec 128 := if r = 0 then BitVec.allOnes 128 else t.q[r.toNat]
def Thread.setQ (t : Thread) (r : QReg) (v : BitVec 128) : Thread := if r = 0 then t else { t with q := t.q.set r.toNat v }
/-- A gate register; g0 reads all ones. -/
def Thread.greg (t : Thread) (r : GReg) : BitVec 4096 := if r = 0 then BitVec.allOnes 4096 else t.g[r.toNat]
def Thread.setG (t : Thread) (r : GReg) (v : BitVec 4096) : Thread := if r = 0 then t else { t with g := t.g.set r.toNat v }
/-- A vector register's own contents. -/
def Thread.vreg (t : Thread) (r : BitVec 5) : Vector (BitVec 32) 128 := t.v[r.toNat]
def Thread.setV (t : Thread) (r : BitVec 5) (x : Vector (BitVec 32) 128) : Thread := { t with v := t.v.set r.toNat x }
/-- A codebook register. -/
def Thread.cbreg (t : Thread) (j : BitVec 2) : BitVec 256 := t.cb[j.toNat]

/-- Flags accrue into `fcsr` (R274). -/
def Thread.accrue (t : Thread) (fl : Word) : Thread := { t with fcsr := t.fcsr ||| fl }

/-- The partition and address space of a thread; those of no task are 0. -/
def Thread.part (t : Thread) : Nat := match t.task with
  | some k => k.part
  | none => 0
def Thread.asid (t : Thread) : BitVec 16 := match t.task with
  | some k => k.asid
  | none => 0

/-- The number of the task of a thread; 0 for no task. -/
def Thread.uid (t : Thread) : Nat := match t.task with
  | some k => k.uid
  | none => 0

/-! ## Partitions and counters -/

/-- The partition of an id. -/
def State.part? (s : State) (p : Nat) : Option Partition := s.parts.find? fun q => q.id == p

def modPart (p : Nat) (f : Partition → Partition) : List Partition → List Partition
  | [] => []
  | q :: rest => if q.id = p then f q :: rest else q :: modPart p f rest

def State.modPart (s : State) (p : Nat) (f : Partition → Partition) : State := { s with parts := Machine.modPart p f s.parts }

/-- Count events of a partition (Table 9.9); counters wrap. -/
def State.count (s : State) (p idx n : Nat) : State :=
  s.modPart p fun q => { q with counters := vput q.counters idx (vget q.counters idx 0 + word n) }

/-- The ASID table entry of an address space. -/
def State.asid? (s : State) (a : BitVec 16) : Option AsidEntry := s.asids.find? fun e => e.asid == a

/-- Whether a partition holds the hall pair of a core (R72). -/
def Partition.holds (q : Partition) (core : Nat) : Bool := q.pairs.getLsbD (dieOf core * 4 + coreY core / 2)

/-! ## Time -/

/-- Core cycles of a core since its last reset (R276). -/
def State.cycle (s : State) (core : Nat) : Word := word (s.now + Config.cycleSkew core)

/-- Ticks that the trimmed counter makes of `d` ticks of the oscillator, and the part of a tick that is left over (R43). -/
def trimmed (ts : TSync) (d : Nat) : Nat × TSync :=
  let x := ts.trimPart + ts.trim * d
  (((d : Int) + x / 1000000000).toNat, { ts with trimPart := x % 1000000000 })

/-- The tick counter after `d` ticks of the trimmed counter: while an offset remains, one tick in 1,000 is added or withheld (R43). -/
def slewTick (ts : TSync) (tick : Word) (d : Nat) : Word × TSync :=
  if ts.offset = 0 then (tick + word d, ts)
  else
    let n := min ((ts.slewed + d) / 1000) ts.offset.natAbs
    let left := ts.offset.natAbs - n
    let ts' := { ts with slewed := if left = 0 then 0 else (ts.slewed + d) % 1000
                         offset := if ts.offset < 0 then -(left : Int) else left }
    (if ts.offset < 0 then tick + word (d - n) else tick + word (d + n), ts')

/-- The error bound E in millionths of a nanosecond: what the last exchange left, the offset that slewing has not corrected, and 20 ns for
each millisecond since; 0 for the master (R44). -/
def State.errBound (s : State) : Nat :=
  if s.ts.master then 0 else (s.ts.err + s.ts.offset.natAbs) * 1000000 + 20 * (s.tick - s.ts.lastGood).toNat

/-- E ≤ 10 ns. -/
def State.errSmall (s : State) : Bool := decide (s.errBound ≤ 10 * 1000000)

/-- SYNCED is set while a package that has joined has E ≤ 10 ns, and clear from the cycle in which E exceeds it (R44); a package that joined ahead
may launch from then on (R43). -/
def State.resync (s : State) : State :=
  let b := s.ts.joined && s.errSmall
  { s with synced := b, ts := { s.ts with ahead := s.ts.ahead && !b } }

/-- Time passes: cycles at 2.5 GHz, ticks at 1 GHz (R42, R276). -/
def State.advance (s : State) (cycles : Nat) : State :=
  let d := trimmed s.ts ((s.tickRem + 2 * cycles) / 5)
  let r := slewTick d.2 s.tick d.1
  State.resync { s with now := s.now + cycles, tick := r.1, ts := r.2, tickRem := (s.tickRem + 2 * cycles) % 5 }

/-- Move the tick forward to a value it has not reached, and the cycles with it. -/
def State.tickTo (s : State) (t : Word) : State :=
  if s.tick.toNat < t.toNat then
    let s := s.advance (((t.toNat - s.tick.toNat) * 5 + 1) / 2)
    if s.tick.toNat < t.toNat then State.resync { s with tick := t } else s
  else s

/-- Move the cycle count forward to a value. -/
def State.cycleTo (s : State) (c : Nat) : State := s.advance (c - s.now)

/-! ## Grants and `heat` -/

/-- A quarter that is not lent. -/
def noQuarter : Quarter := { st := .free, launch := none, split := 0 }

/-- The grant level of a core: the larger of the package's and its die's (R113). -/
def State.grantLevel (s : State) (core : Nat) : Nat := max s.level (s.getDie (dieOf core)).level

/-- VLCAP and KCAP by level and class (Table 4.10). -/
def capsOf (level cls : Nat) : Nat × Nat :=
  match cls, level with
  | 0, 0 => (128, 64) | 0, 1 => (128, 64) | 0, 2 => (64, 32) | 0, _ => (32, 16)
  | 1, 0 => (128, 64) | 1, 1 => (64, 32) | 1, _ => (32, 16)
  | _, 0 => (128, 64) | _, 1 => (128, 64) | _, 2 => (128, 64) | _, _ => (64, 32)

/-- The granted class of a thread: its task's (CLASS of Table 4.9). -/
def Thread.cls (t : Thread) : Nat := match t.task with
  | some k => k.heat
  | none => 0

/-- The caps of the thread in hand. -/
def State.caps (s : State) : Nat × Nat := capsOf (s.grantLevel s.core) s.t.cls

/-- The lender of a gallery of a core in a direction, when the gallery is present for a launch (R108, R111). -/
def State.gallery (s : State) (core dir : Nat) (launch : Option Nat) : Option Nat :=
  match neighbour core dir with
  | none => none
  | some d =>
    let q := vget (s.getCore d).quarters (quarterOf dir) noQuarter
    if q.st == .lent && launch.isSome && q.launch == launch then some d else none

def Thread.launch (t : Thread) : Option Nat := match t.task with
  | some k => k.launch
  | none => none

/-- The `heat` register of the thread in hand (Table 4.9). -/
def State.heat (s : State) : Word :=
  let c := s.core
  let bit := fun (b : Bool) (i : Nat) => if b then 2 ^ i else 0
  let gal := fun d => (s.gallery c d s.t.launch).isSome
  let lent := fun q => (vget (s.getCore c).quarters q noQuarter).st != .free
  word (bit s.synced 63 + bit (gal 0) 35 + bit (gal 1) 34 + bit (gal 2) 33 + bit (gal 3) 32 +
    bit (lent 0) 31 + bit (lent 1) 30 + bit (lent 2) 29 + bit (lent 3) 28 +
    s.grantLevel c * 2 ^ 26 + s.t.cls * 2 ^ 24 + s.caps.1 * 2 ^ 16 + s.caps.2 * 2 ^ 8 +
    bit (s.getCore c).wa 7 + bit (lit c) 6)

/-- Bytes of scratchpad that a split gives (Table 4.1). -/
def spadBytes (split : Nat) : Nat := match split with
  | 0 => 262144 | 1 => 393216 | _ => 458752

/-- Key of a byte of a core's scratchpad. -/
def spadKey (core off : Nat) : Nat := 2 ^ 53 + core * 2 ^ 20 + off

/-! ## Computations that may trap or stall -/

/-- What a trap reports beside its pc (Table 9.1); `vstart` is none where the member had done nothing since it was issued (R238). -/
structure TrapRec where
  cause : Cause
  xaddr : Word
  xelem : Word
  xmask : Word
  vstart : Option Word
  deriving DecidableEq, Repr

/-- Why a member does not complete: it traps, it stalls (with nothing of it done), it waits for a leased access of a partition, with nothing of it done
or with what it did kept, or it waits for a leased line that has been requested ahead, by the number of its request. -/
inductive Stop where
  | trap (r : TrapRec)
  | stall (x : Stall)
  | lease (part : Nat) (req : LeaseReq)
  | leaseKept (part : Nat) (req : LeaseReq)
  | join (tag : Nat)
  deriving DecidableEq, Repr

/-- A computation over the state that may stop; what it did before it stopped stays, except at a stall. -/
abbrev M := ExceptT Stop (StateM State)

/-- Run a computation. -/
def M.exec {α : Type} (m : M α) (s : State) : Except Stop α × State := (ExceptT.run m).run s

/-- Stop with a trap. -/
def raise {α : Type} (c : Cause) (xaddr : Word := 0) (xelem : Nat := 0) (xmask : Nat := 0) (vstart : Option Nat := none) : M α :=
  throw (.trap { cause := c, xaddr := xaddr, xelem := word xelem, xmask := word xmask, vstart := vstart.map word })

/-- Raw bits of the member in issue, for the causes of R233. -/
def State.raw (s : State) : Word := s.t.ir.extractLsb' 0 64
/-- Tail bits [79:48] when L = 0b11. -/
def State.rawHigh (s : State) : Nat := if s.t.ir.extractLsb' 14 2 == 3 then (s.t.ir.extractLsb' 64 32).toNat else 0

/-- ILLEGAL at the member: the raw bits in `xaddr`, the tail bits above them in `xelem` (R233; log 9). -/
def illegal {α : Type} : M α := do
  let s ← get
  raise .illegal s.raw s.rawHigh

/-- VTYPE_ILLEGAL at the member, with its bits as ILLEGAL has them (R233; log 9). -/
def vtypeIllegal {α : Type} : M α := do
  let s ← get
  raise .vtypeIllegal s.raw s.rawHigh

/-- Change the thread in hand. -/
def modT (f : Thread → Thread) : M Unit := modify fun s => s.modT f

/-- Count an event of the current partition. -/
def countM (idx n : Nat) : M Unit := modify fun s => s.count s.t.part idx n

end Sys2Proof.Machine
end

