-- ==== Sys2Proof/Machine/Fetch.lean ====
section
/-! DEFINITION. Lines and convoys: how a line is cut into heads and tails (R119), which heads one convoy takes and whether it is
legal (R122, R283, R314), the target of a branch (R282), and the checks of a translated module (R257, R258). -/

namespace Sys2Proof.Machine

/-- The procedure of R119 from head `i` on, with `t` tail bytes placed: the instruction values of the heads, or none when the line
is malformed. -/
def lineFrom (line : BitVec 512) : Nat → Nat → Nat → Option (List (BitVec 96))
  | 0, _, _ => some []
  | n + 1, i, t =>
    let h := line.extractLsb' (16 * i) 16
    if 2 * i + t == 64 || h == 0 then some []
    else
      let l := tailBytes (h.extractLsb' 14 2)
      if 64 < 2 * i + 2 + t + l then none
      else
        let tail := (line.extractLsb' (8 * (64 - t - l)) 80).toNat % 2 ^ (8 * l)
        (lineFrom line n (i + 1) (t + l)).map (BitVec.ofNat 96 (h.toNat + tail * 65536) :: ·)

/-- The heads of a line with their tails, or none when the line is malformed (R119, R120). -/
def lineValues (line : BitVec 512) : Option (List (BitVec 96)) := lineFrom line 32 0 0

/-- The J bit of an instruction value (Table 11.7). -/
def joined (v : BitVec 96) : Bool := v.getLsbD 13

/-- The convoy that starts at the head of a list: its members; none when J is set on the line's last head (R122). -/
def convoyOf : List (BitVec 96) → Option (List (BitVec 96))
  | [] => some []
  | v :: rest =>
    if joined v then
      match rest with
      | [] => none
      | _ => (convoyOf rest).map (v :: ·)
    else some [v]

/-- Why a convoy that starts at head `idx` is illegal: the offending head (R122). At most four heads, and a head that must stand
last does (R314). -/
def convoyBad (act : Nat → Nat) (heads : List (BitVec 96)) (idx : Nat) : Option Nat :=
  match convoyOf (heads.drop idx) with
  | none => some (heads.length - 1)
  | some ms =>
    if 4 < ms.length then some (idx + 4)
    else ((ms.dropLast).findIdx? (lastOnly act)).map (idx + ·)

/-- The target of the M-B form (R282). -/
def branchTarget (pc : Word) (loff : BitVec 27) (hidx : BitVec 5) : Word :=
  (pc &&& ~~~(63 : Word)) + (loff.signExtend 64) * 64 + (hidx.setWidth 64) * 2

/-- The PC after the convoy of `n` heads that starts at `pc`, in a line of `heads` heads: the next head, or the next line (R120,
R318). -/
def pcAfter (pc : Word) (n heads : Nat) : Word :=
  let idx := (pc.extractLsb' 1 5).toNat + n
  if idx < heads then (pc &&& ~~~(63 : Word)) + word (2 * idx) else (pc &&& ~~~(63 : Word)) + 64

/-! ## Modules (R257, R258) -/

/-- What an instruction is in a region body: not allowed, allowed, or a branch with the target it names relative to its own line:
line offset and head. -/
inductive BodyUse where
  | no | yes | branch (loff : BitVec 27) (hidx : BitVec 5)
  deriving DecidableEq, Repr

/-- The instructions that a region body may contain (R258). -/
def bodyUse (i : Instr) : BodyUse :=
  match i with
  | .add _ _ _ | .sub _ _ _ | .and _ _ _ | .or _ _ _ | .xor _ _ _ | .sll _ _ _ | .srl _ _ _ | .sra _ _ _ | .slt _ _ _
  | .sltu _ _ _ | .min _ _ _ | .max _ _ _ | .minu _ _ _ | .maxu _ _ _ | .mul _ _ _ | .mulh _ _ _ | .mulhu _ _ _
  | .div _ _ _ | .divu _ _ _ | .rem _ _ _ | .remu _ _ _ | .addi _ _ _ | .andi _ _ _ | .ori _ _ _ | .xori _ _ _
  | .slli _ _ _ | .srli _ _ _ | .srai _ _ _ | .slti _ _ _ | .sltiu _ _ _ | .clz _ _ | .ctz _ _ | .popc _ _ | .addw _ _ _
  | .li _ _ | .lih _ _ _ | .fadd _ _ _ | .fsub _ _ _ | .fmul _ _ _ | .fma _ _ _ _ | .fdiv _ _ _ | .fsqrt _ _
  | .fcvt _ _ _ _ | .fcmp _ _ _ _ | .ldb _ _ _ | .ldbu _ _ _ | .ldh _ _ _ | .ldhu _ _ _ | .ldw _ _ _ | .ldwu _ _ _
  | .ldd _ _ _ | .stb _ _ _ | .sth _ _ _ | .stw _ _ _ | .std _ _ _ | .amoAdd _ _ _ _ _ _ | .amoAnd _ _ _ _ _ _
  | .amoOr _ _ _ _ _ _ | .amoXor _ _ _ _ _ _ | .amoMin _ _ _ _ _ _ | .amoMax _ _ _ _ _ _ | .amoMinu _ _ _ _ _ _
  | .amoMaxu _ _ _ _ _ _ | .amoSwap _ _ _ _ _ _ | .amoCas _ _ _ _ _ _ _ | .ldAcq _ _ _ _ _ | .stRel _ _ _ _ _
  | .fence _ => .yes
  | .beq _ _ l h | .bne _ _ l h | .blt _ _ l h | .bge _ _ l h | .bltu _ _ l h | .bgeu _ _ l h | .jal _ l h => .branch l h
  | _ => .no

/-- The 64 bytes from an offset on as a line. -/
def lineAt (bs : Array Byte) (off : Nat) : BitVec 512 :=
  BitVec.ofNat 512 (leNat ((List.range 64).map fun i => bs.getD (off + i) 0))

/-- The offset of the first instruction of a body line that R258 refuses; `lines` are the lines of the body. -/
def bodyLineBad (act : Nat → Nat) (lines : List (BitVec 512)) (k : Nat) (base : Nat) : Option Nat :=
  match lineValues (lines.getD k 0) with
  | none => some (base + 64 * k)
  | some vs =>
    (List.range vs.length).findSome? fun i =>
      match decode act (vs.getD i 0) with
      | .instr ins =>
        match bodyUse ins with
        | .yes => none
        | .no => some (base + 64 * k + 2 * i)
        | .branch loff hidx =>
          let t := (k : Int) + loff.toInt
          if 0 ≤ t ∧ t < lines.length ∧
              decide (hidx.toNat < ((lineValues (lines.getD t.toNat 0)).getD []).length) then none
          else some (base + 64 * k + 2 * i)
      | _ => some (base + 64 * k + 2 * i)

/-- The offset of the first byte for which the translator refuses a module, none when it accepts (R257, R258). -/
def moduleBad (act : Nat → Nat) (bs : Array Byte) : Option Nat :=
  let f := fun (off n : Nat) => leNat ((List.range n).map fun i => bs.getD (off + i) 0)
  let mlen := f 4 4
  let nreg := f 11 1
  let head := [(f 0 4 != 0x00504C46, 0), (mlen < 32 + 16 * nreg, 4), (f 8 2 != 0, 8), (f 10 1 != 1, 10),
    (nreg == 0 || decide (64 < nreg), 11), (f 12 2 == 0 || decide (1024 < f 12 2), 12), (f 14 2 != 0, 14),
    (f 16 4 % 64 != 0 || decide (65536 < f 16 4), 16), (f 20 12 != 0, 20)]
  match head.find? (·.1) with
  | some (_, off) => some off
  | none =>
    (List.range nreg).findSome? fun j =>
      let d := 32 + 16 * j
      let off := f (d + 12) 4
      let nl := f (d + 10) 2
      if f d 10 != 0 then some d
      else if nl == 0 then some (d + 10)
      else if off % 64 != 0 || decide (mlen < off + 64 * nl) then some (d + 12)
      else
        let lines := (List.range nl).map fun k => lineAt bs (off + 64 * k)
        (List.range nl).findSome? fun k => bodyLineBad act lines k off

end Sys2Proof.Machine
end

