-- ==== Sys2Proof/Machine/Remap.lean ====
section
/-! DEFINITION. The stacks: where a physical address lies (R18, R19), the row-remap and swap table with its two copies and its bank tags (R28 to
R30), the cells that serve a burst (R25), and the errors that a read meets (R20). -/

namespace Sys2Proof.Machine

/-! ## Places in the stacks -/

/-- The stack, pseudo-channel and bank of a physical address (R18, R19). -/
def bankAt (pa : Nat) : Nat × Nat × Nat := (pa / 4096 % 12, (Config.bankOf pa).1 % 64, (Config.bankOf pa).2 % 15)

/-- The row of a physical address in its bank. -/
def rowAt (pa : Nat) : Nat := Config.rowOf pa % 2 ^ 18

/-- Number of a bank among the HBM banks of the lifetime record (Table 9.10, R248). -/
def bankKey (b : Nat × Nat × Nat) : Nat := b.1 * 1024 + b.2.1 * 16 + b.2.2

/-- Numbers of an MSM bank and of an L2 slice among the banks of the lifetime record (Table 9.10). -/
def msmKey (core : Nat) : Nat := 12288 + core
def sliceKey (die : Nat) : Nat := 12864 + die

/-- One more in a table of 32-bit saturating counts (Table 9.10). -/
def bump (key : Nat) (l : List (Nat × Nat)) : List (Nat × Nat) := ainsert key (min 0xFFFFFFFF ((alookup key l).getD 0 + 1)) l

/-- Count an error of a bank in the lifetime record (R15, R20). -/
def State.countError (s : State) (key : Nat) (ue : Bool) : State :=
  if ue then { s with life := { s.life with uncorrectable := bump key s.life.uncorrectable } }
  else { s with life := { s.life with corrected := bump key s.life.corrected } }

/-- Whether the bank that holds a physical address is fenced (R30). -/
def State.fencedAt (s : State) (pa : Nat) : Bool :=
  !s.fenced.isEmpty && s.fenced.contains (bankAt pa)

/-- The words of a line whose bursts lie in fenced banks. -/
def State.fencedWords (s : State) (line : Nat) : BitVec 8 :=
  (if s.fencedAt (64 * line) then 0x0F else 0) ||| (if s.fencedAt (64 * line + 32) then 0xF0 else 0)

/-! ## Table entries (Table 1.4) -/

/-- A table entry: kind, pseudo-channel, bank, state, row and spare. -/
def remapEntry (swap : Bool) (pch bank st row spare : Nat) : BitVec 64 :=
  BitVec.ofNat 64 (2 ^ 63 + (if swap then 2 ^ 62 else 0) + pch % 64 * 2 ^ 56 + bank % 16 * 2 ^ 52 + st % 4 * 2 ^ 50 + row % 2 ^ 18 * 2 ^ 32 +
    spare % 32 * 2 ^ 27)

def remapValid (e : BitVec 64) : Bool := e.getLsbD 63
def remapSwap (e : BitVec 64) : Bool := e.getLsbD 62
def remapBank (e : BitVec 64) : Nat := (e.extractLsb' 52 4).toNat
def remapState (e : BitVec 64) : Nat := (e.extractLsb' 50 2).toNat
def remapRow (e : BitVec 64) : Nat := (e.extractLsb' 32 18).toNat
def remapSpare (e : BitVec 64) : Nat := (e.extractLsb' 27 5).toNat

/-- V, KIND and BANK of an entry, as the bank tag array keeps them (R28). -/
def remapTag (e : BitVec 64) : BitVec 6 := e.extractLsb' 62 2 ++ e.extractLsb' 52 4

/-- An entry that is ignored as invalid at its index (R29). -/
def remapIgnored (i : Nat) (e : BitVec 64) : Bool :=
  remapBank e == 15 || (e.extractLsb' 56 6).toNat != i / 32 || e.extractLsb' 0 27 != 0 ||
    (if remapSwap e then e.extractLsb' 27 23 != 0 else e.extractLsb' 50 2 != 0)

/-- The valid entries of a pseudo-channel's group with their indices, lowest first; ignored ones are as invalid (R28, R29). -/
def State.group (s : State) (stack pch : Nat) : List (Nat × BitVec 64) :=
  ((List.range 32).map (32 * pch + ·)).filterMap fun i =>
    (s.remap.find? fun e => e.1 == stack && e.2.1 == i && remapValid e.2.2 && !remapIgnored i e.2.2).map fun e => (i, e.2.2)

/-- The free entries of a group, lowest first (R28). -/
def State.groupFree (s : State) (stack pch : Nat) : List Nat :=
  ((List.range 32).map (32 * pch + ·)).filter fun i => !(s.group stack pch).any fun e => e.1 == i

/-- Put or clear what a table holds at an index. -/
def putAt {α : Type} (stack i : Nat) (e : Option α) (l : List (Nat × Nat × α)) : List (Nat × Nat × α) :=
  (l.filter fun x => !(x.1 == stack && x.2.1 == i)) ++ (match e with
    | some v => [(stack, i, v)]
    | none => [])

/-- What a table holds at an index. -/
def atIndex {α : Type} (stack i : Nat) (l : List (Nat × Nat × α)) : Option α :=
  (l.find? fun x => x.1 == stack && x.2.1 == i).map fun x => x.2.2

/-- Write an entry, or clear it: both copies and the three copies of its tag, which hold no error any more (R28). -/
def State.writeEntry (s : State) (stack i : Nat) (e : Option (BitVec 64)) : State :=
  { s with remap := putAt stack i e s.remap, remapCopy := putAt stack i e s.remapCopy
           bankTags := s.bankTags.map (putAt stack i (e.map remapTag))
           entryErrors := s.entryErrors.filter fun x => !(x.stack == stack && x.index == i) }

def State.setRemap (s : State) (stack i : Nat) (e : BitVec 64) : State := s.writeEntry stack i (some e)
def State.clearRemap (s : State) (stack i : Nat) : State := s.writeEntry stack i none

/-- An entry of the remap and swap log, the oldest of 4,096 overwritten (Table 9.10). -/
def State.logRemap (s : State) (stack : Nat) (e : BitVec 64) : State :=
  { s with life := { s.life with remaps := ((s.tick, stack, e) :: s.life.remaps).take 4096 } }

/-- The bank tag of an entry by majority vote of its three copies (R28). -/
def State.bankTag (s : State) (stack i : Nat) : BitVec 6 :=
  let t := fun k => (atIndex stack i (vget s.bankTags k [])).getD 0
  (t 0 &&& t 1) ||| (t 1 &&& t 2) ||| (t 0 &&& t 2)

/-- An entry that neither copy gives: rewritten as invalid when its tag shows V = 0, else the tag's bank is fenced and logged, and its partitions
are to hear of it (R30). -/
def State.lostEntry (s : State) (stack i : Nat) : State :=
  let tag := s.bankTag stack i
  let b := (stack, i / 32, (tag.extractLsb' 0 4).toNat)
  if !tag.getLsbD 5 then s.clearRemap stack i
  else
    let s := { s with entryErrors := s.entryErrors.filter fun x => !(x.stack == stack && x.index == i) }
    if s.fenced.contains b then s
    else { s with fenced := s.fenced ++ [b], retiring := s.retiring ++ [b], fenceNews := s.fenceNews ++ [b]
                  mcLog := .retire b.1 b.2.1 b.2.2 :: s.mcLog }

/-- Read an entry that holds errors (R30): an error that can be corrected, or one copy alone beyond correction, is repaired, the damaged copy
being written from the other. -/
def State.readEntry (s : State) (stack i : Nat) : State :=
  let here := s.entryErrors.filter fun x => x.stack == stack && x.index == i
  let lost := fun second => here.any fun x => x.second == second && x.ue
  if lost false && lost true then s.lostEntry stack i
  else
    let good := if lost false then atIndex stack i s.remapCopy else atIndex stack i s.remap
    { s with remap := putAt stack i good s.remap, remapCopy := putAt stack i good s.remapCopy
             entryErrors := s.entryErrors.filter fun x => !(x.stack == stack && x.index == i) }

/-- The table is consulted for an access to a pseudo-channel. -/
def State.consult (s : State) (stack pch : Nat) : State :=
  (s.entryErrors.filter fun x => x.stack == stack && x.index / 32 == pch).foldl (fun s x => s.readEntry x.stack x.index) s

/-- The whole table of every stack is read: each entry that holds an error is (R30, R32). -/
def State.consultAll (s : State) : State := s.entryErrors.foldl (fun s x => s.readEntry x.stack x.index) s

/-! ## The cells of a burst (R25, R29) -/

/-- The park bank serves the reads of a bank: its bank-swap entry is PARKED, RETURNING or SWAPPED (Table 1.3). -/
def State.parkServes (s : State) (b : Nat × Nat × Nat) : Bool :=
  (s.group b.1 b.2.1).any fun e => remapSwap e.2 && remapBank e.2 == b.2.2 && remapState e.2 != 0

/-- The cells that serve the reads of a burst: those of the park bank before any row remap, else the spare row of the remap with the lowest
index, else its own row (R25, R29). -/
def State.siteOf (s : State) (burst : Nat) : DramSite :=
  let b := bankAt (32 * burst)
  if s.parkServes b then .park
  else
    match (s.group b.1 b.2.1).find? fun e => !remapSwap e.2 && remapBank e.2 == b.2.2 && remapRow e.2 == rowAt (32 * burst) with
    | some e => .spare (remapSpare e.2)
    | none => .home

/-- The bank whose error counts the cells of a burst belong to: that of the address, or park bank 15 (R19, R20). -/
def siteKey (burst : Nat) (x : DramSite) : Nat :=
  let b := bankAt (32 * burst)
  match x with
  | .park => bankKey (b.1, b.2.1, 15)
  | _ => bankKey b

/-! ## Poison in HBM -/

/-- The line of L2 that differs from what HBM holds: a dirty one, or one that an uncorrectable error has hit (R15, R191). -/
def State.dirtyLine (s : State) (line : Nat) : Option L2Line :=
  (s.getDie (line / 64 % 9)).l2.find? fun l => l.num == line && (l.dirty || l.hurt)

/-- A word as HBM holds it is poisoned: below the line of L2 that differs from it, when there is one. -/
def State.poisonBelow (s : State) (w : Nat) : State :=
  match s.dirtyLine (w / 8) with
  | some l =>
    let l' := { l with belowBad := l.belowBad ||| BitVec.ofNat 8 (2 ^ (w % 8)) }
    s.modDie (w / 8 / 64 % 9) fun k => { k with l2 := k.l2.map fun m => if m.num == l.num then l' else m }
  | none => { s with poison := nset w s.poison }

/-- A stack reads a burst from one of its places and meets every error there, once: each is counted, and an uncorrectable one poisons the four words
(R20). -/
def State.meetError (s : State) (burst : Nat) (x : DramSite) : State :=
  let here := fun (e : Latent) => e.burst == burst && e.site == x
  let met := s.latent.filter here
  let s := met.foldl (fun s e => s.countError (siteKey burst x) e.ue) { s with latent := s.latent.filter fun e => !here e }
  if met.any (·.ue) then (List.range 4).foldl (fun s i => s.poisonBelow (4 * burst + i)) s else s

/-- A stack reads a burst where its table routes it (R20, R25, R30). -/
def State.readBurst (s : State) (burst : Nat) : State :=
  if s.latent.isEmpty && s.entryErrors.isEmpty then s
  else
    let b := bankAt (32 * burst)
    let s := s.consult b.1 b.2.1
    s.meetError burst (s.siteOf burst)

/-- A stack is accessed for a line: its two bursts are read. -/
def State.stackRead (s : State) (line : Nat) : State := (s.readBurst (2 * line)).readBurst (2 * line + 1)

/-- A stack takes a write to a line: its table is consulted (R30). -/
def State.stackWrite (s : State) (line : Nat) : State :=
  if s.entryErrors.isEmpty then s
  else (List.range 2).foldl (fun s h => let b := bankAt (64 * line + 32 * h); s.consult b.1 b.2.1) s

end Sys2Proof.Machine
end

