-- ==== Sys2Proof/Machine/Access.lean ====
section
/-! DEFINITION. Reaching memory: virtual address classes (R176), page walks and TLBs (R178 to R185), the physical map (R177), leases
(R52), the local window (R187), caches (R123, R189 to R192), poison (R15, R246), and reading and writing bytes. -/

namespace Sys2Proof.Machine

/-! ## Kinds of access and places -/

/-- What an access needs: read, write, execute; whether a DEV page may be reached; whether it is a hint. -/
structure Acc where
  rd : Bool
  wr : Bool
  ex : Bool
  dev : Bool
  deriving DecidableEq, Repr

def accLoad : Acc := ⟨true, false, false, false⟩
def accStore : Acc := ⟨false, true, false, false⟩
def accFetch : Acc := ⟨false, false, true, false⟩
/-- FSE accesses need read and write permission (R151, R163). -/
def accTile : Acc := ⟨true, true, false, false⟩

/-- The place `k` bytes on, within one 4 KiB block. -/
def Place.plus (p : Place) (k : Nat) : Place :=
  match p with
  | .hbm pa l sh => .hbm (pa + k) l sh
  | .spad key => .spad (key + k)
  | .ctl o => .ctl (o + k)
  | .dtab o => .dtab (o + k)
  | .lease pa peer o l sh => .lease (pa + k) peer (o + k) l sh

/-- The place as an access past L1 reaches it. -/
def Place.pastL1 : Place → Place
  | .hbm pa .l1 sh => .hbm pa .l2 sh
  | .lease pa peer off .l1 sh => .lease pa peer off .l2 sh
  | p => p

/-- A leased byte as the borrower's caches hold it (R52). -/
def Place.cached : Place → Place
  | .lease pa _ _ via sh => .hbm pa via sh
  | p => p

/-! ## The physical map (Table 7.1) -/

def hbmEnd : Nat := 0x861C468000
def apertureBase : Nat := 0x10000000000
def apertureEnd : Nat := 0x20000000000
def ctlBase : Nat := 0xF000000000000
def dtabBase : Nat := 0xF000000800000
def dtabEnd : Nat := 0xF000000820000
def leaseUnit : Nat := 67108864

/-- A range of HBM that overlaps a lendable range (R53); lendable ranges are in units of 64 MiB. -/
def State.lendableHit (s : State) (pa size : Nat) : Bool :=
  s.lendable.any fun r => decide (pa < (r.1 + r.2) * leaseUnit) && decide (r.1 * leaseUnit < pa + size)

/-! ## What leaves over UALink (R38), and requests to leased memory (R52) -/

/-- The port that the port table names for a destination package (R38). -/
def State.portOf (s : State) (dest : Nat) : Nat := (alookup dest s.portMap).getD 0

/-- The port of a destination is up. -/
def State.reaches (s : State) (dest : Nat) : Bool :=
  (vget s.ports (s.portOf dest) { enabled := false, up := false, stranded := false, lanes := 4, asym := 4 }).up

/-- A message as it leaves by a port. -/
def Out.onPort (p : Nat) : Out → Out
  | .link _ m => .link p m
  | .linkReq _ tag r => .linkReq p tag r
  | .linkReply _ dest error data => .linkReply p dest error data
  | o => o

/-- A message leaves by the port of its destination; while that port is not up it waits (R38; log 80). -/
def State.depart (s : State) (dest : Nat) (o : Out) : State :=
  if s.reaches dest then { s with out := o.onPort (s.portOf dest) :: s.out } else { s with linkWait := s.linkWait ++ [(dest, o)] }

/-- What waited leaves, oldest first, where the port of its destination is up now. -/
def State.departWaiting (s : State) : State :=
  s.linkWait.foldl (fun s w => s.depart w.1 w.2) { s with linkWait := [] }

/-- Send a request for an agent. -/
def State.ask (s : State) (who : Asker) (part : Nat) (r : LeaseReq) : State :=
  State.depart
    { s with asks := s.asks ++ [{ tag := s.nextTag, who := who, part := part, req := r, reply := none }], nextTag := s.nextTag + 1 }
    r.dest (.linkReq 0 s.nextTag r)

/-- In whose name a computation runs. -/
def State.asker (s : State) : Asker := s.agent.getD (.member s.t.uid)

/-- A request of an agent has not been answered. -/
def State.awaits (s : State) (who : Asker) : Bool := s.asks.any fun a => a.who == who && a.reply.isNone

/-- Agents are done or end: answers that they did not use are forgotten, and those to come reach nothing. -/
def dropAsks (p : Asker → Bool) (l : List Ask) : List Ask :=
  l.filterMap fun a => if p a.who then (if a.reply.isSome then none else some { a with who := .gone }) else some a

/-- Whether an agent works for a task. -/
def Asker.servesTask (uid : Nat) : Asker → Bool
  | .member u | .copy u _ | .map u _ => u == uid
  | _ => false

/-- A write of cached bytes that a task wrote, or of a line, has not been acknowledged. -/
def State.writesOut (s : State) (uid line : Option Nat) : Bool :=
  s.asks.any fun a => a.reply.isNone && match a.who with
    | .post uids l => uid.any uids.contains || some l == line
    | _ => false

/-! ## L2 (R14, R190, R192) -/

/-- Ways of a set: lines whose number is congruent modulo the number of sets. -/
def setCount (sets n : Nat) (nums : List Nat) : Nat := (nums.filter fun m => m % sets == n % sets).length

/-- The least recently used line of a full set, in a list with the most recent first. -/
def victim (sets ways n : Nat) (nums : List Nat) : Option Nat :=
  if ways ≤ setCount sets n nums then (nums.filter fun m => m % sets == n % sets).getLast? else none

/-- Sets of an L2 slice: 256 MiB in 16 ways of 64-byte lines. -/
def l2Sets : Nat := 262144

/-- A line of memory as one number of 512 bits. -/
def lineData (m : List Host.Cell) (line : Nat) : BitVec 512 := BitVec.ofNat 512 (leNat (memReadN m (64 * line) 64))

/-- The poison bits of the eight words of a line. -/
def lineBad (poison : List Nat) (line : Nat) : BitVec 8 :=
  BitVec.ofNat 8 ((List.range 8).foldl (fun n i => if poison.contains (8 * line + i) then n + 2 ^ i else n) 0)

/-- A line of a fenced bank comes from its stack as poison (R30). -/
def State.fenceLine (s : State) (line : Nat) : State :=
  (List.range 2).foldl (fun s h =>
    if s.fencedAt (64 * line + 32 * h) then { s with poison := (List.range 4).foldl (fun l i => nset (8 * line + 4 * h + i) l) s.poison } else s) s

/-- An L2 line after a write of a partition; what HBM holds is kept while the line is dirty (R190, R191). -/
def State.dirtied (s : State) (part line : Nat) (old : L2Line) : L2Line :=
  if old.dirty || old.hurt then { old with dirty := true, part := part }
  else { old with dirty := true, part := part, below := lineData s.mem line, belowBad := lineBad s.poison line }

/-- An L2 line as it is filled. -/
def cleanLine (part line : Nat) : L2Line :=
  { num := line, dirty := false, part := part, below := 0, belowBad := 0, hurt := false, home := none, mask := 0, users := [], filled := 0, fresh := false }

/-- A dirty line of L2 goes to its stack, or, of a leased line, the bytes that were written go to its lender (R190, R346). -/
def State.writeBack (s : State) (l : L2Line) : State :=
  match l.home with
  | none => s.stackWrite l.num
  | some h =>
    s.ask (.post l.users l.num) l.part
      { dest := h.1, offset := h.2
        req := .write ((List.range 64).map fun i => if l.mask.getLsbD i then some (memRead s.mem (64 * l.num + i)) else none) }

/-- A clean line that an uncorrectable error has hit leaves L2: what HBM holds is as good as it was (R15). -/
def State.unhurt (s : State) (l : L2Line) : State :=
  if l.hurt && !l.dirty then
    let others := s.poison.filter fun w => w / 8 != l.num
    { s with poison := (List.range 8).foldl (fun p i => if l.belowBad.getLsbD i then nset (8 * l.num + i) p else p) others }
  else s

/-- Put a line into its home slice: a fill, with its eviction and their charges (R192). -/
def State.fillL2 (s : State) (part : Nat) (new : L2Line) : State :=
  let d := new.num / 64 % 9
  let die := s.getDie d
  let v := victim l2Sets 16 new.num (die.l2.map (·.num))
  let s := (s.modDie d fun k => { k with l2 := new :: k.l2.filter fun m => some m.num != v }).count part 4 1
  match v with
  | none => s
  | some n =>
    match die.l2.find? fun l => l.num == n with
    | none => s
    | some l => (if l.dirty then (s.count l.part 6 1).writeBack l else s.unhurt l).count part 7 1

/-- A demand or store touches a line in its home slice: a hit, or a fill with its eviction; the access that had a leased line filled counts no hit
besides (R192). -/
def State.touchL2 (s : State) (part line : Nat) (write : Bool) : State :=
  let d := line / 64 % 9
  match (s.getDie d).l2.find? fun l => l.num == line with
  | some l =>
    let l' := if write then s.dirtied part line l else l
    let s := s.modDie d fun k => { k with l2 := { l' with fresh := false } :: k.l2.filter fun m => m.num != line }
    if l.fresh then s else s.count part 5 1
  | none =>
    let s := if 64 * line < hbmEnd then (s.stackRead line).fenceLine line else s
    s.fillL2 part (if write then s.dirtied part line (cleanLine part line) else cleanLine part line)

/-- An access past L1 at the home slice of a line: L2 takes it, but a line of a GX or DEV page is never allocated there: a read goes to its
stack, and a write goes through to it and drops a copy from before, whose dirty bytes reach HBM first (R190, R191; log 76). -/
def State.touchHome (s : State) (part line : Nat) (write : Bool) (via : Via) : State :=
  match via with
  | .l1 | .l2 => s.touchL2 part line write
  | .gx | .dev =>
    if write then
      let s := (((s.getDie (line / 64 % 9)).l2.filter fun m => m.num == line).foldl State.unhurt s).stackWrite line
      s.modDie (line / 64 % 9) fun k => { k with l2 := k.l2.filter fun m => m.num != line }
    else s.stackRead line

/-- A write to a line that its home slice has just looked up becomes dirty there, or goes through (R190, R191). -/
def State.writeHome (s : State) (part line : Nat) (via : Via) : State :=
  match via with
  | .l1 | .l2 => s.modDie (line / 64 % 9) fun k => { k with l2 := k.l2.map fun m => if m.num == line then s.dirtied part line m else m }
  | .gx | .dev => s.touchHome part line true via

/-- Bytes and poison as HBM holds them: below a line of L2 that differs from it (R191), and all poison in a fenced bank (R30). -/
def State.hbmByte (s : State) (pa : Nat) : Byte :=
  match s.dirtyLine (pa / 64) with
  | some l => l.below.extractLsb' (8 * (pa % 64)) 8
  | none => memRead s.mem pa
def State.hbmBad (s : State) (pa : Nat) : Bool :=
  s.fencedAt pa || (match s.dirtyLine (pa / 64) with
    | some l => l.belowBad.getLsbD (pa % 64 / 8)
    | none => s.poison.contains (pa / 8))

/-- A line and its poison as a fill takes them: the newest bytes, or past L2 what HBM holds. -/
def State.homeLine (s : State) (line : Nat) (via : Via) : BitVec 512 × BitVec 8 :=
  match via with
  | .l1 | .l2 => (lineData s.mem line, lineBad s.poison line)
  | .gx | .dev =>
    match s.dirtyLine line with
    | some l => (l.below, l.belowBad ||| s.fencedWords line)
    | none => (lineData s.mem line, lineBad s.poison line ||| s.fencedWords line)

/-! ## Translation (R178 to R185) -/

/-- Log2 of the page size that PS names (Table 7.4). -/
def psLog (ps : Nat) : Option Nat := match ps with
  | 0 => some 12 | 1 => some 16 | 2 => some 21 | 3 => some 26 | 4 => some 32 | _ => none

/-- Page sizes that a level may hold (Table 7.3). -/
def levelAllows (level sizeLog : Nat) : Bool :=
  match level with
  | 2 => sizeLog == 32
  | 1 => sizeLog == 21 || sizeLog == 26
  | 0 => sizeLog == 12 || sizeLog == 16
  | _ => false

/-- A malformed entry at a level (R181). -/
def pteBad (level : Nat) (e : Word) : Bool :=
  let rsv := e.getLsbD 63 || e.extractLsb' 52 8 != 0 || e.extractLsb' 9 3 != 0
  if e.getLsbD 1 then
    match psLog (e.extractLsb' 60 3).toNat with
    | none => true
    | some sz => rsv || !levelAllows level sz || decide (((e.extractLsb' 12 40).toNat * 4096) % 2 ^ sz ≠ 0)
  else rsv || level == 0 || e.extractLsb' 60 3 != 0 || e.extractLsb' 2 3 != 0 || e.extractLsb' 6 3 != 0

/-- Index of a VA at a level. -/
def vaIndex (level va : Nat) : Nat := va / 2 ^ (12 + 9 * level) % (if level = 4 then 256 else 512)

/-- How a walk ends: a leaf, no valid entry, or a malformed entry. -/
inductive WalkEnd where
  | leaf (sizeLog : Nat) (e : Word)
  | invalid
  | malformed
  deriving DecidableEq, Repr

/-- The pointer that the walk cache of the thread's die holds for a level (R184). -/
def State.walkPtr? (s : State) (asid : BitVec 16) (va level : Nat) : Option WalkPtr :=
  (s.getDie (dieOf s.core)).walkCache.find? fun w => w.asid == asid && w.level == level && w.idx == va / 2 ^ (12 + 9 * level)

/-- Go down from a level: pointers that the walk cache holds are taken from it, all other entries are read through L2, in memory as it
stands (R183, R184). The end of the walk, the pointers it used, and the addresses of the entries it read. -/
def walkFrom (s : State) (asid : BitVec 16) (va : Nat) : Nat → Nat → WalkEnd × List WalkPtr × List Nat
  | level, table =>
    let at_ := table + 8 * vaIndex level va
    let e : Word := word (leNat (memReadN s.mem at_ 8))
    match level with
    | 0 =>
      (if !e.getLsbD 0 then .invalid else if pteBad 0 e || !e.getLsbD 1 then .malformed
       else .leaf ((psLog (e.extractLsb' 60 3).toNat).getD 12) e, [], [at_])
    | n + 1 =>
      match s.walkPtr? asid va (n + 1) with
      | some w =>
        let r := walkFrom s asid va n w.table
        (r.1, w :: r.2.1, r.2.2)
      | none =>
        if !e.getLsbD 0 then (.invalid, [], [at_])
        else if pteBad (n + 1) e then (.malformed, [], [at_])
        else if e.getLsbD 1 then (.leaf ((psLog (e.extractLsb' 60 3).toNat).getD 12) e, [], [at_])
        else
          let w : WalkPtr := { asid := asid, level := n + 1, idx := va / 2 ^ (12 + 9 * (n + 1)), table := (e.extractLsb' 12 40).toNat * 4096 }
          let r := walkFrom s asid va n w.table
          (r.1, w :: r.2.1, at_ :: r.2.2)

/-- A TLB entry that maps a VA (R184). -/
def TlbEntry.hits (e : TlbEntry) (asid : BitVec 16) (va : Nat) : Bool := e.asid == asid && e.page == va / 2 ^ e.sizeLog

/-- Remove the last entry that a predicate names. -/
def eraseLast {α : Type} (p : α → Bool) (l : List α) : List α := (l.reverse.eraseP p).reverse

/-- Put an entry into the die TLB: 1,024 sets of 8 ways, the least recently used way of a full set being replaced (R184). -/
def tlbInsert (e : TlbEntry) (l : List TlbEntry) : List TlbEntry :=
  let inSet := fun (x : TlbEntry) => x.page % 1024 == e.page % 1024
  e :: (if 8 ≤ (l.filter inSet).length then eraseLast inSet l else l)

/-- A walk in progress is one of the page of an address, or of a page that turned out to hold it (R185). -/
def Walk.shares (w : Walk) (asid : BitVec 16) (va : Nat) : Bool :=
  w.asid == asid && match w.result with
    | some (some e) => e.hits asid va
    | _ => w.page == va / 4096

/-- A walk that a demand access made or shared found no leaf: the hints that share it are dropped with it (R455). -/
def State.walkFails (s : State) (d : Nat) (asid : BitVec 16) (va : Nat) : State :=
  if (s.getDie d).walks.any fun w => w.shares asid va then
    s.modDie d fun k => { k with walks := k.walks.map fun w => if w.shares asid va then { w with result := some none } else w }
  else s

/-- The leaf of a VA under an ASID, from the L1 TLB, the die TLB or a walk, and the TLBs after it, with the events of a partition (R181, R184);
a walk that reads poison ends as at an entry with V = 0 (log 77). A walk of the page that a hint has in progress is shared: what it finds decides both, and
nothing of one that faults is cached (R185, R455). -/
def State.lookup (s : State) (part : Nat) (asid : BitVec 16) (root va : Nat) : State × Option TlbEntry :=
  let c := s.core
  let k := s.getCore c
  let put := fun (s : State) (e : TlbEntry) =>
    s.modCore c fun k => { k with tlb := (e :: k.tlb.filter fun x => x != e).take 64 }
  match k.tlb.find? fun e => e.hits asid va with
  | some e => (put s e, some e)
  | none =>
    let s := s.count part 33 1
    let d := dieOf c
    match (s.getDie d).tlb.find? fun e => e.hits asid va with
    | some e => (put (s.modDie d fun k => { k with tlb := e :: k.tlb.filter fun x => x != e }) e, some e)
    | none =>
      let s := s.count part 34 1
      let w := walkFrom s asid va 4 root
      match (s.getDie d).walks.findSome? fun w => if w.shares asid va then w.result else none with
      | some none => (s, none)
      | some (some e) => (put (s.modDie d fun k => { k with tlb := tlbInsert e k.tlb }) e, some e)
      | none =>
        let s := w.2.2.foldl (fun s a => s.touchL2 part (a / 64) false) s
        let poisoned := w.2.2.any fun a => s.poison.contains (a / 8)
        match if poisoned then .invalid else w.1 with
        | .leaf sz leaf =>
          let e : TlbEntry := { asid := asid, page := va / 2 ^ sz, sizeLog := sz, leaf := leaf }
          let s := s.modDie d fun k =>
            { k with
              tlb := tlbInsert e k.tlb
              walkCache := (w.2.1 ++ k.walkCache.filter fun x => !w.2.1.contains x).take 256
              walks := k.walks.map fun x =>
                if x.asid == asid && x.page * 4096 / 2 ^ sz == va / 2 ^ sz then { x with result := some (some e) } else x }
          (put s e, some e)
        | .invalid => (s.walkFails d asid va, none)
        | .malformed => ((s.walkFails d asid va).count part 35 1, none)

/-- The borrowed lease entry that covers an aperture offset for a partition, until a revocation's deadline (R52, R55): the peer and the lender's HBM
offset. -/
def State.leaseOf (s : State) (part off : Nat) : Option (Nat × Nat) :=
  s.leases.findSome? fun p =>
    let e := p.2.entry.toNat
    let a := fld e 36 14 * leaseUnit
    let n := (fld e 22 14 + 1) * leaseUnit
    if fld e 127 1 == 1 && (fld e 125 2 == 1 || (fld e 125 2 == 2 && decide (s.tick.toNat < p.2.deadline.toNat))) && fld e 124 1 == 0 && fld e 108 6 == part && !p.2.draining &&
        fld e 96 12 == 0 && fld e 0 22 == 0 && decide (a ≤ off) && decide (off < a + n) then
      some (fld e 114 10, fld e 50 14 * leaseUnit + (off - a))
    else none

/-- The place of a global VA whose leaf is known, or the cause that refuses it (R177, R181, R52). -/
def State.placeOf (s : State) (e : TlbEntry) (va : Nat) (acc : Acc) (sup : Bool) (part : Nat) : Except Cause Place :=
  let l := e.leaf
  let base := (l.extractLsb' 12 40).toNat * 4096
  let size := 2 ^ e.sizeLog
  let pa := base + va % size
  let dev := l.getLsbD 6
  let gx := l.getLsbD 8
  if (acc.rd && !l.getLsbD 2) || (acc.wr && !l.getLsbD 3) || (acc.ex && !l.getLsbD 4) || (l.getLsbD 5 && !sup) ||
      (dev && !acc.dev) || (gx && dev) then .error .memProt
  else if base + size ≤ hbmEnd then
    if s.lendableHit base size then .error .memProt else .ok (.hbm pa (if gx then .gx else if dev then .dev else .l1) (l.getLsbD 7))
  else if apertureBase ≤ base && base + size ≤ apertureEnd then
    match s.leaseOf part (pa - apertureBase) with
    | some r => .ok (.lease pa r.1 r.2 (if gx then .gx else if dev then .dev else .l1) (l.getLsbD 7))
    | none => .error .leaseFault
  else if ctlBase ≤ base && base + size ≤ ctlBase + 36 * 4096 then
    if size == 4096 && (base - ctlBase) / 4096 == part && dev && l.getLsbD 5 then .ok (.ctl (pa % 4096)) else .error .memProt
  else if dtabBase ≤ base && base + size ≤ dtabEnd then
    if dev && sup && !acc.wr then .ok (.dtab (pa - dtabBase)) else .error .memProt
  else .error .memProt

/-- The place of a local-window byte (R187, Table 7.6). -/
def State.windowPlace (s : State) (off : Nat) : Option Place :=
  match s.t.task with
  | none => none
  | some k =>
    let c := s.core
    let gal := fun (dir base : Nat) =>
      match s.gallery c dir k.launch with
      | some d =>
        let len := spadBytes (vget (s.getCore d).quarters (quarterOf dir) noQuarter).split / 4
        if base ≤ off && off < base + len then some (Place.spad (spadKey d (quarterOf dir * len + (off - base)))) else none
      | none => none
    if off < k.spadu * 4096 then some (.spad (spadKey c (k.spadBase + off)))
    else if off < 0x2000000 then gal 0 0x1000000
    else if off < 0x3000000 then gal 1 0x2000000
    else if off < 0x4000000 then gal 2 0x3000000
    else gal 3 0x4000000

/-- The place of one byte, or the cause that its access raises (R176 to R181, R187, R52), for an address space, a mode and a
partition. -/
def placeFor (asid : BitVec 16) (sup : Bool) (part : Nat) (va : Word) (acc : Acc) : StateM State (Except Cause Place) := do
  let s ← get
  let cls := (va.extractLsb' 56 8).toNat
  let off := (va.extractLsb' 0 56).toNat
  if cls == 0xFF then
    return (match s.windowPlace off with
      | some p => if acc.ex then .error .fetchFault else .ok p
      | none => .error .pageFault)
  else if cls != 0 then return .error .addrFault
  else
    match s.asid? asid with
    | none => return .error .pageFault
    | some ent =>
      if !ent.valid || ent.part != part then return .error .pageFault
      else
        let r := s.lookup part asid ent.root off
        set r.1
        match r.2 with
        | none => return .error .pageFault
        | some e => return r.1.placeOf e off acc sup part

/-- The place of one byte for the thread in hand. -/
def place (va : Word) (acc : Acc) : StateM State (Except Cause Place) := do
  let s ← get
  placeFor s.t.asid s.t.sup s.t.part va acc

/-- The places of `n` bytes from `va` on, by a function that places one byte: translated once for each 4 KiB block they lie in. On
a failure, the index of the lowest failing byte and its cause (R331). -/
def placesGo (pf : Word → StateM State (Except Cause Place)) (va : Word) :
    Nat → Nat → Option Place → StateM State (Except (Nat × Cause) (List Place))
  | 0, _, _ => pure (.ok [])
  | n + 1, k, prev => do
    let a := va + word k
    let p ← match prev with
      | some q => if a.extractLsb' 0 12 == 0 then pf a else pure (.ok (q.plus 1))
      | none => pf a
    match p with
    | .error c => return .error (k, c)
    | .ok q =>
      let rest ← placesGo pf va n (k + 1) (some q)
      return rest.map (q :: ·)

/-- The places of an access of the thread in hand. -/
def places (va : Word) (n : Nat) (acc : Acc) : StateM State (Except (Nat × Cause) (List Place)) :=
  placesGo (fun a => place a acc) va n 0 none

/-! ## L1 and the instruction cache (R123, R189, R192, R207) -/

/-- Sets of a core's L1: its size over 8 ways of 64-byte lines (R186). -/
def l1Sets (split : Nat) : Nat := match split with
  | 0 => 512 | 1 => 256 | _ => 128

/-- Take a line into a core's L1 (a demand miss or a hint), with its charges; a leased line is as old there as its copy in L2 (R207; log 15). -/
def State.fillL1 (s : State) (core part line : Nat) (hinted : Bool) (fresh : Bool := false) : State :=
  let k := s.getCore core
  let v := victim (l1Sets k.split) 8 line (k.l1.map (·.num))
  let since := match (s.getDie (line / 64 % 9)).l2.find? fun l => l.num == line && l.home.isSome with
    | some l => l.filled
    | none => s.now
  let new : Line :=
    { num := line, data := lineData s.mem line, bad := lineBad s.poison line, hinted := hinted, fresh := fresh, part := part, filled := since }
  let s := (s.modCore core fun k =>
    { k with l1 := new :: k.l1.filter fun l => l.num != line && some l.num != v }).count part 0 1
  match v with
  | none => s
  | some n =>
    let s := s.count part 3 1
    match k.l1.find? fun l => l.num == n with
    | some l => if l.hinted then s.count l.part 20 1 else s
    | none => s

/-- Drop the L1 lines of a core that a predicate names; a hinted line that no demand used counts as useless (R199). -/
def State.dropL1 (s : State) (core : Nat) (p : Line → Bool) : State :=
  let gone := (s.getCore core).l1.filter p
  let s := s.modCore core fun k => { k with l1 := k.l1.filter fun l => !p l }
  gone.foldl (fun s l => if l.hinted then s.count l.part 20 1 else s) s

/-- A load from the core in hand touches a line for a partition, through L1 and L2 unless it goes past them; one that L1 has held for 4,096 cycles is fetched
again (R207). The first demand access to a `dpf` line counts as useful, or as late while the line would still be on its way (R199, log 2). -/
def State.touchLoad (s : State) (part line : Nat) (via : Via) : State :=
  let c := s.core
  if via != .l1 then s.touchHome part line false via
  else
    let s := s.dropL1 c fun l => l.num == line && decide (l.filled + 4096 ≤ s.now)
    match (s.getCore c).l1.find? fun l => l.num == line with
    | some l =>
      let s := s.modCore c fun k => { k with l1 := { l with hinted := false, fresh := false } :: k.l1.filter fun m => m.num != line }
      let s := if l.fresh then s else s.count part 1 1
      if l.hinted then s.count l.part (if s.now < l.filled + Config.hintCycles line then 19 else 18) 1 else s
    | none => (s.touchL2 part line false).fillL1 c part line false

/-- The line of the core in hand's L1 that holds a physical address. -/
def State.l1Line (s : State) (pa : Nat) : Option Line := (s.getCore s.core).l1.find? fun l => l.num == pa / 64

/-- A byte that the thread in hand loads, after its line was touched: from L1 when the line is there, past L2 as HBM holds it, else the newest. -/
def State.byteAt (s : State) (p : Place) : Byte :=
  match p with
  | .hbm pa .l1 _ =>
    match s.l1Line pa with
    | some l => l.data.extractLsb' (8 * (pa % 64)) 8
    | none => memRead s.mem pa
  | .hbm pa .l2 _ => memRead s.mem pa
  | .hbm pa _ _ => s.hbmByte pa
  | .spad key => memRead s.mem key
  | _ => 0

/-- Whether a byte reads as poison, after its line was touched (R15, R30). -/
def State.poisonAt (s : State) (p : Place) : Bool :=
  match p with
  | .hbm pa .l1 _ =>
    match s.l1Line pa with
    | some l => l.bad.getLsbD (pa % 64 / 8)
    | none => s.poison.contains (pa / 8)
  | .hbm pa .l2 _ => s.poison.contains (pa / 8)
  | .hbm pa _ _ => s.hbmBad pa
  | .spad key => s.poison.contains (key / 8)
  | _ => false

/-- The line of a place in HBM, and how it is reached. -/
def Place.line? : Place → Option (Nat × Via)
  | .hbm pa via _ => some (pa / 64, via)
  | _ => none

/-- Touch every line of a list of places once, for a partition. -/
def touchFor (part : Nat) : List Place → Option (Nat × Via) → State → State
  | [], _, s => s
  | p :: rest, last, s =>
    match p.line? with
    | some l => if last = some l then touchFor part rest last s else touchFor part rest (some l) (s.touchLoad part l.1 l.2)
    | none => touchFor part rest last s

/-- Touch every line of a list of places once, for the thread in hand. -/
def touchAll (ps : List Place) (last : Option (Nat × Via)) (s : State) : State := touchFor s.t.part ps last s

/-! ## Leased memory (R52): the request leaves, the access waits, and the answer is used when the member issues again -/

/-- The first answer that an agent has to a request, and what is left without it. -/
def takeAnswer (who : Asker) (r : LeaseReq) : List Ask → Option ((Bool × List Byte) × List Ask)
  | [] => none
  | a :: rest =>
    match if a.who = who ∧ a.req = r then a.reply else none with
    | some x => some (x, rest)
    | none => (takeAnswer who r rest).map fun p => (p.1, a :: p.2)

/-- Exchange one request for its answer: the error status and the bytes. -/
def leaseXfer (part : Nat) (r : LeaseReq) : M (Bool × List Byte) := do
  let s ← get
  match takeAnswer s.asker r s.asks with
  | some (x, rest) =>
    set { s with asks := rest }
    return x
  | none => throw (.lease part r)

/-- Whether L2 holds a line of leased memory, for less than 4,096 cycles (R219; log 15). -/
def State.leaseCached (s : State) (line : Nat) : Bool :=
  (s.getDie (line / 64 % 9)).l2.any fun l => l.num == line && l.home.isSome && decide (s.now < l.filled + 4096)

/-- A line of leased memory among places: line in the aperture, peer, line at the lender, and how it is reached. -/
abbrev LeaseLine := Nat × Nat × Nat × Via

/-- The lines of leased memory among places. -/
def leaseLines : List Place → List LeaseLine
  | [] => []
  | .lease pa peer off via _ :: rest =>
    let l := (pa / 64, peer, off / 64, via)
    if (leaseLines rest).contains l then leaseLines rest else l :: leaseLines rest
  | _ :: rest => leaseLines rest

/-- A line that no cache keeps: of a GX or a DEV page (R191). -/
def uncached (l : LeaseLine) : Bool := l.2.2.2 == .gx || l.2.2.2 == .dev

/-- Lines one after another at one lender as one read of up to four lines: 64 to 256 bytes (Table 2.1). -/
def leaseReqs : List LeaseLine → List (Nat × Nat × Nat × Nat)
  | [] => []
  | (line, peer, at_, _) :: rest =>
    match leaseReqs rest with
    | (l, p, a, n) :: more => if p = peer ∧ a = at_ + 1 ∧ l = line + 1 ∧ n < 4 then (line, peer, at_, n + 1) :: more else (line, peer, at_, 1) :: (l, p, a, n) :: more
    | [] => [(line, peer, at_, 1)]

/-- The task that an access caches leased lines for: none for the FSE, the DST and a received tile. -/
def State.leaseUser (s : State) : List Nat := match s.asker with
  | .member u | .copy u _ | .map u _ => [u]
  | _ => []

/-- A task's thread has cached a leased line (R227). -/
def State.useLease (s : State) (uids : List Nat) (line : Nat) : State :=
  s.modDie (line / 64 % 9) fun k => { k with l2 := k.l2.map fun l =>
    if l.num == line && l.home.isSome then { l with users := uids.filter (fun u => !l.users.contains u) ++ l.users } else l }

/-- A line of leased memory arrives in L2: an answer with an error is poison (R40). -/
def State.takeLease (s : State) (part line : Nat) (home : Nat × Nat) (uids : List Nat) (err : Bool) (bs : List Byte) : State :=
  let s := s.fillL2 part { cleanLine part line with home := some home, users := uids, filled := s.now, fresh := true }
  { s with mem := memWriteN s.mem (64 * line) ((List.range 64).map fun i => bs.getD i 0)
           poison := (List.range 8).foldl (fun l i => if err then nset (8 * line + i) l else l.filter fun w => w != 8 * line + i) s.poison }

/-- Leased lines leave L2, their written bytes going to their lenders. -/
def State.dropLease (s : State) (p : L2Line → Bool) : State :=
  let gone := (List.range 9).flatMap fun d => (s.getDie d).l2.filter fun l => l.home.isSome && p l
  if gone.isEmpty then s
  else
    let s := gone.foldl (fun s l => if l.dirty then (s.count l.part 6 1).writeBack l else s) s
    (List.range 9).foldl (fun s d => s.modDie d fun k => { k with l2 := k.l2.filter fun l => !(l.home.isSome && p l) }) s

/-- Leased lines among places whose time in L2 is over leave it (R219; log 15). -/
def State.ageLease (s : State) (ls : List LeaseLine) : State :=
  s.dropLease fun l => decide (l.filled + 4096 ≤ s.now) && ls.any fun x => x.1 == l.num

/-- The request of a line ahead for a core that is still on its way and of use. -/
def State.aheadOf (s : State) (core line : Nat) (kind : Nat → Bool) : Option Nat :=
  (s.asks.find? fun a => a.reply.isNone && match a.who with
    | .line h => h.core == core && h.line == line && kind h.kind && !h.dead
    | _ => false).map (·.tag)

/-- Fetch lines of leased memory by requests of 64 to 256 bytes: the lines whose answer was an error. -/
def fetchLease (part : Nat) : List (Nat × Nat × Nat × Nat) → M (List Nat)
  | [] => pure []
  | (line, peer, at_, n) :: rest => do
    let r ← leaseXfer part { dest := peer, offset := 64 * at_, req := .read (64 * n) }
    modify fun s => (List.range n).foldl
      (fun s i => s.takeLease part (line + i) (peer, 64 * (at_ + i)) s.leaseUser r.1 (r.2.drop (64 * i))) s
    let more ← fetchLease part rest
    return (if r.1 then (List.range n).map (line + ·) else []) ++ more

/-- Read lines at their lenders past every cache: the answer of each (R191). -/
def readThrough (part : Nat) : List (Nat × Nat × Nat × Nat) → M (List (Nat × Bool × List Byte))
  | [] => pure []
  | (line, peer, at_, n) :: rest => do
    let r ← leaseXfer part { dest := peer, offset := 64 * at_, req := .read (64 * n) }
    let more ← readThrough part rest
    return (List.range n).map (fun i => (line + i, r.1, (r.2.drop (64 * i)).take 64)) ++ more

/-- The core in hand's L1 serves a line without L2. -/
def State.l1Serves (s : State) (l : LeaseLine) : Bool :=
  l.2.2.2 == .l1 && (s.getCore s.core).l1.any fun x => x.num == l.1 && decide (s.now < x.filled + 4096)

/-- Lines of leased memory that caches keep are in L2, or in the L1 that serves the access: those fetched whose answer was an error. An access through
L1 waits for a `dpf` of the line (R52, R199). -/
def needLease (part : Nat) (ls : List LeaseLine) : M (List Nat) := do
  modify fun s => s.ageLease ls
  let s ← get
  let miss := ls.filter fun l => !s.leaseCached l.1 && !s.l1Serves l
  match miss.findSome? fun l => if l.2.2.2 == .l1 then s.aheadOf s.core l.1 fun k => k == 1 else none with
  | some tag => throw (.join tag)
  | none => pure ()
  let bad ← fetchLease part (leaseReqs miss)
  modify fun s => ls.foldl (fun s l => s.useLease s.leaseUser l.1) s
  return bad

/-- Bytes of a list of places in order, with poison marks, after their lines were touched. -/
def gatherBytes (s : State) (ps : List Place) : List (Byte × Bool) := ps.map fun p => (s.byteAt p.cached, s.poisonAt p.cached)

/-- A leased byte that no cache keeps, as its lender answered; any other as the caches hold it. -/
def throughByte (s : State) (got : List (Nat × Bool × List Byte)) (p : Place) : Byte × Bool :=
  match p with
  | .lease pa _ _ .gx _ | .lease pa _ _ .dev _ =>
    match alookup (pa / 64) got with
    | some r => (r.2.getD (pa % 64) 0, r.1)
    | none => (0, true)
  | p => (s.byteAt p.cached, s.poisonAt p.cached)

/-- A place of leased memory that no cache keeps. -/
def Place.uncached : Place → Bool
  | .lease _ _ _ .gx _ | .lease _ _ _ .dev _ => true
  | _ => false

/-- Read bytes at places, charged to a partition (R192). -/
def readFor (part : Nat) (ps : List Place) : M (List (Byte × Bool)) := do
  let ls := leaseLines ps
  if ls.isEmpty then
    modify (touchFor part ps none)
    let s ← get
    return gatherBytes s ps
  else
    let got ← readThrough part (leaseReqs (ls.filter uncached))
    let gone ← needLease part (ls.filter fun l => !uncached l)
    modify (touchFor part ((ps.filter fun p => !p.uncached).map Place.cached) none)
    let s ← get
    let bs := ps.map (throughByte s got)
    modify fun s => (s.dropLease fun l => gone.contains l.num).dropL1 s.core fun l => gone.contains l.num
    return bs

/-- Read bytes at places for the thread in hand. -/
def readPlaces (ps : List Place) : M (List (Byte × Bool)) := do
  let s ← get
  readFor s.t.part ps

/-! ## Stores -/

/-- Slots that wait in `wait` on a line, local or global (R337). -/
def State.waitersOn (s : State) (line : Nat) : List Nat :=
  s.slots.filter fun tid => match (s.thread tid).stall with
    | .wait _ _ l _ => l == line
    | _ => false

/-- A write to a 64-byte line is performed: `wait`s on it end (R337). -/
def State.wakeLine (s : State) (line : Nat) : State :=
  match s.waitersOn line with
  | [] => s
  | ws => { s with inbox := s.inbox ++ (ws.filter fun w => !s.inbox.contains (.waitResume w)).map Instr.waitResume }

/-- Run-ahead vectors that read a line are fetched again (R196). -/
def dropAhead (line : Nat) (st : Stream) : Stream := { st with ahead := st.ahead.filter fun v => !v.2.2.contains line }

/-- Put one byte: memory, and the line of the storing core's L1 when it is present (R189). -/
def State.putByte (s : State) (core key : Nat) (b : Byte) : State :=
  let upd := fun (l : Line) =>
    if l.num == key / 64 then { l with data := BitVec.ofNat 512 (setFld l.data.toNat (8 * (key % 64)) 8 b.toNat) } else l
  let s := { s with mem := memWrite s.mem key b }
  if (s.getCore core).l1.any fun l => l.num == key / 64 then s.modCore core fun k => { k with l1 := k.l1.map upd } else s

/-- Put bytes at consecutive keys. -/
def putBytes (core : Nat) : Nat → List Byte → State → State
  | _, [], s => s
  | key, b :: rest, s => putBytes core (key + 1) rest (s.putByte core key b)

/-- Words of memory that a run of bytes covers whole lose their poison (R246). -/
def clearPoison (key n : Nat) (poison : List Nat) : List Nat :=
  poison.filter fun w => !(decide (key ≤ 8 * w) && decide (8 * w + 8 ≤ key + n))

/-- The lines of a run of bytes. -/
def linesOf (key n : Nat) : List Nat := if n = 0 then [] else (List.range ((key + n - 1) / 64 - key / 64 + 1)).map (key / 64 + ·)

/-- The words of an L1 line that a run of bytes covers whole are not poisoned any more. -/
def Line.cleaned (l : Line) (key n : Nat) : Line :=
  { l with bad := BitVec.ofNat 8 ((List.range 8).foldl (fun x i =>
      let w := 8 * l.num + i
      if l.bad.getLsbD i && !(decide (key ≤ 8 * w) && decide (8 * w + 8 ≤ key + n)) then x + 2 ^ i else x) 0) }

/-- What every write does beside its bytes: poison that it covers, waiters, and the streams of the thread in hand. -/
def State.noteWrite (s : State) (key n : Nat) : State :=
  let lines := linesOf key n
  let s := { s with poison := clearPoison key n s.poison }
  let s := if (s.getCore s.core).l1.any fun l => lines.contains l.num && l.bad != 0 then
      s.modCore s.core fun k => { k with l1 := k.l1.map fun l => l.cleaned key n } else s
  let s := lines.foldl State.wakeLine s
  if s.t.streams.isEmpty then s
  else s.modT fun t => { t with streams := t.streams.map fun st => lines.foldl (fun st l => dropAhead l st) st }

/-- Consecutive runs of a list of places with their bytes: a run is one place and the bytes from it on. -/
def storeRuns : List Place → List Byte → List (Place × List Byte)
  | p :: ps, b :: bs =>
    match storeRuns ps bs with
    | (q, run) :: more => if q = p.plus 1 then (p, b :: run) :: more else (p, [b]) :: (q, run) :: more
    | [] => [(p, [b])]
  | _, _ => []

/-- Write bytes from a key on: the home slices take their lines first, so that a line filled with poison loses it where it is covered (R246). A write
into a fenced bank is one that nothing reads (R30): every later read of the bank is poison. -/
def State.writeHbm (s : State) (part pa : Nat) (via : Via) (bs : List Byte) : State :=
  let s := (linesOf pa bs.length).foldl (fun s l => s.touchHome part l true via) s
  (putBytes s.core pa bs s).noteWrite pa bs.length

/-- Bytes from an offset on, cut where a block of 256 bytes ends (Table 2.1). -/
def leaseChunks : Nat → List Byte → List (Nat × List Byte)
  | _, [] => []
  | off, b :: rest =>
    match leaseChunks (off + 1) rest with
    | (o, run) :: more => if (off + 1) % 256 = 0 then (off, [b]) :: (o, run) :: more else (off, b :: run) :: more
    | [] => [(off, [b])]

/-- A write of whole lines that changes only the bytes given: its offset and data. -/
def maskedWrite (off : Nat) (bs : List Byte) : Nat × List (Option Byte) :=
  let first := off / 64 * 64
  (first, (List.range (64 * ceilDiv (off - first + bs.length) 64)).map fun i => if first + i < off then none else bs[first + i - off]?)

/-- Write bytes to their lender at once, each request awaiting its answer; a write answered with an error is counted and discarded (R40, R191). -/
def writeThrough (part peer : Nat) : List (Nat × List Byte) → M Unit
  | [] => pure ()
  | (o, bs) :: rest => do
    let w := maskedWrite o bs
    let r ← leaseXfer part { dest := peer, offset := w.1, req := .write w.2 }
    modify fun s => if r.1 then { s with writebackErrors := s.writebackErrors + 1 } else s
    writeThrough part peer rest

/-- Bits `lo` to `lo + n - 1`. -/
def bitRun (lo n : Nat) : BitVec 64 := BitVec.ofNat 64 ((2 ^ n - 1) * 2 ^ lo)

/-- The bytes of a run that lie in a line are written in its leased copy and not written back. -/
def L2Line.marked (l : L2Line) (pa n : Nat) : L2Line :=
  let lo := max pa (64 * l.num)
  let hi := min (pa + n) (64 * l.num + 64)
  { l with mask := l.mask ||| bitRun (lo - 64 * l.num) (hi - lo) }

/-- A place in leased memory. -/
def Place.leased : Place → Bool
  | .lease _ _ _ _ _ => true
  | _ => false

/-- A store to leased lines that L2 holds: they become dirty there (R190). -/
def State.putLease (s : State) (part pa : Nat) (bs : List Byte) : State :=
  let s := (linesOf pa bs.length).foldl (fun s n => (s.touchL2 part n true).modDie (n / 64 % 9) fun k =>
    { k with l2 := k.l2.map fun l => if l.num == n && l.home.isSome then l.marked pa bs.length else l }) s
  (putBytes s.core pa bs s).noteWrite pa bs.length

/-- A leased line that L2 holds dirty goes to its lender, and what follows waits until it is there; a clean copy leaves L2. -/
def settleLease (lines : List Nat) : M Unit := do
  modify fun s => s.dropLease fun l => lines.contains l.num
  let s ← get
  match lines.find? fun n => s.writesOut none (some n) with
  | some n => throw (.stall (.links (some n)))
  | none => pure ()

/-- Write a run of leased bytes: into L2, whose lines are fetched first, or past it on a GX or a DEV page, which leaves no copy there (R190, R191). -/
def writeLease (part pa peer off : Nat) (via : Via) (bs : List Byte) : M Unit :=
  match via with
  | .gx | .dev => do
    writeThrough part peer (leaseChunks off bs)
    modify fun s => s.noteWrite pa bs.length
  | _ => do
    let _ ← needLease part ((linesOf pa bs.length).map fun n => (n, peer, off / 64 + (n - pa / 64), .l2))
    modify fun s => s.putLease part pa bs

/-- Write one run at its place, charged to a partition (R192). -/
def writeRunFor (part : Nat) (p : Place) (bs : List Byte) : M Unit := do
  match p with
  | .hbm pa via _ => modify fun s => s.writeHbm part pa via bs
  | .spad key => modify fun s => (putBytes s.core key bs s).noteWrite key bs.length
  | .lease pa peer off via _ => writeLease part pa peer off via bs
  | _ => pure ()

def writeRunsGo (part : Nat) : List (Place × List Byte) → M Unit
  | [] => pure ()
  | (p, bs) :: rest => do
    writeRunFor part p bs
    writeRunsGo part rest

/-- The lines of the leased runs that no cache keeps. -/
def throughLines (runs : List (Place × List Byte)) : List Nat :=
  runs.flatMap fun x => match x.1 with
    | .lease pa _ _ _ _ => if x.1.uncached then linesOf pa x.2.length else []
    | _ => []

/-- Write runs in their order, once no older copy of a line that one of them writes past L2 is on its way (R191). -/
def writeRunsFor (part : Nat) (runs : List (Place × List Byte)) : M Unit := do
  settleLease (throughLines runs)
  writeRunsGo part runs

/-- Write runs for the thread in hand. -/
def writeRuns (runs : List (Place × List Byte)) : M Unit := do
  let s ← get
  writeRunsFor s.t.part runs

/-- Write bytes at places. -/
def writePlaces (ps : List Place) (bs : List Byte) : M Unit := do
  modT fun t => { t with stored := t.stored || !ps.isEmpty }
  writeRuns (storeRuns ps bs)

/-! ## Writes by the device -/

/-- Bytes written to HBM by the device itself: poison of whole words goes (R246) and waits on the lines end (R337). -/
def State.devWrite (s : State) (pa : Nat) (bs : List Byte) : State :=
  let s := { s with mem := memWriteN s.mem pa bs, poison := clearPoison pa bs.length s.poison }
  (List.range ((pa + bs.length - 1) / 64 + 1 - pa / 64)).foldl (fun s i => s.wakeLine (pa / 64 + i)) s

/-- Bytes that an agent other than a core writes to HBM for a partition: the home slices take their lines first (R61, R190 to R192), and no L1 sees
them. -/
def State.devStore (s : State) (part pa : Nat) (via : Via) (bs : List Byte) : State :=
  ((linesOf pa bs.length).foldl (fun s l => s.touchHome part l true via) s).devWrite pa bs

/-! ## Accesses of a member -/

/-- The places of an access; a failing byte raises its cause there (R331), reported for element `elem`. -/
def placesOr (va : Word) (n : Nat) (acc : Acc) (elem mask vstart : Nat := 0) : M (List Place) := do
  match ← (places va n acc : StateM State _) with
  | .ok ps => return ps
  | .error (k, c) => raise c (va + word k) elem mask (some vstart)

/-- The number in marked bytes that were read from `va` on; poison raises MEM_UE at its lowest byte (R246). -/
def cleanOr (va : Word) (bs : List (Byte × Bool)) (elem mask vstart : Nat) : M Nat :=
  match bs.findIdx? (·.2) with
  | some k => do
    countM 39 1
    raise .memUe (va + word k) elem mask (some vstart)
  | none => return leNat (bs.map (·.1))

/-- Load `n` bytes as a number. -/
def loadN (va : Word) (n : Nat) (acc : Acc := accLoad) (elem : Nat := 0) (mask : Nat := 1) (vstart : Nat := 0) : M Nat := do
  let ps ← placesOr va n acc elem mask vstart
  let bs ← readPlaces ps
  cleanOr va bs elem mask vstart

/-- Store bytes. -/
def storeN (va : Word) (bs : List Byte) (elem : Nat := 0) (mask : Nat := 1) (vstart : Nat := 0) : M Unit := do
  let ps ← placesOr va bs.length accStore elem mask vstart
  writePlaces ps bs

/-! ## Fetch (R118 to R125) -/

/-- A line arrives in the instruction cache of a core as most recently used, with its charges: 256 sets of four ways (R123, R192, R454). -/
def State.putCode (s : State) (core part : Nat) (new : Line) : State :=
  let k := s.getCore core
  let v := victim 256 4 new.num (k.icache.map (·.num))
  let s := (s.modCore core fun k => { k with icache := new :: k.icache.filter fun l => l.num != new.num && some l.num != v }).count part 8 1
  match v with
  | none => s
  | some m =>
    let s := s.count part 11 1
    match k.icache.find? fun l => l.num == m with
    | some l => if l.hinted then s.count l.part 15 1 else s
    | none => s

/-- A demand lookup waits for a line that an `ipf` is filling (R123). -/
def State.wantCode (s : State) (core line : Nat) : State :=
  s.modCore core fun k => { k with icFills := k.icFills.map fun f => if f.1 == line then (f.1, f.2.1, true, f.2.2.2) else f }

/-- An `ipf` is filling a line of the core. -/
def Core.fillsCode (k : Core) (line : Nat) : Bool := k.icFills.any fun f => f.1 == line

/-- The line of code at a physical address, through the instruction cache of the core (R123); the lookup that waited for the line counts no hit (R454). -/
def State.fetchLine (s : State) (pa : Nat) (via : Via) (got : Option (BitVec 512 × BitVec 8) := none) : State × BitVec 512 × BitVec 8 :=
  let c := s.core
  let part := s.t.part
  let n := pa / 64
  match (s.getCore c).icache.find? fun l => l.num == n with
  | some l =>
    let s := s.modCore c fun k => { k with icache := { l with hinted := false, fresh := false } :: k.icache.filter fun m => m.num != n }
    let s := if l.fresh then s else s.count part 9 1
    ((if l.hinted then s.count l.part 13 1 else s), l.data, l.bad)
  | none =>
    let s := if got.isSome then s else s.touchHome part n false via
    let x := got.getD (s.homeLine n via)
    (s.putCode c part { num := n, data := x.1, bad := x.2, hinted := false, fresh := false, part := part, filled := s.now }, x)

/-- A line as a lender answered. -/
def lineAnswer (err : Bool) (bs : List Byte) : BitVec 512 × BitVec 8 :=
  (BitVec.ofNat 512 (leNat ((List.range 64).map fun i => bs.getD i 0)), if err then 255 else 0)

/-- What the fetch of a line that the instruction cache does not have waits for: a line that is on its way for the core (R123, R126), and a leased one from
its lender, which comes into L2 or, of a GX page, past it: the lines whose answer was an error, and the line. -/
def needCode (p : Place) (pa : Nat) : M (List Nat × Option (BitVec 512 × BitVec 8)) := do
  let s ← get
  let ls := leaseLines [p]
  let k := s.getCore s.core
  if k.icache.any fun x => x.num == pa / 64 then return ([], none)
  else if k.fillsCode (pa / 64) then throw (.stall (.code (pa / 64)))
  else if ls.isEmpty then return ([], none)
  else
    match s.aheadOf s.core (pa / 64) fun k => k != 1 with
    | some tag => throw (.join tag)
    | none =>
      if p.uncached then
        let got ← readThrough s.t.part (leaseReqs ls)
        return ([], got.head?.map fun (g : Nat × Bool × List Byte) => lineAnswer g.2.1 g.2.2)
      else return (← needLease s.t.part (ls.map fun l => (l.1, l.2.1, l.2.2.1, .l2)), none)

/-- FETCH_FAULT of a line: what lies below the resumption point of the member to issue stands (R238). -/
def noFetch {α : Type} (line : Word) : M α := do
  let s ← get
  raise .fetchFault line 0 0 (some s.t.vstart.toNat)

/-- Fetch a line of code: a failing translation, a page without X or a local-window address raises FETCH_FAULT (R125, R176); poison
raises MEM_UE with the line address (Table 9.3). -/
def fetchBytes (line : Word) : M (BitVec 512) := do
  match ← (place line accFetch : StateM State _) with
  | .ok p =>
    match p.cached with
    | .hbm pa l _ =>
      let x ← needCode p pa
      let s ← get
      let r := s.fetchLine pa l x.2
      set (r.1.dropLease fun l => x.1.contains l.num)
      if r.2.2 != 0 then
        countM 39 1
        raise .memUe line 0 0 (some s.t.vstart.toNat)
      else return r.2.1
    | _ => noFetch line
  | _ => noFetch line

end Sys2Proof.Machine
end

