-- ==== Sys2Proof/Machine/TileMap.lean ====
section
/-! DEFINITION. The tile map and the fill/spill engine (06): TMAP entries (Table 6.2), the map cache (R152), versions and their states
(R154), granule sets and eviction (R157 to R159), spills and fills (R160 to R164), and the images of tiles in memory (R147, R299). -/

namespace Sys2Proof.Machine

/-! ## Entries (Table 6.2) -/

def entV (e : BitVec 128) : Bool := e.getLsbD 127
def entRes (e : BitVec 128) : Bool := e.getLsbD 126
def entDirty (e : BitVec 128) : Bool := e.getLsbD 125
def entTy (e : BitVec 128) : TypeCode := e.extractLsb' 118 6
def entNgr (e : BitVec 128) : Nat := (e.extractLsb' 115 3).toNat
def entCore (e : BitVec 128) : Nat := (e.extractLsb' 90 10).toNat

/-- Build an entry. -/
def mkEnt (v res dirty : Bool) (ty : TypeCode) (ngr ghead rcore n : Nat) : BitVec 128 :=
  BitVec.ofBool v ++ BitVec.ofBool res ++ BitVec.ofBool dirty ++ (0 : BitVec 1) ++ ty ++ BitVec.ofNat 3 ngr ++ (0 : BitVec 3) ++
    BitVec.ofNat 12 ghead ++ BitVec.ofNat 10 rcore ++ (0 : BitVec 14) ++ BitVec.ofNat 12 (2 + 5 * n) ++ (0 : BitVec 64)

/-- The entry with other V, RES and DIRTY bits, ETYPE and NGR kept. -/
def entMarks (e : BitVec 128) (v res dirty : Bool) (n : Nat) : BitVec 128 :=
  if res then mkEnt v res dirty (entTy e) (entNgr e) (e.extractLsb' 100 12).toNat (entCore e) n
  else mkEnt v false false (entTy e) (entNgr e) 0 0 n

/-- The descriptor of a narrow type (R266). -/
def State.desc? (s : State) (c : TypeCode) : Option TypeDesc := s.typeDescs.find? fun d => d.code == c

/-- The format of a descriptor. -/
def TypeDesc.fmt (d : TypeDesc) : Fmt :=
  ⟨d.bits, d.expBits, d.fracBits, d.bias, if d.hasInf then (if d.hasNan then .ieee else .infOnly) else if d.hasNan then .nanOnly else .finiteOnly⟩

/-- The least exponent of a format's normal numbers. -/
def Fmt.minNormal (f : Fmt) : Int := 1 - (f.bias : Int)

/-- The greatest finite magnitude of a format lies within that of another. -/
def Fmt.within (g f : Fmt) : Bool := match g.decode g.maxCode, f.decode f.maxCode with
  | .fin _ m e, .fin _ n h => decide (m * 2 ^ (e - min e h).toNat ≤ n * 2 ^ (h - min e h).toNat)
  | _, _ => false

/-- Whether a format covers another: its exponents reach as low and as high, those that specials reserve left out, up to the greatest finite number,
and its fraction is as long (R266), so that every finite code decodes exactly. -/
def covers (f g : Fmt) : Bool := decide (g.m ≤ f.m) && decide (f.minNormal ≤ g.minNormal) && g.within f

/-- The first type of R266's order that covers a descriptor. -/
def widenTo (d : TypeDesc) : Option ETy :=
  [ETy.e3m2, .e4m3, .e5m2, .fp16, .bf16, .fp32].find? fun t => match t.fmt? with
    | some f => covers f d.fmt
    | none => false

/-- The type that a tile of an ETYPE code has in MSM: its own, or the wider one of R266. -/
def State.tileType (s : State) (c : TypeCode) : Option ETy :=
  match etyOf c with
  | some t => some t
  | none => (s.desc? c).bind widenTo

/-- A malformed entry of register n (R151). -/
def State.entBad (s : State) (n : Nat) (e : BitVec 128) : Bool :=
  e.getLsbD 124 || e.extractLsb' 112 3 != 0 || e.extractLsb' 76 14 != 0 || e.extractLsb' 0 64 != 0 ||
    (e.extractLsb' 64 12).toNat != 2 + 5 * n || (entDirty e && !entRes e) ||
    (entV e && (match s.tileType (entTy e) with
      | some t => entNgr e != t.granules
      | none => true))

/-! ## Tile images (R147, R299) -/

def tileElem (t : Tile) (i : Nat) : Nat := (vget t.elems i 0).toNat

/-- Bytes of eight elements of width w, which fill w bytes. -/
def packEight (w : Nat) (f : Nat → Nat) : List Byte :=
  leBytes w ((List.range 8).foldl (fun acc i => acc + f i % 2 ^ w * 2 ^ (w * i)) 0)

/-- The code of element `i` in the backing encoding, with the flags of encoding it: re-encoded under RNE when the type was widened (R266,
R305). -/
def backEncode (s : State) (t : Tile) (i : Nat) : Nat × Word :=
  match t.narrow.bind s.desc?, t.ety.fmt? with
  | some d, some f => d.fmt.encode .rne (f.decode (tileElem t i))
  | _, _ => (tileElem t i, 0)

/-- The code of element `i` in the backing encoding. -/
def backCode (s : State) (t : Tile) (i : Nat) : Nat := (backEncode s t i).1

/-- Width of an element in the backing encoding. -/
def backWidth (s : State) (t : Tile) : Nat := match t.narrow.bind s.desc? with
  | some d => d.bits
  | none => t.ety.width

/-- The image of a tile in memory. -/
def tileBytes (s : State) (t : Tile) : List Byte :=
  let w := backWidth s t
  (List.range 512).flatMap fun g => packEight w fun i => backCode s t (8 * g + i)

/-- The element codes of an image of width w. -/
def imageElem (w : Nat) (bs : Array Byte) (i : Nat) : Nat :=
  let g := i / 8
  fld (leNat ((List.range w).map fun k => bs.getD (g * w + k) 0)) (w * (i % 8)) w

/-- A tile of a type with every element zero. -/
def zeroTile (t : ETy) : Tile := { ety := t, elems := Vector.replicate 4096 0, poison := 0, narrow := none }

/-- The tile that an image holds, with one poison mark per 8-byte word. -/
def tileOfBytes (s : State) (c : TypeCode) (bs : Array Byte) (poison : BitVec 2560) : Tile :=
  match etyOf c with
  | some t => { ety := t, elems := vtab 4096 fun i => BitVec.ofNat 40 (imageElem t.width bs i), poison := poison, narrow := none }
  | none =>
    match s.desc? c with
    | some d =>
      match (widenTo d).bind fun t => t.fmt?.map fun f => (t, f) with
      | some (t, f) =>
        { ety := t, elems := vtab 4096 fun i => BitVec.ofNat 40 (f.encode .rne (d.fmt.decode (imageElem d.bits bs i))).1,
          poison := poison, narrow := some c }
      | none => zeroTile .fp32
    | none => zeroTile .fp32

/-- Whether the word of the image that holds part of element `i` is poisoned. -/
def Tile.bad (t : Tile) (i : Nat) : Bool :=
  let w := t.ety.width
  t.poison.getLsbD (i * w / 64) || t.poison.getLsbD ((i * w + w - 1) / 64)

/-- Poison marks for the elements that satisfy a predicate. -/
def poisonOf (w : Nat) (bad : Nat → Bool) : BitVec 2560 :=
  (List.range 4096).foldl (fun p i =>
    if bad i then p ||| BitVec.ofNat 2560 (2 ^ (i * w / 64)) ||| BitVec.ofNat 2560 (2 ^ ((i * w + w - 1) / 64)) else p) 0

/-- The code that an entry holds for a tile. -/
def Tile.code (t : Tile) : TypeCode := t.narrow.getD t.ety.code

/-! ## Contexts and the map cache -/

/-- The context of the thread in hand (06, Switching contexts). -/
def Thread.ctx (t : Thread) : Ctx := { part := t.part, asid := t.asid, base := t.tmapbase }

/-- The slot on which a context is active. -/
def State.activeSlot (s : State) (c : Ctx) : Option Nat :=
  s.slots.find? fun tid => let t := s.thread tid; t.task.isSome && t.tmapbase != 0 && t.ctx == c

def findSet (sets : List TileSet) (c : Ctx) (r : MReg) : Option TileSet := sets.find? fun x => x.ctx == c && x.reg == r
def dropSet (sets : List TileSet) (c : Ctx) (r : MReg) : List TileSet := sets.filter fun x => !(x.ctx == c && x.reg == r)

/-- Address of an entry and of a backing slot (R149). -/
def entAddr (base : Word) (r : MReg) : Word := base + word (16 * r.toNat)
def backAddr (base : Word) (r : MReg) : Word := base + word (0x2000 + r.toNat * 0x5000)

/-- The places of an FSE access in a context's address space: past L1 (R149). -/
def fsePlaces (c : Ctx) (sup : Bool) (va : Word) (n : Nat) : StateM State (Except (Nat × Cause) (List Place)) :=
  placesGo (fun a => do return (← placeFor c.asid sup c.part a accTile).map Place.pastL1) va n 0 none

/-- A map-cache line of the thread in hand. -/
def Thread.line? (t : Thread) (r : MReg) : Option MapLine := t.mapCache.find? fun l => l.reg == r

/-- Set an entry in a map cache. -/
def setLine (r : MReg) (e : BitVec 128) (l : List MapLine) : List MapLine :=
  { reg := r, entry := e, changed := true } :: l.filter fun x => x.reg != r

/-- Fetch the group of four entries that holds a register's (R152); TMAP_FAULT when it cannot be read (R151). -/
def fetchGroup (r : MReg) : M Unit := do
  let s ← get
  let base := s.t.tmapbase
  let g := r.toNat / 4
  match ← (fsePlaces s.t.ctx s.t.sup (base + word (64 * g)) 64 : StateM State _) with
  | .error _ => raise .tmapFault (entAddr base r) r.toNat
  | .ok ps =>
    let bs := (← readFor s.t.part ps).map (·.1)
    let s ← get
    let fresh := (List.range 4).filterMap fun i =>
      let n := BitVec.ofNat 9 (4 * g + i)
      if (s.t.line? n).isSome then none
      else some { reg := n, entry := BitVec.ofNat 128 (leNat ((bs.drop (16 * i)).take 16)), changed := false : MapLine }
    let hits := fresh.filter fun l =>
      entRes l.entry && entCore l.entry == s.core && (findSet (s.getCore s.core).sets s.t.ctx l.reg).isSome
    modT fun t => { t with mapCache := fresh ++ t.mapCache }
    countM 30 hits.length

/-- The entry of a register that an instruction names, after the checks of R151 and R172. -/
def namedEntry (r : MReg) : M (BitVec 128) := do
  let s ← get
  if (s.t.line? r).isNone then fetchGroup r
  let s ← get
  match s.t.line? r with
  | none => raise .tmapFault (entAddr s.t.tmapbase r) r.toNat
  | some l =>
    let e := l.entry
    if s.entBad r.toNat e then raise .tmapFault (entAddr s.t.tmapbase r) r.toNat
    else if entV e && entRes e && (entCore e != s.core || (findSet (s.getCore s.core).sets s.t.ctx r).isNone) then
      raise .tmapFault (entAddr s.t.tmapbase r) r.toNat
    else return e

/-- The mode in which the FSE works for a context: that of the slot where it is active (R149). -/
def State.ctxSup (s : State) (c : Ctx) : Bool := match s.activeSlot c with
  | some tid => (s.thread tid).sup
  | none => false

/-- The slot on which a context is active and whose map cache holds the entry of a register. -/
def State.cachedAt (s : State) (c : Ctx) (r : MReg) : Option (Nat × Thread × MapLine) :=
  match s.activeSlot c with
  | some tid => ((s.thread tid).line? r).map fun (l : MapLine) => (tid, s.thread tid, l)
  | none => none

/-- Whether a pre-empted task keeps the entry of a register in its map cache (R152). -/
def Pending.keeps (p : Pending) (c : Ctx) (r : MReg) : Bool := p.saved.any fun t => t.ctx == c && (t.line? r).isSome

/-- The entry of a register that is kept for a pre-empted task. -/
def State.keptEntry (s : State) (c : Ctx) (r : MReg) : Option (BitVec 128) :=
  ((s.pending.find? fun p => p.keeps c r).bind fun p => p.saved).bind fun t => (t.line? r).map fun (l : MapLine) => l.entry

/-- Change an entry where a map cache holds it: on the slot where its context is active, or kept for a pre-empted task (R152). None when no map
cache does. -/
def State.setCached (s : State) (c : Ctx) (r : MReg) (f : BitVec 128 → BitVec 128) : Option State :=
  match s.cachedAt c r with
  | some (tid, t, l) => some (s.setThread tid { t with mapCache := setLine r (f l.entry) t.mapCache })
  | none =>
    if s.pending.any fun p => p.keeps c r then
      let put := fun (t : Thread) => match t.line? r with
        | some l => { t with mapCache := setLine r (f l.entry) t.mapCache }
        | none => t
      some { s with pending := s.pending.map fun p => if p.keeps c r then { p with saved := p.saved.map put } else p }
    else none

/-- The entry that an eviction leaves for a version: BACKED, or INVALID when its value is dropped (Table 6.3, R96). -/
def TileSet.backed (x : TileSet) (v : Bool) : BitVec 128 := mkEnt v false false x.tile.code x.tile.ety.granules 0 0 x.reg.toNat

/-- Mark the register of a version BACKED, or INVALID: in a map cache that holds its entry, else in memory (R152); the address of an entry that
cannot be written. -/
def markEntry (x : TileSet) (v : Bool) : M (Option Word) := do
  let s ← get
  match s.setCached x.ctx x.reg fun e => entMarks e (v && entV e) false false x.reg.toNat with
  | some s' =>
    set s'
    return none
  | none =>
    let va := entAddr x.ctx.base x.reg
    match ← (fsePlaces x.ctx (s.ctxSup x.ctx) va 16 : StateM State _) with
    | .error _ => return some va
    | .ok ps =>
      writeRunsFor x.ctx.part (storeRuns ps (leBytes 16 (x.backed v).toNat))
      return none

/-- Write runs without waiting for lenders: into leased lines that L2 holds, else to the lender, whose answer nothing awaits but the release of its
lease (R152, Table 2.6). -/
def postRuns (part : Nat) : List (Place × List Byte) → State → State
  | [], s => s
  | (p, bs) :: rest, s =>
    postRuns part rest (match p with
      | .hbm pa via _ => s.writeHbm part pa via bs
      | .spad key => (putBytes s.core key bs s).noteWrite key bs.length
      | .lease pa peer off via _ =>
        let lines := linesOf pa bs.length
        if via != .gx && via != .dev && lines.all s.leaseCached then s.putLease part pa bs
        else
          let s := s.dropLease fun l => lines.contains l.num
          let post := fun (s : State) (x : Nat × List Byte) =>
            let w := maskedWrite x.1 x.2
            s.ask (.post [] (pa / 64)) part { dest := peer, offset := w.1, req := .write w.2 }
          ((leaseChunks off bs).foldl post s).noteWrite pa bs.length
      | _ => s)

/-! ## Granules and eviction (R157 to R159) -/

/-- Granules that sets of a core use. -/
def usedGranules (sets : List TileSet) : List Nat := sets.flatMap (·.granules)

/-- Up to `n` granules of the range from `lo` on, `k` long, that are not used and not excluded. -/
def takeFree (used : List Nat) (ok : Nat → Bool) : Nat → Nat → Nat → List Nat
  | 0, _, _ => []
  | _, _, 0 => []
  | k + 1, lo, n + 1 =>
    if ok lo && !used.contains lo then lo :: takeFree used ok k (lo + 1) n else takeFree used ok k (lo + 1) (n + 1)

/-- Whether an own granule is in a quarter that the core keeps (R110, R157). -/
def ownGranule (k : Core) (g : Nat) : Bool :=
  match (vget k.quarters (g / 512) noQuarter).st with
  | .reserved | .draining | .lent => false
  | _ => true

/-- A gallery of a core is present, whichever launch it is lent for (R111, R157). -/
def State.hasGallery (s : State) (core dir : Nat) : Bool :=
  match neighbour core dir with
  | none => false
  | some d => (vget (s.getCore d).quarters (quarterOf dir) noQuarter).st == .lent

/-- A free granule set of `n` granules: own ones first, then the galleries N, E, S, W; never of two sources (R157). -/
def State.freeSet (s : State) (core : Nat) (n : Nat) : Option (List Nat) :=
  let k := s.getCore core
  let used := usedGranules (k.sets ++ k.gone ++ (List.range 4).flatMap fun i => (s.thread (4 * core + i)).held)
  let own := takeFree used (ownGranule k) 2048 0 n
  if own.length = n then some own
  else
    (List.range 4).findSome? fun d =>
      if s.hasGallery core d then
        let l := takeFree used (fun _ => true) 512 (2048 + 512 * d) n
        if l.length = n then some l else none
      else none

/-- Versions that a queued entry pins (R158). -/
def State.pinned (s : State) (core : Nat) (x : TileSet) : Bool :=
  (s.getCore core).tileq.any fun e => let t := s.thread e.tid; t.ctx == x.ctx && (e.uses.contains x.reg || e.fills.contains x.reg)

/-- Victim classes of R158, 1 to 6: clean of inactive contexts, clean last-used, other clean; then dirty in the same order. -/
def State.victimClass (s : State) (x : TileSet) : Nat :=
  let c := if (s.activeSlot x.ctx).isNone then 0 else if x.lastUsed then 1 else 2
  if x.dirty then 4 + c else 1 + c

/-- The first victim of the least class; sets are kept least recently used first. -/
def State.pickVictim (s : State) (core : Nat) (keep : List MReg) : Option TileSet :=
  let cands := (s.getCore core).sets.filter fun x =>
    !x.filling && !x.spilling && x.blocked.isNone && !s.pinned core x && !(x.ctx == s.t.ctx && keep.contains x.reg)
  [1, 2, 3, 4, 5, 6].findSome? fun c => cands.find? fun x => s.victimClass x == c

def State.modSets (s : State) (core : Nat) (f : List TileSet → List TileSet) : State :=
  s.modCore core fun k => { k with sets := f k.sets }

/-- Write the accumulator bank of a core back to the granule set of its register (R146). -/
def State.writeBackAcc (s : State) (core : Nat) : State :=
  match (s.getCore core).acc with
  | none => s
  | some b =>
    let put := fun (x : TileSet) => if x.ctx == b.ctx && x.reg == b.reg then { x with tile := b.tile } else x
    s.modCore core fun k => { k with acc := none, sets := k.sets.map put }

/-- The accumulator bank of a core is discarded when it holds a register (R168). -/
def State.dropAcc (s : State) (core : Nat) (c : Ctx) (r : MReg) : State :=
  if (s.getCore core).acc.any fun b => b.ctx == c && b.reg == r then s.modCore core fun k => { k with acc := none } else s

/-- The value of a resident register: in the accumulator bank when that holds it, else in its granule set (R146). -/
def State.tileOf (s : State) (core : Nat) (c : Ctx) (r : MReg) : Option Tile :=
  match (s.getCore core).acc.filter fun b => b.ctx == c && b.reg == r with
  | some b => some b.tile
  | none => (findSet (s.getCore core).sets c r).map (·.tile)

/-- A version leaves MSM; an unread hinted one counts as useless, and a fill of it that is in flight runs on (R167). -/
def State.freeVersion (s : State) (core : Nat) (x : TileSet) : State :=
  let s := (s.dropAcc core x.ctx x.reg).modSets core fun l => dropSet l x.ctx x.reg
  if x.hinted then
    (if x.filling then s.modCore core fun k => { k with gone := k.gone ++ [{ x with hinted := false }] } else s).count x.ctx.part 25 1
  else s

/-- The current version of a register of the thread in hand leaves MSM. -/
def State.supersede (s : State) (r : MReg) : State :=
  match findSet (s.getCore s.core).sets s.t.ctx r with
  | some x => s.freeVersion s.core x
  | none => s.dropAcc s.core s.t.ctx r

/-- Drop a version from MSM and mark its register BACKED (Table 6.3): the address of its entry when that cannot be written, and the version
stays (log 74). -/
def dropVersion (core : Nat) (x : TileSet) : M (Option Word) := do
  match ← markEntry x true with
  | some va => return some va
  | none =>
    modify fun s => s.freeVersion core x
    return none

/-- Obtain a set of `n` granules for the thread in hand: evict clean versions at once; a victim that is dirty, or whose entry cannot be
written, starts its eviction and the dispatch stalls (R158, R159). -/
def allocSet (keep : List MReg) : Nat → Nat → M (List Nat)
  | 0, _ => throw (.stall .granules)
  | fuel + 1, n => do
    let s ← get
    match s.freeSet s.core n with
    | some l => return l
    | none =>
      match s.pickVictim s.core keep with
      | none => throw (.stall .granules)
      | some x =>
        if x.dirty then throw (.stall (.spill x.ctx x.reg))
        else
          match ← dropVersion s.core x with
          | some _ => throw (.stall (.spill x.ctx x.reg))
          | none => allocSet keep fuel n

/-- Post an asynchronous cause to a thread; a second one of the same code merges and is counted (R244). -/
def State.post (s : State) (tid : Nat) (a : Async) : State :=
  let t := s.thread tid
  if t.pend.any fun p => p.cause == a.cause then s.count t.part 40 1
  else s.setThread tid { t with pend := t.pend ++ [a] }

/-- Codes of Table 9.1. -/
def Cause.code : Cause → BitVec 16
  | .illegal => 0x0001 | .absent => 0x0002 | .illegalLine => 0x0003 | .illegalConvoy => 0x0004 | .vtypeIllegal => 0x0005
  | .ecall => 0x0006 | .brk => 0x0007 | .barRange => 0x0008 | .fetchFault => 0x0010 | .addrFault => 0x0011 | .pageFault => 0x0012
  | .memProt => 0x0013 | .leaseFault => 0x0014 | .streamFault => 0x0015 | .landingFault => 0x0016 | .tmapFault => 0x0020
  | .tileInvalid => 0x0021 | .fillFault => 0x0022 | .spillFault => 0x0023 | .memUe => 0x0030 | .remoteNak => 0x0031
  | .leaseRevoke => 0x0032

/-! ## Causes of a pre-empted thread (R244, R248, R250) -/

/-- Bytes between the save records of a partition. -/
def saveStep : Nat := 0x8000

/-- The physical address of a save record of a partition: in the first 24 MiB of the 32 that the device keeps (R81, log 56). -/
def State.saveAddr (s : State) (part i : Nat) : Nat :=
  ((s.part? part).map (·.memPa)).getD 0 + (Config.saveBase part + i) % 768 * saveStep

/-- The second word of a save record: member, vector state live, pending causes (Table 9.5). -/
def Thread.saveHeader (t : Thread) : Nat :=
  let bit := fun (c : Cause) (i : Nat) => if t.pend.any fun a => a.cause == c then 2 ^ i else 0
  t.member % 4 + (if t.vlive then 2 ^ 2 else 0) + bit .spillFault 16 + bit .memUe 17 + bit .remoteNak 18 + bit .leaseRevoke 19

/-- `xstatus` as a word (Table 9.2). -/
def Thread.xstatus (t : Thread) : Word :=
  let b := fun (c : Bool) (i : Nat) => if c then 2 ^ i else 0
  word (b t.sup 0 + b t.psup 1 + b t.inh 2 + b t.skipBit 5 + b t.ntf 6 + b (!t.pend.isEmpty) 7)

/-- Change a pre-empted thread, with the header word and `xstatus` of its save record (R248, R250). -/
def State.changeSaved (s : State) (p : Pending) (f : Thread → Thread) : State :=
  match p.saved with
  | none => s
  | some t =>
    let t := f t
    let s := match t.save with
      | some i =>
        let a := s.saveAddr p.task.part i
        (s.devStore p.task.part (a + 8) .l2 (leBytes 8 t.saveHeader)).devStore p.task.part (a + 0x290) .l2 (leBytes 8 t.xstatus.toNat)
      | none => s
    { s with pending := s.pending.map fun q => if q == p then { q with saved := some t } else q }

/-- Post an asynchronous cause to a pre-empted thread, and to its save record. -/
def State.postSaved (s : State) (p : Pending) (a : Async) : State :=
  match p.saved with
  | none => s
  | some t =>
    if t.pend.any fun b => b.cause == a.cause then s.count p.task.part 40 1
    else s.changeSaved p fun t => { t with pend := t.pend ++ [a] }

/-- A notification to the partition's thread with NTF, bound or pre-empted, or to its control page: at most 16 wait, later ones are dropped
(R248). -/
def State.notify (s : State) (part : Nat) (a : Async) : State :=
  match s.slots.find? fun tid => let t := s.thread tid; t.task.isSome && t.part == part && t.ntf with
  | some tid => s.post tid a
  | none =>
    match s.pending.find? fun p => p.task.part == part && p.saved.any (·.ntf) with
    | some p => s.postSaved p a
    | none =>
      match s.part? part with
      | none => s
      | some p =>
        if p.notifs.length < 16 then
          s.modPart part fun p => { p with notifs := p.notifs ++ [{ code := a.cause.code, xelem := a.xelem.setWidth 32, xaddr := a.xaddr }] }
        else s.count part 41 1

/-- Poison marks of bytes that are written from an image with poisoned 8-byte words; a write that goes through to a lender carries none (log 15). -/
def spreadPoison (s : State) (bad : Nat → Bool) : List (Place × List Byte) → Nat → State
  | [], _ => s
  | (p, bs) :: rest, k =>
    let key := match p with
      | .hbm pa _ _ => some pa
      | .spad key => some key
      | .lease pa _ _ via _ => if via == .gx || via == .dev then none else some pa
      | _ => none
    let s := match key with
      | some a => (List.range bs.length).foldl (fun s i =>
          if bad (k + i) then { s with poison := nset ((a + i) / 8) s.poison } else s) s
      | none => s
    spreadPoison s bad rest (k + bs.length)

/-- Write bytes with poison carried: words that hold a poisoned byte are poisoned (R246). -/
def writeMarked (part : Nat) (ps : List Place) (bs : List Byte) (bad : Nat → Bool) : M Unit := do
  let runs := storeRuns ps bs
  writeRunsFor part runs
  modify fun s => spreadPoison s bad runs 0

/-- Write a version's image to its backing slot (R160), counted at each try (Table 6.7); the failing address when the translation fails (R164). -/
def spillImage (x : TileSet) : M (Option Word) := do
  let s ← get
  let bs := tileBytes s x.tile
  let va := backAddr x.ctx.base x.reg
  modify fun s => s.count x.ctx.part 28 1
  match ← (fsePlaces x.ctx (s.ctxSup x.ctx) va bs.length : StateM State _) with
  | .error (k, _) => return some (va + word k)
  | .ok ps =>
    writeMarked x.ctx.part ps bs fun i => x.tile.poison.getLsbD (i / 8)
    return none

/-- The binding number of the task on a slot. -/
def State.uidOf (s : State) (tid : Nat) : Nat := ((s.thread tid).task.map fun (k : Task) => k.uid).getD 0

/-- Raise SPILL_FAULT for a blocked eviction (R164): at the slot of its context, else at the slot whose allocation needed it, else as a
notification of the partition. -/
def State.spillFault (s : State) (core : Nat) (x : TileSet) (xaddr : Word) (alloc : Option Nat) : State :=
  let a : Async := { cause := .spillFault, xaddr := xaddr, xelem := word x.reg.toNat, reg := x.reg }
  let target := match s.activeSlot x.ctx with
    | some tid => some tid
    | none => alloc
  let s := s.modSets core fun l => l.map fun y =>
    if y.ctx == x.ctx && y.reg == x.reg then { y with spilling := false, blocked := some (target.map s.uidOf) } else y
  match target with
  | some tid => s.post tid a
  | none => s.notify x.ctx.part a

/-- A version whose blocked eviction is tried again when the thread that was told returns, or the notification thread of its partition (R164). -/
def TileSet.retried (x : TileSet) (uid : Nat) (ntf : Bool) (part : Nat) : TileSet :=
  match x.blocked with
  | some (some w) => if w == uid then { x with blocked := none, spilling := !x.filling } else x
  | some none => if ntf && x.ctx.part == part then { x with blocked := none, spilling := !x.filling } else x
  | none => x

/-- Evict a version for good: a dirty one is written to its backing slot, and its entry follows; the address that fails (R158, R160). -/
def evictVersion (core : Nat) (x : TileSet) : M (Option Word) := do
  if x.dirty then
    match ← spillImage x with
    | some va => return some va
    | none => dropVersion core x
  else dropVersion core x

/-- The bytes of the changed entries of a group that a map cache holds, with the places of the group's 64 bytes. -/
def groupRuns (t : Thread) (g : Nat) (ps : List Place) : List (Place × List Byte) :=
  let cells := (List.range 4).flatMap fun i =>
    match t.line? (BitVec.ofNat 9 (4 * g + i)) with
    | some l => ((ps.drop (16 * i)).take 16).zip (leBytes 16 l.entry.toNat)
    | none => []
  storeRuns (cells.map (·.1)) (cells.map (·.2))

/-- A group of the map cache is the same in memory. -/
def Thread.groupDone (t : Thread) (g : Nat) : Thread :=
  { t with mapCache := t.mapCache.map fun l => if l.reg.toNat / 4 == g then { l with changed := false } else l }

/-- Write back one group of the thread's map cache (R152): the group's address when it fails. `run` writes its bytes. -/
def writeBackGroup (run : List (Place × List Byte) → M Unit) (g : Nat) : M (Option Word) := do
  let s ← get
  let va := s.t.tmapbase + word (64 * g)
  match ← (fsePlaces s.t.ctx s.t.sup va 64 : StateM State _) with
  | .error _ => return some va
  | .ok ps =>
    run (groupRuns s.t g ps)
    modT fun t => t.groupDone g
    return none

/-- Write back groups in order and stop at the first that fails (`tmsw`, R171). -/
def writeBackFirst : List Nat → M (Option Word)
  | [] => pure none
  | g :: rest => do
    let s ← get
    match ← writeBackGroup (writeRunsFor s.t.part) g with
    | some va => return some va
    | none => writeBackFirst rest

/-- Write back every group that can be written, waiting for no lender (pre-emption, task end; R152). -/
def writeBackEach : List Nat → M Unit
  | [] => pure ()
  | g :: rest => do
    let s ← get
    let _ ← writeBackGroup (fun runs => modify (postRuns s.t.part runs)) g
    writeBackEach rest

/-- The groups of the map cache that differ from memory. -/
def Thread.changedGroups (t : Thread) : List Nat :=
  (List.range 128).filter fun g => t.mapCache.any fun l => l.changed && l.reg.toNat / 4 == g

/-! ## Reading and writing versions -/

/-- The value of the current version of a register of the thread in hand, moved to the most recently used place, after the accumulator bank that
holds it is written back (R146); a superseded version that a queued entry still reads comes first (R155). -/
def readTile (m : MSrc) : M Tile := do
  let s ← get
  match s.t.held.find? fun x => x.reg == m.reg with
  | some x => return x.tile
  | none =>
    let s := if (s.getCore s.core).acc.any fun b => b.ctx == s.t.ctx && b.reg == m.reg then s.writeBackAcc s.core else s
    match findSet (s.getCore s.core).sets s.t.ctx m.reg with
    | none => raise .tileInvalid 0 m.reg.toNat
    | some x =>
      set (s.modSets s.core fun l => dropSet l x.ctx x.reg ++ [{ x with lastUsed := m.last }])
      return x.tile

/-- Give a register a new version (Table 6.3): a fresh set, V = RES = DIRTY = 1; the old set is superseded, and freed before the new one is
taken unless the instruction itself reads it: then only after (R155). -/
def writeTile (keep : List MReg) (r : MReg) (t : Tile) : M Unit := do
  if !keep.contains r then modify fun s => s.supersede r
  let gs ← allocSet (r :: keep) 4096 t.ety.granules
  modify fun s => s.supersede r
  let s ← get
  let x : TileSet :=
    { ctx := s.t.ctx, reg := r, tile := t, dirty := true, lastUsed := false, filling := false, hinted := false,
      spilling := false, blocked := none, granules := gs, job := s.nextJob }
  let e := mkEnt true true true t.code t.ety.granules (gs.headD 0) s.core r.toNat
  set { ((s.modSets s.core fun l => l ++ [x]).modT fun t => { t with mapCache := setLine r e t.mapCache }) with nextJob := s.nextJob + 1 }

/-- An instruction that has begun a destination goes on in its current version, which keeps its set (R390); one that has been evicted meanwhile is made
anew. -/
def continueTile (keep : List MReg) (r : MReg) (t : Tile) : M Unit := do
  let s ← get
  match (findSet (s.getCore s.core).sets s.t.ctx r).filter fun x => x.granules.length == t.ety.granules && s.t.held.all fun y => y.reg != r with
  | none => writeTile keep r t
  | some x =>
    let x := { x with tile := t, dirty := true, lastUsed := false, filling := false, hinted := false }
    let e := mkEnt true true true t.code t.ety.granules (x.granules.headD 0) s.core r.toNat
    set (((s.dropAcc s.core s.t.ctx r).modSets s.core fun l => dropSet l s.t.ctx r ++ [x]).modT fun t => { t with mapCache := setLine r e t.mapCache })

/-- Request the fill of a BACKED register: a set, filling (Table 6.3). -/
def requestFill (keep : List MReg) (hinted : Bool) (r : MReg) : M Unit := do
  let s ← get
  match s.t.line? r with
  | none => pure ()
  | some l =>
    let t := (s.tileType (entTy l.entry)).getD .fp32
    let gs ← allocSet keep 4096 t.granules
    let s ← get
    let x : TileSet :=
      { ctx := s.t.ctx, reg := r, dirty := false, lastUsed := false, filling := true, hinted := hinted, spilling := false,
        tile := { zeroTile t with narrow := if (etyOf (entTy l.entry)).isNone then some (entTy l.entry) else none },
        blocked := none, granules := gs, job := s.nextJob }
    let e := mkEnt true true false (entTy l.entry) t.granules (gs.headD 0) s.core r.toNat
    set { ((s.modSets s.core fun k => k ++ [x]).modT fun t => { t with mapCache := setLine r e t.mapCache }) with nextJob := s.nextJob + 1 }

/-- The places of a backing slot that the checks of a RESOLVED walk have translated (R399). -/
def State.checkedPlaces (s : State) (c : Ctx) (r : MReg) (n : Nat) : Option (List Place) :=
  ((s.activeSlot c).bind fun tid => (s.thread tid).checked).bind fun l => (l.find? fun x => x.1 == r).map fun x =>
    (List.range n).map fun k => (x.2.getD (k / 4096) (.hbm 0 .l2 false)).plus (k % 4096)

/-- The bytes of a backing slot as a tile, or the first failing address (R163). -/
def fillImage (c : Ctx) (sup : Bool) (r : MReg) (code : TypeCode) : M (Except Word Tile) := do
  let s ← get
  let n := match s.desc? code with
    | some d => if (etyOf code).isNone then 4096 * d.bits / 8 else ((etyOf code).getD .fp32).bytes
    | none => ((etyOf code).getD .fp32).bytes
  let va := backAddr c.base r
  let found ← match s.checkedPlaces c r n with
    | some ps => pure (.ok ps)
    | none => (fsePlaces c sup va n : StateM State _)
  match found with
  | .error (k, _) => return .error (va + word k)
  | .ok ps =>
    let bs ← readFor c.part ps
    let arr := (bs.map (·.1)).toArray
    let bad := (List.range (n / 8)).foldl (fun (p : BitVec 2560) i =>
      if ((bs.drop (8 * i)).take 8).any (·.2) then p ||| BitVec.ofNat 2560 (2 ^ i) else p) 0
    return .ok (tileOfBytes s code arr bad)

end Sys2Proof.Machine
end

