-- ==== Sys2Proof/Machine/Ctl.lean ====
section
/-! DEFINITION. The event stream (R253, R254), Sperov messages that the package sends (Table 2.2), the control
page of a partition (R200, Table 7.11) and what a store to it starts: ASID roots (R178), lease entries (R51, R53, R55), counters
(R255) and translations (R260 to R262). -/

namespace Sys2Proof.Machine

/-- ACT of a decode-table entry as loaded (R263, R264). -/
def State.act (s : State) (idx : Nat) : Nat :=
  match alookup idx s.decodeOver with
  | some e => (e.extractLsb' 30 2).toNat
  | none => shippedAct idx

/-- An entry of the decode table copy (Table 10.4). -/
def State.decodeEntry (s : State) (idx : Nat) : BitVec 32 :=
  (alookup idx s.decodeOver).getD (BitVec.ofNat 32 (shippedAct idx * 2 ^ 30))

/-! ## Event stream -/

/-- An event record (Table 9.7). -/
def eventRecord (typ ring core slot : Nat) (asid : BitVec 16) (tick : Word) (payload : Nat) : List Byte :=
  leBytes 32 (payload % 2 ^ 128 * 2 ^ 128 + typ * 2 ^ 120 + ring * 2 ^ 116 + core * 2 ^ 106 + slot * 2 ^ 104 +
    asid.toNat * 2 ^ 88 + tick.toNat)

/-- Write a record to an event ring of a partition, or drop and count it (R253); BASE is a physical address in the partition's memory. -/
def State.emit (s : State) (part ring typ core slot : Nat) (asid : BitVec 16) (payload : Nat) : State :=
  match s.part? part with
  | none => s
  | some p =>
    let r := vget p.rings ring { base := 0, log2 := 0, head := 0, tail := 0 }
    let n := 2 ^ r.log2.toNat
    let a := r.base.toNat + 32 * (r.head.toNat % n)
    if decide (8 ≤ r.log2.toNat) && decide (r.log2.toNat ≤ 24) && (r.base.extractLsb' 0 12 == 0) &&
        decide ((r.head - r.tail).toNat < n) && decide (p.memPa ≤ a) && decide (a + 32 ≤ p.memPa + p.memBytes) then
      (s.devWrite a (eventRecord typ ring core slot asid s.tick payload)).modPart part fun p =>
        { p with rings := vput p.rings ring { r with head := r.head + 1 } }
    else s.count part (42 + ring) 1

/-- A record about a slot's task. -/
def State.emitTask (s : State) (tid ring typ payload : Nat) : State :=
  let t := s.thread tid
  s.emit t.part ring typ (tid / 4) (tid % 4) t.asid payload

/-- LAUNCH_ID of a task's launch; 0 for a system-queue task. -/
def State.launchId (s : State) (k : Task) : Word :=
  match s.launches.find? fun l => some l.key == k.launch with
  | some l => l.id
  | none => 0

/-! ## Sperov messages -/

/-- The common word (Table 2.2). -/
def commonWord (typ src dest : Nat) (seq : BitVec 16) (plen : Nat) : Word :=
  word (typ * 2 ^ 60 + src % 1024 * 2 ^ 50 + dest % 1024 * 2 ^ 40 + seq.toNat * 2 ^ 24 + plen % 65536 * 2 ^ 8)

/-- The package's own id; 0 before it is written (R39). -/
def State.ownId (s : State) : Nat := match s.pkgId with
  | some i => i.toNat
  | none => 0

def State.send (s : State) (o : Out) : State := { s with out := o :: s.out }

/-- A remote tile message as an event at the package that receives it. -/
def tileEvent (m : LinkMsg) : Option Instr :=
  match (m.common.extractLsb' 60 4).toNat with
  | 1 => some (.tile m) | 2 => some (.tack m) | 3 => some (.tnak m) | _ => none

/-- Messages that are of no use later, or are sent again by themselves: TILE (R49), TSYNC and TSYNCR (R43). -/
def passing (m : LinkMsg) : Bool :=
  let typ := (m.common.extractLsb' 60 4).toNat
  typ == 1 || typ == 4 || typ == 5

/-- Send a message: a remote tile message to the package itself is delivered without leaving it (R428), any other leaves by the port of its destination
(R38). While that port is not up a TILE, TSYNC or TSYNCR message is lost, and any other waits for it, which the manual does not say (DESIGN CHOICE, log
80). -/
def State.sendLink (s : State) (m : LinkMsg) : State :=
  let dest := (m.common.extractLsb' 40 10).toNat
  if s.pkgId == some (BitVec.ofNat 10 dest) then { s with inbox := s.inbox ++ (tileEvent m).toList }
  else if passing m && !s.reaches dest then s
  else s.depart dest (.link 0 m)

/-- Send a message of words only. -/
def State.sendWords (s : State) (typ dest : Nat) (seq : BitVec 16) (words : List Word) : State :=
  s.sendLink { common := commonWord typ s.ownId dest seq 0, words := words, pmap := [], payload := [] }

/-! ## ASID roots and lease entries -/

/-- The ASID root word of the selected ASID, as its partition reads it (Table 7.11). -/
def State.rootWord (s : State) (p : Partition) : Word :=
  match s.asid? (p.asidSel.extractLsb' 0 16) with
  | some e => if e.part == p.id then word (e.root % 2 ^ 52 / 4096 * 4096 + (if e.valid then 1 else 0)) else 0
  | none => 0

/-- A store to the ASID root word: discarded unless the selected ASID is this partition's. -/
def State.asidRoot (s : State) (part : Nat) (v : Word) : State :=
  match s.part? part with
  | none => s
  | some p =>
    let sel : BitVec 16 := p.asidSel.extractLsb' 0 16
    { s with asids := s.asids.map fun e =>
        if e.asid == sel && e.part == part then { e with root := (v.extractLsb' 12 40).toNat * 4096, valid := v.getLsbD 0 } else e }

/-- A lease entry that R51 accepts. -/
def leaseOk (e : BitVec 128) : Bool :=
  let n := e.toNat
  fld n 96 12 == 0 && fld n 0 22 == 0 && fld n 125 2 != 3 && decide (fld n 108 6 ≤ 35) && (fld n 124 1 == 0 || fld n 36 14 == 0)

def State.lease? (s : State) (i : Nat) : Option Lease := alookup i s.leases
def State.setLease (s : State) (i : Nat) (l : Lease) : State := { s with leases := ainsert i l s.leases }

/-- Fields of a lease entry (Table 2.4). -/
def Lease.v (l : Lease) : Bool := l.entry.getLsbD 127
def Lease.st (l : Lease) : Nat := fld l.entry.toNat 125 2
def Lease.lent (l : Lease) : Bool := l.entry.getLsbD 124
def Lease.peer (l : Lease) : Nat := fld l.entry.toNat 114 10
def Lease.part (l : Lease) : Nat := fld l.entry.toNat 108 6
def Lease.lid (l : Lease) : Nat := fld l.entry.toNat 64 32
def Lease.lbase (l : Lease) : Nat := fld l.entry.toNat 50 14
def Lease.units (l : Lease) : Nat := fld l.entry.toNat 22 14 + 1
/-- The lease with another STATE. -/
def Lease.withSt (l : Lease) (st : Nat) : Lease := { l with entry := BitVec.ofNat 128 (setFld l.entry.toNat 125 2 st) }
/-- The lease with V cleared. -/
def Lease.cleared (l : Lease) : Lease := { l with entry := BitVec.ofNat 128 (setFld l.entry.toNat 127 1 0), draining := false }

/-- A store to the high word of the lease entry image: accepted when the entry is free or this partition's and passes R51; a new
PENDING borrowed entry sends LREQ (R53); clearing V of a borrowed entry in use releases it (R55). -/
def State.leaseWrite (s : State) (part : Nat) (v : Word) : State :=
  match s.part? part with
  | none => s
  | some p =>
    let i := p.leaseIdx.toNat % 256
    let new : BitVec 128 := v ++ p.leaseLow
    let free := match s.lease? i with
      | some l => !l.v
      | none => true
    let own := match s.lease? i with
      | some l => l.part == part
      | none => false
    if !(free || own) then s
    else if !leaseOk new then { s with leaseBad := s.leaseBad + 1 }
    else
      let l : Lease := { entry := new, deadline := 0, drop := false, draining := false }
      match s.lease? i with
      | some old =>
        if old.v && !old.lent && old.st != 0 && !l.v then s.setLease i { old with draining := true }
        else if l.v && !l.lent && l.st == 0 then
          (s.setLease i l).sendWords 6 l.peer 0 [word (l.lid * 2 ^ 32 + (l.units - 1) * 2 ^ 18 + l.part * 2 ^ 12)]
        else s.setLease i l
      | none =>
        if l.v && !l.lent && l.st == 0 then
          (s.setLease i l).sendWords 6 l.peer 0 [word (l.lid * 2 ^ 32 + (l.units - 1) * 2 ^ 18 + l.part * 2 ^ 12)]
        else s.setLease i l

/-! ## Translations (R260 to R262) -/

/-- Bytes of a module as the thread in hand sees them: the bytes, or the index of the first that cannot be read. -/
def moduleBytes (va : Word) (n : Nat) : StateM State (Except Nat (List Byte)) := do
  match ← places va n accLoad with
  | .error (k, _) => return .error k
  | .ok ps =>
    let s ← get
    return .ok (ps.map s.byteAt)

/-- The key of a translation (R262). -/
def transKeyOf (bs : List Byte) (gen h : Word) : BitVec 384 := sha384 (bs ++ leBytes 8 gen.toNat ++ leBytes 8 h.toNat)

/-- The translator as a pending task of the system queue: priority 0, cool, SPADU 16 (R260). -/
def translatorTask (part : Nat) (asid : BitVec 16) (now : Nat) : Task :=
  { launch := none, stage := 0, index := 0, part := part, asid := asid, prio := 0, heat := 0, spadu := 16, spadBase := 0, split := none,
    mapSlot := none, entry := 0, sarg := 0, supervisor := true, translator := true, since := now, popped := false, uid := 0 }

/-- Refuse a request at an offset. -/
def State.transRefuse (s : State) (part off : Nat) : State :=
  s.modPart part fun p => { p with transState := 3, transBad := some (BitVec.ofNat 32 off), transResult := 0 }

/-- A store to the request's H word: a cached key answers at once; a key in progress is waited for; else the translator is queued, behind the one that
is running for another key, whose result then goes into the cache alone (R260, R262; log 23). -/
def State.transRequest (s : State) (part : Nat) (v : Word) : State :=
  let s := s.modPart part fun p => { p with transH := v &&& 63 }
  match s.part? part with
  | none => s
  | some p =>
    if p.transH.toNat == 0 || decide (32 < p.transH.toNat) then s.transRefuse part 0
    else
      match (moduleBytes p.transVa 32).run s with
      | (.error k, s) => s.transRefuse part k
      | (.ok hd, s) =>
        match (moduleBytes p.transVa (leNat ((hd.drop 4).take 4))).run s with
        | (.error k, s) => s.transRefuse part k
        | (.ok bs, s) =>
          let key := transKeyOf bs s.gen p.transH
          match p.transCache.find? fun e => e.key == key with
          | some e =>
            s.modPart part fun p =>
              { p with transState := 2, transBad := none, transResult := e.pa, transKey := key,
                       transCache := e :: p.transCache.filter fun x => x.key != key }
          | none =>
            let s := s.modPart part fun p => { p with transState := 1, transBad := none, transResult := 0, transKey := key }
            if p.transJobs.any fun j => j.key == key then s
            else
              let job : TransJob :=
                { key := key, h := p.transH.toNat, code := bs, bad := (moduleBad s.act (bs ++ hd.drop bs.length).toArray).map (BitVec.ofNat 32) }
              { s.modPart part (fun p => { p with transJobs := p.transJobs ++ [job] }) with
                pending := s.pending ++ [{ task := translatorTask part s.t.asid s.now, home := none, saved := none }] }

/-! ## The control page -/

/-- The waiting notification `i` as its 16 bytes (Table 7.11). -/
def notifNat (n : Notif) : Nat := n.code.toNat + n.xelem.toNat * 2 ^ 32 + n.xaddr.toNat * 2 ^ 64

/-- The word that a load of the control page returns (Table 7.11). -/
def State.ctlWord (s : State) (part off : Nat) : Word :=
  match s.part? part with
  | none => 0
  | some p =>
    let entry := match s.lease? (p.leaseIdx.toNat % 256) with
      | some l => l.entry
      | none => 0
    if off == 0x000 then p.xvec
    else if off == 0x008 then word (p.id + p.pairs.toNat * 64)
    else if off == 0x010 then word p.memPa
    else if off == 0x018 then word p.memBytes
    else if off == 0x020 then p.pshift
    else if off == 0x028 then word dtabBase
    else if off == 0x030 then s.gen
    else if off == 0x038 then p.asidSel
    else if off == 0x040 then s.rootWord p
    else if off == 0x048 then p.leaseIdx
    else if off == 0x050 then entry.extractLsb' 0 64
    else if off == 0x058 then entry.extractLsb' 64 64
    else if off == 0x060 then p.transVa
    else if off == 0x068 then p.transH
    else if off == 0x070 then
      word (p.transState + (if p.transState == 3 then ((p.transBad.getD 0).toNat) * 2 ^ 32 else 0))
    else if off == 0x078 then p.transResult
    else if decide (0x080 ≤ off) && decide (off < 0x100) then
      let r := vget p.rings ((off - 0x80) / 32) { base := 0, log2 := 0, head := 0, tail := 0 }
      match (off - 0x80) / 8 % 4 with
      | 0 => r.base
      | 1 => r.log2
      | 2 => r.head
      | _ => r.tail
    else if off == 0x108 then word p.notifs.length
    else if decide (0x200 ≤ off) && decide (off < 0x400) then vget p.counters ((off - 0x200) / 8) 0
    else if decide (0x400 ≤ off) && decide (off < 0x500) then
      match p.notifs[(off - 0x400) / 16]? with
      | some n => word (notifNat n / 2 ^ (64 * (off / 8 % 2)))
      | none => 0
    else 0

/-- A store to the control page (R200, Table 7.11): RO and reserved words discard it. -/
def State.ctlStore (s : State) (part off : Nat) (v : Word) : State :=
  let put := fun (f : Partition → Partition) => s.modPart part f
  if off == 0x000 then put fun p => { p with xvec := v }
  else if off == 0x020 then put fun p => { p with pshift := v &&& 31, pshiftAt := s.now }
  else if off == 0x038 then put fun p => { p with asidSel := v &&& 0xFFFF }
  else if off == 0x040 then s.asidRoot part v
  else if off == 0x048 then put fun p => { p with leaseIdx := v &&& 0xFF }
  else if off == 0x050 then put fun p => { p with leaseLow := v }
  else if off == 0x058 then s.leaseWrite part v
  else if off == 0x060 then put fun p => { p with transVa := v }
  else if off == 0x068 then s.transRequest part v
  else if decide (0x080 ≤ off) && decide (off < 0x100) then
    put fun p =>
      let i := (off - 0x80) / 32
      let r := vget p.rings i { base := 0, log2 := 0, head := 0, tail := 0 }
      match (off - 0x80) / 8 % 4 with
      | 0 => { p with rings := vput p.rings i { r with base := v } }
      | 1 => { p with rings := vput p.rings i { r with log2 := v } }
      | 2 => p
      | _ => { p with rings := vput p.rings i { r with tail := v } }
  else if off == 0x100 then (if v.getLsbD 0 then put fun p => { p with counters := Vector.replicate 64 0 } else s)
  else s

/-- The word of the decode table copy at an offset, eight bytes. -/
def State.dtabWord (s : State) (off : Nat) : Word :=
  s.decodeEntry (off / 4 + 1) ++ s.decodeEntry (off / 4)

end Sys2Proof.Machine
end

