-- ==== Sys2Proof/Machine/Task.lean ====
section
/-! DEFINITION. The distributor's view of tasks (04): launches and stages, landings (R91 to R93), quotas and limits, lending of
quarters (R107 to R111), and the end of a task (R94, R96). -/

namespace Sys2Proof.Machine

/-! ## Launches, stages, tasks -/

def State.launch? (s : State) (key : Nat) : Option Launch := s.launches.find? fun l => l.key == key

def modLaunch (key : Nat) (f : Launch → Launch) : List Launch → List Launch
  | [] => []
  | l :: rest => if l.key = key then f l :: rest else l :: modLaunch key f rest

def State.modLaunch (s : State) (key : Nat) (f : Launch → Launch) : State := { s with launches := Machine.modLaunch key f s.launches }

/-- Replace element `i` of a list. -/
def lput {α : Type} (i : Nat) (f : α → α) : List α → List α
  | [] => []
  | x :: rest => match i with
    | 0 => f x :: rest
    | i + 1 => x :: lput i f rest

def Launch.modStage (l : Launch) (j : Nat) (f : Stage → Stage) : Launch := { l with stages := lput j f l.stages }
def Launch.modLanding (l : Launch) (j : Nat) (f : Landing → Landing) : Launch := { l with landings := lput j f l.landings }

/-- The launch and the stage of the thread in hand. -/
def State.launchHere (s : State) : Option Launch := s.t.launch.bind s.launch?
def State.stageHere (s : State) : Option Stage :=
  match s.t.task with
  | some k => s.launchHere.bind fun l => l.stages[k.stage]?
  | none => none

/-- The tasks bound in the package, with their slots. -/
def State.bound (s : State) : List (Nat × Task) := s.slots.filterMap fun tid => (s.thread tid).task.map fun k => (tid, k)

/-- The tasks bound on a core. -/
def State.boundOn (s : State) (c : Nat) : List (Nat × Task) :=
  (List.range 4).filterMap fun i => (s.thread (4 * c + i)).task.map fun k => (4 * c + i, k)

/-- The pre-empted tasks that must resume on a core: their allocations stay theirs (R102). -/
def State.heldOn (s : State) (c : Nat) : List Task :=
  s.pending.filterMap fun p => match p.home with
    | some (h, _) => if h == c then some p.task else none
    | none => none

/-- Bound tasks of a stage of a launch. -/
def State.stageBound (s : State) (key j : Nat) : Nat := (s.bound.filter fun b => b.2.launch == some key && b.2.stage == j).length
/-- Pending tasks of a stage of a launch. -/
def State.stagePending (s : State) (key j : Nat) : Nat :=
  (s.pending.filter fun p => p.task.launch == some key && p.task.stage == j).length

/-! ## Landings (R91 to R93) -/

/-- Entries that a landing holds unpopped. -/
def Landing.ready (l : Landing) : Nat := l.tail - l.head
def Landing.cap (l : Landing) : Nat := 2 ^ l.lsz
def Landing.esz (l : Landing) : Nat := if l.wide then 8 else 4

/-- No task of a stage is bound or pending. -/
def State.stageIdle (s : State) (key j : Nat) : Bool := s.stageBound key j == 0 && s.stagePending key j == 0

/-- Whether stage `j` is finished, looking through at most `fuel` landings (R93). -/
def stageDone (s : State) (l : Launch) : Nat → Nat → Bool
  | 0, _ => false
  | fuel + 1, j =>
    match l.stages[j]? with
    | none => true
    | some st =>
      s.stageIdle l.key j &&
        (if st.inv then
          match l.landings[st.inl]? with
          | none => true
          | some la =>
            decide (la.ready = 0) && (List.range 8).all fun i => !la.pmask.getLsbD i || i == la.cstg || stageDone s l fuel i
        else true)

/-- Whether a stage is finished (R93). -/
def State.finished (s : State) (l : Launch) (j : Nat) : Bool := stageDone s l 9 j

/-- Whether a landing is closed (R93). -/
def State.closed (s : State) (l : Launch) (la : Landing) : Bool :=
  ((List.range 8).all fun i => !la.pmask.getLsbD i || i == la.cstg || s.finished l i) &&
    (!la.pmask.getLsbD la.cstg || (s.stageIdle l.key la.cstg && decide (la.ready = 0)))

/-- Bound tasks of a stage on a die that take slots of a pool: the lit one, of tasks placed as hot, or the general one (R98). -/
def State.poolBound (s : State) (key j d : Nat) (hot : Bool) : Nat :=
  (s.bound.filter fun b => b.2.launch == some key && b.2.stage == j && dieOf (b.1 / 4) == d && (b.2.heat == 2) == hot).length

/-- The quota of a stage in a pool of a die; none before it is first computed (R98). -/
def State.quotaOf (s : State) (key j d : Nat) (hot : Bool) : Option Nat :=
  ((s.getDie d).quota.find? fun q => q.1 == key && q.2.1 == j && q.2.2.1 == hot).map fun q => q.2.2.2

/-- A stage is under its quota in a pool, and so receives a new slot; one with no quota computed is (log 20). -/
def State.underPool (s : State) (key j d : Nat) (hot : Bool) : Bool :=
  (s.quotaOf key j d hot).all fun n => decide (s.poolBound key j d hot < n)

/-- A stage is over its quota in a pool (R458). -/
def State.overPool (s : State) (key j d : Nat) (hot : Bool) : Bool :=
  (s.quotaOf key j d hot).any fun n => decide (n < s.poolBound key j d hot)

/-- Whether a stage is under TLIM and under some die's quota (R92, R98). -/
def State.mayActivate (s : State) (l : Launch) (j : Nat) (st : Stage) : Bool :=
  (st.tlim == 0 || decide (s.stageBound l.key j < st.tlim)) &&
    (List.range 9).any fun d => s.underPool l.key j d (st.heat == 2) || (st.heat == 2 && st.demote && s.underPool l.key j d false)

/-- A new task of a stage, not yet placed. -/
def State.newTask (s : State) (l : Launch) (j : Nat) (st : Stage) (index : Nat) : Task :=
  { launch := some l.key, stage := j, index := index, part := l.part, asid := l.asid, prio := l.prio, heat := st.heat, spadu := st.spadu,
    spadBase := 0, split := some l.split, mapSlot := none, entry := st.entry, sarg := st.sarg, supervisor := false,
    translator := false, since := s.now, popped := false, uid := 0 }

/-- A task that no die has taken yet (R458). -/
def Pending.fresh (k : Task) : Pending := { task := k, home := none, saved := none }

/-- Activate consumer tasks of stage `j` while R92 asks for them. -/
def activateStage (key j : Nat) : Nat → State → State
  | 0, s => s
  | fuel + 1, s =>
    match s.launch? key with
    | none => s
    | some l =>
      match l.stages[j]? with
      | none => s
      | some st =>
        match if st.inv then l.landings[st.inl]? else none with
        | none => s
        | some la =>
          let more := decide (128 * (st.owed + 1) ≤ la.ready) || (decide (128 * st.owed < la.ready) && s.closed l la)
          if more && s.mayActivate l j st && !l.aborted && l.cause.isNone then
            let s := { s with pending := s.pending ++ [Pending.fresh (s.newTask l j st st.created)] }
            activateStage key j fuel (s.modLaunch key fun l => l.modStage j fun st => { st with owed := st.owed + 1, created := st.created + 1 })
          else s

/-- Activate consumer tasks of a launch (R92). -/
def State.activate (s : State) (key : Nat) : State :=
  (List.range 8).foldl (fun s j => activateStage key j 2305 s) s

/-! ## Scratchpad and quarters (R97, R107 to R111) -/

def Core.quarter (k : Core) (q : Nat) : Quarter := vget k.quarters q noQuarter
def State.setQuarter (s : State) (d q : Nat) (x : Quarter) : State := s.modCore d fun k => { k with quarters := vput k.quarters q x }

/-- Code of a lending state, in the order of Table 4.7 from FREE = 0. -/
def QState.code : QState → Nat
  | .free => 0 | .reserved => 1 | .draining => 2 | .lent => 3 | .reclaim => 4 | .scrub => 5

/-- Change a quarter's state, with its event record (Table 9.8). -/
def State.moveQuarter (s : State) (d q : Nat) (x : Quarter) : State :=
  let s := s.setQuarter d q x
  s.parts.foldl (fun s p =>
    if p.holds d then s.emit p.id 3 0x34 d 0 0 (d + q * 2 ^ 10 + x.st.code * 2 ^ 12) else s) s

/-- The core that a quarter faces: quarter q lends to the neighbour N, E, S, W. -/
def borrower (d q : Nat) : Option Nat := neighbour d q

/-- The launch of the first hot task bound on a core (R107). -/
def State.hotLaunch (s : State) (b : Nat) : Option Task := ((s.boundOn b).find? fun x => x.2.heat == 2).map (·.2)

/-- Whether a core holds a bound hot task of a launch; with `orPending`, a pre-empted one that resumes there counts. -/
def State.holdsHot (s : State) (b : Nat) (launch : Option Nat) (orPending : Bool) : Bool :=
  (s.boundOn b).any (fun x => x.2.heat == 2 && x.2.launch == launch) ||
    (orPending && (s.heldOn b).any fun k => k.heat == 2 && k.launch == launch)

/-- The split of a core's scratchpad (R97): its own while it holds a task. -/
def State.holdsTask (s : State) (c : Nat) : Bool := !(s.boundOn c).isEmpty || !(s.heldOn c).isEmpty

/-- R107 for quarter `q` of dark core `d`: the launch it would be lent to. -/
def State.lendTo (s : State) (d q : Nat) : Option Task :=
  match borrower d q with
  | none => none
  | some b =>
    if lit d || !lit b then none
    else
      let same := s.parts.any fun p => p.holds d && p.holds b
      match s.hotLaunch b with
      | none => none
      | some k => if same && (!s.holdsTask d || k.split == some (s.getCore d).split) then some k else none

/-- A scratchpad range of a core overlaps an allocation. -/
def State.allocHit (s : State) (c lo n : Nat) : Bool :=
  ((s.boundOn c).map (·.2) ++ s.heldOn c).any fun k => decide (lo < k.spadBase + k.spadu * 4096) && decide (k.spadBase < lo + n)

/-- The transitions of a quarter that follow from which tasks are bound: reserve, give up, reclaim (Table 4.7). -/
def State.scanQuarter (s : State) (d q : Nat) : State :=
  let x := (s.getCore d).quarter q
  match borrower d q with
  | none => s
  | some b =>
    match x.st with
    | .free =>
      match s.lendTo d q with
      | some k =>
        s.moveQuarter d q { st := .reserved, launch := k.launch, split := k.split.getD 0 }
      | none => s
    | .reserved => if s.holdsHot b x.launch false then s else s.moveQuarter d q noQuarter
    | .lent => if s.holdsHot b x.launch true then s else s.moveQuarter d q { x with st := .reclaim }
    | _ => s

/-- The quarters that lend to a core or lie on it. -/
def State.scanCore (s : State) (c : Nat) : State :=
  (List.range 4).foldl (fun s dir =>
    let s := s.scanQuarter c dir
    match neighbour c dir with
    | some d => s.scanQuarter d (quarterOf dir)
    | none => s) s

/-- Clear memory cells of a key range, which then reads as unlisted memory does, with its poison. -/
def State.zeroRange (s : State) (lo n : Nat) : State :=
  { s with mem := s.mem.filter fun c => !(decide (lo ≤ c.1) && decide (c.1 < lo + n))
           poison := s.poison.filter fun w => !(decide (lo ≤ 8 * w) && decide (8 * w < lo + n)) }

/-! ## The end of a task -/

/-- The entry of a resident version when its context ends (R96). -/
def endedEntry (x : TileSet) (e : BitVec 128) : BitVec 128 := entMarks e (entV e && !x.dirty) false false x.reg.toNat

/-- The entry of a dropped version in a map cache, or in memory where it can be written there (R96). -/
def State.endEntry (s : State) (x : TileSet) : State :=
  match s.setCached x.ctx x.reg (endedEntry x) with
  | some s => s
  | none =>
    match (fsePlaces x.ctx s.t.sup (entAddr x.ctx.base x.reg) 16).run s with
    | (.ok ps, s) => postRuns x.ctx.part (storeRuns ps (leBytes 16 (x.backed (!x.dirty)).toNat)) s
    | (.error _, s) => s

/-- Drop the versions of the context of the thread in hand, update the entries of its map and write its map cache back (R96); an eviction of
another context that waited for this thread's handler is tried again. -/
def State.dropTiles (s : State) : State :=
  let s := s.mapCores fun _ k => { k with sets := k.sets.map fun x => x.retried (s.uidOf s.cur) false 0 }
  if s.t.tmapbase == 0 then s
  else
    let c := s.core
    let ctx := s.t.ctx
    let mine := (s.getCore c).sets.filter fun x => x.ctx == ctx
    let s := mine.foldl (fun s x => (if x.hinted then s.count x.ctx.part 25 1 else s).endEntry x) s
    let s := s.modCore c fun k =>
      { k with sets := k.sets.filter fun x => x.ctx != ctx
               acc := k.acc.filter fun b => b.ctx != ctx }
    (writeBackEach s.t.changedGroups).exec s |>.2

/-- Release the vector unit of a slot. -/
def State.dropUnit (s : State) (tid : Nat) : State :=
  s.modCore (tid / 4) fun k =>
    { k with unit0 := if k.unit0.holder == some tid then { k.unit0 with holder := none } else k.unit0
             unit1 := if k.unit1.holder == some tid then { k.unit1 with holder := none } else k.unit1 }

/-- Discard the tile queue entries of a slot (R144). -/
def State.dropEntries (s : State) (tid : Nat) : State :=
  s.modCore (tid / 4) fun k => { k with tileq := k.tileq.filter fun e => e.tid != tid }

/-- What the launch of an ended task notes: its map slot returns, and a consumer that never popped is owed no more. -/
def Launch.noteEnd (l : Launch) (k : Task) (tick : Word) : Launch :=
  let l := { l with etick := some tick, maps := match k.mapSlot with
    | some j => nset j l.maps
    | none => l.maps }
  l.modStage k.stage fun st => { st with ended := st.ended + 1, owed := if k.popped then st.owed else st.owed - 1 }

/-- End a pre-empted task where it is: its versions are dropped on the core that it left (R96). -/
def State.endSaved (s : State) (p : Pending) : State :=
  match p.saved, p.home with
  | some t, some (c, i) =>
    let me := s.cur
    let s := s.switchTo (4 * c + i)
    let other := s.t
    let s := ({ s with t := t }.emitTask (4 * c + i) 3 0x31 (s.launchId p.task).toNat).dropTiles
    ({ s with t := other, asks := dropAsks (Asker.servesTask p.task.uid) s.asks }).switchTo me
  | _, _ => s

/-- End the pending tasks that a predicate names. -/
def State.dropPending (s : State) (gone : Pending → Bool) : State :=
  let out := s.pending.filter gone
  let s := { s with pending := s.pending.filter fun p => !gone p }
  let s := out.foldl State.endSaved s
  let note := fun (s : State) (p : Pending) => match p.task.launch with
    | some key => s.modLaunch key fun l => l.noteEnd p.task s.tick
    | none => s
  let s := out.foldl note s
  out.foldl (fun s p => match p.home with
    | some (c, _) => s.scanCore c
    | none => s) s

/-- The first unresumed trap of a launch ends every other task of it (R94). -/
def State.faultLaunch (s : State) (key : Nat) (cause : BitVec 16) : State :=
  let s := s.modLaunch key fun l => { l with cause := some (l.cause.getD cause) }
  let s := s.mapThreads fun tid t => if t.launch == some key && tid != s.cur then { t with ending := true } else t
  s.dropPending fun p => p.task.launch == some key

/-- End the task of the thread in hand (R96); an unresumed trap gives its cause (R94). -/
def State.endTask (s : State) (cause : Option (BitVec 16)) : State :=
  match s.t.task with
  | none => { s with t := Thread.reset }
  | some k =>
    let tid := s.cur
    let s := s.emitTask tid 3 0x31 ((s.launchId k).toNat + (cause.getD 0).toNat * 2 ^ 64)
    let s := ((s.dropTiles).dropUnit tid).dropEntries tid
    let s := match cause, k.launch with
      | some c, some key => s.faultLaunch key c
      | _, _ => s
    let s := { s with t := Thread.reset, asks := dropAsks (Asker.servesTask k.uid) s.asks }
    let s := match k.launch with
      | some key => (s.modLaunch key fun l => l.noteEnd k s.tick).activate key
      | none => s
    s.scanCore (tid / 4)

end Sys2Proof.Machine
end

