-- ==== Sys2Proof/Machine/Ops.lean ====
section
/-! DEFINITION. How a member ends: it retires (R128, R237), it takes its exception (R240), it stalls, or it waits for a leased access;
the return from an exception (R241 to R243), the delivery of asynchronous causes (R244), and the flow of control. -/

namespace Sys2Proof.Machine

/-! ## Causes -/

/-- All causes with the codes of Table 9.1. -/
def allCauses : List Cause :=
  [.illegal, .absent, .illegalLine, .illegalConvoy, .vtypeIllegal, .ecall, .brk, .barRange, .fetchFault, .addrFault, .pageFault, .memProt,
   .leaseFault, .streamFault, .landingFault, .tmapFault, .tileInvalid, .fillFault, .spillFault, .memUe, .remoteNak, .leaseRevoke]

/-- The cause of a code; none for a reserved code. -/
def causeOf (c : BitVec 16) : Option Cause := allCauses.find? fun x => x.code == c

/-- Member-level causes that honour SKIP: the member retires without being performed (Table 9.1, R241). -/
def Cause.skipsMember : Cause → Bool
  | .illegal | .absent | .vtypeIllegal | .ecall | .brk => true
  | _ => false

/-- Element-level causes that honour SKIP (Table 9.1). -/
def Cause.skipsElements : Cause → Bool
  | .addrFault | .pageFault | .memProt | .leaseFault | .memUe => true
  | _ => false

/-- Whether a skip-mode resume names an element of its group (R241). -/
def Skip.names (k : Skip) (e : Nat) : Bool := e / 16 == k.elem / 16 && k.mask.getLsbD (e % 16)

/-- Whether the resumed member completes an element without access; a scalar member is its element 0 (R236, R241). -/
def Thread.skips (t : Thread) (e : Nat) : Bool := match t.skip with
  | some k => k.cause.skipsElements && k.names e
  | none => false

/-! ## Retirement -/

/-- A member whose trap leaves what lies below `vstart` (R237, R238): one of the vector, matrix and engine majors. -/
def Thread.partWise (t : Thread) : Bool := decide (0x40 ≤ majorOf t.ir)

/-- The thread after its member retires: `vstart` is 0 (R237), but an instruction of a handler leaves the resumption point that its `eret`
takes (R241, Table 9.4); a skip is used up, and the next member, or the PC after the convoy, is next. -/
def Thread.retire (t : Thread) : Thread :=
  let t := { t with vdone := 0, vstart := if t.inh then t.vstart else 0, skip := none, stall := .none, held := [], walked := [], checked := none, resumed := false }
  if t.member + 1 < t.convoyLen then { t with member := t.member + 1 } else { t with pc := t.nextPc, member := 0, convoyLen := 1 }

/-- Retire the member of the thread in hand; the rest of its convoy follows at once (R128). -/
def State.retire (s : State) : State :=
  { s with turn := if s.t.member + 1 < s.t.convoyLen then .slot s.cur else .arbiter, t := s.t.retire
           asks := dropAsks (· == Asker.member s.t.uid) s.asks }

/-! ## Taking an exception (R240) -/

/-- The trap CSRs as an entry sets them. A member that had done nothing since it was issued keeps the resumption point that it was issued with. -/
def Thread.trapCsrs (t : Thread) (r : TrapRec) (async : Bool) : Thread :=
  { t with xcause := (if async then 0x8000000000000000 else 0) ||| r.cause.code.setWidth 64, xepc := t.pc, xconvoy := word t.member,
           xelem := r.xelem, xaddr := r.xaddr, xmask := r.xmask, vstart := r.vstart.getD (if t.partWise then t.vstart else 0) }

/-- The thread at its handler. -/
def Thread.enter (t : Thread) : Thread :=
  { t with vdone := 0, psup := t.sup, sup := true, inh := true, skipBit := false, pc := t.xvec, member := 0, convoyLen := 1,
           lineBuf := none, skip := none, resumed := false, stall := .none, held := [], walked := [], checked := none }

/-- Take a trap in the thread in hand: the CSRs are set, its queued tile entries are discarded (R144), and control passes to `xvec`;
with INH = 1 or `xvec` = 0 the task ends with the cause instead (R94, R240). -/
def State.trap (s : State) (r : TrapRec) (async : Bool) : State :=
  let tid := s.cur
  let inh := s.t.inh
  let s := ((s.modT fun t => t.trapCsrs r async).dropEntries tid).count s.t.part 38 1
  let s := { s with turn := .arbiter, asks := dropAsks (· == Asker.member s.t.uid) s.asks }
  if inh || s.t.xvec == 0 then s.endTask (some r.cause.code) else s.modT Thread.enter

/-- A blocked eviction that its own SPILL_FAULT reports holds the member of a thread (R164). -/
def Thread.spillStuck (t : Thread) : Bool := (t.pend.any fun a => a.cause == .spillFault) && match t.stall with
  | .granules | .spill _ _ => true
  | _ => false

/-- Whether a thread can take a pending asynchronous cause where it stands: not inside a handler (R244), not before a member that an `eret` resumed has
performed anything (R241, R242) but for a blocked spill that holds it, not with part of its convoy
done and more of it ready, not at a barrier, nor in an instruction that a pending cause itself ends (R337, R342, R343). -/
def Thread.canDeliver (t : Thread) : Bool :=
  !t.inh && !t.pend.isEmpty && ((!t.resumed && t.skip.isNone) || t.spillStuck) && (match t.stall with
    | .none => t.member == 0
    | .wait _ _ _ _ | .sleep _ | .bar _ | .halt | .lease | .links _ | .gang | .vectorRestore | .gather _ => false
    | _ => true)

/-- An entry of a slot that is EXECUTING or DONE runs on before an asynchronous cause or a pre-emption takes effect (R244, R249), and one
that is FAULTED traps first (R245). -/
def State.entryRuns (s : State) (tid : Nat) : Bool :=
  (s.getCore (tid / 4)).tileq.any fun e => e.tid == tid && (e.st == .executing || e.st == .done || e.st == .faulted)

/-- The pending cause with the lowest code (R244). -/
def firstAsync : List Async → Option Async
  | [] => none
  | a :: rest => match firstAsync rest with
    | none => some a
    | some b => if b.cause.code < a.cause.code then some b else some a

/-- Deliver one pending asynchronous cause to the thread in hand; MEM_UE is counted (R247). -/
def State.deliver (s : State) : State :=
  match firstAsync s.t.pend with
  | none => s
  | some a =>
    let s := s.modT fun t => { t with pend := t.pend.filter fun b => b.cause != a.cause }
    let s := if a.cause == .memUe then s.count s.t.part 39 1 else s
    s.trap { cause := a.cause, xaddr := a.xaddr, xelem := a.xelem, xmask := 0, vstart := some s.t.vstart } true

/-! ## Stalls and leased accesses -/

/-- A wait that only something else can end: a member that waits so has no elements to perform, and a resumption has issued it (R242). -/
def Stall.openEnded : Stall → Bool
  | .wait _ _ _ _ | .sleep _ | .bar _ | .capp _ _ _ _ _ _ | .qpop _ _ _ | .mwait _ | .msendWindow _ => true
  | _ => false

/-- Hold the member of the thread in hand; a dirty victim that its allocation needs begins its spill (R158), and a line of code that it needs is wanted
(R123). -/
def State.stallOn (s : State) (x : Stall) : State :=
  let s := { (s.modT fun t => { t with stall := x, resumed := t.resumed && !x.openEnded }) with turn := .arbiter }
  match x with
  | .code n => s.wantCode s.core n
  | .spill c r =>
    s.modSets s.core fun l => l.map fun y => if y.ctx == c && y.reg == r && y.blocked.isNone then { y with spilling := true } else y
  | _ => s

/-- The member of the thread in hand sends one leased request and waits for its answer (R52). -/
def State.leaseOn (s : State) (part : Nat) (req : LeaseReq) : State := (s.ask (.member s.t.uid) part req).stallOn .lease

/-- The thread in hand needs a line that has been requested ahead (R123, R199). -/
def State.joined (s : State) (tag : Nat) : State :=
  let join := fun (a : Ask) => match a.who with
    | .line h => if a.tag = tag then { a with who := .line { h with wants := s.t.uid :: h.wants } } else a
    | _ => a
  { s with asks := s.asks.map join }

/-- It waits for the line. -/
def State.joinOn (s : State) (tag : Nat) : State := (s.joined tag).stallOn .lease

/-- Miss slots of a core that walks of its hints take: one for each page (R185). -/
def State.missSlots (s : State) (core : Nat) : Nat :=
  ((s.getDie (dieOf core)).walks.filter fun w => w.hints.any fun h => h.tid / 4 == core).length

/-- Hold a member whose computation stalled: nothing of it is done, but a `vldx` that handed its indices to a
GXU, a tile instruction in the queue or between two steps of its walk, and one that waits for writes to be acknowledged, keep what they have done (R346). -/
def State.hold (s s' : State) (x : Stall) : State :=
  match x with
  | .gather _ | .tile | .walk | .links _ | .cflush _ _ => s'.stallOn x
  | _ => s.stallOn x

/-- Run a member: it retires as `done` says, traps with what it did before the fault kept, or waits. -/
def finishBy (done : State → State) (m : M Unit) (s : State) : State :=
  match m.exec s with
  | (.ok _, s') => done s'
  | (.error (.trap r), s') => s'.trap r false
  | (.error (.stall x), s') => s.hold s' x
  | (.error (.lease part req), _) => s.leaseOn part req
  | (.error (.leaseKept part req), s') => s'.leaseOn part req
  | (.error (.join tag), _) => s.joinOn tag

/-- Run a member that retires when it completes. -/
def finish (m : M Unit) (s : State) : State := finishBy State.retire m s

/-- Run a member that moves the thread itself when it completes. -/
def finishMoved (m : M Unit) (s : State) : State := finishBy id m s

/-- Run a step of the device that neither traps nor waits. -/
def runM (m : M Unit) (s : State) : State := (m.exec s).2

/-- Forget what an agent that has done its work asked. -/
def State.askDone (s : State) (who : Asker) : State := { s with asks := dropAsks (· == who) s.asks }

/-- Run a computation in the name of an agent of the device. -/
def runAs {α : Type} (who : Asker) (m : M α) (s : State) : Except Stop α × State :=
  let r := m.exec { s with agent := some who }
  (r.1, { r.2 with agent := none })

/-- Run a computation of an agent of the device with the thread in hand: it completes, or sends the next leased request that it needs with nothing else
of it done (R52), or goes on waiting for one or for writes that have to be acknowledged. -/
def engineRun (who : Asker) (m : M Unit) (s : State) : State :=
  if s.awaits who then s
  else
    match runAs who m s with
    | (.error (.lease part req), _) => s.ask who part req
    | (.error (.leaseKept part req), s') => s'.ask who part req
    | (.error (.stall (.links _)), s') => s'
    | (.error (.join _), _) => s
    | (_, s') => s'.askDone who

/-- A member that only changes its thread. -/
def State.plain (s : State) (f : Thread → Thread) : State := (s.modT f).retire

/-! ## Flow of control -/

/-- Continue at a target: the line is looked up again (R126). -/
def Thread.jump (t : Thread) (target : Word) : Thread := { t with nextPc := target, lineBuf := none }

/-- Where the handler returns to (R241 to R243): PSUP comes back, INH clears, a skip is set for the causes that honour it. -/
def Thread.eret (t : Thread) : Thread :=
  let skip : Option Skip :=
    if t.skipBit then
      match causeOf (t.xcause.extractLsb' 0 16) with
      | some c => if !t.xcause.getLsbD 63 && (c.skipsMember || c.skipsElements) then
          some { cause := c, elem := t.xelem.toNat, mask := t.xmask } else none
      | none => none
    else none
  { t with sup := t.psup, inh := false, skipBit := false, skip := skip, pc := t.xepc, member := (t.xconvoy.extractLsb' 0 2).toNat,
           convoyLen := 1, lineBuf := none, stall := .none, resumed := true }

/-- Blocked spills whose fault the returning thread received are tried again (R164). -/
def State.retrySpills (s : State) : State :=
  let uid := s.uidOf s.cur
  let part := s.t.part
  let ntf := s.t.ntf
  s.mapCores fun _ k => { k with sets := k.sets.map fun x => x.retried uid ntf part }

/-- The return from an exception. -/
def State.eret (s : State) : State := { ((s.retrySpills).modT Thread.eret) with turn := .arbiter }

end Sys2Proof.Machine
end

