-- ==== Sys2Proof/Machine/Preempt.lean ====
section
/-! DEFINITION. Pre-emption: the save record (Table 9.5), the vector spill frame (Table 7.9, R197), what a pre-empted thread keeps (R102,
R249), and the return of a thread from its record in memory (R250). -/

namespace Sys2Proof.Machine

/-- Eight bytes each. -/
def dwords (l : List Word) : List Byte := l.flatMap fun w => leBytes 8 w.toNat

/-- The high-water element count L, 16 to 128 (R197). -/
def Thread.frameL (t : Thread) : Nat := max 16 t.vhigh

/-- The vector spill frame of a thread (Table 7.9). -/
def Thread.frame (t : Thread) : List Byte :=
  let l := t.frameL
  let n := t.streams.length
  let len := 64 + 112 + 16 * n + 128 * l
  let hdr := len * 2 ^ 480 + 1 * 2 ^ 472 + l * 2 ^ 464 + t.vl.toNat % 256 * 2 ^ 456 + t.vlr.toNat % 256 * 2 ^ 448 +
    t.vstart.toNat % 256 * 2 ^ 440 + n * 2 ^ 437 + t.vtype.toNat * 2 ^ 320
  leBytes 64 hdr ++ ((List.range 7).flatMap fun i => leBytes 16 (vget t.q (i + 1) 0).toNat) ++
    (t.streams.flatMap fun st => leBytes 16 (st.record.toNat + st.pos % 2 ^ 32 * 2 ^ 64 + st.reg.toNat * 2 ^ 96)) ++
    ((List.range 32).flatMap fun r => (List.range l).flatMap fun i => leBytes 4 (vget (vget t.v r (Vector.replicate 128 0)) i 0).toNat)

/-- A completion ring slot in the record: base, log2 entries, write index, release index. -/
def ringWords : Option Ring → List Word
  | some r => [r.base, word r.log2, word r.written, word r.released]
  | none => [0, 0, 0, 0]

/-- A transfer id in the record: id, state, cause, failing address. -/
def transferWords : Option Transfer → List Word
  | some x => [word (x.id + x.status * 2 ^ 32 + x.cause.toNat * 2 ^ 48), x.fva]
  | none => [0, 0]

/-- The ring slots and the transfer ids of a thread, from offset 0x12D0 of its record. -/
def Thread.copyWords (t : Thread) : List Word :=
  ((List.range 4).flatMap fun i => ringWords (vget t.rings i none)) ++ (List.range 16).flatMap fun i => transferWords t.transfers[i]?

/-- The number `n` as `k` words. -/
def natWords (k n : Nat) : List Word := (List.range k).map fun i => word (n / 2 ^ (64 * i))

/-- The save record without its frame (Table 9.5). -/
def Thread.saveRecord (t : Thread) : List Byte :=
  dwords ([t.pc, word t.saveHeader] ++ List.replicate 6 0 ++ (0 :: (List.range 63).map fun i => vget t.regs (i + 1) 0) ++
    [t.fcsr, t.tshape, t.tmapbase, t.tmaprx, t.xcause, t.xepc, t.xconvoy, t.xelem, t.xaddr, t.xmask, t.xstatus, t.xvec, t.xscratch,
      t.vl, t.vlr, t.vtype, t.vstart] ++ List.replicate 15 0 ++
    ((List.range 7).flatMap fun i => natWords 64 (vget t.g (i + 1) 0).toNat) ++
    ((List.range 4).flatMap fun i => natWords 4 (vget t.cb i 0).toNat) ++
    [t.cpsrc, t.cpdst, t.cpndim, t.cpring] ++ t.cpext.toList ++ t.cpsst.toList ++ t.cpdstS.toList ++ t.copyWords)

/-! ## Reading a record back -/

/-- Bytes as words of eight. -/
def wordsOf : List Byte → List Word
  | a :: b :: c :: d :: e :: f :: g :: h :: rest => word (leNat [a, b, c, d, e, f, g, h]) :: wordsOf rest
  | _ => []

/-- `n` words from a position on as one number. -/
def joinWords (ws : List Word) (at_ n : Nat) : Nat := ((ws.drop at_).take n).foldr (fun w x => w.toNat + 2 ^ 64 * x) 0

/-- A ring slot from its four words; the entries that transfers have reserved stay reserved. -/
def ringOf (ws : List Word) (old : Option Ring) : Option Ring :=
  match ws with
  | [b, l, w, r] =>
    if l == 0 then none
    else some { base := b, log2 := l.toNat, reserved := w.toNat + (old.map fun (o : Ring) => o.reserved - o.written).getD 0
                written := w.toNat, released := r.toNat }
  | _ => old

/-- A transfer with the status that its two words give. -/
def transferOf (ws : List Word) (x : Transfer) : Transfer :=
  match ws with
  | [a, f] =>
    if (a.extractLsb' 0 32).toNat = x.id then
      { x with status := (a.extractLsb' 32 4).toNat, cause := a.extractLsb' 48 16, fva := f }
    else x
  | _ => x

/-- A thread as its save record describes it (R250); what the record does not hold is as the device kept it. -/
def Thread.fromRecord (t : Thread) (ws : List Word) : Thread :=
  let w := fun i => ws.getD i 0
  let st := w 82
  let has := fun (c : Cause) => match c with
    | .spillFault => (w 1).getLsbD 16 | .memUe => (w 1).getLsbD 17 | .remoteNak => (w 1).getLsbD 18 | .leaseRevoke => (w 1).getLsbD 19
    | _ => true
  { t with
    pc := w 0, member := (w 1).toNat % 4, vlive := (w 1).getLsbD 2, pend := t.pend.filter fun a => has a.cause
    regs := vtab 64 fun i => w (8 + i)
    fcsr := w 72, tshape := w 73, tmapbase := w 74, tmaprx := w 75, xcause := w 76, xepc := w 77, xconvoy := w 78, xelem := w 79
    xaddr := w 80, xmask := w 81, sup := st.getLsbD 0, psup := st.getLsbD 1, inh := st.getLsbD 2, skipBit := st.getLsbD 5, ntf := st.getLsbD 6
    xvec := w 83, xscratch := w 84, vl := w 85, vlr := w 86, vtype := w 87, vstart := w 88
    g := vtab 8 fun i => if i = 0 then vget t.g 0 0 else BitVec.ofNat 4096 (joinWords ws (104 + 64 * (i - 1)) 64)
    cb := vtab 4 fun i => BitVec.ofNat 256 (joinWords ws (552 + 4 * i) 4)
    cpsrc := w 568, cpdst := w 569, cpndim := w 570, cpring := w 571
    cpext := vtab 10 fun i => w (572 + i), cpsst := vtab 10 fun i => w (582 + i), cpdstS := vtab 10 fun i => w (592 + i)
    rings := vtab 4 fun i => ringOf ((ws.drop (602 + 4 * i)).take 4) (vget t.rings i none)
    transfers := t.transfers.zipIdx.map fun x => transferOf ((ws.drop (618 + 2 * x.2)).take 2) x.1 }

/-! ## The place of a record (R81, log 56) -/

/-- The bytes of a record without its frame, and the offset of its ring slots. -/
def recordBytes : Nat := 0x1450
def copyOffset : Nat := 0x12D0

/-- The records of a partition that are in use. -/
def State.savesUsed (s : State) (part : Nat) : List Nat :=
  (s.slots.filterMap fun tid => let t := s.thread tid; if t.part == part then t.save else none) ++
    s.pending.filterMap fun p => if p.task.part == part then p.saved.bind (·.save) else none

/-- The record of the thread in hand: the one that it still has, else the lowest free one. -/
def State.saveFor (s : State) : Option Nat :=
  match s.t.save with
  | some i => some i
  | none => (List.range 768).find? fun i => !(s.savesUsed s.t.part).contains i

/-- Bytes of HBM as the device reads them for a partition, through L2. -/
def State.readOwn (s : State) (part pa n : Nat) : State × List Byte :=
  let ps := (List.range n).map fun i => Place.hbm (pa + i) .l2 false
  let s := touchFor part ps none s
  (s, (gatherBytes s ps).map (·.1))

/-- A thread returns from its save record: what lies in memory, and what the device kept (R250). Its vector state waits in the frame (R134). -/
def State.restored (s : State) (part : Nat) (t : Thread) : State × Thread :=
  match t.save with
  | none => (s, t)
  | some i =>
    let r := s.readOwn part (s.saveAddr part i) recordBytes
    let t := t.fromRecord (wordsOf r.2)
    (r.1, if t.vlive then t else { t with save := none })

/-- What of a thread waits for its resumption: everything but the unit, the run-ahead, the map-cache groups that are the same in memory (R152),
and the instruction that had not retired; an arrival at a barrier stays (R336). -/
def Thread.suspended (t : Thread) : Thread :=
  { t with unit := none, preempt := false, held := [], walked := [], checked := none, lineBuf := none, nextLine := none,
           streams := t.streams.map fun st => { st with ahead := [] }
           mapCache := t.mapCache.filter fun l => t.mapCache.any fun m => m.changed && m.reg.toNat / 4 == l.reg.toNat / 4
           stall := match t.stall with
             | .bar n => .bar n
             | .barDone => .barDone
             | _ => .none }

/-- Write the save record of the thread in hand, with its frame when its vector state is live in a unit; a frame that has not been restored
stays (R134, R250). -/
def State.writeSave (s : State) (i : Nat) : State :=
  let part := s.t.part
  let a := s.saveAddr part i
  let s' := s.writeHbm part a .l2 s.t.saveRecord
  if s.t.vlive && s.t.save.isNone then s'.writeHbm part (a + recordBytes) .l2 s.t.frame else s'

/-- A `sleep` ends and retires when its thread is pre-empted (R342). -/
def State.wake (s : State) : State := match s.t.stall with
  | .sleep _ => s.modT Thread.retire
  | _ => s

/-- Pre-empt the thread in hand at its boundary (R249, R250): its map cache and its save record are written, its unit is released and
its task becomes pending on the core it leaves (R101, R102). With no record free it runs on (log 56). -/
def State.preemptNow (s : State) : State :=
  match s.t.task, s.saveFor with
  | some k, some i =>
    let tid := s.cur
    let s := s.wake
    let s := (s.count s.t.part 46 1).emitTask tid 3 0x32 ((s.launchId k).toNat + s.t.pc.toNat * 2 ^ 64)
    let s := ((writeBackEach s.t.changedGroups).exec s).2
    let s := ((s.dropEntries tid).dropUnit tid).writeSave i
    let k := { k with since := s.now }
    let t := { s.t.suspended with task := some k, save := some i }
    let p : Pending := { task := k, home := some (tid / 4, tid % 4), saved := some t }
    State.scanCore { s with t := Thread.reset, turn := .arbiter, pending := s.pending ++ [p] } (tid / 4)
  | _, _ => s.modT fun t => { t with preempt := false }

end Sys2Proof.Machine
end

