-- ==== Sys2Proof/Machine/Issue.lean ====
section
/-! DEFINITION. Fetching and issuing: the line of the PC (R118 to R121, R125), the convoy that starts there (R122, R283), decoding its
next member (R264, R316), and what comes before it at a boundary (R245). -/

namespace Sys2Proof.Machine

/-- The address of the line that holds a PC (R118). -/
def lineAddr (pc : Word) : Word := pc &&& ~~~(63 : Word)

/-- Take a line into the line buffer of the thread in hand. -/
def takeLine (line : Word) (d : BitVec 512) : M Unit := modT fun t => { t with lineBuf := some (line, d), nextLine := none }

/-- The line of the PC: from the line buffer, the next line as it was looked up with it, or looked up now (R123, R125, R126). -/
def issueLine : M (BitVec 512) := do
  let s ← get
  let line := lineAddr s.t.pc
  match s.t.lineBuf, s.t.nextLine with
  | some (a, d), next =>
    if a = line then return d
    else
      let d ← match next.filter fun (n : Word × BitVec 512 × Bool) => n.1 == line && !n.2.2 with
        | some n => pure n.2.1
        | none => fetchBytes line
      takeLine line d
      return d
  | none, _ =>
    let d ← fetchBytes line
    takeLine line d
    return d

/-- The next sequential line is looked up as the last convoy of a line issues (R126): a leased line that neither the instruction cache nor L2 has is
requested then. A lookup that fails is made again when the thread comes there. -/
def lookAhead (line : Word) : M Unit := do
  match ← (place line accFetch : StateM State _) with
  | .ok p =>
    match p.cached with
    | .hbm pa via _ =>
      let s ← get
      let n := pa / 64
      let have_ := (s.getCore s.core).icache.any fun x => x.num == n
      if !have_ && (s.getCore s.core).fillsCode n then set (s.wantCode s.core n)
      else
      match if have_ || s.leaseCached n then none else (leaseLines [p]).head? with
      | none =>
        modify fun s =>
          let r := s.fetchLine pa via
          r.1.modT fun t => { t with nextLine := some (line, r.2.1, r.2.2 != 0) }
      | some l =>
        match s.aheadOf s.core n fun k => k != 1 with
        | some tag => set (s.joined tag)
        | none =>
          set (s.ask (.line { core := s.core, kind := 2, part := s.t.part, line := n, home := (l.2.1, 64 * l.2.2.1), uid := s.t.uid, dead := false
                              wants := [] }) s.t.part { dest := l.2.1, offset := 64 * l.2.2.1, req := .read 64 })
    | _ => pure ()
  | _ => pure ()

/-! ## Bank conflicts (R137) -/

/-- Vector registers that a second operand names. -/
def YSel.regs : YSel → List (BitVec 5)
  | .vec c => [c.reg]
  | _ => []
def FSel.regs : FSel → List (BitVec 5)
  | .vec c => [c.reg]
  | _ => []
def CSel.regs : CSel → List (BitVec 5)
  | .vec c => [c.reg]
  | _ => []

/-- The vector source operands of an instruction. -/
def vectorSources (i : Instr) : List (BitVec 5) :=
  match i with
  | .vst _ c _ _ _ | .vsts _ c _ _ _ | .vldx _ _ c _ _ _ => [c.reg]
  | .vstx _ c d _ _ _ => [c.reg, d.reg]
  | .vadd _ b y _ | .vsub _ b y _ | .vmul _ b y _ | .vmulh _ b y _ | .vand _ b y _ | .vor _ b y _ | .vxor _ b y _ | .vsll _ b y _
  | .vsrl _ b y _ | .vsra _ b y _ | .vmin _ b y _ | .vmax _ b y _ | .vminu _ b y _ | .vmaxu _ b y _ | .vsadd _ b y _ | .vssub _ b y _
  | .vsel _ b y _ => b.reg :: Machine.YSel.regs y
  | .vcmp _ b y _ _ => b.reg :: Machine.CSel.regs y
  | .vfcmp _ b y _ _ => b.reg :: Machine.FSel.regs y
  | .vfadd _ b y _ | .vfsub _ b y _ | .vfmul _ b y _ | .vfdiv _ b y _ | .vfmin _ b y _ | .vfmax _ b y _ => b.reg :: Machine.FSel.regs y
  | .vfma _ b y d _ | .vfnma _ b y d _ => b.reg :: d.reg :: Machine.FSel.regs y
  | .vfsqrt _ b _ | .vfexp2 _ b _ | .vflog2 _ b _ | .vfrcp _ b _ | .vfrsq _ b _ | .vftanh _ b _ | .vcvt _ b _ _ => [b.reg]
  | .vslideup _ b _ _ _ | .vslidedn _ b _ _ | .vcompress _ b _ | .vexpand _ b _ | .vmvx _ b _ | .vconflict _ b _ => [b.reg]
  | .vperm _ b c _ => [b.reg, c.reg]
  | .vredsum _ b _ | .vredmax _ b _ | .vredmin _ b _ | .vfredsum _ b _ | .vfredmax _ b _ | .vfredmin _ b _ | .vtopk _ b _ _ => [b.reg]
  | .mscale _ _ v _ | .mput _ v _ | .gthr _ v _ _ _ | .gtopk _ v _ _ _ | .capp _ (.vec v) _ _ _ => [v.reg]
  | _ => []

/-- The cycles by which the members of a convoy are delayed: for each of the four banks, the distinct source registers that it holds beyond
two. -/
def bankDelay (act : Nat → Nat) (ms : List (BitVec 96)) : Nat :=
  let rs := (ms.flatMap fun v => match decode act v with
    | .instr i => vectorSources i
    | _ => []).eraseDups
  (List.range 4).foldl (fun n b => n + ((rs.filter fun r => r.toNat % 4 == b).length - 2)) 0

/-! ## Vector units (R132, R133, R139) and readiness (R127) -/

/-- The cycle since which a slot waits for a vector unit. -/
def Thread.unitSince (t : Thread) : Option Nat := match t.stall with
  | .vectorUnit c => some c
  | _ => none

/-- Priority number of a slot's task. -/
def State.prioOf (s : State) (tid : Nat) : Nat := match (s.thread tid).task with
  | some k => k.prio
  | none => 8

/-- The waiter of a core that comes first: the highest priority, then the longest wait (R133). -/
def State.firstWaiter (s : State) (core : Nat) : Option Nat :=
  ((List.range 4).map (4 * core + ·)).foldl (fun best tid =>
    match (s.thread tid).unitSince with
    | none => best
    | some c =>
      match best with
      | none => some tid
      | some b =>
        let cb := ((s.thread b).unitSince).getD 0
        if s.prioOf tid < s.prioOf b || (s.prioOf tid == s.prioOf b && decide (c < cb)) then some tid else some b) none

/-- The waiter to whom a unit of a core goes when it is free: the starved one for whom its holder was pre-empted, else the first (R133). -/
def State.heir (s : State) (core unit : Nat) : Option Nat :=
  match (s.getCore core).starved.find? fun x => x.2.2 == unit && (s.thread x.1).unitSince == some x.2.1 with
  | some x => some x.1
  | none => s.firstWaiter core

/-- A unit that can be acquired: nobody holds it, it has lanes, and none of them waits for the rewrite of the lane map (R139). -/
def VUnit.available (u : VUnit) : Bool := u.holder.isNone && !u.laneMap.isEmpty && u.marked.isEmpty

def Core.vunit (k : Core) (unit : Nat) : VUnit := if unit = 0 then k.unit0 else k.unit1
def Core.setVunit (k : Core) (unit : Nat) (u : VUnit) : Core := if unit = 0 then { k with unit0 := u } else { k with unit1 := u }

/-- A slot may take a unit of its core: it is available, and no other slot waits that comes before this one (R133). -/
def State.mayTake (s : State) (tid unit : Nat) : Bool :=
  ((s.getCore (tid / 4)).vunit unit).available && (s.heir (tid / 4) unit).all (· == tid)

/-- A member that is issued to the vector pipes of the held unit, and one that acquires a unit (Tables 5.2, 13.2; R132). -/
def vectorMember (v : BitVec 96) : Bool := decide (0x42 ≤ majorOf v) && decide (majorOf v ≤ 0x48)
def acquiringMember (v : BitVec 96) : Bool := (majorOf v == 0x40 && decide ((v.extractLsb' 35 8).toNat ≤ 1)) || majorOf v == 0x41

/-- The function field of the forms M-V and M-X (R312). -/
def fnMV (v : BitVec 96) : Nat := (v.extractLsb' 35 8).toNat
def fnMX (v : BitVec 96) : Nat := (v.extractLsb' 32 5).toNat

/-- A member that reads or writes vector state: those of the vector pipes, streams and landings, free lists, and tile instructions with a vector
operand (R386). -/
def unitMember (v : BitVec 96) : Bool :=
  vectorMember v || (majorOf v == 0x71 && decide (fnMV v ≤ 1)) || (majorOf v == 0x72 && decide (fnMV v ≤ 3)) ||
    (majorOf v == 0x61 && [6, 7, 12, 13, 14].contains (fnMX v)) || (majorOf v == 0x62 && decide (fnMX v ≤ 2))

/-- A member that the MXA or the Goral performs. -/
def engineMember (v : BitVec 96) : Bool :=
  (majorOf v == 0x61 && decide (fnMX v ≤ 14) && !([0, 1, 6, 7, 10, 11].contains (fnMX v))) ||
    (majorOf v == 0x62 && decide (fnMX v ≤ 10) && !([8, 9].contains (fnMX v)))

/-- A member that gives a matrix register a new version. -/
def versionMember (v : BitVec 96) : Bool := majorOf v == 0x61 && [0, 2, 3, 4, 5, 7, 8, 14].contains (fnMX v)

/-- The versions that an allocation in the core in hand may take (R158). -/
def State.victims (s : State) : List TileSet :=
  (s.getCore s.core).sets.filter fun x => !x.filling && !x.spilling && x.blocked.isNone && !s.pinned s.core x

/-- `n` granules of a convoy's later members are free, or can be had by dropping clean versions (R127, R159). -/
def State.granulesFor (s : State) (n : Nat) : Bool :=
  let k := s.getCore s.core
  let used := usedGranules (k.sets ++ k.gone)
  let free := ((List.range 2048).filter fun g => ownGranule k g && !used.contains g).length
  n = 0 || (s.freeSet s.core n).isSome || decide (n ≤ free + (usedGranules (s.victims.filter fun x => !x.dirty)).length)

/-- The later members of a convoy have their granules; else a dirty version begins its spill (R158). -/
def roomAhead (n : Nat) : M Unit := do
  let s ← get
  if s.granulesFor n then pure ()
  else
    match [4, 5, 6].findSome? fun c => s.victims.find? fun x => s.victimClass x == c with
    | some x => throw (.stall (.spill x.ctx x.reg))
    | none => throw (.stall .granules)

/-- A convoy issues when each member can: not while the governor withholds vector, MXA or Goral work of it (R115), nor before the unit that a member
needs is there with its state, and the granule sets of its later members (R127, R132, R134, R159). -/
def convoyReady (ms : List (BitVec 96)) : M Unit := do
  let s ← get
  let vec := ms.any unitMember
  let acq := ms.any acquiringMember
  roomAhead (5 * ((ms.drop 1).filter versionMember).length)
  if (ms.any fun v => vectorMember v || engineMember v) && (s.getCore s.core).withheld then throw (.stall .governed)
  else if s.t.unit.isNone && ((s.t.vlive && (vec || acq)) || (acq && !s.mayTake s.cur 0 && !s.mayTake s.cur 1)) then
    throw (.stall (.vectorUnit s.now))
  else if s.t.vlive && (vec || acq) && s.t.save.isSome then throw (.stall .vectorRestore)
  else pure ()

/-- Charge a thread's partition with the delayed cycles of the members that issue together. -/
def State.chargeBanks (s : State) (ms : List (BitVec 96)) : State :=
  match bankDelay s.act ms with
  | 0 => s
  | n => s.count s.t.part 32 n

/-- A convoy, or what a return has left of one, is about to issue for the first time: it has not waited, but perhaps for its line. -/
def Thread.freshIssue (t : Thread) : Bool :=
  (t.member == 0 || t.convoyLen == 1) && match t.stall with
  | .none | .governed => true
  | .lease | .code _ => !t.lineBuf.any fun b => b.1 == lineAddr t.pc
  | _ => false

/-- A line or a convoy that is illegal: what lies below the resumption point of the member to issue stands (R238). -/
def badConvoy {α : Type} (c : Cause) (line : Word) (head : Nat) : M α := do
  let s ← get
  raise c line head 0 (some s.t.vstart.toNat)

/-- The member that issues next: latched with its convoy, none when an `eret` in skip mode retires it unperformed (R241). -/
def issueMember (fresh : Bool) : M (Option Instr) := do
  let d ← issueLine
  let s ← get
  let line := lineAddr s.t.pc
  match lineValues d with
  | none => badConvoy .illegalLine line 0
  | some vs =>
    let idx := (s.t.pc.extractLsb' 1 5).toNat
    if vs.length ≤ idx then badConvoy .illegalLine line 0
    else
      match convoyBad s.act vs idx with
      | some h => badConvoy .illegalConvoy line h
      | none =>
        let ms := (convoyOf (vs.drop idx)).getD []
        if ms.length ≤ s.t.member then badConvoy .illegalConvoy line (idx + s.t.member)
        else
          let v := ms.getD s.t.member 0
          modT fun t => { t with convoyLen := ms.length, nextPc := pcAfter t.pc ms.length vs.length, ir := v }
          convoyReady (ms.drop s.t.member)
          modify fun s => if fresh then s.chargeBanks (ms.drop s.t.member) else s
          if fresh && decide (idx + ms.length = vs.length) && !(lastOnly s.act (ms.getLastD 0)) then lookAhead (line + 64)
          if s.t.skip.any fun k => k.cause.skipsMember then return none
          else
            match decode s.act v with
            | .instr i => return some i
            | .illegal => illegal
            | .absent => do
              let s ← get
              raise .absent s.raw s.rawHigh

/-- An answer for which the member in issue of a task waits has not come. -/
def State.memberWaits (s : State) (uid : Nat) : Bool :=
  s.asks.any fun a => a.reply.isNone && match a.who with
    | .member u => u == uid
    | .line h => h.wants.contains uid
    | _ => false

/-- Whether the stalled member of a slot issues again by itself once what it waited for has come. -/
def State.reissues (s : State) (tid : Nat) : Bool :=
  let t := s.thread tid
  match t.stall with
  | .none | .copy | .granules | .spill _ _ | .walk | .governed => true
  | .lease => !s.memberWaits t.uid
  | .links l => !s.writesOut (some t.uid) l
  | .code n => !(s.getCore (tid / 4)).fillsCode n
  | .missSlot => decide (s.missSlots (tid / 4) < 16)
  | _ => false

/-- Where a thread can be brought to a resume point: before the first member of a convoy, or at a member that waits (R244, R249, R336, R337). -/
def Thread.atBoundary (t : Thread) : Bool := match t.stall with
  | .none => t.member == 0
  | .lease | .links _ | .gather _ => false
  | _ => true

/-- Where a task ends whose launch or partition is being ended (R71, R94): before a convoy of which no member has issued, held for a gang start, or at a
member that waits for what may never come and is discarded then (R158, R337, R424, R429); any other wait ends by itself and its convoy runs on, a
`sleep` among them, which the end of its task retires (R342). -/
def Thread.atEnd (t : Thread) : Bool := match t.stall with
  | .gang | .bar _ | .wait _ _ _ _ | .mwait _ | .qpop _ _ _ | .capp _ _ _ _ _ _ | .tile | .granules | .spill _ _ => true
  | .sleep _ => false
  | _ => t.atBoundary && t.member == 0

/-- Take a slot's thread in hand and bring it to its next member: the order of events at a boundary is that of R245. `arb` says that the arbiter takes the
slot, so that a convoy issues for the first time (R126, R137). -/
def prepare (arb : Bool) (tid : Nat) (s : State) : State × Option Instr :=
  let s := { s.switchTo tid with turn := .arbiter }
  match s.t.task with
  | none => (s, none)
  | some k =>
    if s.t.ending && s.t.atEnd then (s.endTask none, none)
    else if s.t.preempt && s.t.atBoundary && !s.t.resumed && !s.t.ending && !s.entryRuns tid then (s.preemptNow, none)
    else if s.t.canDeliver && !s.t.ending && !s.entryRuns tid then (s.deliver, none)
    else if k.translator || !s.reissues tid then (s, none)
    else
      let fresh := arb && s.t.freshIssue
      let s := s.modT fun t => { t with stall := .none }
      match (issueMember fresh).exec s with
      | (.ok (some i), s') => (s', some i)
      | (.ok none, s') => (s'.retire, none)
      | (.error (.trap r), s') => (s'.trap r false, none)
      | (.error (.stall x), _) => (s.stallOn x, none)
      | (.error (.lease part req), _) => (s.leaseOn part req, none)
      | (.error (.leaseKept part req), s') => (s'.leaseOn part req, none)
      | (.error (.join tag), _) => (s.joinOn tag, none)

end Sys2Proof.Machine
end

