-- ==== Sys2Proof/Machine/Scalar.lean ====
section
/-! DEFINITION. Register, immediate, bit and literal instructions, majors 0x01 to 0x0D (R320 to R323). -/

namespace Sys2Proof.Machine

/-- The outcome of a step of this machine. -/
abbrev Res := Host.Outcome State Fault Refusal

/-- A member that writes one scalar register and retires. -/
def writeS (a : SReg) (r : Word) (s : State) : Res := .next (s.plain fun t => t.setReg a r)

/-! ## Results (Table 14.3, R321) -/

def shiftAmount (y : Word) : Nat := y.toNat % 64
def boolWord (b : Bool) : Word := if b then 1 else 0
def mulHigh (x y : Word) : Word := BitVec.ofInt 64 (x.toInt * y.toInt / (2 ^ 64 : Nat))
def mulHighU (x y : Word) : Word := word (x.toNat * y.toNat / 2 ^ 64)
def quot (x y : Word) : Word := if y = 0 then BitVec.allOnes 64 else BitVec.ofInt 64 (x.toInt.tdiv y.toInt)
def quotU (x y : Word) : Word := if y = 0 then BitVec.allOnes 64 else word (x.toNat / y.toNat)
def remS (x y : Word) : Word := if y = 0 then x else BitVec.ofInt 64 (x.toInt.tmod y.toInt)
def remU (x y : Word) : Word := if y = 0 then x else word (x.toNat % y.toNat)

/-- Leading zero bits of the low `n` bits. -/
def leadingZeros (x : Word) : Nat → Nat
  | 0 => 0
  | n + 1 => if x.getLsbD n then 0 else 1 + leadingZeros x n

/-- Trailing zero bits, counted from bit `i`, at most `n`. -/
def trailingZeros (x : Word) : Nat → Nat → Nat
  | 0, _ => 0
  | n + 1, i => if x.getLsbD i then 0 else 1 + trailingZeros x n (i + 1)

/-- One bits below bit `n`. -/
def onesBelow (x : Word) : Nat → Nat
  | 0 => 0
  | n + 1 => (if x.getLsbD n then 1 else 0) + onesBelow x n

def minS (x y : Word) : Word := if x.slt y then x else y
def maxS (x y : Word) : Word := if x.slt y then y else x
def minU (x y : Word) : Word := if x.ult y then x else y
def maxU (x y : Word) : Word := if x.ult y then y else x

/-! ## Meanings -/

/-- `add`: sum (R320). -/
def execAdd (a b c : SReg) (s : State) : Res := writeS a ((s.t.reg b) + (s.t.reg c)) s

/-- `sub`: difference (R320). -/
def execSub (a b c : SReg) (s : State) : Res := writeS a ((s.t.reg b) - (s.t.reg c)) s

/-- `and`: bitwise and (R320). -/
def execAnd (a b c : SReg) (s : State) : Res := writeS a ((s.t.reg b) &&& (s.t.reg c)) s

/-- `or`: bitwise or (R320). -/
def execOr (a b c : SReg) (s : State) : Res := writeS a ((s.t.reg b) ||| (s.t.reg c)) s

/-- `xor`: bitwise exclusive or (R320). -/
def execXor (a b c : SReg) (s : State) : Res := writeS a ((s.t.reg b) ^^^ (s.t.reg c)) s

/-- `sll`: shift left by y[5:0] (R320). -/
def execSll (a b c : SReg) (s : State) : Res := writeS a ((s.t.reg b) <<< shiftAmount (s.t.reg c)) s

/-- `srl`: logical shift right (R320). -/
def execSrl (a b c : SReg) (s : State) : Res := writeS a ((s.t.reg b) >>> shiftAmount (s.t.reg c)) s

/-- `sra`: arithmetic shift right (R320). -/
def execSra (a b c : SReg) (s : State) : Res := writeS a ((s.t.reg b).sshiftRight (shiftAmount (s.t.reg c))) s

/-- `slt`: signed less than (R320). -/
def execSlt (a b c : SReg) (s : State) : Res := writeS a (boolWord ((s.t.reg b).slt (s.t.reg c))) s

/-- `sltu`: unsigned less than (R320). -/
def execSltu (a b c : SReg) (s : State) : Res := writeS a (boolWord ((s.t.reg b).ult (s.t.reg c))) s

/-- `min`: signed minimum (R320). -/
def execMin (a b c : SReg) (s : State) : Res := writeS a (minS (s.t.reg b) (s.t.reg c)) s

/-- `max`: signed maximum (R320). -/
def execMax (a b c : SReg) (s : State) : Res := writeS a (maxS (s.t.reg b) (s.t.reg c)) s

/-- `minu`: unsigned minimum (R320). -/
def execMinu (a b c : SReg) (s : State) : Res := writeS a (minU (s.t.reg b) (s.t.reg c)) s

/-- `maxu`: unsigned maximum (R320). -/
def execMaxu (a b c : SReg) (s : State) : Res := writeS a (maxU (s.t.reg b) (s.t.reg c)) s

/-- `mul`: low product (R320). -/
def execMul (a b c : SReg) (s : State) : Res := writeS a ((s.t.reg b) * (s.t.reg c)) s

/-- `mulh`: high signed product (R320). -/
def execMulh (a b c : SReg) (s : State) : Res := writeS a (mulHigh (s.t.reg b) (s.t.reg c)) s

/-- `mulhu`: high unsigned product (R320). -/
def execMulhu (a b c : SReg) (s : State) : Res := writeS a (mulHighU (s.t.reg b) (s.t.reg c)) s

/-- `div`: signed quotient (R321) (R320). -/
def execDiv (a b c : SReg) (s : State) : Res := writeS a (quot (s.t.reg b) (s.t.reg c)) s

/-- `divu`: unsigned quotient (R321) (R320). -/
def execDivu (a b c : SReg) (s : State) : Res := writeS a (quotU (s.t.reg b) (s.t.reg c)) s

/-- `rem`: signed remainder (R321) (R320). -/
def execRem (a b c : SReg) (s : State) : Res := writeS a (remS (s.t.reg b) (s.t.reg c)) s

/-- `remu`: unsigned remainder (R321) (R320). -/
def execRemu (a b c : SReg) (s : State) : Res := writeS a (remU (s.t.reg b) (s.t.reg c)) s

/-- `addw`: 32-bit sum, sign-extended (R320). -/
def execAddw (a b c : SReg) (s : State) : Res := writeS a ((((s.t.reg b) + (s.t.reg c)).setWidth 32).signExtend 64) s

/-- `clz` (R320). -/
def execClz (a b : SReg) (s : State) : Res := writeS a (word (leadingZeros (s.t.reg b) 64)) s

/-- `ctz` (R320). -/
def execCtz (a b : SReg) (s : State) : Res := writeS a (word (trailingZeros (s.t.reg b) 64 0)) s

/-- `popc` (R320). -/
def execPopc (a b : SReg) (s : State) : Res := writeS a (word (onesBelow (s.t.reg b) 64)) s

/-- `addi` with the immediate sign-extended (R322). -/
def execAddi (a b : SReg) (imm : BitVec 10) (s : State) : Res := writeS a (s.t.reg b + imm.signExtend 64) s

/-- `andi` with the immediate sign-extended (R322). -/
def execAndi (a b : SReg) (imm : BitVec 10) (s : State) : Res := writeS a (s.t.reg b &&& imm.signExtend 64) s

/-- `ori` with the immediate sign-extended (R322). -/
def execOri (a b : SReg) (imm : BitVec 10) (s : State) : Res := writeS a (s.t.reg b ||| imm.signExtend 64) s

/-- `xori` with the immediate sign-extended (R322). -/
def execXori (a b : SReg) (imm : BitVec 10) (s : State) : Res := writeS a (s.t.reg b ^^^ imm.signExtend 64) s

/-- `slti` with the immediate sign-extended (R322). -/
def execSlti (a b : SReg) (imm : BitVec 10) (s : State) : Res := writeS a (boolWord ((s.t.reg b).slt (imm.signExtend 64))) s

/-- `sltiu` with the immediate sign-extended (R322). -/
def execSltiu (a b : SReg) (imm : BitVec 10) (s : State) : Res := writeS a (boolWord ((s.t.reg b).ult (imm.signExtend 64))) s

/-- `slli` (R322). -/
def execSlli (a b : SReg) (sh : BitVec 6) (s : State) : Res := writeS a (s.t.reg b <<< sh.toNat) s

/-- `srli` (R322). -/
def execSrli (a b : SReg) (sh : BitVec 6) (s : State) : Res := writeS a (s.t.reg b >>> sh.toNat) s

/-- `srai` (R322). -/
def execSrai (a b : SReg) (sh : BitVec 6) (s : State) : Res := writeS a ((s.t.reg b).sshiftRight sh.toNat) s

/-- `li`: the literal sign-extended (R323). -/
def execLi (a : SReg) (lit : BitVec 32) (s : State) : Res := writeS a (lit.signExtend 64) s

/-- `lih`: the literal above the low half of B (R323). -/
def execLih (a b : SReg) (lit : BitVec 32) (s : State) : Res := writeS a (lit ++ (s.t.reg b).extractLsb' 0 32) s

end Sys2Proof.Machine
end

