-- ==== Sys2Proof/Machine/ScalarFp.lean ====
section
/-! DEFINITION. Scalar FP32 instructions, major 0x0E (R324 to R326). -/

namespace Sys2Proof.Machine

/-- An FP32 operand: bits [31:0] of a register (R324). -/
def Thread.f32 (t : Thread) (r : SReg) : FVal := fp32.decode ((t.reg r).toNat % 2 ^ 32)

/-- The rounding mode in force. -/
def Thread.rm (t : Thread) : RM := rmOf t.fcsr

/-- Write a result and accrue its flags (R302). -/
def writeF (a : SReg) (r : Nat × Word) (s : State) : Res := .next (s.plain fun t => (t.setReg a (word r.1)).accrue r.2)

/-- `fadd`: B + C. -/
def execFadd (a b c : SReg) (s : State) : Res := writeF a (fp32.add s.t.rm (s.t.f32 b) (s.t.f32 c)) s

/-- `fsub`: B - C. -/
def execFsub (a b c : SReg) (s : State) : Res := writeF a (fp32.sub s.t.rm (s.t.f32 b) (s.t.f32 c)) s

/-- `fmul`: B x C. -/
def execFmul (a b c : SReg) (s : State) : Res := writeF a (fp32.mul s.t.rm (s.t.f32 b) (s.t.f32 c)) s

/-- `fma`: B x C + D, rounded once. -/
def execFma (a b c d : SReg) (s : State) : Res := writeF a (fp32.fma s.t.rm (s.t.f32 b) (s.t.f32 c) (s.t.f32 d)) s

/-- `fdiv`: B / C. -/
def execFdiv (a b c : SReg) (s : State) : Res := writeF a (fp32.div s.t.rm (s.t.f32 b) (s.t.f32 c)) s

/-- `fsqrt`: the square root of B. -/
def execFsqrt (a b : SReg) (s : State) : Res := writeF a (fp32.sqrt s.t.rm (s.t.f32 b)) s

/-- The floating format of a conversion code (Table 14.4). -/
def cvtFmt (c : BitVec 4) : Option Fmt :=
  match c.toNat with
  | 0 => some fp32 | 1 => some fp16 | 2 => some bf16 | _ => none

/-- The integer format of a conversion code. -/
def cvtInt (c : BitVec 4) : IFmt :=
  match c.toNat with
  | 3 => ⟨32, true⟩ | 4 => ⟨32, false⟩ | 5 => ⟨64, true⟩ | _ => ⟨64, false⟩

/-- The source of a conversion as a value. -/
def cvtSource (c : BitVec 4) (x : Word) : FVal :=
  match cvtFmt c with
  | some f => f.decode (x.toNat % 2 ^ f.bits)
  | none => valOfInt ((cvtInt c).decode x.toNat)

/-- The result of a conversion: floating zero-extended, i32 sign-extended, n32 zero-extended (R325). -/
def cvtResult (rm : RM) (dst : BitVec 4) (x : FVal) : Word × Word :=
  match cvtFmt dst with
  | some f => let r := f.encode rm x; (word r.1, r.2)
  | none =>
    let i := cvtInt dst
    let r := i.ofVal rm x
    (if i.signed then BitVec.ofInt 64 (signedOf i.w r.1) else word r.1, r.2)

/-- The pairs of codes that `fcvt` refuses: a code from 7 on, the same code twice, and two integer codes (R325). -/
def cvtBad (dst src : BitVec 4) : Bool :=
  decide (6 < dst.toNat) || decide (6 < src.toNat) || dst == src || (decide (2 < dst.toNat) && decide (2 < src.toNat))

/-- `fcvt` (R325). -/
def execFcvt (a b : SReg) (dst src : BitVec 4) (s : State) : Res :=
  .next (finish (do
    if cvtBad dst src then illegal
    let r := cvtResult s.t.rm dst (cvtSource src (s.t.reg b))
    modT fun t => (t.setReg a r.1).accrue r.2) s)

/-- The predicate of Table 15.6 that an `fcmp` code names: eq, lt, le, un (R326). -/
def fcmpPred (p : BitVec 2) : Nat :=
  match p.toNat with
  | 0 => 0 | 1 => 2 | 2 => 4 | _ => 6

/-- `fcmp` (R326). -/
def execFcmp (a b c : SReg) (pred : BitVec 2) (s : State) : Res :=
  let x := s.t.f32 b
  let y := s.t.f32 c
  .next (s.plain fun t => (t.setReg a (boolWord (fpredicate (fcmpPred pred) x y))).accrue (fpredFlags (fcmpPred pred) x y))

end Sys2Proof.Machine
end

