-- ==== Sys2Proof/Machine/Control.lean ====
section
/-! DEFINITION. Branches and jumps (R327 to R329), traps and the return from them (R340, R341), `sleep`, `halt` and `tmsw` (R342 to R344,
R171), and the steps that end them. -/

namespace Sys2Proof.Machine

/-! ## Branches and jumps -/

/-- A conditional branch: to the target of R282 when the condition holds, else on to `next_pc` (R327). -/
def branch (c : Bool) (loff : BitVec 27) (hidx : BitVec 5) (s : State) : Res :=
  .next (s.plain fun t => if c then t.jump (branchTarget (t.pc + word (2 * t.member)) loff hidx) else t)

/-- `beq`. -/
def execBeq (b c : SReg) (loff : BitVec 27) (hidx : BitVec 5) (s : State) : Res :=
  branch (s.t.reg b == s.t.reg c) loff hidx s

/-- `bne`. -/
def execBne (b c : SReg) (loff : BitVec 27) (hidx : BitVec 5) (s : State) : Res :=
  branch (s.t.reg b != s.t.reg c) loff hidx s

/-- `blt`, signed. -/
def execBlt (b c : SReg) (loff : BitVec 27) (hidx : BitVec 5) (s : State) : Res :=
  branch ((s.t.reg b).slt (s.t.reg c)) loff hidx s

/-- `bge`, signed. -/
def execBge (b c : SReg) (loff : BitVec 27) (hidx : BitVec 5) (s : State) : Res :=
  branch (!(s.t.reg b).slt (s.t.reg c)) loff hidx s

/-- `bltu`, unsigned. -/
def execBltu (b c : SReg) (loff : BitVec 27) (hidx : BitVec 5) (s : State) : Res :=
  branch ((s.t.reg b).ult (s.t.reg c)) loff hidx s

/-- `bgeu`, unsigned. -/
def execBgeu (b c : SReg) (loff : BitVec 27) (hidx : BitVec 5) (s : State) : Res :=
  branch (!(s.t.reg b).ult (s.t.reg c)) loff hidx s

/-- `jal`: the link is `next_pc`, and the jump is always taken (R327). -/
def execJal (a : SReg) (loff : BitVec 27) (hidx : BitVec 5) (s : State) : Res :=
  .next (s.plain fun t => (t.setReg a t.nextPc).jump (branchTarget (t.pc + word (2 * t.member)) loff hidx))

/-- `jalr`: B is read before A is written, and bit 0 of the target is ignored (R328). -/
def execJalr (a b : SReg) (imm : BitVec 10) (s : State) : Res :=
  .next (s.plain fun t => (t.setReg a t.nextPc).jump ((t.reg b + imm.signExtend 64) &&& ~~~(1 : Word)))

/-! ## Traps -/

/-- `ecall` raises ECALL; its code is in the raw bits (R340). -/
def execEcall (_code : BitVec 6) (s : State) : Res := .next (finish (raise .ecall s.raw) s)

/-- `brk` raises BRK (R340). -/
def execBrk (_code : BitVec 6) (s : State) : Res := .next (finish (raise .brk s.raw) s)

/-- `eret` (R241, R341): supervisor mode inside a handler, else ILLEGAL. -/
def execEret (s : State) : Res :=
  .next (if !s.t.sup || !s.t.inh then finish illegal s else s.eret)

/-! ## Sleep and halt -/

/-- `sleep` (R342): retires at once when the deadline has been reached or a cause is pending, else waits. -/
def execSleep (a : SReg) (s : State) : Res :=
  .next (if (s.t.reg a).toNat ≤ s.tick.toNat || !s.t.pend.isEmpty then s.retire else s.stallOn (.sleep (s.t.reg a)))

/-- SLEEP_END: the tick reaches the deadline of a sleeping thread, a cause is pending or its task is ending, and the `sleep` retires (R342). -/
def execSleepEnd (tid : Nat) (s : State) : Res :=
  .next (match (s.thread tid).stall with
    | .sleep d =>
      let s := if (s.thread tid).pend.isEmpty && !(s.thread tid).ending then s.tickTo d else s
      (s.switchTo tid).retire
    | _ => s)

/-- Whether every send of a slot is answered and every transfer of its thread complete (R343, R416; log 21). -/
def State.drained (s : State) (tid : Nat) : Bool :=
  let uid := ((s.thread tid).task.map fun (k : Task) => k.uid).getD 0
  (s.tx.all fun w => w.unacked.all fun m => m.uid != uid) && (s.thread tid).transfers.all fun x => x.status != 0

/-- The end of a drained `halt`: a pending cause is delivered at it when INH = 0, else the task ends (R343). -/
def State.haltNow (s : State) : State :=
  if !s.t.pend.isEmpty && !s.t.inh then (s.modT fun t => { t with stall := .none }).deliver else { s.endTask none with turn := .arbiter }

/-- `halt` (R343). -/
def execHalt (s : State) : Res := .next (if s.drained s.cur then s.haltNow else s.stallOn .halt)

/-- HALT_DRAINED: the sends of a halted thread are answered, and its `halt` ends (R343). -/
def execHaltDrained (tid : Nat) (s : State) : Res :=
  .next (if (s.thread tid).stall == .halt && s.drained tid then (s.switchTo tid).haltNow else s)

/-! ## Tile map switch (R171, R344) -/

/-- Spill the dirty versions of the old context and free every set of it (E = 1); the first spill that fails raises SPILL_FAULT. A version that a
transfer still produces is waited for (R156). -/
def tmswSpill : List TileSet → M Unit
  | [] => pure ()
  | x :: rest => do
    if x.filling && x.dirty then throw (.stall .copy)
    let s ← get
    match ← evictVersion s.core x with
    | some va => raise .spillFault va x.reg.toNat
    | none => tmswSpill rest

/-- `tmsw(b, e)` (R171). -/
def tmsw (b : Word) (e : Bool) : M Unit := do
  let s ← get
  if !s.t.sup then illegal
  else
    let new : Ctx := { s.t.ctx with base := b }
    let twice := b != 0 && (List.range 4).any fun i =>
      let t := s.thread (4 * s.core + i)
      4 * s.core + i != s.cur && t.task.isSome && t.ctx == new
    if b.extractLsb' 0 24 != 0 || twice then raise .tmapFault b
    else
      if (s.getCore s.core).acc.any fun k => k.ctx == s.t.ctx then modify fun s => s.writeBackAcc s.core
      let s ← get
      if e && s.t.tmapbase != 0 then tmswSpill ((s.getCore s.core).sets.filter fun x => x.ctx == s.t.ctx)
      let s ← get
      match ← writeBackFirst (if s.t.tmapbase == 0 then [] else s.t.changedGroups) with
      | some va => raise .tmapFault va
      | none => modT fun t => { t with tmapbase := b, mapCache := [] }

/-- `tmsw` (R344). -/
def execTmsw (b : SReg) (e : Bool) (s : State) : Res := .next (finish (tmsw (s.t.reg b) e) s)

end Sys2Proof.Machine
end

