-- ==== Sys2Proof/Machine/Csr.lean ====
section
/-! DEFINITION. Control and status registers (R272 to R277, Table 11.2): their access rights, contents and writes, `csrr` to `csrc`
(R339), and receive registrations (R174). -/

namespace Sys2Proof.Machine

/-! ## Table 11.2 -/

/-- Index within a block of ten numbered CSRs. -/
def csrIn (n base : Nat) : Bool := decide (base ≤ n) && decide (n < base + 10)

/-- CSRs of the copy engine that both modes read and write. -/
def csrCopy (n : Nat) : Bool :=
  (decide (0x080 ≤ n) && decide (n ≤ 0x083)) || csrIn n 0x090 || csrIn n 0x0A0 || csrIn n 0x0B0

/-- Supervisor-only CSRs. -/
def csrSup (n : Nat) : Bool := n == 0x041 || (decide (0x100 ≤ n) && decide (n ≤ 0x108))

/-- Whether a mode may read a CSR; the read of `cpgo`, which launches a transfer, is the row CSRR_CPGO. -/
def csrReadable (sup : Bool) (n : Nat) : Bool :=
  n == 0x001 || (decide (0x010 ≤ n) && decide (n ≤ 0x014)) || n == 0x020 || n == 0x021 || n == 0x030 || n == 0x040 || csrCopy n ||
    (sup && csrSup n)

/-- Whether a mode may write a CSR. -/
def csrWritable (sup : Bool) (n : Nat) : Bool :=
  n == 0x001 || csrCopy n || (sup && (csrSup n || (decide (0x010 ≤ n) && decide (n ≤ 0x014))))

/-- The contents of a CSR. -/
def State.csr (s : State) (n : Nat) : Word :=
  let t := s.t
  match n with
  | 0x001 => t.fcsr | 0x010 => t.vl | 0x011 => t.vlr | 0x012 => t.vtype | 0x013 => t.vstart | 0x014 => t.tshape
  | 0x020 => s.cycle s.core | 0x021 => s.tick | 0x030 => s.heat | 0x040 => t.tmapbase | 0x041 => t.tmaprx
  | 0x080 => t.cpsrc | 0x081 => t.cpdst | 0x082 => t.cpndim | 0x083 => t.cpring
  | 0x100 => t.xcause | 0x101 => t.xepc | 0x102 => t.xconvoy | 0x103 => t.xelem | 0x104 => t.xaddr | 0x105 => t.xmask
  | 0x106 => t.xstatus | 0x107 => t.xvec | 0x108 => t.xscratch
  | n =>
    if csrIn n 0x090 then vget t.cpext (n - 0x090) 0
    else if csrIn n 0x0A0 then vget t.cpsst (n - 0x0A0) 0
    else if csrIn n 0x0B0 then vget t.cpdstS (n - 0x0B0) 0
    else 0

/-- A thread after a write to a plain CSR; reserved fields are discarded (R272). -/
def Thread.putCsr (t : Thread) (n : Nat) (v : Word) : Thread :=
  match n with
  | 0x001 => { t with fcsr := fcsrWrite t.fcsr v t.sup }
  | 0x010 => { t with vl := v } | 0x011 => { t with vlr := v } | 0x012 => { t with vtype := v &&& 0x7F }
  | 0x013 => { t with vstart := v } | 0x014 => { t with tshape := v &&& 0x7F7F7F }
  | 0x080 => { t with cpsrc := v } | 0x081 => { t with cpdst := v } | 0x082 => { t with cpndim := v &&& 0xFD000F }
  | 0x083 => { t with cpring := v &&& 0xFC00000000000000 }
  | 0x100 => { t with xcause := v &&& 0x800000000000FFFF } | 0x101 => { t with xepc := v &&& ~~~1 }
  | 0x102 => { t with xconvoy := v &&& 3 } | 0x103 => { t with xelem := v } | 0x104 => { t with xaddr := v }
  | 0x105 => { t with xmask := v }
  | 0x106 => { t with psup := v.getLsbD 1, inh := v.getLsbD 2, skipBit := v.getLsbD 5, ntf := v.getLsbD 6 }
  | 0x107 => { t with xvec := v &&& ~~~1 } | 0x108 => { t with xscratch := v }
  | n =>
    if csrIn n 0x090 then { t with cpext := vput t.cpext (n - 0x090) v }
    else if csrIn n 0x0A0 then { t with cpsst := vput t.cpsst (n - 0x0A0) v }
    else if csrIn n 0x0B0 then { t with cpdstS := vput t.cpdstS (n - 0x0B0) v }
    else t

/-- The thread in hand has set NTF: no other thread of the partition has it, and the waiting notifications come to it (R248). -/
def State.takeNotifs (s : State) : State :=
  let part := s.t.part
  let me := s.cur
  let s := s.mapThreads fun tid t => if tid != me && t.part == part && t.task.isSome then { t with ntf := false } else t
  let had := s.pending.filter fun p => p.task.part == part && p.saved.any (·.ntf)
  let s := had.foldl (fun s p => s.changeSaved p fun t => { t with ntf := false }) s
  let ns := match s.part? part with
    | some p => p.notifs
    | none => []
  let s := s.modPart part fun p => { p with notifs := [] }
  ns.foldl (fun (s : State) (n : Notif) => match causeOf n.code with
    | some c => s.post me { cause := c, xaddr := n.xaddr, xelem := n.xelem.setWidth 64, reg := 0 }
    | none => s) s

/-! ## Receive registrations (R174) -/

def rxMask : Word := 0x8000FFFF0003FFFF

/-- A write of `tmaprx` with the value `v`. -/
def tmaprxPut (v : Word) : M Unit := do
  let s ← get
  let v := v &&& rxMask
  let off := v &&& 0x7FFFFFFFFFFFFFFF
  let t := s.t
  let mine := fun (r : RxReg) => r.part == t.part && r.asid == t.asid && r.base == t.tmapbase
  let others := s.rxRegs.filter fun r => !mine r
  if !v.getLsbD 63 then set { s with rxRegs := others, t := { t with tmaprx := v } }
  else
    let first := (v.extractLsb' 0 9).toNat
    let last := (v.extractLsb' 9 9).toNat
    let tag : BitVec 16 := v.extractLsb' 32 16
    let share := match s.part? t.part with
      | some p => 112 * ((List.range 36).filter fun i => p.pairs.getLsbD i).length
      | none => 0
    if last < first then illegal
    else if t.tmapbase == 0 || (others.any fun r => r.part == t.part && r.asid == t.asid && r.tag == tag) ||
        decide (share ≤ (others.filter fun r => r.part == t.part).length) then
      set { s with t := { t with tmaprx := off } }
    else
      set { s with rxRegs := { part := t.part, asid := t.asid, tag := tag, base := t.tmapbase, first := first, last := last } :: others
                   t := { t with tmaprx := v } }

/-- TMAPRX_WRITE: a `csrw`, `csrs` or `csrc` of `tmaprx` (R174, R339). -/
def execTmaprxWrite (op : CsrOp) (b : SReg) (s : State) : Res :=
  let x := s.t.reg b
  let v := match op with
    | .write => x
    | .set => s.t.tmaprx ||| x
    | .clear => s.t.tmaprx &&& ~~~x
  .next (finish (if s.t.sup then tmaprxPut v else illegal) s)

/-! ## Access (R339) -/

/-- A write to a CSR, after the checks of R272. -/
def csrWrite (n : Nat) (v : Word) : M Unit := do
  let s ← get
  if !csrWritable s.t.sup n then illegal
  else if n == 0x041 then tmaprxPut v
  else
    let had := s.t.ntf
    modT fun t => t.putCsr n v
    if n == 0x106 && v.getLsbD 6 && !had then modify State.takeNotifs

/-- `csrr` (R339). -/
def execCsrr (a : SReg) (csr : BitVec 12) (s : State) : Res :=
  .next (finish (if csrReadable s.t.sup csr.toNat then modT fun t => t.setReg a (s.csr csr.toNat) else illegal) s)

/-- `csrw` (R339). -/
def execCsrw (b : SReg) (csr : BitVec 12) (s : State) : Res := .next (finish (csrWrite csr.toNat (s.t.reg b)) s)

/-- `csrs`: a write whatever B holds (R339). -/
def execCsrs (b : SReg) (csr : BitVec 12) (s : State) : Res :=
  .next (finish (csrWrite csr.toNat (s.csr csr.toNat ||| s.t.reg b)) s)

/-- `csrc` (R339). -/
def execCsrc (b : SReg) (csr : BitVec 12) (s : State) : Res :=
  .next (finish (csrWrite csr.toNat (s.csr csr.toNat &&& ~~~(s.t.reg b))) s)

end Sys2Proof.Machine
end

