-- ==== Sys2Proof/Machine/LoadStore.lean ====
section
/-! DEFINITION. Scalar loads and stores, majors 0x30 to 0x3A (R330 to R332), and the stores that reach a control page (R200, R255,
R260). -/

namespace Sys2Proof.Machine

/-- A scalar access may reach a DEV page when it is 8 bytes, naturally aligned (R332). -/
def accScalar (acc : Acc) (a : Word) (n : Nat) : Acc := { acc with dev := n == 8 && a.extractLsb' 0 3 == 0 }

/-- A place on a DEV page. -/
def Place.device : Place → Bool
  | .ctl _ | .dtab _ | .hbm _ .dev _ => true
  | _ => false

/-- No load that run-ahead made comes after an access to a DEV page in program order (R208). -/
def afterDevice (ps : List Place) : M Unit :=
  if ps.any Place.device then modT fun t => { t with streams := t.streams.map fun st => { st with ahead := [] } } else pure ()

/-- The bytes at an address as a number: memory, a control page word, or the decode table copy. -/
def scalarLoad (a : Word) (n : Nat) : M Nat := do
  let ps ← placesOr a n (accScalar accLoad a n) 0 1
  afterDevice ps
  let s ← get
  match ps.head? with
  | some (.ctl off) => return (s.ctlWord s.t.part off).toNat
  | some (.dtab off) => return (s.dtabWord off).toNat
  | _ =>
    let bs ← readPlaces ps
    cleanOr a bs 0 1 0

/-- Store the low `n` bytes of a word. -/
def scalarStore (a : Word) (n : Nat) (v : Word) : M Unit := do
  let ps ← placesOr a n (accScalar accStore a n) 0 1
  afterDevice ps
  match ps.head? with
  | some (.ctl off) => modify fun s => s.ctlStore s.t.part off v
  | _ => writePlaces ps (leBytes n v.toNat)

/-- The address of a load or store (R330). -/
def Thread.addr (t : Thread) (b : SReg) (imm : BitVec 10) : Word := t.reg b + imm.signExtend 64

/-- The extension of `n` loaded bytes (Table 14.5). -/
def extend (signed : Bool) (n x : Nat) : Word := if signed then BitVec.ofInt 64 (signedOf (8 * n) x) else word x

/-- A load of `n` bytes; in skip mode A takes `xscratch` whole (R331). -/
def load (signed : Bool) (n : Nat) (a b : SReg) (imm : BitVec 10) (s : State) : Res :=
  .next (finish (do
    if s.t.skips 0 then modT fun t => t.setReg a t.xscratch
    else
      let x ← scalarLoad (s.t.addr b imm) n
      modT fun t => t.setReg a (extend signed n x)) s)

/-- A store of `n` bytes; in skip mode it writes nothing (R331). -/
def store (n : Nat) (a b : SReg) (imm : BitVec 10) (s : State) : Res :=
  .next (finish (if s.t.skips 0 then pure () else scalarStore (s.t.addr b imm) n (s.t.reg a)) s)

/-- `ldb` (Table 14.5). -/
def execLdb (a b : SReg) (imm : BitVec 10) (s : State) : Res := load true 1 a b imm s

/-- `ldbu` (Table 14.5). -/
def execLdbu (a b : SReg) (imm : BitVec 10) (s : State) : Res := load false 1 a b imm s

/-- `ldh` (Table 14.5). -/
def execLdh (a b : SReg) (imm : BitVec 10) (s : State) : Res := load true 2 a b imm s

/-- `ldhu` (Table 14.5). -/
def execLdhu (a b : SReg) (imm : BitVec 10) (s : State) : Res := load false 2 a b imm s

/-- `ldw` (Table 14.5). -/
def execLdw (a b : SReg) (imm : BitVec 10) (s : State) : Res := load true 4 a b imm s

/-- `ldwu` (Table 14.5). -/
def execLdwu (a b : SReg) (imm : BitVec 10) (s : State) : Res := load false 4 a b imm s

/-- `ldd` (Table 14.5). -/
def execLdd (a b : SReg) (imm : BitVec 10) (s : State) : Res := load false 8 a b imm s

/-- `stb` (Table 14.5). -/
def execStb (a b : SReg) (imm : BitVec 10) (s : State) : Res := store 1 a b imm s

/-- `sth` (Table 14.5). -/
def execSth (a b : SReg) (imm : BitVec 10) (s : State) : Res := store 2 a b imm s

/-- `stw` (Table 14.5). -/
def execStw (a b : SReg) (imm : BitVec 10) (s : State) : Res := store 4 a b imm s

/-- `std` (Table 14.5). -/
def execStd (a b : SReg) (imm : BitVec 10) (s : State) : Res := store 8 a b imm s

/-! ## Stores that reach a control page -/

/-- CONTROL_PAGE_WRITE: a store of 8 bytes to a partition's control page (R200). -/
def execControlPageWrite (part off : Nat) (v : Word) (s : State) : Res := .next (s.ctlStore part off v)

/-- ASID_ROOT_WORD_WRITE: a store to the ASID root word (Table 7.11). -/
def execAsidRootWordWrite (part : Nat) (v : Word) (s : State) : Res := .next (s.asidRoot part v)

/-- LEASE_ENTRY_WRITE: a store to the high word of the lease entry image (Table 7.11, R51). -/
def execLeaseEntryWrite (part : Nat) (v : Word) (s : State) : Res := .next (s.leaseWrite part v)

/-- TRANSLATION_REQUEST: a store to the H word of the translation request (R260). -/
def execTranslationRequest (part : Nat) (v : Word) (s : State) : Res := .next (s.transRequest part v)

/-- COUNTER_CLEAR: a store with bit 0 set clears the counter block (R255). -/
def execCounterClear (part : Nat) (v : Word) (s : State) : Res := .next (s.ctlStore part 0x100 v)

end Sys2Proof.Machine
end

