-- ==== Sys2Proof/Machine/Atomic.lean ====
section
/-! DEFINITION. Atomics, `ld.acq` and `st.rel`, major 0x3B (R333, R334), and what an acquire does to the core (R196, R207). -/

namespace Sys2Proof.Machine

/-! ## Acquires -/

/-- Whether a scope is `.h` or wider (R207). -/
def wideScope : Scope → Bool
  | .t | .c => false
  | _ => true

/-- Whether a scope is `.x` or wider (R52, R227). -/
def farScope : Scope → Bool
  | .x | .s => true
  | _ => false

/-- A line on its way for a task is of no use any more. -/
def Ask.spoilt (uid : Nat) (a : Ask) : Ask :=
  match a.who with
  | .line h => if h.uid = uid then { a with who := .line { h with dead := true } } else a
  | _ => a

/-- A release or acquire of a task's thread at a scope: at `.x` or wider the leased lines that the thread has cached leave L2, what was written in them
going to their lenders (R52, R227). -/
def State.syncLease (s : State) (uid : Nat) (sc : Scope) : State :=
  if farScope sc then
    let s := s.dropLease fun l => l.users.contains uid
    { s with asks := s.asks.map (Ask.spoilt uid) }
  else s

/-- A release at `.x` or wider waits until the leased writes of the thread before it have been acknowledged (R227). -/
def releaseLease (sc : Scope) : M Unit := do
  modify fun s => s.syncLease s.t.uid sc
  let s ← get
  if farScope sc && s.writesOut (some s.t.uid) none then throw (.stall (.links none))

/-- The cache effect of an acquire at a scope (R207, R227). -/
def State.acquireCaches (s : State) (sc : Scope) : State :=
  let s := s.syncLease s.t.uid sc
  if wideScope sc then s.dropL1 s.core fun _ => true else s

/-- An acquire of the thread: run-ahead vectors are discarded (R196), and the core's L1 lines at `.h` or wider. -/
def State.acquire (s : State) (sc : Scope) : State :=
  (s.modT fun t => { t with streams := t.streams.map fun st => { st with ahead := [] } }).acquireCaches sc

/-! ## Read-modify-write (R334) -/

/-- The functions of major 0x3B that write; compare-and-swap carries its compare value. -/
inductive AmoOp where
  | add | and | or | xor | min | max | minu | maxu | swap | cas (cmp : Word)
  deriving DecidableEq, Repr

/-- The new value for an old one, both of `w` bits; none when nothing is written. -/
def AmoOp.new (op : AmoOp) (w old v : Nat) : Option Nat :=
  match op with
  | .add => some ((old + v) % 2 ^ w)
  | .and => some (old &&& v)
  | .or => some (old ||| v)
  | .xor => some (old ^^^ v)
  | .min => some (if signedOf w old ≤ signedOf w v then old else v)
  | .max => some (if signedOf w old < signedOf w v then v else old)
  | .minu => some (if old ≤ v then old else v)
  | .maxu => some (if old < v then v else old)
  | .swap => some v
  | .cas cmp => if old = cmp.toNat % 2 ^ w then some v else none

/-- The operation number of a UALink atomic, in the order of Table 2.1. -/
def AmoOp.num : AmoOp → Nat
  | .add => 0 | .and => 1 | .or => 2 | .xor => 3 | .min => 4 | .max => 5 | .minu => 6 | .maxu => 7 | .swap => 8 | .cas _ => 9

def AmoOp.cmp : AmoOp → Word
  | .cas c => c
  | _ => 0

/-- The address of major 0x3B (R333). -/
def Thread.addr14 (t : Thread) (b : SReg) (off : BitVec 14) : Word := t.reg b + off.signExtend 64

/-- Whether a byte is poisoned where its address is serialised, after the home slice has looked its line up. -/
def State.homeBad (s : State) : Place → Bool
  | .hbm pa .gx _ | .hbm pa .dev _ => s.poison.contains (pa / 8) || s.fencedAt pa
  | .hbm pa _ _ => s.poison.contains (pa / 8)
  | p => s.poisonAt p

/-- Bytes as they stand where the address is serialised: memory or scratchpad, not L1 (R211). -/
def homeBytes (s : State) (ps : List Place) : List (Byte × Bool) :=
  ps.map fun p => match p with
    | .hbm pa _ _ => (memRead s.mem pa, s.homeBad p)
    | .spad key => (memRead s.mem key, s.homeBad p)
    | _ => (0, false)

/-- The home slice looks up the line of an atomic (R190, R211). -/
def State.atHome (s : State) (l : Option (Nat × Via)) : State :=
  match l with
  | some (line, via) => s.touchHome s.t.part line false via
  | none => s

/-- The home slice writes the new value of an atomic. -/
def homeWrite (p : Place) (bs : List Byte) : M Unit := do
  modT fun t => { t with stored := true }
  match p with
  | .hbm pa via _ => modify fun s => (putBytes s.core pa bs (s.writeHome s.t.part (pa / 64) via)).noteWrite pa bs.length
  | _ => writeRuns [(p, bs)]

/-- The atomic at an aligned address: the old value; poison raises MEM_UE with no write (R334). One that writes nothing, and one at a lender, leaves no
older copy of the line in the core's L1 (R205). -/
def amoAt (op : AmoOp) (a : Word) (n : Nat) (v : Word) : M Nat := do
  let ps ← placesOr a n accStore 0 1
  match ps.head? with
  | some (.lease pa peer off _ _) =>
    settleLease [pa / 64]
    let r ← leaseXfer (← get).t.part { dest := peer, offset := off, req := .atomic op.num n v op.cmp }
    modify fun s => s.dropL1 s.core fun l => l.num == pa / 64
    cleanOr a (((List.range n).map fun i => r.2.getD i 0).map fun b => (b, r.1)) 0 1 0
  | none => return 0
  | some p =>
    modify fun s => s.atHome p.line?
    let s ← get
    let old ← cleanOr a (homeBytes s ps) 0 1 0
    match op.new (8 * n) old (v.toNat % 2 ^ (8 * n)) with
    | some x => homeWrite p (leBytes n x)
    | none => modify fun s => match p.line? with
      | some l => s.dropL1 s.core fun m => m.num == l.1
      | none => s
    return old

/-- An `amo`: release and acquire at its scope; a misaligned address raises ADDR_FAULT (R333). A takes the old value sign-extended, in skip mode `xscratch`
(R334). -/
def amo (op : AmoOp) (a b c : SReg) (sc : Scope) (isWide : Bool) (off : BitVec 14) (s : State) : Res :=
  let n := if isWide then 8 else 4
  let ad := s.t.addr14 b off
  .next (finish (do
    if s.t.skips 0 then modT fun t => t.setReg a t.xscratch
    else if ad.toNat % n != 0 then raise .addrFault ad 0 1
    else
      releaseLease sc
      let old ← amoAt op ad n (s.t.reg c)
      modify fun s => s.acquire sc
      modT fun t => t.setReg a (extend true n old)) s)

/-- `amo.add` (R334). -/
def execAmoAdd (a b c : SReg) (scope : Scope) (wide : Bool) (off : BitVec 14) (s : State) : Res :=
  amo .add a b c scope wide off s

/-- `amo.and` (R334). -/
def execAmoAnd (a b c : SReg) (scope : Scope) (wide : Bool) (off : BitVec 14) (s : State) : Res :=
  amo .and a b c scope wide off s

/-- `amo.or` (R334). -/
def execAmoOr (a b c : SReg) (scope : Scope) (wide : Bool) (off : BitVec 14) (s : State) : Res :=
  amo .or a b c scope wide off s

/-- `amo.xor` (R334). -/
def execAmoXor (a b c : SReg) (scope : Scope) (wide : Bool) (off : BitVec 14) (s : State) : Res :=
  amo .xor a b c scope wide off s

/-- `amo.min` (R334). -/
def execAmoMin (a b c : SReg) (scope : Scope) (wide : Bool) (off : BitVec 14) (s : State) : Res :=
  amo .min a b c scope wide off s

/-- `amo.max` (R334). -/
def execAmoMax (a b c : SReg) (scope : Scope) (wide : Bool) (off : BitVec 14) (s : State) : Res :=
  amo .max a b c scope wide off s

/-- `amo.minu` (R334). -/
def execAmoMinu (a b c : SReg) (scope : Scope) (wide : Bool) (off : BitVec 14) (s : State) : Res :=
  amo .minu a b c scope wide off s

/-- `amo.maxu` (R334). -/
def execAmoMaxu (a b c : SReg) (scope : Scope) (wide : Bool) (off : BitVec 14) (s : State) : Res :=
  amo .maxu a b c scope wide off s

/-- `amo.swap` (R334). -/
def execAmoSwap (a b c : SReg) (scope : Scope) (wide : Bool) (off : BitVec 14) (s : State) : Res :=
  amo .swap a b c scope wide off s

/-- `amo.cas`: compares with D; a failing one writes nothing and still synchronises (R334). -/
def execAmoCas (a b c d : SReg) (scope : Scope) (wide : Bool) (off : BitVec 14) (s : State) : Res :=
  amo (.cas (s.t.reg d)) a b c scope wide off s

/-- Bytes of a size code (R333). -/
def sizeBytes (size : BitVec 2) : Nat := 2 ^ size.toNat

/-- `ld.acq` (R334): the acquire comes first, and its own read is made where the address is serialised, at the lender for a leased one (R207). -/
def execLdAcq (a b : SReg) (scope : Scope) (size : BitVec 2) (off : BitVec 14) (s : State) : Res :=
  let n := sizeBytes size
  let ad := s.t.addr14 b off
  .next (finish (do
    if s.t.skips 0 then modT fun t => t.setReg a t.xscratch
    else if ad.toNat % n != 0 then raise .addrFault ad 0 1
    else
      let ps ← placesOr ad n (accScalar accLoad ad n) 0 1
      releaseLease scope
      modify fun s => s.acquire scope
      if wideScope scope then settleLease ((leaseLines ps).map (·.1))
      let s ← get
      let x ← match ps.head? with
        | some (.ctl o) => pure (s.ctlWord s.t.part o).toNat
        | some (.dtab o) => pure (s.dtabWord o).toNat
        | _ => do
          let bs ← readPlaces ps
          cleanOr ad bs 0 1 0
      modT fun t => t.setReg a (extend true n x)) s)

/-- `st.rel` (R334): no register is written; at `.x` or wider its own leased write goes to the lender at once. -/
def execStRel (b c : SReg) (scope : Scope) (size : BitVec 2) (off : BitVec 14) (s : State) : Res :=
  let n := sizeBytes size
  let ad := s.t.addr14 b off
  .next (finish (do
    if s.t.skips 0 then pure ()
    else if ad.toNat % n != 0 then raise .addrFault ad 0 1
    else
      releaseLease scope
      scalarStore ad n (s.t.reg c)
      modify fun s => s.syncLease s.t.uid scope) s)

end Sys2Proof.Machine
end

