-- ==== Sys2Proof/Machine/Sync.lean ====
section
/-! DEFINITION. `fence`, `bar`, `wait` and `wake`, and the steps that end them (R335 to R338, R88). -/

namespace Sys2Proof.Machine

/-! ## Fence -/

/-- A fence takes effect (R212): the stores that a fence at `.h` or wider waits for are acknowledged, and it acquires at its scope (Tables 8.3, 8.4). -/
def State.fenceNow (s : State) (sc : Scope) : State :=
  ((s.acquire sc).modT fun t => { t with stored := t.stored && !wideScope sc }).retire

/-- Leased writes of the thread in hand that a release at a scope waits for (R227). -/
def State.linksOut (s : State) (sc : Scope) : Bool := farScope sc && s.writesOut (some s.t.uid) none

/-- `fence` (R335): a fence at `.h` or wider waits while a store of the thread may be unacknowledged, one at `.x` or wider for its leased writes (Table
8.4, R227). -/
def execFence (scope : Scope) (s : State) : Res :=
  let s := s.syncLease s.t.uid scope
  .next (if (wideScope scope && s.t.stored) || s.linksOut scope then s.stallOn (.fence scope) else s.fenceNow scope)

/-- FENCE_DONE: the stores that a fence waits for are acknowledged. -/
def execFenceDone (tid : Nat) (s : State) : Res :=
  .next (match (s.thread tid).stall with
    | .fence sc => if (s.switchTo tid).linksOut sc then s else (s.switchTo tid).fenceNow sc
    | _ => s)

/-! ## Barriers (R88) -/

/-- Stage-0 tasks of one flight-N instance: the product of the counts of flights 0 to N. -/
def flightSize : List Flight → Nat → Nat
  | [], _ => 1
  | f :: rest, n => match n with
    | 0 => f.count
    | n + 1 => f.count * flightSize rest n

/-- The flight-N instance of a task of stage 0; tasks of other stages stand alone. -/
def instanceOf (l : Launch) (k : Task) (n : Nat) : Nat := k.index / flightSize l.flights n

/-- Whether a thread has arrived at `bar fN`. -/
def Thread.atBar (t : Thread) (n : Nat) : Bool := t.stall == .bar n

/-- The threads of unended tasks of the flight-N instance of a task: bound ones with their slots, and pre-empted or pending ones. -/
def State.members (s : State) (k : Task) (n : Nat) : List (Option Nat × Thread) :=
  match k.launch.bind s.launch? with
  | none => []
  | some l =>
    let same := fun (o : Task) => o.launch == k.launch && o.stage == k.stage && instanceOf l o n == instanceOf l k n
    (s.bound.filter fun b => same b.2).map (fun b => (some b.1, s.thread b.1)) ++
      (s.pending.filter fun p => same p.task).map fun p => (none, p.saved.getD Thread.reset)

/-- The scope of a flight (Table 4.2). -/
def flightScope (l : Launch) (n : Nat) : Scope :=
  match l.flights[n]? with
  | some f => (scopeOf (BitVec.ofNat 3 f.scope)).getD .t
  | none => .t

/-- The scope of `bar fN` of a task. -/
def State.barScope (s : State) (k : Task) (n : Nat) : Scope :=
  match k.launch.bind s.launch? with
  | some l => flightScope l n
  | none => .t

/-- A barrier completes for one bound member: release and acquire, and its `bar` retires. -/
def State.leaveBar (s : State) (tid : Nat) (sc : Scope) : State := ((s.switchTo tid).acquire sc).retire

/-- A flight whose domain spans packages: members of other packages belong to its instance (Table 4.2). -/
def State.spansPackages (s : State) (k : Task) (n : Nat) : Bool :=
  (k.launch.bind s.launch?).any fun l => (l.flights[n]?).any fun f => f.domain == 5

/-- Whether every member of an instance that has not ended, but perhaps `self`, has arrived (R88); whether those of other packages have is free (log 69). -/
def State.barFull (s : State) (k : Task) (n : Nat) (self : Nat) : Bool :=
  (!s.spansPackages k n || Config.othersArrived s.steps) &&
  (s.members k n).all fun m => m.1 == some self || m.2.atBar n

/-- The acquire of a pre-empted member on the core that it left: its run-ahead vectors are gone already (R196), the leased lines that its thread has
cached leave L2 at `.x` or wider (R227), and the core's L1 lines go at `.h` or wider (R207, R230). -/
def State.acquireAway (s : State) (sc : Scope) (p : Pending) : State :=
  let s := s.syncLease p.task.uid sc
  match p.home with
  | some (c, _) => if wideScope sc then s.dropL1 c fun _ => true else s
  | none => s

/-- Let every arrived bound member of an instance go on; a pre-empted member acquires, and its `bar` completes as it resumes (R88, R336). -/
def State.openBar (s : State) (k : Task) (n : Nat) : State :=
  let sc := s.barScope k n
  let ms := s.members k n
  let me := s.cur
  let s := ms.foldl (fun s m => match m.1 with
    | some tid => if m.2.atBar n && tid != me then s.leaveBar tid sc else s
    | none => s) s
  let away := fun (p : Pending) =>
    p.task.launch == k.launch && p.task.stage == k.stage &&
      ms.any fun m => m.1.isNone && m.2.atBar n && (m.2.task.map fun (o : Task) => o.index) == some p.task.index
  let left := fun (p : Pending) => if away p then { p with saved := p.saved.map fun t => { t with stall := .barDone } } else p
  let s := (s.pending.filter away).foldl (fun s p => s.acquireAway sc p) s
  let s := { s with pending := s.pending.map left }
  { (s.switchTo me) with turn := .arbiter }

/-- `bar fN` (R336): BAR_RANGE above the stage's BARF; `bar f0` completes at once as a `fence.t`; the last arrival completes it. An
arrival is a release, and at `.x` or wider waits for the leased writes of the thread (R227). -/
def execBar (n : BitVec 3) (s : State) : Res :=
  let barf := match s.stageHere with
    | some st => st.barf
    | none => 0
  .next (if barf < n.toNat then finish (raise .barRange 0 n.toNat) s
    else if n == 0 then (s.acquire .t).retire
    else
      match s.t.task with
      | none => s.retire
      | some k =>
        let sc := s.barScope k n.toNat
        let s := s.syncLease s.t.uid sc
        if s.linksOut sc then s.stallOn (.links none)
        else if s.barFull k n.toNat s.cur then ((s.openBar k n.toNat).acquire sc).retire
        else s.stallOn (.bar n.toNat))

/-- BARRIER_COMPLETE: every member that has not ended has arrived, among them a waiting one (R88). -/
def execBarrierComplete (tid : Nat) (s : State) : Res :=
  .next (match (s.thread tid).stall, (s.thread tid).task with
    | .bar n, some k =>
      if s.barFull k n tid then ((s.switchTo tid).openBar k n).leaveBar tid (s.barScope k n) else s
    | _, _ => s)

/-! ## Wait and wake -/

/-- The 64-byte line, by physical address or scratchpad key, of an address that a load could reach. -/
def lineOf (a : Word) (acc : Acc) : StateM State (Option Nat) := do
  match ← place a acc with
  | .ok (.hbm pa _ _) => return some (pa / 64)
  | .ok (.spad key) => return some (key / 64)
  | _ => return none

/-- `wait` up to its first read (R337): alignment, rights, MEM_PROT for any address of the lease aperture, and the value. -/
def waitRead (ad : Word) : M (Nat × Nat) := do
  if ad.extractLsb' 0 3 != 0 then raise .addrFault ad 0 1
  else
    let ps ← match ← (places ad 8 accLoad : StateM State _) with
      | .ok ps => pure ps
      | .error (k, c) => raise (if c = .leaseFault then .memProt else c) (ad + word k) 0 1
    match ps.head? with
    | some (.lease _ _ _ _ _) => raise .memProt ad 0 1
    | _ =>
      let line ← (lineOf ad accLoad : StateM State _)
      let bs ← readPlaces ps
      let x ← cleanOr ad bs 0 1 0
      return (x, line.getD 0)

/-- `wait` (R337): completes at once when the doubleword differs from C, else waits on its line; in skip mode A takes `xscratch`. -/
def execWait (a b c : SReg) (imm : BitVec 16) (s : State) : Res :=
  let ad := s.t.reg b + imm.signExtend 64
  .next (finish (do
    if s.t.skips 0 then modT fun t => t.setReg a t.xscratch
    else
      let r ← waitRead ad
      if word r.1 == s.t.reg c then throw (.stall (.wait a ad r.2 s.now))
      else modT fun t => t.setReg a (word r.1)) s)

/-- The end of a `wait`: the doubleword is read again, A takes it, and the `wait` retires. -/
def State.endWait (s : State) (tid : Nat) (a : SReg) (ad : Word) : State :=
  let s := (s.switchTo tid).modT fun t => { t with stall := .none }
  finish (do
    let r ← waitRead ad
    Machine.modT fun t => t.setReg a (word r.1)) s

/-- WAIT_RESUME: a write to the line, a `wake` of it, or a pending cause ends a `wait` (R337). -/
def execWaitResume (tid : Nat) (s : State) : Res :=
  .next (match (s.thread tid).stall with
    | .wait a ad _ _ => s.endWait tid a ad
    | _ => s)

/-- WAIT_TIMEOUT: 2^20 cycles end a `wait` (R337). -/
def execWaitTimeout (tid : Nat) (s : State) : Res :=
  .next (match (s.thread tid).stall with
    | .wait a ad _ since => (s.cycleTo (since + 2 ^ 20)).endWait tid a ad
    | _ => s)

/-- `wake` (R338): ends every `wait` on the line by threads of the partition; it never faults. -/
def execWake (b : SReg) (imm : BitVec 16) (s : State) : Res :=
  .next (match (lineOf (s.t.reg b + imm.signExtend 64) { rd := false, wr := false, ex := false, dev := true }).run s with
    | (none, s) => s.retire
    | (some l, s) =>
      let ws := (s.waitersOn l).filter fun tid => (s.thread tid).part == s.t.part && !s.inbox.contains (.waitResume tid)
      { s with inbox := s.inbox ++ ws.map Instr.waitResume }.retire)

end Sys2Proof.Machine
end

