-- ==== Sys2Proof/Machine/CacheOps.lean ====
section
/-! DEFINITION. Prefetch hints (R198, R199, R345), cache maintenance (R346) and TLB invalidation (R347), with the steps that complete
them: line fills (R454), walks that hints began (R185, R455), and the expiry of L1 lines (R207). -/

namespace Sys2Proof.Machine

/-! ## Hints -/

/-- A hint that a leaf refuses, or that no leaf maps, counts as dropped-unmapped; base is 12 for `ipf`, 17 for `dpf` (Table 9.9). -/
def State.hintDropped (s : State) (part base : Nat) : State := s.count part (base + 4) 1
def State.hintUseless (s : State) (part base : Nat) : State := s.count part (base + 3) 1

/-- A translated `ipf` line: present or in flight it is useless, else its fill is requested (R123, R454). -/
def State.ipfLine (s : State) (core part pa : Nat) (via : Via) : State :=
  let n := pa / 64
  let k := s.getCore core
  if (k.icache.any fun l => l.num == n) || k.fillsCode n then s.hintUseless part 12
  else (s.touchHome part n false via).modCore core fun k => { k with icFills := k.icFills ++ [(n, part, false, via)] }

/-- A translated `dpf` line: a line of a GX page and a present line are useless, else L2 and L1 take it (R345). -/
def State.dpfLine (s : State) (core part pa : Nat) (via : Via) : State :=
  let n := pa / 64
  if via != .l1 || (s.getCore core).l1.any (fun l => l.num == n) then s.hintUseless part 17
  else (s.touchL2 part n false).fillL1 core part n true

/-- A hint of a leased line: present or in flight it is useless, from L2 it fills at once, else it is requested from its lender (R52, R345). -/
def State.leaseHint (s : State) (kind core uid part pa peer off : Nat) (via : Via) : State :=
  let n := pa / 64
  let k := s.getCore core
  if via != .l1 && kind != 0 then s.hintUseless part 17
  else if s.leaseCached n then if kind == 0 then (s.useLease [uid] n).ipfLine core part pa .l1 else (s.useLease [uid] n).dpfLine core part pa via
  else if (if kind == 0 then k.icache else k.l1).any (fun l => l.num == n) || (s.aheadOf core n fun x => (x == 1) == (kind == 1)).isSome then
    s.hintUseless part (if kind == 0 then 12 else 17)
  else
    let home := (peer, off / 64 * 64)
    s.ask (.line { core := core, kind := kind, part := part, line := n, home := home, uid := uid, dead := false, wants := [] }) part
      { dest := peer, offset := home.2, req := .read 64 }

/-- A hint whose place is known or refused. -/
def State.hintPlace (s : State) (kind core uid part : Nat) (p : Except Cause Place) : State :=
  let base := if kind == 0 then 12 else 17
  match p with
  | .ok (.hbm pa via _) => if kind == 0 then s.ipfLine core part pa via else s.dpfLine core part pa via
  | .ok (.spad _) => if kind == 0 then s.hintDropped part base else s.hintUseless part base
  | .ok (.lease pa peer off via _) => s.leaseHint kind core uid part pa peer off via
  | _ => s.hintDropped part base

/-- Whether a TLB of the core or of its die holds a page. -/
def State.inTlb (s : State) (asid : BitVec 16) (va : Nat) : Bool :=
  (s.getCore s.core).tlb.any (fun e => e.hits asid va) || (s.getDie (dieOf s.core)).tlb.any fun e => e.hits asid va

/-- The access that a hint's line needs: X for `ipf`, PR for `dpf`. -/
def hintAcc (kind : Nat) : Acc := if kind == 0 then accFetch else accLoad

/-- Put a hint's line on a walk of its die: on the one that its page already has, else on a new one (R185). -/
def joinWalk (asid : BitVec 16) (page : Nat) (h : HintLine) : List Walk → List Walk
  | [] => [{ asid := asid, page := page, hints := [h], result := none }]
  | w :: rest => if w.asid == asid && w.page == page then { w with hints := w.hints ++ [h] } :: rest else w :: joinWalk asid page h rest

/-- One line of a hint of the thread in hand: a global line that misses both TLBs shares a walk of its page, or begins one, but only while 16 of
the die's 64 walkers are idle (R185, R198). -/
def State.hintLine (s : State) (kind : Nat) (va : Word) : State :=
  let part := s.t.part
  let base := if kind == 0 then 12 else 17
  let s := s.count part base 1
  let d := dieOf s.core
  let off := (va.extractLsb' 0 56).toNat
  if va.extractLsb' 56 8 == 0 && (s.asid? s.t.asid).isSome && !s.inTlb s.t.asid off then
    if (s.getDie d).walks.length ≤ 48 then
      let h : HintLine := { tid := s.cur, uid := s.t.uid, va := va, kind := kind, part := part, sup := s.t.sup }
      s.modDie d fun k => { k with walks := joinWalk s.t.asid (off / 4096) h k.walks }
    else s.hintUseless part base
  else
    let r := (place va (hintAcc kind)).run s
    r.2.hintPlace kind s.core s.t.uid part r.1

/-- The lines that a hint names, from the line of its address on. -/
def hintLines (a : Word) (n : Nat) : List Word := (List.range n).map fun i => lineAddr a + word (64 * i)

/-- The lines that a hint names are requested. -/
def State.hint (s : State) (kind : Nat) (a : Word) (n : Nat) : State := (hintLines a n).foldl (State.hintLine · kind) s

/-- Miss slots that the lines of a hint would take beside those in use: one for each page that misses both TLBs and that no walk of the core is for
(R185). -/
def State.newMisses (s : State) (a : Word) (n : Nat) : Nat :=
  let walked := fun (off : Nat) => (s.getDie (dieOf s.core)).walks.any fun w => w.asid == s.t.asid && w.page == off / 4096 && w.hints.any fun h => h.tid / 4 == s.core
  (((hintLines a n).filter fun va => va.extractLsb' 56 8 == 0).map (fun va => (va.extractLsb' 0 56).toNat)
    |>.filter fun off => (s.asid? s.t.asid).isSome && !s.inTlb s.t.asid off && !walked off).map (· / 4096) |>.eraseDups.length

/-- A hint issues, once the core has the miss slots that it takes (R185, R345). -/
def hintOp (kind : Nat) (b : SReg) (nm1 : BitVec 3) (imm : BitVec 16) (s : State) : Res :=
  let a := s.t.reg b + imm.signExtend 64
  let n := nm1.toNat + 1
  .next (if 16 < s.missSlots s.core + s.newMisses a n then s.stallOn .missSlot else (s.hint kind a n).retire)

/-- `ipf` (R345). -/
def execIpf (b : SReg) (nm1 : BitVec 3) (imm : BitVec 16) (s : State) : Res := hintOp 0 b nm1 imm s

/-- `dpf` (R345). -/
def execDpf (b : SReg) (nm1 : BitVec 3) (imm : BitVec 16) (s : State) : Res := hintOp 1 b nm1 imm s

/-- A hint's line whose walk has ended: placed for the task that issued it by the leaf of the walk, and counted in its partition (R198, R199). -/
def State.walkHint (s : State) (asid : BitVec 16) (leaf : Option TlbEntry) (h : HintLine) : State :=
  let p := match s.asid? asid, leaf with
    | some ent, some e =>
      if !ent.valid || ent.part != h.part then .error .pageFault else s.placeOf e (h.va.extractLsb' 0 56).toNat (hintAcc h.kind) h.sup h.part
    | _, _ => .error .pageFault
  s.hintPlace h.kind (h.tid / 4) h.uid h.part p

/-- What the first line of a walk finds: what a demand access that shared the walk found, else what the page table holds now (R185). -/
def State.walkResult (s : State) (w : Walk) : State × Option TlbEntry :=
  match w.result, w.hints.head?, s.asid? w.asid with
  | some r, _, _ => (s, r)
  | none, some h, some ent =>
    let me := s.cur
    let r := (s.switchTo h.tid).lookup h.part w.asid ent.root (h.va.extractLsb' 0 56).toNat
    (r.1.switchTo me, r.2)
  | _, _, _ => (s, none)

/-- TLB_WALK_COMPLETE: the oldest hint walk of a die ends; TLBs take its leaf, and each hint that shares it, on this walk or on another of the page that
the leaf maps, fills or is dropped (R185, R198, R455). -/
def execTlbWalkComplete (die : Nat) (s : State) : Res :=
  .next (match (s.getDie die).walks with
    | [] => s
    | w :: rest =>
      let r := State.walkResult (s.modDie die fun k => { k with walks := rest }) w
      let shared := fun (x : Walk) => x.asid == w.asid && r.2.any fun (e : TlbEntry) => e.hits x.asid (x.page * 4096)
      let s := r.1.modDie die fun k => { k with walks := k.walks.filter fun x => !shared x }
      (w.hints ++ (rest.filter shared).flatMap (·.hints)).foldl (State.walkHint · w.asid r.2) s)

/-- A line that was requested ahead arrives in an instruction cache: it counts as late when a lookup waits for it, which then adds no hit (R123, R199,
R454). `ahead` is the lookup of the next sequential line, which is no hint. A line that its home slice does not hold comes from its stack, as poison from
a fenced bank (R30, R191). -/
def State.icArrive (s : State) (core line part : Nat) (wanted ahead : Bool) (via : Via) : State :=
  let x := s.homeLine line via
  let here := (s.getDie (line / 64 % 9)).l2.any fun l => l.num == line
  let new : Line :=
    { num := line, data := x.1, bad := if here then x.2 else x.2 ||| s.fencedWords line, hinted := !wanted && !ahead, fresh := wanted || ahead, part := part
      filled := s.now }
  let s := (s.modCore core fun k => { k with icFills := k.icFills.filter fun x => x.1 != line }).putCode core part new
  if wanted && !ahead then s.count part 14 1 else s

/-- ICACHE_FILL_COMPLETE: a line that a hint named arrives, of the eight whose fills are in flight (R454). -/
def execIcacheFillComplete (core line : Nat) (s : State) : Res :=
  .next (match ((s.getCore core).icFills.take 8).find? fun f => f.1 == line with
    | none => s
    | some f => s.icArrive core line f.2.1 f.2.2.1 false f.2.2.2)

/-- A leased line that was requested ahead arrives: one that an acquire made worthless, or that is present by now, is a useless hint (R52, R199, R227);
one whose answer was an error is poison, and L2 does not keep it (R40). -/
def State.hintArrive (s : State) (h : HintFill) (err : Bool) (bs : List Byte) : State :=
  let k := s.getCore h.core
  if h.dead || (if h.kind == 1 then k.l1 else k.icache).any fun l => l.num == h.line then
    if h.kind == 2 then s else s.hintUseless h.part (if h.kind == 0 then 12 else 17)
  else
    let s := if s.leaseCached h.line then s.useLease [h.uid] h.line
      else (s.takeLease h.part h.line h.home [h.uid] err bs).touchL2 h.part h.line false
    let wanted := !h.wants.isEmpty
    let s := if h.kind != 1 then s.icArrive h.core h.line h.part wanted (h.kind == 2) .l1
      else
        let s := s.fillL1 h.core h.part h.line (!wanted) wanted
        if wanted then s.count h.part 19 1 else s
    if err then s.modDie (h.line / 64 % 9) fun d => { d with l2 := d.l2.filter fun l => l.num != h.line } else s

/-- L1_LINE_EXPIRY: a line leaves L1 no later than 4,096 cycles after it was filled (R207). -/
def execL1LineExpiry (core line : Nat) (s : State) : Res := .next (s.dropL1 core fun l => l.num == line)

/-! ## Cache maintenance (R346) -/

/-- First line and number of lines of the block that an address lies in: its line, or its 4 KiB. -/
def blockLines (pa : Nat) (block : Bool) : Nat × Nat := if block then (pa / 4096 * 64, 64) else (pa / 64, 1)

def inBlock (first lines n : Nat) : Bool := decide (first ≤ n) && decide (n < first + lines)

/-- Drop the named lines from every L1 of the package. -/
def State.dropAllL1 (s : State) (first lines : Nat) : State :=
  s.cores.foldl (fun s c => s.dropL1 c.1 fun l => inBlock first lines l.num) s

/-- Some named line is dirty in L2. -/
def State.dirtyIn (s : State) (first lines : Nat) : Bool :=
  (List.range 9).any fun d => (s.getDie d).l2.any fun l => l.dirty && inBlock first lines l.num

/-- The named lines leave L2, written back to HBM, or to the lender of a leased line, with their charges (R192), and every L1. -/
def State.flushLines (s : State) (first lines : Nat) : State :=
  let s := (List.range 9).foldl (fun s d =>
    let gone := (s.getDie d).l2.filter fun l => inBlock first lines l.num
    let s := gone.foldl (fun s l => if l.dirty then (s.count l.part 6 1).writeBack l else s.unhurt l) s
    s.modDie d fun k => { k with l2 := k.l2.filter fun l => !inBlock first lines l.num }) s
  s.dropAllL1 first lines

/-- The write-back of a named leased line has not been acknowledged. -/
def State.blockOut (s : State) (first lines : Nat) : Bool :=
  s.asks.any fun a => a.reply.isNone && match a.who with
    | .post _ l => inBlock first lines l
    | _ => false

/-- The named lines leave every instruction cache, every line buffer and every L1; a hinted one that nothing used was useless. -/
def State.invLines (s : State) (first lines : Nat) : State :=
  let s := s.cores.foldl (fun s c =>
    let gone := (s.getCore c.1).icache.filter fun l => inBlock first lines l.num
    let s := s.modCore c.1 fun k => { k with icache := k.icache.filter fun l => !inBlock first lines l.num }
    gone.foldl (fun s l => if l.hinted then s.count l.part 15 1 else s) s) s
  (s.mapThreads fun _ t => { t with lineBuf := none, nextLine := none }).dropAllL1 first lines

/-- Some named line is being filled into an instruction cache. -/
def State.fillingIn (s : State) (first lines : Nat) : Bool :=
  s.cores.any fun c => c.2.icFills.any fun f => inBlock first lines f.1

/-- What `cflush` and `cinv` name: nothing on a DEV page or in the local window (R346). -/
def maintained (a : Word) (acc : Acc) (block : Bool) : M (Option (Nat × Nat)) := do
  if a.extractLsb' 56 8 == 0xFF then return none
  match ← (place a { acc with dev := true } : StateM State _) with
  | .error c => raise c a 0 1
  | .ok (.hbm _ .dev _) => return none
  | .ok (.lease _ _ _ .dev _) => return none
  | .ok (.hbm pa _ _) | .ok (.lease pa _ _ _ _) => return some (blockLines pa block)
  | .ok _ => return none

/-- `cflush` (R346): waits while a named line is dirty in L2, a leased one going to its lender at once, then the lines leave L2 and every L1. -/
def execCflush (b : SReg) (block : Bool) (imm : BitVec 16) (s : State) : Res :=
  .next (finish (do
    if s.t.skips 0 then pure ()
    else
      match ← maintained (s.t.reg b + imm.signExtend 64) accLoad block with
      | none => pure ()
      | some (first, lines) =>
        modify fun s => s.dropLease fun l => inBlock first lines l.num
        let s ← get
        if s.dirtyIn first lines || s.blockOut first lines then throw (.stall (.cflush first lines)) else set (s.flushLines first lines)) s)

/-- CFLUSH_DONE: the write-backs of a `cflush` are acknowledged. -/
def execCflushDone (tid : Nat) (s : State) : Res :=
  .next (match (s.thread tid).stall with
    | .cflush first lines => if s.blockOut first lines then s else ((s.switchTo tid).flushLines first lines).retire
    | _ => s)

/-- `cinv` (R346): waits while a named line is being filled, then the lines leave every instruction cache and L1. -/
def execCinv (b : SReg) (block : Bool) (imm : BitVec 16) (s : State) : Res :=
  let a := s.t.reg b + imm.signExtend 64
  .next (finish (do
    if s.t.skips 0 then pure ()
    else
      match ← maintained a accFetch block with
      | none => pure ()
      | some (first, lines) =>
        let s ← get
        if s.fillingIn first lines then throw (.stall (.cinv first lines)) else set (s.invLines first lines)) s)

/-- CINV_DONE: every instruction cache and L1 has invalidated the lines of a `cinv`; fills of them are given up. -/
def execCinvDone (tid : Nat) (s : State) : Res :=
  .next (match (s.thread tid).stall with
    | .cinv first lines =>
      let lost := s.cores.flatMap fun c => c.2.icFills.filter fun f => inBlock first lines f.1
      let s := lost.foldl (fun s f => s.hintUseless f.2.1 12) s
      let s := s.mapCores fun _ k => { k with icFills := k.icFills.filter fun f => !inBlock first lines f.1 }
      ((s.switchTo tid).invLines first lines).retire
    | _ => s)

/-! ## `tlbinv` (R347) -/

/-- The ASIDs that `tlbinv` acts on: none whose entry names another partition. -/
def State.tlbinvAsids (s : State) (kind : BitVec 2) (asid : BitVec 16) : List (BitVec 16) :=
  if kind == 2 then (s.asids.filter fun e => e.part == s.t.part).map (·.asid)
  else
    match s.asid? asid with
    | some e => if e.part == s.t.part then [asid] else []
    | none => [asid]

/-- The matching leaves leave every TLB, the walk-cache entries of the ASIDs go, and every line buffer is emptied. -/
def State.tlbinvNow (s : State) (kind : BitVec 2) (va : Word) (asid : BitVec 16) : State :=
  let as := s.tlbinvAsids kind asid
  let hit := fun (e : TlbEntry) =>
    as.contains e.asid && (kind != 0 || e.page == (va.extractLsb' 0 56).toNat / 2 ^ e.sizeLog)
  let s := s.mapCores fun _ k => { k with tlb := k.tlb.filter fun e => !hit e }
  let s := (List.range 9).foldl (fun s d => s.modDie d fun k =>
    { k with tlb := k.tlb.filter fun e => !hit e, walkCache := k.walkCache.filter fun w => !as.contains w.asid }) s
  let s := s.mapThreads fun _ t => { t with lineBuf := none, nextLine := none }
  ((s.acquire .p).modT fun t => { t with stored := false }).retire

/-- Some walk under the ASIDs is in progress. -/
def State.walking (s : State) (kind : BitVec 2) (asid : BitVec 16) : Bool :=
  let as := s.tlbinvAsids kind asid
  (List.range 9).any fun d => (s.getDie d).walks.any fun w => as.contains w.asid

/-- `tlbinv` of an ASID whose entry names another partition (R347). -/
def State.tlbinvForeign (s : State) (kind : BitVec 2) (asid : BitVec 16) : Bool :=
  kind != 2 && (s.asid? asid).any fun e => e.part != s.t.part

/-- `tlbinv` (R347): supervisor mode, else ILLEGAL; it does nothing for an ASID of another partition, and waits, as a `fence.p`, while a store of the
thread may be unacknowledged, and for walks in progress under the ASID. -/
def execTlbinv (kind : BitVec 2) (b c : SReg) (s : State) : Res :=
  let va := s.t.reg b
  let asid : BitVec 16 := (s.t.reg c).extractLsb' 0 16
  .next (if !s.t.sup then finish illegal s
    else if s.tlbinvForeign kind asid then s.retire
    else if s.t.stored || s.walking kind asid then s.stallOn (.tlbinv kind va asid)
    else s.tlbinvNow kind va asid)

/-- TLBINV_DONE: the stores are acknowledged, and no walk under the ASID is in progress any more. -/
def execTlbinvDone (tid : Nat) (s : State) : Res :=
  .next (match (s.thread tid).stall with
    | .tlbinv kind va asid =>
      let s' := s.switchTo tid
      if s'.walking kind asid then s else s'.tlbinvNow kind va asid
    | _ => s)

end Sys2Proof.Machine
end

