-- ==== Sys2Proof/Machine/Operands.lean ====
section
/-! DEFINITION. The operands of vector instructions: the configuration in force (R272 to R275, R349, R350), sources and the streams bound
to them (R195, R196, R355), the second operand (R352), masks, and element-wise destinations (R351). -/

namespace Sys2Proof.Machine

/-! ## The configuration in force -/

/-- Element type, columns and rows. -/
structure VCfg where
  ty : ETy
  vl : Nat
  vlr : Nat
  deriving DecidableEq, Repr

/-- Row stride in positions (R350). -/
def VCfg.rs (c : VCfg) : Nat := if c.vlr == 1 then c.vl else 16 * ceilDiv c.vl 16
/-- Logical elements. -/
def VCfg.n (c : VCfg) : Nat := c.vlr * c.vl
/-- Position of a logical element. -/
def VCfg.pos (c : VCfg) (e : Nat) : Nat := e / c.vl * c.rs + e % c.vl
/-- The logical element at a position; none in the tail. -/
def VCfg.elem? (c : VCfg) (p : Nat) : Option Nat :=
  if p / c.rs < c.vlr ∧ p % c.rs < c.vl then some (p / c.rs * c.vl + p % c.rs) else none
/-- Elements of a block: four for E3M2, two for CB4 (R350). -/
def blockOf (t : ETy) : Nat := match t with
  | .e3m2 => 4
  | .cb4 _ => 2
  | _ => 1
/-- Padded columns. -/
def VCfg.vlp (c : VCfg) : Nat := blockOf c.ty * ceilDiv c.vl (blockOf c.ty)
/-- A padding position of a row (R350). -/
def VCfg.padding (c : VCfg) (p : Nat) : Bool :=
  decide (p / c.rs < c.vlr) && decide (c.vl ≤ p % c.rs) && decide (p % c.rs < c.vlp) ||
    (c.vlr == 1 && decide (c.vl ≤ p) && decide (p < c.vlp))
/-- Positions that a vector write can reach. -/
def VCfg.extent (c : VCfg) : Nat := (c.vlr - 1) * c.rs + c.vlp
def VCfg.w (c : VCfg) : Nat := c.ty.width

/-- Whether a shape keeps within Table 11.2: `vl` and `vlr` in range and no element beyond position 127 (R273). -/
def VCfg.ok (c : VCfg) : Bool :=
  decide (c.vl ≤ 128) && decide (1 ≤ c.vlr) && decide (c.vlr ≤ 128) && decide ((c.vlr - 1) * c.rs + c.vl ≤ 128)

/-! ## Type classes (Table 15.1) -/

def ETy.isInt (t : ETy) : Bool := t.int?.isSome
def ETy.isFlt : ETy → Bool
  | .fp32 | .fp16 | .bf16 => true
  | _ => false
def ETy.isSub : ETy → Bool
  | .e3m2 | .cb4 _ => true
  | _ => false

def clsAll (_ : ETy) : Bool := true
def clsNoSub (t : ETy) : Bool := !t.isSub
def clsInt (t : ETy) : Bool := t.isInt
def clsFlt (t : ETy) : Bool := t.isFlt
def clsIntFlt (t : ETy) : Bool := t.isInt || t.isFlt

/-- The element type that `vtype` sets, when it is legal (R275). -/
def Thread.vty (t : Thread) : Option ETy := if t.vtype.getLsbD 6 then vecType (t.vtype.extractLsb' 0 6) else none

/-- A vector instruction needs the unit that a resumed thread has not yet acquired (R132, R134). -/
def needUnit : M Unit := do
  let s ← get
  if s.t.vlive && s.t.unit.isNone then throw (.stall (.vectorUnit s.now))
  else if s.t.vlive && s.t.save.isSome then throw (.stall .vectorRestore)
  else pure ()

/-- The configuration, for an instruction that accepts a class of types; `flat` forbids shapes of several rows (R354). -/
def vconfig (cls : ETy → Bool) (flat : Bool) : M VCfg := do
  let s ← get
  match s.t.vty with
  | none => vtypeIllegal
  | some ty =>
    let c : VCfg := { ty := ty, vl := s.t.vl.toNat, vlr := s.t.vlr.toNat }
    if !cls ty || !c.ok || (flat && c.vlr != 1) then vtypeIllegal else return c

/-- VCFG alone: the instructions that use neither `vl` nor `vlr`. -/
def vtyped : M Unit := do
  let s ← get
  if s.t.vty.isNone then vtypeIllegal else pure ()

/-! ## Streams (R194 to R196) -/

/-- The stream bound to a register. -/
def Thread.stream? (t : Thread) (r : BitVec 5) : Option Stream := t.streams.find? fun st => st.reg == r

/-- A write to a bound register raises ILLEGAL (R195). -/
def writableV (r : BitVec 5) : M Unit := do
  let s ← get
  if (s.t.stream? r).isSome then illegal else pure ()

/-- A loaded number with the lines it came from, or the failing address and its cause. -/
abbrev Loaded := Except (Word × Cause) (Nat × List Nat)

def Place.lineKey : Place → List Nat
  | .hbm pa _ _ | .lease pa _ _ _ _ => [pa / 64]
  | .spad key => [key / 64]
  | _ => []

/-- Load `n` bytes without trapping: poison is MEM_UE at its lowest byte. -/
def tryLoad (va : Word) (n : Nat) : M Loaded := do
  match ← (places va n accLoad : StateM State _) with
  | .error (k, c) => return .error (va + word k, c)
  | .ok ps =>
    let bs ← readPlaces ps
    match bs.findIdx? (·.2) with
    | some k => return .error (va + word k, .memUe)
    | none => return .ok (leNat (bs.map (·.1)), (ps.flatMap Place.lineKey).eraseDups)

/-- Element `j` of a stream (R195). -/
def Stream.load (st : Stream) (j : Nat) : M Loaded := do
  let i := st.start.toNat + j
  if st.count.toNat ≤ j then return .ok (0, [])
  else if !st.indirect then tryLoad (st.dbase + word (i * 2 ^ st.esz)) (2 ^ st.esz)
  else
    match ← tryLoad (st.btab + word (i / 2 ^ st.tsh * 4)) 4 with
    | .error e => return .error e
    | .ok (b, l) =>
      match ← tryLoad (st.dbase + word (b * 2 ^ st.bsh + i % 2 ^ st.tsh * 2 ^ st.esz)) (2 ^ st.esz) with
      | .error e => return .error e
      | .ok (x, m) => return .ok (x, l ++ m)

/-- The run-ahead value of element `j`, when a run-ahead vector holds it and its load did not fail. -/
def Stream.aheadOf (st : Stream) (j : Nat) : Option (BitVec 32) :=
  st.ahead.findSome? fun v => if v.1 ≤ j then (v.2.1[j - v.1]?).join else none

/-- Elements `e` to `e + n - 1` of the vector that a stream delivers next, with the elements that fail. -/
def streamGo (st : Stream) : Nat → Nat → M (List (BitVec 32) × List (Nat × Word × Cause))
  | 0, _ => pure ([], [])
  | n + 1, e => do
    let s ← get
    let r : Except (Word × Cause) (BitVec 32) ←
      if s.t.skips e then pure (.ok (BitVec.ofNat 32 (s.t.xscratch.toNat % 2 ^ (s.t.vty.getD .fp32).width)))
      else
        match st.aheadOf (st.pos + e) with
        | some x => pure (.ok x)
        | none => do
          let r ← st.load (st.pos + e)
          pure (r.map fun x => BitVec.ofNat 32 x.1)
    let rest ← streamGo st n (e + 1)
    match r with
    | .ok x => return (x :: rest.1, rest.2)
    | .error (va, c) => return (0 :: rest.1, (e, va, c) :: rest.2)

/-! ## Element faults (R232, R236, R363) -/

/-- Priority of a cause, 1 the highest (Table 9.1). -/
def Cause.priority : Cause → Nat
  | .fetchFault => 1 | .illegalLine => 2 | .illegalConvoy => 3 | .illegal | .absent => 4 | .vtypeIllegal | .barRange => 5
  | .ecall | .brk => 6 | .addrFault | .landingFault => 7 | .pageFault | .streamFault => 8 | .memProt | .leaseFault => 9
  | .tmapFault => 10 | .tileInvalid => 11 | .fillFault => 12 | .memUe => 13
  | .spillFault | .remoteNak | .leaseRevoke => 14

/-- The fault that is reported: the lowest element's, of the highest priority there. -/
def lowestFault : List (Nat × Word × Cause) → Option (Nat × Word × Cause)
  | [] => none
  | f :: rest =>
    match lowestFault rest with
    | none => some f
    | some g => if g.1 < f.1 || (g.1 == f.1 && decide (g.2.2.priority < f.2.2.priority)) then some g else some f

/-- `xmask`: the faulting elements of the group of an element (R236). -/
def groupMask (e : Nat) (faults : List (Nat × Word × Cause)) : Nat :=
  (List.range 16).foldl (fun m i => if faults.any fun f => f.1 == 16 * (e / 16) + i then m + 2 ^ i else m) 0

/-- Raise an element fault; `vstart` is where the member resumes. -/
def raiseElem {α : Type} (f : Nat × Word × Cause) (faults : List (Nat × Word × Cause)) (vstart : Nat) : M α := do
  if f.2.2 == .memUe then countM 39 1
  raise f.2.2 f.2.1 f.1 (groupMask f.1 faults) (some vstart)

/-! ## Vector sources -/

/-- What the sources of an instruction hold. -/
abbrev Sources := List (BitVec 5 × Vector (BitVec 32) 128)

/-- The contents of a source: what its stream delivers, or the register's own. -/
def srcOf (l : Sources) (t : Thread) (r : BitVec 5) : Vector (BitVec 32) 128 :=
  match l.find? fun x => x.1 == r with
  | some x => x.2
  | none => t.vreg r

/-- The bound streams among the source registers. -/
def Thread.boundSrcs (t : Thread) (regs : List (BitVec 5)) : List Stream := t.streams.filter fun st => regs.contains st.reg

/-- Read the streams of a list; their faults together. -/
def readStreams (vl : Nat) : List Stream → M (Sources × List (Nat × Word × Cause))
  | [] => pure ([], [])
  | st :: rest => do
    let x ← streamGo st vl 0
    let more ← readStreams vl rest
    return ((st.reg, vtab 128 fun p => x.1.getD p 0) :: more.1, x.2 ++ more.2)

/-- A resumed member whose `vstart` is at or above its count of elements or rows completes with no further access (R243); a handler's own
instruction is no resumed one (log 10). The count of a matrix member is that of the rows, steps or vector elements that it is performed by (log 10). -/
def Thread.past (t : Thread) (n : Nat) : Bool := t.vstart != 0 && !t.inh && decide (n ≤ t.vstart.toNat)

/-- Read the bound sources of an instruction, each once; a fault is taken before any element is performed (R355), and a shape of
several rows refuses a bound source (R422). -/
def sources (c : VCfg) (regs : List (BitVec 5)) : M Sources := do
  let s ← get
  let bound := s.t.boundSrcs regs
  if bound.isEmpty || s.t.past c.n then return []
  else if c.vlr != 1 then vtypeIllegal
  else
    let r ← readStreams c.vl bound
    match lowestFault r.2 with
    | some f => raiseElem f r.2 0
    | none => return r.1

/-- The position of a stream after a read of `vl` elements (R195). -/
def Stream.advance (st : Stream) (vl : Nat) : Stream :=
  let p := min st.count.toNat (st.pos + vl)
  { st with pos := p, ahead := st.ahead.filter fun v => decide (p ≤ v.1) }

/-- The bound sources of an instruction advance as it retires (R355). -/
def advance (c : VCfg) (regs : List (BitVec 5)) : M Unit :=
  modT fun t => { t with streams := t.streams.map fun st => if regs.contains st.reg then st.advance c.vl else st }

/-! ## Second operands (R352) -/

/-- y(p): bits of the operand at a position. -/
def YSel.at_ (y : YSel) (l : Sources) (t : Thread) (p : Nat) : Nat :=
  match y with
  | .vec c => (vget (srcOf l t c.reg) p 0).toNat
  | .scalar c => (t.reg c).toNat
  | .imm i => (i.signExtend 32).toNat
def FSel.at_ (y : FSel) (l : Sources) (t : Thread) (p : Nat) : Nat :=
  match y with
  | .vec c => (vget (srcOf l t c.reg) p 0).toNat
  | .scalar c => (t.reg c).toNat
def CSel.at_ (y : CSel) (l : Sources) (t : Thread) (p : Nat) : Nat :=
  match y with
  | .vec c => (vget (srcOf l t c.reg) p 0).toNat
  | .scalar c => (t.reg c).toNat
  | .imm i => (i.signExtend 32).toNat
def BSel.at_ (y : BSel) (t : Thread) : Nat :=
  match y with
  | .scalar c => (t.reg c).toNat
  | .imm i => (i.signExtend 32).toNat

/-- An amount, index or count, taken as 128 when greater (Table 15.8). -/
def NSel.amount (n : NSel) (t : Thread) : Nat :=
  match n with
  | .scalar c => Nat.min (t.reg c).toNat 128
  | .imm i => Nat.min i.toNat 128

/-- The low w bits of the element at a position of a source. -/
def elemAt (w : Nat) (v : Vector (BitVec 32) 128) (p : Nat) : Nat := (vget v p 0).toNat % 2 ^ w

/-! ## Destinations -/

/-- Element writes reach up to a position: the high-water element count (R197). -/
def Thread.reach (t : Thread) (n : Nat) : Thread := { t with vhigh := Nat.max t.vhigh (Nat.min 128 (16 * ceilDiv n 16)) }

/-- The destination after an element-wise write from element `from_` on (R351): f gives a code for each active position. -/
def VCfg.put (c : VCfg) (from_ : Nat) (mask : BitVec 128) (z : Bool) (old : Vector (BitVec 32) 128) (f : Nat → Nat) :
    Vector (BitVec 32) 128 :=
  vtab 128 fun p =>
    match c.elem? p with
    | none => vget old p 0
    | some e => if e < from_ then vget old p 0 else if mask.getLsbD p then canon c.ty (f p) else if z then 0 else vget old p 0

/-- The flags of the active elements from `from_` on. -/
def VCfg.flags (c : VCfg) (from_ : Nat) (mask : BitVec 128) (f : Nat → Word) : Word :=
  (List.range 128).foldl (fun w p => match c.elem? p with
    | some e => if from_ ≤ e && mask.getLsbD p then w ||| f p else w
    | none => w) 0

/-- Write a vector destination element by element from `from_` on, and accrue the flags. -/
def writeElems (c : VCfg) (a : VDst) (k : QReg) (from_ : Nat) (f : Nat → Nat × Word) : M Unit :=
  modT fun t =>
    (((t.setV a.reg (c.put from_ (t.qreg k) a.zeroing (t.vreg a.reg) fun p => (f p).1)).reach c.extent).accrue
      (c.flags from_ (t.qreg k) fun p => (f p).2))

/-- The frame of a vector instruction: `vtype` is legal before any operand is looked at (step 10 of Table 13.4), the destination may be written,
the unit is held, the type is accepted, the sources are read, the work is done, and the streams advance. -/
def vectorOp (cls : ETy → Bool) (flat : Bool) (dst : Option (BitVec 5)) (regs : List (BitVec 5)) (work : VCfg → Sources → M Unit) : M Unit := do
  vtyped
  match dst with
  | some r => writableV r
  | none => pure ()
  needUnit
  let c ← vconfig cls flat
  let l ← sources c regs
  work c l
  advance c regs

/-- The frame of an instruction that acts on every element at once (R353): with `vstart` not 0 and beyond the elements it has no
effect. -/
def wholeOp (cls : ETy → Bool) (dst : Option (BitVec 5)) (regs : List (BitVec 5)) (work : VCfg → Sources → M Unit) : M Unit :=
  vectorOp cls true dst regs fun c l => do
    let s ← get
    if s.t.vstart != 0 && decide (c.n ≤ s.t.vstart.toNat) then pure () else work c l

/-- An element-wise instruction from `vstart` on. -/
def elementwise (cls : ETy → Bool) (a : VDst) (k : QReg) (regs : List (BitVec 5)) (f : Thread → VCfg → Sources → Nat → Nat × Word) : M Unit :=
  vectorOp cls false (some a.reg) regs fun c l => do
    let s ← get
    writeElems c a k s.t.vstart.toNat (f s.t c l)

end Sys2Proof.Machine
end

