-- ==== Sys2Proof/Machine/VecConfig.lean ====
section
/-! DEFINITION. Vector configuration, majors 0x40 and 0x41 (R357 to R360), and acquiring a vector unit (R132). -/

namespace Sys2Proof.Machine

/-- A slot holds a unit of its core from now on. -/
def State.holdUnit (s : State) (tid unit : Nat) : State :=
  let k := s.getCore (tid / 4)
  (s.setCore (tid / 4) (k.setVunit unit { k.vunit unit with holder := some tid, acquired := s.now })).setThread tid
    { s.thread tid with unit := some unit }

/-- Give a slot a unit of its core that it may take, the first of them; none when there is no such unit. -/
def State.grantUnit (s : State) (tid : Nat) : Option State :=
  if s.mayTake tid 0 then some (s.holdUnit tid 0) else if s.mayTake tid 1 then some (s.holdUnit tid 1) else none

/-- Acquire a unit when none is held; a resumed thread with live vector state waits for its restore (R132 to R134). -/
def acquireUnit : M Unit := do
  let s ← get
  if s.t.unit.isSome then (if s.t.save.isSome then throw (.stall .vectorRestore) else pure ())
  else if s.t.vlive then throw (.stall (.vectorUnit s.now))
  else
    match s.grantUnit s.cur with
    | some s' => set s'
    | none => throw (.stall (.vectorUnit s.now))

/-- The first configuration since task start or `vrel` clears v0 to v31 and q1 to q7 (R357). -/
def Thread.configured (t : Thread) : Thread :=
  if t.vlive then t
  else { t with vlive := true, vhigh := 0, v := Vector.replicate 32 (Vector.replicate 128 0), q := Vector.replicate 8 0 }

/-- Set a configuration. -/
def Thread.setCfg (t : Thread) (vl vlr : Nat) (ty : TypeCode) (cut : Bool) : Thread :=
  let t := { t with vl := word vl, vlr := word vlr, vtype := 0x40 ||| ty.setWidth 64, cut := cut }
  match vecType ty with
  | some e => t.reach (VCfg.extent { ty := e, vl := vl, vlr := vlr })
  | none => t

/-- The type must be legal before anything is done (R357). -/
def legalType (ty : TypeCode) : M Unit := if (vecType ty).isNone then illegal else pure ()

/-- `setvl` (R357). -/
def execSetvl (a b : SReg) (ty : TypeCode) (s : State) : Res :=
  .next (finish (do
    legalType ty
    acquireUnit
    let s ← get
    let req := (s.t.reg b).toNat
    let g := Nat.min req s.caps.1
    modT fun t => ((t.configured).setCfg g 1 ty (decide (g < req))).setReg a (word g)) s)

/-- `setvl2` (R358). -/
def execSetvl2 (a b c : SReg) (ty : TypeCode) (s : State) : Res :=
  .next (finish (do
    legalType ty
    acquireUnit
    let s ← get
    let cap := s.caps.1
    let rows := (s.t.reg b).toNat
    let cols := Nat.min (s.t.reg c).toNat cap
    let vl := if cols = 0 ∨ rows = 0 then 0 else cols
    let vlr := if cols = 0 ∨ rows = 0 then 1 else Nat.min rows (Nat.max 1 (cap / (16 * ceilDiv cols 16)))
    modT fun t => ((t.configured).setCfg vl vlr ty (decide (cols < (s.t.reg c).toNat) || decide (vl ≠ 0 ∧ vlr < rows))).setReg a
      (word (vlr * 2 ^ 32 + vl))) s)

/-- The advance of a `stripm` pointer (Table 15.3). -/
def stripAdvance (size : BitVec 3) (old w : Nat) : Nat :=
  match size.toNat with
  | 0 => 0
  | 5 => old * w / 8
  | k => old * 2 ^ (k - 1)

/-- `stripm` (R359): every source is read first; P1 to P4, B and A are written in that order. It reads `vl` and `vlr`, so that values out
of range raise VTYPE_ILLEGAL (R273). -/
def execStripm (a b c d : SReg) (sizes : BitVec 12) (ty : TypeCode) (p3 p4 : SReg) (s : State) : Res :=
  .next (finish (do
    legalType ty
    let sz := fun (j : Nat) => sizes.extractLsb' (3 * j) 3
    let s ← get
    if (List.range 4).any fun j => decide (5 < (sz j).toNat) then illegal
    else if !(VCfg.ok { ty := .i8, vl := s.t.vl.toNat, vlr := s.t.vlr.toNat }) then vtypeIllegal
    else
      acquireUnit
      let s ← get
      let old := s.t.vl.toNat * s.t.vlr.toNat
      let w := ((vecType ty).getD .i8).width
      let rem := (s.t.reg b).toNat - old
      let g := Nat.min rem s.caps.1
      let ptr := fun (j : Nat) (p : SReg) (t : Thread) => if sz j = 0 then t else t.setReg p (s.t.reg p + word (stripAdvance (sz j) old w))
      modT fun t =>
        ((((((t.configured).setCfg g 1 ty (decide (g < rem)) |> ptr 0 c) |> ptr 1 d) |> ptr 2 p3) |> ptr 3 p4).setReg b (word rem)).setReg a
          (word g)) s)

/-- The vector state that `vrel` leaves (R360), in a handler too: the registers' contents are discarded, and reading them later gives free values. -/
def Thread.released (t : Thread) (free : Nat) : Thread :=
  { t with save := none, streams := [], vl := 0, vlr := 1, vtype := 0, vstart := 0, unit := none, vlive := false, vhigh := 0,
           v := vtab 32 fun r => vtab 128 fun p => Config.discardedElem free r p, q := vtab 8 fun r => Config.discardedMask free r }

/-- `vrel` (R360). -/
def execVrel (s : State) : Res :=
  let s1 := s.dropUnit s.cur
  .next { s1 with t := s1.t.released s1.free, free := s1.free + 1 }.retire

end Sys2Proof.Machine
end

