-- ==== Sys2Proof/Machine/VecMem.lean ====
section
/-! DEFINITION. Vector loads and stores, major 0x42 (R361 to R364), and gathers through the GXUs (R21 to R23, R193). -/

namespace Sys2Proof.Machine

/-! ## Element addresses (Table 15.4) -/

/-- The byte address and the bit offset within it of a logical element. -/
abbrev AddrOf := Nat → Word × Nat

def addrUnit (a : Word) (bit w : Nat) : AddrOf := fun e => (a + word ((bit + e * w) / 8), (bit + e * w) % 8)
def addrStride (a stride : Word) : AddrOf := fun e => (a + word e * stride, 0)
def addrIndex (c : VCfg) (a : Word) (idx : Vector (BitVec 32) 128) (scale : Nat) : AddrOf :=
  fun e => (a + word ((vget idx (c.pos e) 0).toNat * scale), 0)

/-- Bytes that hold bits of an element. -/
def elemBytes (bit w : Nat) : Nat := (bit + w + 7) / 8

/-- The active logical elements from `vstart` on. -/
def VCfg.active (c : VCfg) (from_ : Nat) (mask : BitVec 128) : List Nat :=
  (List.range c.n).filter fun e => decide (from_ ≤ e) && mask.getLsbD (c.pos e)

/-! ## Loads -/

/-- What each active element reads: its value, or its fault; elements that a skip names are delivered as `xscratch` (R241, R363). -/
def loadElems (w : Nat) (ad : AddrOf) : List Nat → M (List (Nat × BitVec 32) × List (Nat × Word × Cause))
  | [] => pure ([], [])
  | e :: rest => do
    let s ← get
    let r ← if s.t.skips e then pure (.ok (s.t.xscratch.toNat % 2 ^ w, [])) else tryLoad (ad e).1 (elemBytes (ad e).2 w)
    let more ← loadElems w ad rest
    match r with
    | .ok (x, _) =>
      let bit := if s.t.skips e then 0 else (ad e).2
      return ((e, BitVec.ofNat 32 (fld x bit w)) :: more.1, more.2)
    | .error (va, c) => return (more.1, (e, va, c) :: more.2)

/-- The value loaded for an element. -/
def valueOf (vals : List (Nat × BitVec 32)) (e : Nat) : Nat := match alookup e vals with
  | some x => x.toNat
  | none => 0

/-- The destination after a load (R361): padding positions take code 0, whatever the mask and Z. -/
def loadedV (c : VCfg) (a : VDst) (k : QReg) (from_ : Nat) (t : Thread) (vals : List (Nat × BitVec 32)) : Vector (BitVec 32) 128 :=
  let body := c.put from_ (t.qreg k) a.zeroing (t.vreg a.reg) fun p => valueOf vals ((c.elem? p).getD 128)
  vtab 128 fun p => if c.padding p then 0 else vget body p 0

/-- The destination at a trap: exactly the elements below the faulting one are written (R238, R239; log 73); everything else keeps its
contents. -/
def trappedV (c : VCfg) (a : VDst) (k : QReg) (from_ e0 : Nat) (t : Thread) (vals : List (Nat × BitVec 32)) :
    Vector (BitVec 32) 128 :=
  let body := c.put from_ (t.qreg k) a.zeroing (t.vreg a.reg) fun p => valueOf vals ((c.elem? p).getD 128)
  vtab 128 fun p => match c.elem? p with
    | some e => if e < e0 then vget body p 0 else vget (t.vreg a.reg) p 0
    | none => vget (t.vreg a.reg) p 0

/-- Complete a load from what its elements read. -/
def finishLoad (c : VCfg) (a : VDst) (k : QReg) (vals : List (Nat × BitVec 32)) (faults : List (Nat × Word × Cause)) : M Unit := do
  let s ← get
  let from_ := s.t.vstart.toNat
  match lowestFault faults with
  | none => modT fun t => (t.setV a.reg (loadedV c a k from_ t vals)).reach c.extent
  | some f => do
    modT fun t => (t.setV a.reg (trappedV c a k from_ f.1 t vals)).reach c.extent
    raiseElem f faults f.1

/-- A vector load by element addresses. -/
def vload (c : VCfg) (a : VDst) (k : QReg) (ad : AddrOf) : M Unit := do
  let s ← get
  let r ← loadElems c.w ad (c.active s.t.vstart.toNat (s.t.qreg k))
  finishLoad c a k r.1 r.2

/-- `vld` (R361): a bit offset needs a type below 8 bits. -/
def execVld (a : VDst) (b : SReg) (k : QReg) (bit : BitVec 3) (imm : BitVec 16) (s : State) : Res :=
  .next (finish (do
    match s.t.vty with
    | some ty => if bit ≠ 0 ∧ 8 ≤ ty.width then illegal else pure ()
    | none => pure ()
    vectorOp clsAll false (some a.reg) [] fun c _ => vload c a k (addrUnit (s.t.reg b + imm.signExtend 64) bit.toNat c.w)) s)

/-- `vlds`: the stride is read signed (Table 15.4). -/
def execVlds (a : VDst) (b c : SReg) (k : QReg) (imm : BitVec 16) (s : State) : Res :=
  .next (finish (vectorOp clsNoSub false (some a.reg) [] fun cf _ =>
    vload cf a k (addrStride (s.t.reg b + imm.signExtend 64) (s.t.reg c))) s)

/-! ## Gathers (R193) -/

/-- The stack that owns a physical address (R18). -/
def stackOf (pa : Nat) : Nat := pa / 4096 % 12

/-- The originating GXU of a core (Table 7.7). -/
def originOf (core : Nat) : Nat :=
  let d := dieOf core
  let near := 2 * (d % 3) + coreX core / 4
  let far := 6 + near
  match d / 3 with
  | 0 => near
  | 1 => if coreY core ≤ 3 then near else far
  | _ => far

/-- What a `vldx` finds of an element at the core: its value, its physical address on a GX page, or its fault. -/
inductive Gathered where
  | value (x : BitVec 32)
  | gx (pa : Nat)
  | fault (va : Word) (c : Cause)
  deriving DecidableEq, Repr

/-- Translate an element of a `vldx`, and read it here unless it lies on a GX page (R193); one that crosses a 4 KiB block is read here (log 15). -/
def gatherElem (w : Nat) (va : Word) : M Gathered := do
  let n := w / 8
  match ← (places va n accLoad : StateM State _) with
  | .error (k, c) => return .fault (va + word k) c
  | .ok ps =>
    match ps.head? with
    | some (.hbm pa .gx _) => if pa % 4096 + n ≤ 4096 then return .gx pa
    | _ => pure ()
    let bs ← readPlaces ps
    match bs.findIdx? (·.2) with
    | some k => return .fault (va + word k) .memUe
    | none => return .value (BitVec.ofNat 32 (leNat (bs.map (·.1))))

/-- What a `vldx` finds of each of its active elements; those that a skip names are delivered as `xscratch` (R241). -/
def gatherElems (w : Nat) (ad : AddrOf) : List Nat → M (List (Nat × Gathered))
  | [] => pure []
  | e :: rest => do
    let s ← get
    let r ← if s.t.skips e then pure (.value (BitVec.ofNat 32 (s.t.xscratch.toNat % 2 ^ w))) else gatherElem w (ad e).1
    let more ← gatherElems w ad rest
    return (e, r) :: more

def Gathered.value? : Gathered → Option (BitVec 32)
  | .value x => some x
  | _ => none
def Gathered.gx? : Gathered → Option Nat
  | .gx pa => some pa
  | _ => none
def Gathered.fault? : Gathered → Option (Word × Cause)
  | .fault va c => some (va, c)
  | _ => none

/-- Groups of 16 positions that hold logical elements. -/
def VCfg.groups (c : VCfg) : List Nat := (List.range 8).filter fun g => (List.range 16).any fun i => (c.elem? (16 * g + i)).isSome

/-- A `vldx` (R193, R364): of the elements below the lowest fault, those on GX pages go as one index vector to the originating GXU and the others
are read here; the member then waits until the last group has landed, and takes the fault. -/
def vldx (c : VCfg) (a : VDst) (k : QReg) (ad : AddrOf) : M Unit := do
  let s ← get
  let from_ := s.t.vstart.toNat
  let mask := s.t.qreg k
  let found ← gatherElems c.w ad (c.active from_ mask)
  let vals := found.filterMap fun x => x.2.value?.map fun v => (x.1, v)
  let faults := found.filterMap fun x => x.2.fault?.map fun f => (x.1, f.1, f.2)
  let lim : Nat := match lowestFault faults with
    | some f => f.1
    | none => 128
  let below := found.filter fun x => decide (x.1 < lim)
  let gx := below.filterMap fun x => x.2.gx?.map fun pa => (c.pos x.1, pa)
  if gx.isEmpty then finishLoad c a k vals faults
  else
    let s ← get
    let g : Gather :=
      { req := s.nextGather, tid := s.cur, dst := a.reg, size := c.w / 8, origin := originOf s.core
        elems := below.map fun x => (x.1, c.pos x.1, (ad x.1).1)
        zero := if a.zeroing then (List.range 128).filter fun p => match c.elem? p with
          | some e => decide (from_ ≤ e) && !mask.getLsbD p
          | none => false else []
        sent := false
        idx := gx
        got := below.filterMap fun x => x.2.value?.map fun v => (c.pos x.1, v, false)
        refused := faults
        returned := [] }
    set { s with gathers := s.gathers ++ [g], nextGather := s.nextGather + 1 }
    throw (.stall (.gather g.req))

/-- `vldx` (R361, R364). -/
def execVldx (a : VDst) (b : SReg) (c : VSrc) (k : QReg) (scale : BitVec 3) (imm : BitVec 16) (s : State) : Res :=
  .next (finish (do
    vtyped
    if 3 < scale.toNat then illegal
    vectorOp clsNoSub false (some a.reg) [c.reg] fun cf l =>
      vldx cf a k (addrIndex cf (s.t.reg b + imm.signExtend 64) (srcOf l s.t c.reg) (2 ^ scale.toNat))) s)

/-! ## The GXUs (R21 to R23) -/

def State.gather? (s : State) (req : Nat) : Option Gather := s.gathers.find? fun g => g.req == req
def State.modGather (s : State) (req : Nat) (f : Gather → Gather) : State :=
  { s with gathers := s.gathers.map fun g => if g.req == req then f g else g }

/-- The bursts that hold an element. -/
def burstsOf (size pa : Nat) : List Nat := [pa / 32, (pa + size - 1) / 32].eraseDups

/-- A GXU returns one element as HBM holds it, with the poison of its burst (R23, R191). -/
def State.gxRead (s : State) (size : Nat) (x : Nat × Nat) : Nat × BitVec 32 × Bool :=
  let bytes := (List.range size).map fun i => s.hbmByte (x.2 + i)
  let bad := (burstsOf size x.2).any fun b => (List.range 4).any fun i => s.hbmBad (32 * b + 8 * i)
  (x.1, BitVec.ofNat 32 (leNat bytes), bad)

/-- Serve the indices of a request whose blocks one stack owns; indices in one burst share its read (R22). -/
def State.serveStack (s : State) (g : Gather) (stack : Nat) : State :=
  let mine := g.idx.filter fun x => stackOf x.2 == stack
  let s := (mine.flatMap fun x => burstsOf g.size x.2).eraseDups.foldl State.readBurst s
  s.modGather g.req fun g => { g with idx := g.idx.filter fun x => stackOf x.2 != stack, got := g.got ++ mine.map (s.gxRead g.size) }

/-- GXU_REQUEST: the originating GXU receives the index vector of a `vldx` and serves the indices of its own stack (R21, R22). -/
def execGxuRequest (tid : Nat) (dst : BitVec 5) (size : Nat) (idx : List (Nat × Nat)) (s : State) : Res :=
  .next (match s.gathers.find? fun g => g.tid == tid && !g.sent && g.dst == dst && g.size == size && g.idx == idx with
    | some g => (s.modGather g.req fun g => { g with sent := true }).serveStack g g.origin
    | none => s)

/-- GXU_FOREIGN_REQUEST: the GXU of another stack serves its indices and returns them to the originating one (R21, R23). -/
def execGxuForeignRequest (req stack : Nat) (s : State) : Res :=
  .next (match s.gather? req with
    | some g => if g.sent then s.serveStack g stack else s
    | none => s)

/-- The value that arrived for a position. -/
def Gather.value (g : Gather) (p : Nat) : Option (BitVec 32 × Bool) := alookup p g.got

/-- All elements of a group are present (R21). -/
def Gather.complete (g : Gather) (grp : Nat) : Bool :=
  g.elems.all fun e => e.2.1 / 16 != grp || (g.got.any fun x => x.1 == e.2.1)

/-- The groups that hold an active element. -/
def Gather.groups (g : Gather) : List Nat := (List.range 8).filter fun grp => g.elems.any fun e => e.2.1 / 16 == grp

/-- The faults of a gather: those found at the core, and elements that arrived with poison. -/
def Gather.faults (g : Gather) : List (Nat × Word × Cause) :=
  g.refused ++ g.elems.filterMap fun e => match g.value e.2.1 with
    | some (_, true) => some (e.1, e.2.2, Cause.memUe)
    | _ => none

/-- Land one group of a gather in its destination (R193). -/
def Thread.land (t : Thread) (ty : ETy) (g : Gather) (grp : Nat) : Thread :=
  let old := t.vreg g.dst
  t.setV g.dst (vtab 128 fun p =>
    if p / 16 == grp then
      if g.zero.contains p then 0
      else match g.elems.find? fun e => e.2.1 == p with
        | some _ => canon ty ((g.value p).getD (0, false)).1.toNat
        | none => vget old p 0
    else vget old p 0)

/-- The elements below one land, and no others (R238, R239; log 73). -/
def Thread.landBelow (t : Thread) (c : VCfg) (g : Gather) (e0 : Nat) : Thread :=
  let old := t.vreg g.dst
  let new := ((List.range 8).foldl (fun u grp => u.land c.ty g grp) t).vreg g.dst
  t.setV g.dst (vtab 128 fun p => if (c.elem? p).any fun e => decide (e < e0) then vget new p 0 else vget old p 0)

/-- The thread's `vldx` ends: its last group has landed, or it consumed poison, and the elements below the lowest such one have landed
(R238, R239, R363). -/
def Gather.done (g : Gather) (c : VCfg) (a : VSrc) : M Unit := do
  modify fun s => { s with gathers := s.gathers.filter fun x => x.req != g.req }
  match lowestFault g.faults with
  | none =>
    modT fun t => ((List.range 8).foldl (fun t grp => t.land c.ty g grp) t).reach c.extent
    advance c [a.reg]
  | some f => do
    modT fun t => (t.landBelow c g f.1).reach c.extent
    raiseElem f g.faults f.1

/-- The index register of the `vldx` that a thread has in issue. -/
def State.issuedIndex (s : State) : VSrc :=
  match decode s.act s.t.ir with
  | .instr (.vldx _ _ c _ _ _) => c
  | _ => { reg := 0, chain := false }

/-- GXU_GROUP_RETURN: a complete group reaches the core (R21) and lands while nothing that arrived is poisoned (R193); with the last
one the `vldx` ends. -/
def execGxuGroupReturn (req group : Nat) (s : State) : Res :=
  .next (match s.gather? req with
    | none => s
    | some g =>
      if g.sent && g.complete group && g.groups.contains group && !g.returned.contains group then
        let g := { g with returned := group :: g.returned }
        let s := { (s.modGather req fun _ => g).switchTo g.tid with turn := .arbiter }
        match s.t.vty with
        | none => s
        | some ty =>
          let s := if g.idx.isEmpty && g.faults.isEmpty then s.modT fun t => t.land ty g group else s
          if g.groups.all fun x => g.returned.contains x then
            finish (g.done { ty := ty, vl := s.t.vl.toNat, vlr := s.t.vlr.toNat } s.issuedIndex) (s.modT fun t => { t with stall := .none })
          else s
      else s)

/-! ## Stores -/

/-- The bytes that an element covers: place, the bits that it changes, and their values. -/
def elemCells (w bit x : Nat) (ps : List Place) : List (Place × Nat × Nat) :=
  (List.range ps.length).map fun i =>
    let m := fld ((2 ^ w - 1) * 2 ^ bit) (8 * i) 8
    (ps.getD i (.spad 0), m, fld (x % 2 ^ w * 2 ^ bit) (8 * i) 8)

/-- Cells in element order, two in a row for one byte joined. -/
def joinCells : List (Place × Nat × Nat) → List (Place × Nat × Nat)
  | [] => []
  | x :: rest =>
    match joinCells rest with
    | y :: more => if x.1 = y.1 ∧ (x.2.1 &&& y.2.1) = 0 then (x.1, x.2.1 + y.2.1, x.2.2 + y.2.2) :: more else x :: y :: more
    | [] => [x]

/-- A byte with the bits of a mask replaced. -/
def mergeByte (old mask val : Nat) : Nat := old - (old &&& mask) + val

/-- The byte that a cell leaves: a byte of this package that is touched in part is merged where it is serialised (R362). -/
def mergeCell (s : State) (x : Place × Nat × Nat) : Byte :=
  if x.2.1 = 255 then BitVec.ofNat 8 x.2.2
  else
    let old := match x.1 with
      | .hbm pa _ _ => (memRead s.mem pa).toNat
      | .spad key => (memRead s.mem key).toNat
      | _ => 0
    BitVec.ofNat 8 (mergeByte old x.2.1 x.2.2)

/-- Merge bits into the byte at an offset of an aligned word of a lender by a compare-and-swap (Table 2.1), tried again while the word is another than the last
try found (R205, R362); an error ends it, as it ends a write (R40). The first number bounds the tries that have been answered. -/
def mergeFar (part peer word_ shift mask val : Nat) : Nat → Nat → M Unit
  | 0, _ => pure ()
  | n + 1, old => do
    let new := setFld old (8 * shift) 8 (mergeByte (fld old (8 * shift) 8) mask val)
    let r ← leaseXfer part { dest := peer, offset := word_, req := .atomic 9 4 (word new) (word old) }
    let now := leNat ((List.range 4).map fun i => r.2.getD i 0)
    if r.1 then modify fun s => { s with writebackErrors := s.writebackErrors + 1 }
    else if now = old then pure ()
    else mergeFar part peer word_ shift mask val n now

/-- Merge the cells of leased memory at their lenders, each by one indivisible read-modify-write (R362), and leave no older copy in L1. -/
def mergeFars (part : Nat) : List (Place × Nat × Nat) → M Unit
  | [] => pure ()
  | (.lease pa peer off _ _, mask, val) :: rest => do
    let s ← get
    mergeFar part peer (off / 4 * 4) (off % 4) mask val (s.asks.length + 1) 0
    modify fun s => (s.noteWrite pa 1).dropL1 s.core fun l => l.num == pa / 64
    mergeFars part rest
  | _ :: rest => mergeFars part rest

/-- The leased line of a cell. -/
def cellLine (x : Place × Nat × Nat) : Option Nat := match x.1 with
  | .lease pa _ _ _ _ => some (pa / 64)
  | _ => none

/-- Check each element of a store before any is performed (R363): the cells of those that pass, and the faults. -/
def checkStores (w : Nat) (ad : AddrOf) (val : Nat → Nat) : List Nat → M (List (Nat × List (Place × Nat × Nat)) × List (Nat × Word × Cause))
  | [] => pure ([], [])
  | e :: rest => do
    let r ← (places (ad e).1 (elemBytes (ad e).2 w) accStore : StateM State _)
    let more ← checkStores w ad val rest
    match r with
    | .ok ps => return ((e, elemCells w (ad e).2 (val e) ps) :: more.1, more.2)
    | .error (k, c) => return (more.1, (e, (ad e).1 + word k, c) :: more.2)

/-- Runs of cells that cover their bytes whole, and each cell that covers its byte in part alone, so that it clears no poison (R246). -/
def cellRuns : List (Place × Nat × Nat) → List Byte → List (Place × List Byte)
  | x :: xs, b :: bs =>
    match xs, cellRuns xs bs with
    | y :: _, (q, run) :: more =>
      if x.2.1 = 255 ∧ y.2.1 = 255 ∧ q = x.1.plus 1 then (x.1, b :: run) :: more else (x.1, [b]) :: (q, run) :: more
    | _, rest => (x.1, [b]) :: rest
  | _, _ => []

/-- A cell of a leased byte that is touched in part. -/
def farCell (x : Place × Nat × Nat) : Bool := x.2.1 != 255 && x.1.leased

/-- Write cells in their order; leased bytes that are touched in part are merged at their lenders, to which what L2 holds of their lines has gone. -/
def writeCells (cells : List (Place × Nat × Nat)) : M Unit := do
  let far := cells.filter farCell
  settleLease (far.filterMap cellLine)
  mergeFars (← get).t.part far
  let near := cells.filter fun x => !farCell x
  let s ← get
  modT fun t => { t with stored := t.stored || !cells.isEmpty }
  writeRuns (cellRuns near (near.map (mergeCell s)))

/-- Elements of a store that reaches leased memory, each performed before the next (R229): while one waits for its answer, those below it stay
performed, and nothing of it is. -/
def storeEach : List (Nat × List (Place × Nat × Nat)) → M Unit
  | [] => pure ()
  | (e, cells) :: rest => do
    let s ← get
    if e < s.t.vdone then storeEach rest
    else
      modT fun t => { t with vdone := e }
      let before ← get
      tryCatch (writeCells (joinCells cells)) fun x => match x with
        | .lease part req => do
          set before
          throw (.leaseKept part req)
        | x => throw x
      storeEach rest

/-- A vector store: exactly the active elements below the lowest fault, in ascending order (R204, R229, R239); a skip leaves its elements
unwritten (R241). -/
def vstore (c : VCfg) (k : QReg) (ad : AddrOf) (data : Vector (BitVec 32) 128) : M Unit := do
  let s ← get
  let es := (c.active s.t.vstart.toNat (s.t.qreg k)).filter fun e => !s.t.skips e
  let r ← checkStores c.w ad (fun e => elemAt c.w data (c.pos e)) es
  let f := lowestFault r.2
  let lim : Nat := match f with
    | some x => x.1
    | none => c.n
  let todo := r.1.filter fun x => decide (x.1 < lim)
  if todo.any fun x => x.2.any fun y => y.1.leased then storeEach todo else writeCells (joinCells (todo.flatMap (·.2)))
  match f with
  | some x => raiseElem x r.2 x.1
  | none => pure ()

/-- `vst` (R361). -/
def execVst (b : SReg) (c : VSrc) (k : QReg) (bit : BitVec 3) (imm : BitVec 16) (s : State) : Res :=
  .next (finish (do
    match s.t.vty with
    | some ty => if bit ≠ 0 ∧ 8 ≤ ty.width then illegal else pure ()
    | none => pure ()
    vectorOp clsAll false none [c.reg] fun cf l =>
      vstore cf k (addrUnit (s.t.reg b + imm.signExtend 64) bit.toNat cf.w) (srcOf l s.t c.reg)) s)

/-- `vsts` (R361). -/
def execVsts (b : SReg) (c : VSrc) (d : SReg) (k : QReg) (imm : BitVec 16) (s : State) : Res :=
  .next (finish (vectorOp clsNoSub false none [c.reg] fun cf l =>
    vstore cf k (addrStride (s.t.reg b + imm.signExtend 64) (s.t.reg d)) (srcOf l s.t c.reg)) s)

/-- `vstx` (R361, R364). -/
def execVstx (b : SReg) (c d : VSrc) (k : QReg) (scale : BitVec 3) (imm : BitVec 16) (s : State) : Res :=
  .next (finish (do
    vtyped
    if 3 < scale.toNat then illegal
    vectorOp clsNoSub false none [c.reg, d.reg] fun cf l =>
      vstore cf k (addrIndex cf (s.t.reg b + imm.signExtend 64) (srcOf l s.t d.reg) (2 ^ scale.toNat)) (srcOf l s.t c.reg)) s)

end Sys2Proof.Machine
end

