-- ==== Sys2Proof/Machine/VecInt.lean ====
section
/-! DEFINITION. Vector integer arithmetic, major 0x43 (R365), compare and select, major 0x44 (R366, R367). -/

namespace Sys2Proof.Machine

/-- The operations of Table 15.5. -/
inductive VOp where
  | add | sub | mul | mulh | and | or | xor | sll | srl | sra | min | max | minu | maxu | sadd | ssub
  deriving DecidableEq, Repr

/-- r(x, y) on codes of an integer format, with its flags (Table 15.5). -/
def VOp.apply (op : VOp) (i : IFmt) (x y : Nat) : Nat × Word :=
  let w := i.w
  let sx := signedOf w x
  let sy := signedOf w y
  let sat := fun (v : Int) => let r := i.clamp v; (wrapInt w r.1, flagIf r.2 flagSAT)
  match op with
  | .add => ((x + y) % 2 ^ w, 0)
  | .sub => ((x + 2 ^ w - y) % 2 ^ w, 0)
  | .mul => (x * y % 2 ^ w, 0)
  | .mulh => (wrapInt w (i.decode x * i.decode y / (2 ^ w : Nat)), 0)
  | .and => (x &&& y, 0)
  | .or => (x ||| y, 0)
  | .xor => (x ^^^ y, 0)
  | .sll => (x * 2 ^ (y % w) % 2 ^ w, 0)
  | .srl => (x / 2 ^ (y % w), 0)
  | .sra => (wrapInt w (sx / (2 ^ (y % w) : Nat)), 0)
  | .min => (if sx ≤ sy then x else y, 0)
  | .max => (if sx < sy then y else x, 0)
  | .minu => (Nat.min x y, 0)
  | .maxu => (Nat.max x y, 0)
  | .sadd => sat (i.decode x + i.decode y)
  | .ssub => sat (i.decode x - i.decode y)

/-- The integer format of a type that is one. -/
def ETy.int (t : ETy) : IFmt := (t.int?).getD ⟨32, true⟩

/-- An integer instruction: f(p) := r(vB[p], y(p)) (R365). -/
def vint (op : VOp) (a : VDst) (b : VSrc) (y : YSel) (k : QReg) (s : State) : Res :=
  .next (finish (elementwise clsInt a k (b.reg :: YSel.regs y) fun t c l p =>
    op.apply (ETy.int c.ty) (elemAt c.w (srcOf l t b.reg) p) (YSel.at_ y l t p % 2 ^ c.w)) s)

/-- `vadd`: sum (R365). -/
def execVadd (a : VDst) (b : VSrc) (y : YSel) (k : QReg) (s : State) : Res := vint .add a b y k s

/-- `vsub`: difference (R365). -/
def execVsub (a : VDst) (b : VSrc) (y : YSel) (k : QReg) (s : State) : Res := vint .sub a b y k s

/-- `vmul`: low product (R365). -/
def execVmul (a : VDst) (b : VSrc) (y : YSel) (k : QReg) (s : State) : Res := vint .mul a b y k s

/-- `vmulh`: high product, signed by type (R365). -/
def execVmulh (a : VDst) (b : VSrc) (y : YSel) (k : QReg) (s : State) : Res := vint .mulh a b y k s

/-- `vand`: bitwise and (R365). -/
def execVand (a : VDst) (b : VSrc) (y : YSel) (k : QReg) (s : State) : Res := vint .and a b y k s

/-- `vor`: bitwise or (R365). -/
def execVor (a : VDst) (b : VSrc) (y : YSel) (k : QReg) (s : State) : Res := vint .or a b y k s

/-- `vxor`: bitwise exclusive or (R365). -/
def execVxor (a : VDst) (b : VSrc) (y : YSel) (k : QReg) (s : State) : Res := vint .xor a b y k s

/-- `vsll`: left shift by y mod w (R365). -/
def execVsll (a : VDst) (b : VSrc) (y : YSel) (k : QReg) (s : State) : Res := vint .sll a b y k s

/-- `vsrl`: logical right shift (R365). -/
def execVsrl (a : VDst) (b : VSrc) (y : YSel) (k : QReg) (s : State) : Res := vint .srl a b y k s

/-- `vsra`: arithmetic right shift (R365). -/
def execVsra (a : VDst) (b : VSrc) (y : YSel) (k : QReg) (s : State) : Res := vint .sra a b y k s

/-- `vmin`: signed minimum (R365). -/
def execVmin (a : VDst) (b : VSrc) (y : YSel) (k : QReg) (s : State) : Res := vint .min a b y k s

/-- `vmax`: signed maximum (R365). -/
def execVmax (a : VDst) (b : VSrc) (y : YSel) (k : QReg) (s : State) : Res := vint .max a b y k s

/-- `vminu`: unsigned minimum (R365). -/
def execVminu (a : VDst) (b : VSrc) (y : YSel) (k : QReg) (s : State) : Res := vint .minu a b y k s

/-- `vmaxu`: unsigned maximum (R365). -/
def execVmaxu (a : VDst) (b : VSrc) (y : YSel) (k : QReg) (s : State) : Res := vint .maxu a b y k s

/-- `vsadd`: saturating sum (R365). -/
def execVsadd (a : VDst) (b : VSrc) (y : YSel) (k : QReg) (s : State) : Res := vint .sadd a b y k s

/-- `vssub`: saturating difference (R365). -/
def execVssub (a : VDst) (b : VSrc) (y : YSel) (k : QReg) (s : State) : Res := vint .ssub a b y k s

/-! ## Compare and select -/

/-- The integer predicates of Table 15.6. -/
def ipredicate (p : Nat) (x y : Int) : Bool :=
  match p with
  | 0 => x == y
  | 1 => x != y
  | 2 => decide (x < y)
  | 3 => decide (y ≤ x)
  | 4 => decide (x ≤ y)
  | _ => decide (y < x)

/-- A mask with the bits of the active elements from `vstart` on replaced by a predicate (R366). -/
def comparedMask (c : VCfg) (from_ : Nat) (mask old : BitVec 128) (f : Nat → Bool) : BitVec 128 :=
  BitVec.ofNat 128 ((List.range 128).foldl (fun m p =>
    let bit := match c.elem? p with
      | some e => if from_ ≤ e ∧ mask.getLsbD p = true then f p else old.getLsbD p
      | none => old.getLsbD p
    if bit then m + 2 ^ p else m) 0)

/-- `vcmp`: operands signed by type; predicate codes 6 and 7 raise ILLEGAL (R366). -/
def execVcmp (a : QReg) (b : VSrc) (y : CSel) (k : QReg) (pred : BitVec 3) (s : State) : Res :=
  .next (finish (do
    vtyped
    if 5 < pred.toNat then illegal
    vectorOp clsInt false none (b.reg :: CSel.regs y) fun c l => modT fun t =>
      let i := ETy.int c.ty
      t.setQ a (comparedMask c t.vstart.toNat (t.qreg k) (t.qreg a) fun p =>
        ipredicate pred.toNat (i.decode (elemAt c.w (srcOf l t b.reg) p)) (i.decode (CSel.at_ y l t p)))) s)

/-- The floating format of a type that has one. -/
def ETy.fmt (t : ETy) : Fmt := (t.fmt?).getD Machine.fp32

/-- `vfcmp` (R366). -/
def execVfcmp (a : QReg) (b : VSrc) (y : FSel) (k : QReg) (pred : BitVec 3) (s : State) : Res :=
  .next (finish (vectorOp clsFlt false none (b.reg :: FSel.regs y) fun c l => modT fun t =>
    let f := ETy.fmt c.ty
    let x := fun p => f.decode (elemAt c.w (srcOf l t b.reg) p)
    let z := fun p => f.decode (FSel.at_ y l t p % 2 ^ c.w)
    (t.setQ a (comparedMask c t.vstart.toNat (t.qreg k) (t.qreg a) fun p => fpredicate pred.toNat (x p) (z p))).accrue
      (c.flags t.vstart.toNat (t.qreg k) fun p => fpredFlags pred.toNat (x p) (z p))) s)

/-- `vsel`: K selects, and every logical position from `vstart` on is written (R367). -/
def execVsel (a : BitVec 5) (b : VSrc) (y : YSel) (k : QReg) (s : State) : Res :=
  .next (finish (vectorOp clsAll false (some a) (b.reg :: YSel.regs y) fun c l => modT fun t =>
    (t.setV a (c.put t.vstart.toNat (BitVec.allOnes 128) false (t.vreg a) fun p =>
      if (t.qreg k).getLsbD p then elemAt c.w (srcOf l t b.reg) p else YSel.at_ y l t p)).reach c.extent) s)

end Sys2Proof.Machine
end

