-- ==== Sys2Proof/Machine/VecFp.lean ====
section
/-! DEFINITION. Vector floating point and conversion, major 0x45 (R368 to R370). -/

namespace Sys2Proof.Machine

/-- A binary floating instruction on codes (R368). -/
def vfbin (op : Fmt → RM → Nat → Nat → Nat × Word) (a : VDst) (b : VSrc) (y : FSel) (k : QReg) (s : State) : Res :=
  .next (finish (elementwise clsFlt a k (b.reg :: FSel.regs y) fun t c l p =>
    op (ETy.fmt c.ty) t.rm (elemAt c.w (srcOf l t b.reg) p) (FSel.at_ y l t p % 2 ^ c.w)) s)

/-- A unary floating instruction (R368, R369). -/
def vfun (op : Fmt → RM → FVal → Nat × Word) (a : VDst) (b : VSrc) (k : QReg) (s : State) : Res :=
  .next (finish (elementwise clsFlt a k [b.reg] fun t c l p =>
    op (ETy.fmt c.ty) t.rm ((ETy.fmt c.ty).decode (elemAt c.w (srcOf l t b.reg) p))) s)

/-- A fused multiply-add, with the product negated or not (R368). -/
def vfused (neg : Bool) (a : VDst) (b : VSrc) (y : FSel) (d : VSrc) (k : QReg) (s : State) : Res :=
  .next (finish (elementwise clsFlt a k (b.reg :: d.reg :: FSel.regs y) fun t c l p =>
    let f := ETy.fmt c.ty
    let x := f.decode (elemAt c.w (srcOf l t b.reg) p)
    f.fma t.rm (if neg then x.neg else x) (f.decode (FSel.at_ y l t p % 2 ^ c.w)) (f.decode (elemAt c.w (srcOf l t d.reg) p))) s)

/-- `vfadd`: x + y (R368). -/
def execVfadd (a : VDst) (b : VSrc) (y : FSel) (k : QReg) (s : State) : Res :=
  vfbin (fun f rm x y => f.add rm (f.decode x) (f.decode y)) a b y k s

/-- `vfsub`: x - y (R368). -/
def execVfsub (a : VDst) (b : VSrc) (y : FSel) (k : QReg) (s : State) : Res :=
  vfbin (fun f rm x y => f.sub rm (f.decode x) (f.decode y)) a b y k s

/-- `vfmul`: x * y (R368). -/
def execVfmul (a : VDst) (b : VSrc) (y : FSel) (k : QReg) (s : State) : Res :=
  vfbin (fun f rm x y => f.mul rm (f.decode x) (f.decode y)) a b y k s

/-- `vfdiv`: x / y (R368). -/
def execVfdiv (a : VDst) (b : VSrc) (y : FSel) (k : QReg) (s : State) : Res :=
  vfbin (fun f rm x y => f.div rm (f.decode x) (f.decode y)) a b y k s

/-- `vfmin` (R310, R368). -/
def execVfmin (a : VDst) (b : VSrc) (y : FSel) (k : QReg) (s : State) : Res := vfbin (fun f _ x y => f.minmax true x y) a b y k s

/-- `vfmax` (R310, R368). -/
def execVfmax (a : VDst) (b : VSrc) (y : FSel) (k : QReg) (s : State) : Res := vfbin (fun f _ x y => f.minmax false x y) a b y k s

/-- `vfma`: x * y + z (R368). -/
def execVfma (a : VDst) (b : VSrc) (y : FSel) (d : VSrc) (k : QReg) (s : State) : Res := vfused false a b y d k s

/-- `vfnma`: -(x * y) + z (R368). -/
def execVfnma (a : VDst) (b : VSrc) (y : FSel) (d : VSrc) (k : QReg) (s : State) : Res := vfused true a b y d k s

/-- `vfsqrt`: the square root (R368). -/
def execVfsqrt (a : VDst) (b : VSrc) (k : QReg) (s : State) : Res := vfun Fmt.sqrt a b k s

/-- `vfexp2`: 2^x (R369). -/
def execVfexp2 (a : VDst) (b : VSrc) (k : QReg) (s : State) : Res := vfun Fmt.exp2 a b k s

/-- `vflog2`: log2 x (R369). -/
def execVflog2 (a : VDst) (b : VSrc) (k : QReg) (s : State) : Res := vfun Fmt.log2 a b k s

/-- `vfrcp`: 1 / x (R369). -/
def execVfrcp (a : VDst) (b : VSrc) (k : QReg) (s : State) : Res := vfun Fmt.rcp a b k s

/-- `vfrsq`: 1 / sqrt x (R369). -/
def execVfrsq (a : VDst) (b : VSrc) (k : QReg) (s : State) : Res := vfun Fmt.rsq a b k s

/-- `vftanh`: tanh x (R369). -/
def execVftanh (a : VDst) (b : VSrc) (k : QReg) (s : State) : Res := vfun Fmt.tanh a b k s

/-- The codebook that a type names, else zeros. -/
def Thread.book (t : Thread) (ty : ETy) : BitVec 256 := match ty with
  | .cb4 j => t.cbreg j
  | _ => 0

/-- `vcvt`: from the source type to that of `vtype`; with a legal `vtype` (step 10 of Table 13.4), a source equal to it, or not a
vector type, raises ILLEGAL (R370). -/
def execVcvt (a : VDst) (b : VSrc) (k : QReg) (src : TypeCode) (s : State) : Res :=
  .next (finish (do
    vtyped
    if s.t.vtype.extractLsb' 0 6 = src then illegal
    match vecType src with
    | none => illegal
    | some sty =>
      elementwise clsAll a k [b.reg] fun t c l p =>
        convert t.rm (t.book sty) (t.book c.ty) sty c.ty (elemAt (ETy.width sty) (srcOf l t b.reg) p)) s)

end Sys2Proof.Machine
end

