-- ==== Sys2Proof/Machine/VecCross.lean ====
section
/-! DEFINITION. Cross-lane operations, major 0x46 (R371 to R377), reductions and top-k, major 0x47 (R378, R379, R309), and mask
instructions, major 0x48 (R380). -/

namespace Sys2Proof.Machine

/-! ## Cross-lane -/

/-- A cross-lane read (R371): zero at and beyond `vl`. -/
def crossRead (c : VCfg) (v : Vector (BitVec 32) 128) (i : Nat) : Nat := if i < c.vl then (vget v i 0).toNat else 0

/-- A cross-lane instruction with an element-wise destination (R372 to R376). -/
def crossLane (cls : ETy → Bool) (a : VDst) (k : QReg) (regs : List (BitVec 5)) (f : Thread → VCfg → Sources → Nat → Nat) (s : State) :
    Res :=
  .next (finish (wholeOp cls (some a.reg) regs fun c l => do
    let s ← get
    writeElems c a k 0 fun p => (f s.t c l p, 0)) s)

/-- `vslideup` (R372). -/
def execVslideup (a : VDst) (b : VSrc) (n : NSel) (d : SReg) (k : QReg) (s : State) : Res :=
  crossLane clsAll a k [b.reg] (fun t c l p =>
    let m := NSel.amount n t
    if p < m then (t.reg d).toNat else crossRead c (srcOf l t b.reg) (p - m)) s

/-- `vslidedn` (R372). -/
def execVslidedn (a : VDst) (b : VSrc) (n : NSel) (k : QReg) (s : State) : Res :=
  crossLane clsAll a k [b.reg] (fun t c l p => crossRead c (srcOf l t b.reg) (p + NSel.amount n t)) s

/-- `vperm`: the index is the whole 32-bit slot (R373). -/
def execVperm (a : VDst) (b c : VSrc) (k : QReg) (s : State) : Res :=
  crossLane clsAll a k [b.reg, c.reg] (fun t cf l p =>
    crossRead cf (srcOf l t b.reg) (vget (srcOf l t c.reg) p 0).toNat) s

/-- Positions below `vl` whose mask bit is set, ascending. -/
def VCfg.selected (c : VCfg) (mask : BitVec 128) : List Nat := (List.range c.vl).filter fun p => mask.getLsbD p

/-- Write a packed list to positions 0 on; the rest below `vl` is zeroed or kept. -/
def packed (c : VCfg) (z : Bool) (old : Vector (BitVec 32) 128) (xs : List (BitVec 32)) : Vector (BitVec 32) 128 :=
  vtab 128 fun p => if p < xs.length then xs.getD p 0 else if z && decide (p < c.vl) then 0 else vget old p 0

/-- `vcompress`: K selects (R374). -/
def execVcompress (a : VDst) (b : VSrc) (k : QReg) (s : State) : Res :=
  .next (finish (wholeOp clsAll (some a.reg) [b.reg] fun c l => modT fun t =>
    let v := srcOf l t b.reg
    (t.setV a.reg (packed c a.zeroing (t.vreg a.reg) ((c.selected (t.qreg k)).map fun p => canon c.ty (vget v p 0).toNat))).reach c.extent) s)

/-- `vexpand`: rank(p) counts the active positions below p (R374). -/
def execVexpand (a : VDst) (b : VSrc) (k : QReg) (s : State) : Res :=
  crossLane clsAll a k [b.reg] (fun t c l p =>
    crossRead c (srcOf l t b.reg) ((c.selected (t.qreg k)).filter fun q => q < p).length) s

/-- `vbcast` (R375). -/
def execVbcast (a : VDst) (y : BSel) (k : QReg) (s : State) : Res :=
  .next (finish (elementwise clsAll a k [] fun t _ _ _ => (BSel.at_ y t, 0)) s)

/-- An element extended to a scalar register: sign-extended for i types (R375). -/
def extendElem (t : ETy) (x : Nat) : Word :=
  match t.int? with
  | some i => if i.signed then BitVec.ofInt 64 (signedOf i.w x) else word (x % 2 ^ i.w)
  | none => word (x % 2 ^ t.width)

/-- `vmvx` (R375). -/
def execVmvx (a : SReg) (b : VSrc) (i : NSel) (s : State) : Res :=
  .next (finish (vectorOp clsAll false none [b.reg] fun c l => modT fun t =>
    let n := NSel.amount i t
    t.setReg a (if n < c.vl then extendElem c.ty (vget (srcOf l t b.reg) n 0).toNat else 0)) s)

/-- `vmvs` (R375). -/
def execVmvs (a : BitVec 5) (c : SReg) (i : NSel) (s : State) : Res :=
  .next (finish (vectorOp clsAll false (some a) [] fun cf _ => modT fun t =>
    let n := NSel.amount i t
    if n < cf.vl then (t.setV a (vput (t.vreg a) n (canon cf.ty (t.reg c).toNat))).reach cf.extent else t) s)

/-- Set bits of a mask at the positions of a list. -/
def maskCount (q : BitVec 128) (ps : List Nat) : Nat := (ps.filter fun p => q.getLsbD p).length

/-- `viota`: bits of qC below p and below `vl` (R376). -/
def execViota (a : VDst) (c : QReg) (k : QReg) (s : State) : Res :=
  crossLane clsInt a k [] (fun t cf _ p => maskCount (t.qreg c) (List.range (Nat.min p cf.vl))) s

/-- A mask whose bits a predicate gives. -/
def maskOf (f : Nat → Bool) : BitVec 128 := BitVec.ofNat 128 ((List.range 128).foldl (fun m p => if f p then m + 2 ^ p else m) 0)

/-- `vconflict`: first occurrences among the active positions; every other bit of qA is 0 (R377). -/
def execVconflict (a : QReg) (b : VSrc) (k : QReg) (s : State) : Res :=
  .next (finish (wholeOp clsAll none [b.reg] fun c l => modT fun t =>
    let v := srcOf l t b.reg
    let q := t.qreg k
    let act := fun p => decide (p < c.vl) && q.getLsbD p
    t.setQ a (maskOf fun p => act p && (List.range p).all fun r => !(act r) || elemAt c.w v r != elemAt c.w v p)) s)

/-! ## Reductions -/

/-- One level of the pairwise tree. -/
def pairUp {α : Type} (f : α → α → α) : List α → List α
  | x :: y :: rest => f x y :: pairUp f rest
  | l => l

/-- The fixed tree of R309: seven levels over 128 positions. -/
def tree {α : Type} (f : α → α → α) : Nat → List α → List α
  | 0, l => l
  | n + 1, l => tree f n (pairUp f l)

/-- The elements of positions 0 to 127: an identity where a position is inactive or at or beyond `vl`. -/
def treeLeaves (c : VCfg) (mask : BitVec 128) (v : Vector (BitVec 32) 128) (ident : Nat) : List Nat :=
  (List.range 128).map fun p => if p < c.vl ∧ mask.getLsbD p = true then elemAt c.w v p else ident

/-- An integer reduction: the result extended as `vmvx` extends (R378). -/
def vred (ident : IFmt → Int) (f : IFmt → Nat → Nat → Nat) (a : SReg) (b : VSrc) (k : QReg) (s : State) : Res :=
  .next (finish (wholeOp clsInt none [b.reg] fun c l => modT fun t =>
    let i := ETy.int c.ty
    let xs := tree (f i) 7 (treeLeaves c (t.qreg k) (srcOf l t b.reg) (wrapInt i.w (ident i)))
    t.setReg a (extendElem c.ty (xs.headD 0))) s)

/-- `vredsum`: the sum wraps (R378). -/
def execVredsum (a : SReg) (b : VSrc) (k : QReg) (s : State) : Res := vred (fun _ => 0) (fun i x y => (x + y) % 2 ^ i.w) a b k s

/-- `vredmax`: signed by type (R378). -/
def execVredmax (a : SReg) (b : VSrc) (k : QReg) (s : State) : Res :=
  vred IFmt.min (fun i x y => if i.decode x < i.decode y then y else x) a b k s

/-- `vredmin`: signed by type (R378). -/
def execVredmin (a : SReg) (b : VSrc) (k : QReg) (s : State) : Res :=
  vred IFmt.max (fun i x y => if i.decode y < i.decode x then y else x) a b k s

/-- A floating reduction over the fixed tree (R309, R310): each combination rounds once and raises its flags. -/
def vfred (ident : Fmt → Nat) (f : Fmt → RM → Nat → Nat → Nat × Word) (a : SReg) (b : VSrc) (k : QReg) (s : State) : Res :=
  .next (finish (wholeOp clsFlt none [b.reg] fun c l => modT fun t =>
    let g := ETy.fmt c.ty
    let leaves := (treeLeaves c (t.qreg k) (srcOf l t b.reg) (ident g)).map fun x => (x, (0 : Word))
    let r := (tree (fun x y => let z := f g t.rm x.1 y.1; (z.1, x.2 ||| y.2 ||| z.2)) 7 leaves).headD (0, 0)
    (t.setReg a (word r.1)).accrue r.2) s)

/-- Infinity of a format. -/
def Fmt.infCode (f : Fmt) (neg : Bool) : Nat := f.sign neg + (2 ^ f.e - 1) * 2 ^ f.m

/-- `vfredsum`: identity -0.0 (R309). -/
def execVfredsum (a : SReg) (b : VSrc) (k : QReg) (s : State) : Res :=
  vfred (fun g => g.sign true) (fun g rm x y => g.add rm (g.decode x) (g.decode y)) a b k s

/-- `vfredmax`: identity -infinity (R309, R310). -/
def execVfredmax (a : SReg) (b : VSrc) (k : QReg) (s : State) : Res :=
  vfred (fun g => g.infCode true) (fun g _ x y => g.minmax false x y) a b k s

/-- `vfredmin`: identity +infinity (R309, R310). -/
def execVfredmin (a : SReg) (b : VSrc) (k : QReg) (s : State) : Res :=
  vfred (fun g => g.infCode false) (fun g _ x y => g.minmax true x y) a b k s

/-! ## Top-k (R379) -/

/-- Whether value x ranks above value y: greater, or any number above a NaN. -/
def ranksAbove (t : ETy) (x y : Nat) : Bool :=
  match t.int? with
  | some i => decide (i.decode y < i.decode x)
  | none =>
    let u := (ETy.fmt t).decode x
    let v := (ETy.fmt t).decode y
    if u.isNan then false else if v.isNan then true else cmpVals u v == .gt

/-- Insert a position into a ranking, after every one that it does not rank above. -/
def rankInsert (above : Nat → Nat → Bool) (p : Nat) : List Nat → List Nat
  | [] => [p]
  | q :: rest => if above p q then p :: q :: rest else q :: rankInsert above p rest

/-- Positions ranked by value descending, equal values in ascending position. -/
def ranking (above : Nat → Nat → Bool) (ps : List Nat) : List Nat := ps.foldl (fun acc p => rankInsert above p acc) []

/-- `vtopk` (R379). -/
def execVtopk (a : VDst) (b : VSrc) (n : NSel) (k : QReg) (s : State) : Res :=
  .next (finish (wholeOp clsIntFlt (some a.reg) [b.reg] fun c l => modT fun t =>
    let v := srcOf l t b.reg
    let order := ranking (fun p q => ranksAbove c.ty (elemAt c.w v p) (elemAt c.w v q)) (c.selected (t.qreg k))
    let xs := (order.take (NSel.amount n t)).map fun p => BitVec.ofNat 32 p
    (t.setV a.reg (packed c a.zeroing (t.vreg a.reg) xs)).reach c.extent) s)

/-! ## Masks (R380) -/

/-- A mask instruction that acts on all 128 bits whatever the shape (R353). -/
def maskOp (f : Thread → Thread) (s : State) : Res :=
  .next (finish (do
    needUnit
    vtyped
    modT f) s)

/-- `qand`. -/
def execQand (a b c : QReg) (s : State) : Res := maskOp (fun t => t.setQ a (t.qreg b &&& t.qreg c)) s

/-- `qor`. -/
def execQor (a b c : QReg) (s : State) : Res := maskOp (fun t => t.setQ a (t.qreg b ||| t.qreg c)) s

/-- `qxor`. -/
def execQxor (a b c : QReg) (s : State) : Res := maskOp (fun t => t.setQ a (t.qreg b ^^^ t.qreg c)) s

/-- `qnot`. -/
def execQnot (a b : QReg) (s : State) : Res := maskOp (fun t => t.setQ a (~~~(t.qreg b))) s

/-- Positions of logical elements, ascending. -/
def VCfg.positions (c : VCfg) : List Nat := (List.range 128).filter fun p => (c.elem? p).isSome

/-- A mask instruction over the logical elements: with `vstart` not 0 and beyond them it has no effect (R353). -/
def maskWhole (f : VCfg → Thread → Thread) (s : State) : Res :=
  .next (finish (vectorOp clsAll false none [] fun c _ => do
    let s ← get
    if s.t.vstart != 0 && decide (c.n ≤ s.t.vstart.toNat) then pure () else modT (f c)) s)

/-- `qpopc`. -/
def execQpopc (a : SReg) (b : QReg) (s : State) : Res :=
  maskWhole (fun c t => t.setReg a (word (maskCount (t.qreg b) c.positions))) s

/-- `qfirst`: all ones when there is none. -/
def execQfirst (a : SReg) (b : QReg) (s : State) : Res :=
  maskWhole (fun c t => t.setReg a (match c.positions.find? fun p => (t.qreg b).getLsbD p with
    | some p => word p
    | none => BitVec.allOnes 64)) s

/-- `qmov`, one form for each W. -/
def execQmov (m : QMov) (s : State) : Res :=
  maskOp (fun t => match m with
    | .maskToMask a b => t.setQ a (t.qreg b)
    | .scalarToLow a c => t.setQ a ((t.qreg a).extractLsb' 64 64 ++ t.reg c)
    | .scalarToHigh a c => t.setQ a (t.reg c ++ (t.qreg a).extractLsb' 0 64)
    | .lowToScalar a b => t.setReg a ((t.qreg b).extractLsb' 0 64)
    | .highToScalar a b => t.setReg a ((t.qreg b).extractLsb' 64 64)) s

end Sys2Proof.Machine
end

