-- ==== Sys2Proof/Machine/Tile.lean ====
section
/-! DEFINITION. Tile instructions, what they share: ranges and gates (R383), the shape in `tshape` (R276), the checks of dispatch (R385 to
R387), the tile queue (R140 to R144), classes of operands (Table 16.3), and rows of tiles in memory (R392). -/

namespace Sys2Proof.Machine

/-! ## Ranges and gates (R383) -/

/-- The registers of a range of `nm1` + 1. -/
def regRange (r : MReg) (nm1 : Nat) : List MReg := (List.range (nm1 + 1)).map fun i => r + BitVec.ofNat 9 i
/-- A range that ends at or below m511. -/
def rangeOk (r : MReg) (nm1 : Nat) : Bool := decide (r.toNat + nm1 < 512)
/-- The steps that a gate keeps. -/
def Thread.kept (t : Thread) (g : GateSel) (n : Nat) : List Nat :=
  (List.range n).filter fun i => match g.gate with
    | none => true
    | some r => (t.greg r).getLsbD (256 * g.seg.toNat + i)

/-! ## Shape, map and vector type -/

/-- Granted inner dimension, columns and rows. -/
structure Shape where
  k : Nat
  cols : Nat
  rows : Nat
  deriving DecidableEq, Repr

/-- The fields of `tshape` (Table 11.5). -/
def Thread.shape (t : Thread) : Shape :=
  { k := (t.tshape.extractLsb' 16 7).toNat, cols := (t.tshape.extractLsb' 8 7).toNat, rows := (t.tshape.extractLsb' 0 7).toNat }
def Shape.ok (x : Shape) : Bool :=
  decide (1 ≤ x.k) && decide (x.k ≤ 64) && decide (1 ≤ x.cols) && decide (x.cols ≤ 64) && decide (1 ≤ x.rows) && decide (x.rows ≤ 64)

/-- The shape that an instruction reads at dispatch; a field outside 1 to 64 raises VTYPE_ILLEGAL (R276). -/
def shape : M Shape := do
  let s ← get
  if s.t.shape.ok then return s.t.shape else vtypeIllegal

/-- A slot without a map raises ILLEGAL (R171). -/
def hasMap : M Unit := do
  let s ← get
  if s.t.tmapbase == 0 then illegal else pure ()

/-- The vector configuration of a tile instruction that reads or writes a vector register (R386). -/
def vecFlat (cls : ETy → Bool) : M VCfg := do
  needUnit
  vconfig cls true

def isFp32 (t : ETy) : Bool := t == .fp32

/-! ## Named registers (R387) -/

/-- A source: its entry is checked (R151), it must be valid (R153), and its type is returned with the code in its entry. A version that was
superseded after the instruction's dispatch is still the one that it reads (R50, R156). -/
def sourceReg (r : MReg) : M (ETy × TypeCode) := do
  let s ← get
  match s.t.held.find? fun x => x.reg == r with
  | some x => return (x.tile.ety, x.tile.code)
  | none =>
    let e ← namedEntry r
    if !entV e then raise .tileInvalid 0 r.toNat
    else
      let s ← get
      return ((s.tileType (entTy e)).getD .fp32, entTy e)

/-- A destination that is written whole: its entry is checked. -/
def destReg (r : MReg) : M Unit := do
  let _ ← namedEntry r

/-- A source whose type a predicate accepts; any other raises ILLEGAL. -/
def sourceOf (ok : ETy → Bool) (r : MReg) : M ETy := do
  let t ← sourceReg r
  if ok t.1 then return t.1 else illegal

/-- A type operand (Table 6.1, R266): the type, with the narrow code when the type was widened, which sets SUBST. -/
def typeOperand (c : TypeCode) : M (ETy × Option TypeCode) := do
  let s ← get
  match etyOf c with
  | some t => return (t, none)
  | none =>
    if s.act (tableIndex s.t.ir) == 1 then
      match (s.desc? c).bind widenTo with
      | some t => return (t, some c)
      | none => illegal
    else illegal

/-- SUBST for a widened type. -/
def noteSubst (narrow : Option TypeCode) : M Unit := if narrow.isSome then modT fun t => t.accrue 0x4000 else pure ()

/-! ## The tile queue -/

/-- The sources whose values are not present: FILLING and PRODUCING ones are awaited, BACKED ones get a fill (R140, R163). The first read
of a hinted version counts as useful when it is dispatched, or as late while the fill is still in flight (R175). -/
def awaited (uses : List MReg) : List MReg → M (List MReg)
  | [] => pure []
  | r :: rest => do
    let s ← get
    if s.t.held.any fun x => x.reg == r && !x.filling then awaited uses rest
    else if s.t.held.any fun x => x.reg == r then
      let more ← awaited uses rest
      return r :: more
    else
      match findSet (s.getCore s.core).sets s.t.ctx r with
      | some x =>
        if x.hinted then
          set ((s.count s.t.part (if x.filling then 24 else 23) 1).modSets s.core fun l => l.map fun y =>
            if y.ctx == x.ctx && y.reg == x.reg then { y with hinted := false } else y)
        let more ← awaited uses rest
        return if x.filling then r :: more else more
      | none => do
        requestFill uses false r
        countM 27 1
        let more ← awaited uses rest
        return r :: more

/-- Put an entry into the tile queue of the thread's core, in place of its earlier one. -/
def State.queueTile (s : State) (i : Instr) (st : TqState) (fills uses : List MReg) (fault : Option (Cause × Word × Word)) : State :=
  (s.dropEntries s.cur).modCore s.core fun k =>
    { k with tileq := k.tileq ++ [{ tid := s.cur, instr := i, st := st, fills := fills, uses := uses, fault := fault }] }

/-- Go on only when every source is present; else the instruction rests in the tile queue in WAITFILL (Table 5.6). -/
def demand (i : Instr) (uses srcs : List MReg) : M Unit := do
  let w ← awaited uses srcs.eraseDups
  if w.isEmpty then pure ()
  else
    modify fun s => s.queueTile i .waitFill w uses none
    throw (.stall .tile)

/-- The frame of a tile instruction: the slot has a map, and the entry leaves the queue as the instruction retires. -/
def tileOp (m : M Unit) (s : State) : Res :=
  .next (finish (do
    hasMap
    m
    modify fun s => s.dropEntries s.cur) s)

/-- Leave a walk between two of its steps: what it has done stays, and the rest is issued again. -/
def pauseWalk : M Unit := do
  modify fun s => (s.dropEntries s.cur).modT fun t => { t with resumed := false }
  throw (.stall .walk)

/-- Gated skips are counted as the instruction completes (Table 6.7). -/
def countSkips (n : Nat) : M Unit := countM 29 n

/-! ## Classes (Table 16.3) -/

inductive MClass where
  | f16 | f8 | c4 | n8
  deriving DecidableEq, Repr

def ETy.mclass? : ETy → Option MClass
  | .fp16 | .bf16 => some .f16
  | .e4m3 | .e5m2 | .e3m2 => some .f8
  | .cb4 _ => some .c4
  | .i8 | .n8 => some .n8
  | _ => none

/-- The accumulator type of a class. -/
def MClass.acc (c : MClass) : ETy := if c = .n8 then .i40 else .a40

/-- The types of `mscale` (Table 16.6). -/
def ETy.scales : ETy → Bool
  | .fp16 | .bf16 | .fp32 | .a40 | .e4m3 | .e5m2 | .e3m2 => true
  | _ => false

/-- The value of element `i` of a tile, CB4 through its codebook. -/
def Thread.tileVal (t : Thread) (x : Tile) (i : Nat) : FVal := elemVal (t.book x.ety) x.ety (tileElem x i)

/-- A tile element by element: codes with flags, and the elements that are poisoned. -/
def buildTile (ety : ETy) (narrow : Option TypeCode) (f : Nat → Nat × Word) (bad : Nat → Bool) (anyBad : Bool) : Tile × Word :=
  let r := vtab 4096 f
  ({ ety := ety, elems := r.map fun x => BitVec.ofNat 40 x.1, poison := if anyBad then poisonOf ety.width bad else 0, narrow := narrow },
    r.toList.foldl (fun w x => w ||| x.2) 0)

/-- Whether any word of a tile is poisoned. -/
def Tile.anyBad (t : Tile) : Bool := t.poison != 0

/-- Poisoned elements among rows and columns: MEM_UE at the lowest row that holds one, with its columns (Table 9.3, R403). -/
def cleanRows (rows cols : Nat) (bad : Nat → Nat → Bool) : M Unit :=
  match (List.range rows).find? fun r => (List.range cols).any fun c => bad r c with
  | none => pure ()
  | some r => do
    countM 39 1
    raise .memUe 0 r ((List.range cols).foldl (fun m c => if bad r c then m + 2 ^ c else m) 0) (some 0)

/-! ## Rows in memory (R392, R393) -/

/-- Bits of a row: columns of width w. -/
def rowBytes (cols w : Nat) : Nat := (cols * w + 7) / 8
/-- The byte of a row where column `c` starts, and the bit in it. -/
def colByte (w c : Nat) : Nat := c * w / 8
def colBit (w c : Nat) : Nat := c * w % 8
/-- Address of a row. -/
def rowAddr (base stride : Word) (r : Nat) : Word := base + word r * stride

/-- The fault that is reported among those of one row (R232). -/
def rowFault : List (Nat × Word × Cause) → Option (Nat × Word × Cause)
  | [] => none
  | f :: rest =>
    match rowFault rest with
    | none => some f
    | some g => if g.2.2.priority < f.2.2.priority then some g else some f

/-- Columns as a mask. -/
def colMask (l : List Nat) : Nat := l.foldl (fun m c => m + 2 ^ c) 0

/-- The columns that fail an access check, with where and why. -/
def rowChecks (w : Nat) (a : Word) (acc : Acc) : List Nat → M (List (Nat × Word × Cause))
  | [] => pure []
  | c :: rest => do
    let r ← (places (a + word (colByte w c)) (elemBytes (colBit w c) w) acc : StateM State _)
    let more ← rowChecks w a acc rest
    match r with
    | .ok _ => return more
    | .error (k, x) => return (c, a + word (colByte w c + k), x) :: more

/-- Check every byte of the named columns of a row before any is accessed (R393); `xelem` and `vstart` are the row. -/
def checkRow (w : Nat) (a : Word) (acc : Acc) (cols : List Nat) (row vstart : Nat) : M Unit := do
  let bad ← rowChecks w a acc cols
  match rowFault bad with
  | none => pure ()
  | some f => raise f.2.2 f.2.1 row (colMask (bad.map (·.1))) (some vstart)

/-- Read the named columns of a row: codes, and the columns that are poisoned. -/
def readCols (w : Nat) (a : Word) : List Nat → M (List (Nat × Nat) × List Nat)
  | [] => pure ([], [])
  | c :: rest => do
    match ← (places (a + word (colByte w c)) (elemBytes (colBit w c) w) accLoad : StateM State _) with
    | .error _ => readCols w a rest
    | .ok ps =>
      let bs ← readPlaces ps
      let more ← readCols w a rest
      return ((c, fld (leNat (bs.map (·.1))) (colBit w c) w) :: more.1, if bs.any (·.2) then c :: more.2 else more.2)

/-- Columns of a row that a skip-mode resume names (R241). -/
def Thread.skipCols (t : Thread) (row : Nat) : Nat → Bool := fun c => match t.skip with
  | some k => k.cause.skipsElements && k.elem == row && k.mask.getLsbD c
  | none => false

/-- One row as a load: its codes; named columns take `xscratch` (R393). -/
def loadRow (w : Nat) (a : Word) (cols row vstart : Nat) : M (List (Nat × Nat)) := do
  let s ← get
  let skip := s.t.skipCols row
  let cs := (List.range cols).filter fun c => !skip c
  checkRow w a accLoad cs row vstart
  let r ← readCols w a cs
  if r.2.isEmpty then
    return r.1 ++ ((List.range cols).filter skip).map fun c => (c, s.t.xscratch.toNat % 2 ^ w)
  else
    countM 39 1
    raise .memUe (a + word (colByte w (r.2.headD 0))) row (colMask r.2) (some vstart)

end Sys2Proof.Machine
end

