-- ==== Sys2Proof/Machine/TileOps.lean ====
section
/-! DEFINITION. Shape grant and matrix instructions, majors 0x60 and 0x61 (R391 to R405). -/

namespace Sys2Proof.Machine

/-! ## Shape grant (R391) -/

/-- A requested dimension: 64 when it is 0 or more than 64. -/
def reqDim (x : Word) : Nat := if x = 0 ∨ 64 < x.toNat then 64 else x.toNat

/-- `setts`: K is capped by KCAP, rows and columns never are (R391); a thread without a map raises ILLEGAL, as any instruction of majors 0x60 to
0x62 does (R95, R171, step 9 of Table 13.4). -/
def execSetts (a b c d : SReg) (s : State) : Res :=
  .next (finish (do
    hasMap
    let k := Nat.min (reqDim (s.t.reg b)) s.caps.2
    let ts := word (k * 2 ^ 16 + reqDim (s.t.reg d) * 2 ^ 8 + reqDim (s.t.reg c))
    modT fun t => ({ t with tshape := ts, cut := decide (k < reqDim (s.t.reg b)) }).setReg a ts) s)

/-! ## Shared -/

/-- Any MXA operation but a step to the held destination writes the accumulator bank back first (R146). -/
def freeBank : M Unit := modify fun s => s.writeBackAcc s.core

/-- Codes by index put over a tile's elements. -/
def putCodes (v : Vector (BitVec 40) 4096) (l : List (Nat × Nat)) : Vector (BitVec 40) 4096 :=
  l.foldl (fun v x => vput v x.1 (BitVec.ofNat 40 x.2)) v

/-- Run a computation and keep a trap as a result. -/
def attempt {α : Type} (m : M α) : M (Except TrapRec α) :=
  tryCatch (do return .ok (← m)) fun e => match e with
    | .trap r => return .error r
    | e => throw e

/-- The row at which a resumed row-wise instruction goes on; a step beyond the only one is its end (R237, R243). -/
def Thread.resumeRow (t : Thread) (rows : Nat) : Nat :=
  if t.vstart.toNat / 64 = 0 then t.vstart.toNat else rows

/-- E3M2 rows need a multiple of four columns, CB4 rows of two (R392). -/
def colsFit (t : ETy) (cols : Nat) : Bool := cols % blockOf t == 0

/-! ## `mld`, `mst`, `mzero` (R392 to R395) -/

/-- Load `n` rows from row `r` on: their codes by element index, and the trap of the row that stopped the load. -/
def mldRows (w : Nat) (base stride : Word) (cols : Nat) : Nat → Nat → M (List (Nat × Nat) × Option TrapRec)
  | 0, _ => pure ([], none)
  | n + 1, r => do
    match ← attempt (loadRow w (rowAddr base stride r) cols r r) with
    | .error t => return ([], some t)
    | .ok l =>
      let more ← mldRows w base stride cols n (r + 1)
      return (l.map (fun x => (64 * r + x.1, x.2)) ++ more.1, more.2)

/-- The version that a row-wise load leaves: the rows before the resumption point are those of the version that it has begun (R50, R156, R390). -/
def mldTile (s : State) (d : MReg) (ty : ETy) (narrow : Option TypeCode) (r0 : Nat) (codes : List (Nat × Nat)) : Tile :=
  let old := match s.t.held.find? fun x => x.reg == d with
    | some x => x.tile
    | none => (s.tileOf s.core s.t.ctx d).getD (zeroTile ty)
  let f := fun (x : Nat) => match narrow.bind s.desc?, ty.fmt? with
    | some e, some f => (f.encode .rne (e.fmt.decode x)).1
    | _, _ => x
  let body := putCodes (vtab 4096 fun i => if i < 64 * r0 then vget old.elems i 0 else 0) (codes.map fun x => (x.1, f x.2))
  { ety := ty, elems := body, narrow := narrow
    poison := if old.anyBad then poisonOf ty.width fun i => decide (i < 64 * r0) && old.bad i else 0 }

/-- `mld` (R392, R393): rows in ascending order; at a failing row the rows below it are kept, and those at and above it are zero. -/
def execMld (d : MReg) (base stride : SReg) (code : TypeCode) (s : State) : Res :=
  tileOp (do
    let ty ← typeOperand code
    let sh ← shape
    if !colsFit ty.1 sh.cols then vtypeIllegal
    let e ← namedEntry d
    let r0 := s.t.resumeRow sh.rows
    let put := if r0 ≠ 0 ∧ entV e = true then continueTile [d] d else writeTile [] d
    if r0 ≠ 0 ∧ entV e = true then demand (.mld d base stride code) [d] [d]
    let s1 ← get
    let w := match ty.2.bind s1.desc? with
      | some x => x.bits
      | none => ty.1.width
    let r ← mldRows w (s.t.reg base) (s.t.reg stride) sh.cols (sh.rows - r0) r0
    match r.2 with
    | none =>
      let s2 ← get
      put (mldTile s2 d ty.1 ty.2 r0 r.1)
      noteSubst ty.2
    | some t => do
      let s2 ← get
      put (mldTile s2 d ty.1 ty.2 r0 r.1)
      throw (.trap t)) s

/-- The bytes of the named columns of a row of an image, as cells with poison marks. -/
def mstCells (s : State) (t : Tile) (w : Nat) (a : Word) (r : Nat) : List Nat → StateM State (List (Place × Nat × Nat) × List Place)
  | [] => pure ([], [])
  | c :: rest => do
    match ← places (a + word (colByte w c)) (elemBytes (colBit w c) w) accStore with
    | .error _ => mstCells s t w a r rest
    | .ok ps =>
      let more ← mstCells s t w a r rest
      return (elemCells w (colBit w c) (backCode s t (64 * r + c)) ps ++ more.1, if t.bad (64 * r + c) then ps ++ more.2 else more.2)

/-- Poison words of places. -/
def poisonAll (l : List Place) (s : State) : State :=
  l.foldl (fun s p => match p with
    | .hbm pa _ _ => { s with poison := nset (pa / 8) s.poison }
    | .spad key => { s with poison := nset (key / 8) s.poison }
    | .lease pa _ _ _ _ => if p.uncached then s else { s with poison := nset (pa / 8) s.poison }
    | _ => s) s

/-- Store `n` rows from row `r` on: each is checked, then written (R394), with the flags of encoding a widened type back (R305, Table 12.4); one that a wait for acknowledgements has left written stays so. -/
def mstRows (t : Tile) (w : Nat) (base stride : Word) (cols : Nat) : Nat → Nat → M Unit
  | 0, _ => pure ()
  | n + 1, r => do
    let s ← get
    if s.t.vdone ≤ r then do
      let a := rowAddr base stride r
      let cs := (List.range cols).filter fun c => !s.t.skipCols r c
      checkRow w a accStore cs r r
      let x ← (mstCells s t w a r cs : StateM State _)
      writeCells (joinCells x.1)
      modify (poisonAll x.2)
      modT fun th => ({ th with vdone := r + 1 }).accrue (joinFlags (cs.map fun c => (backEncode s t (64 * r + c)).2))
    mstRows t w base stride cols n (r + 1)

/-- `mst` (R394). -/
def execMst (src : MSrc) (base stride : SReg) (s : State) : Res :=
  tileOp (do
    let sh ← shape
    let ty ← sourceReg src.reg
    if !colsFit ty.1 sh.cols then vtypeIllegal
    demand (.mst src base stride) [src.reg] [src.reg]
    let t ← readTile src
    let s1 ← get
    let r0 := s.t.resumeRow sh.rows
    mstRows t (backWidth s1 t) (s.t.reg base) (s.t.reg stride) sh.cols (sh.rows - r0) r0) s

/-- `mzero` (R395). -/
def execMzero (d : MReg) (ty : TypeCode) (s : State) : Res :=
  tileOp (do
    let ty ← typeOperand ty
    destReg d
    freeBank
    writeTile [] d { zeroTile ty.1 with narrow := ty.2 }
    noteSubst ty.2) s

/-! ## `mmul` (R396 to R400) -/

/-- One output element of a step (R306, R308): groups of 16 products. -/
def dotGroups (cls : MClass) (k : Nat) (x : Nat) (a b : Nat → FVal) (ia ib : Nat → Int) : Nat × Word :=
  (List.range 4).foldl (fun acc q =>
    if 16 * q < k then
      let ks := (List.range (Nat.min 16 (k - 16 * q))).map fun i => 16 * q + i
      let r := if cls = .n8 then i40Group acc.1 (ks.map fun i => (ia i, ib i)) else a40Group acc.1 (ks.map fun i => (a i, b i))
      (r.1, acc.2 ||| r.2)
    else acc) (x, 0)

/-- Index of B'(b)[k][j] (R398). -/
def bIndex (tb : Bool) (k j : Nat) : Nat := if tb then 64 * j + k else 64 * k + j

/-- The integer that an element of an integer tile holds. -/
def tileInt (t : Tile) (i : Nat) : Int := (ETy.int t.ety).decode (tileElem t i)

/-- One step of `mmul` (R398) from row `r0` to row `r1`: `old` is the version accumulated into or resumed; with `rd` its elements are the
accumulators, else they start at 0. -/
def mmulStep (th : Thread) (sh : Shape) (cls : MClass) (tb rd : Bool) (r0 r1 : Nat) (a b old : Tile) : Tile × Word :=
  let inShape := fun (i : Nat) => decide (i / 64 < sh.rows) && decide (i % 64 < sh.cols)
  let f := fun (i : Nat) =>
    if inShape i && decide (r0 ≤ i / 64) && decide (i / 64 < r1) then
      dotGroups cls sh.k (if rd then tileElem old i else 0)
        (fun k => th.tileVal a (64 * (i / 64) + k)) (fun k => th.tileVal b (bIndex tb k (i % 64)))
        (fun k => tileInt a (64 * (i / 64) + k)) (fun k => tileInt b (bIndex tb k (i % 64)))
    else (if rd || decide (i / 64 < r0) then tileElem old i else 0, 0)
  let bad := fun (i : Nat) =>
    ((rd || decide (i / 64 < r0)) && old.bad i) ||
      (inShape i && decide (r0 ≤ i / 64) && decide (i / 64 < r1) &&
        (List.range sh.k).any fun k => a.bad (64 * (i / 64) + k) || b.bad (bIndex tb k (i % 64)))
  buildTile cls.acc none f bad (a.anyBad || b.anyBad || old.anyBad)

/-- The registers of one kept step. -/
structure Step where
  d : MReg
  a : MReg
  b : MReg
  deriving DecidableEq, Repr

/-- Element `i` of a range of registers. -/
def regAt (r : MReg) (range : Bool) (i : Nat) : MReg := if range then r + BitVec.ofNat 9 i else r

/-- The kept steps of a walk (Table 16.4). -/
def walkSteps (walk : Nat) (d a b : MReg) (kept : List Nat) : List Step :=
  kept.map fun i => { d := regAt d (walk == 1) i, a := regAt a (walk == 2) i, b := regAt b (walk != 0) i }

/-- The class of a list of sources, the first of which sets it (R396). -/
def checkClass : Option MClass → List MReg → M (Option MClass)
  | c, [] => pure c
  | c, r :: rest => do
    let t ← sourceReg r
    match t.1.mclass? with
    | none => illegal
    | some x => if c.isSome && c != some x then illegal else checkClass (some x) rest

/-- Check the destinations: with ACC each holds the accumulator type already (R396). -/
def checkDests (acc : Bool) (ty : ETy) : List MReg → M Unit
  | [] => pure ()
  | r :: rest => do
    if acc then
      let _ ← sourceOf (fun t => t == ty) r
    else destReg r
    checkDests acc ty rest

/-- The first of each 4 KiB of places. -/
def pagesOf (ps : List Place) : List Place := (List.range (ceilDiv ps.length 4096)).filterMap fun i => ps[4096 * i]?

/-- The lowest register whose backing translation fails, with the address (R399); else the places that the checks have found. -/
def backingFault : List MReg → M (Except (MReg × Word) (List (MReg × List Place)))
  | [] => pure (.ok [])
  | r :: rest => do
    let s ← get
    let here : Except (MReg × Word) (List (MReg × List Place)) ← match s.t.line? r with
      | none => pure (.ok [])
      | some l =>
        if !entV l.entry || (findSet (s.getCore s.core).sets s.t.ctx r).isSome || s.t.held.any (fun x => x.reg == r) then pure (.ok [])
        else
          let n := ((s.tileType (entTy l.entry)).getD .fp32).bytes
          match ← (fsePlaces s.t.ctx s.t.sup (backAddr s.t.tmapbase r) n : StateM State _) with
          | .error (k, _) => pure (.error (r, backAddr s.t.tmapbase r + word k))
          | .ok ps => pure (.ok [(r, pagesOf ps)])
    let more ← backingFault rest
    match here, more with
    | .error x, .error y => return .error (if y.1 < x.1 then y else x)
    | .error x, .ok _ => return .error x
    | .ok _, .error y => return .error y
    | .ok x, .ok y => return .ok (x ++ y)

/-- The first reads of versions that `mpf` has brought are counted as their reader is dispatched: useful, or late while the fill is in flight (R175). -/
def noteReads : List MReg → M Unit
  | [] => pure ()
  | r :: rest => do
    modify fun s =>
      match if s.t.held.any fun x => x.reg == r then none else findSet (s.getCore s.core).sets s.t.ctx r with
      | some x =>
        if x.hinted then
          (s.count s.t.part (if x.filling then 24 else 23) 1).modSets s.core fun l => l.map fun y =>
            if y.ctx == x.ctx && y.reg == x.reg then { y with hinted := false } else y
        else s
      | none => s
    noteReads rest

/-- A walk is dispatched. One that cannot be RESOLVED is FAULTED before it begins; else what its checks have translated is used for its fills
(R399, R163). -/
def resolveOr (i : Instr) (regs : List MReg) : M Unit := do
  let s ← get
  if s.t.checked.isSome then pure ()
  else
    noteReads regs.eraseDups
    match ← backingFault regs with
    | .ok l => modT fun t => { t with checked := some l }
    | .error (r, va) => do
      modify fun s => s.queueTile i .faulted [] [] (some (.fillFault, va, word r.toNat))
      throw (.stall .tile)

/-- The accumulator bank of the core in hand holds a register of the thread in hand (R146). -/
def State.banked (s : State) (d : MReg) : Bool := (s.getCore s.core).acc.any fun b => b.ctx == s.t.ctx && b.reg == d

/-- Whether a step can start at once: its operands are present and its destination is in the accumulator bank or can be placed. -/
def State.stepReady (s : State) (srcs : List MReg) (d : MReg) (ty : ETy) : Bool :=
  (srcs.all fun r => s.t.held.any (fun x => x.reg == r && !x.filling) || (match findSet (s.getCore s.core).sets s.t.ctx r with
    | some x => !x.filling
    | none => false)) &&
    (s.banked d || ((if srcs.contains d then s else s.modSets s.core fun l => dropSet l s.t.ctx d).freeSet s.core ty.granules).isSome)

/-- An event record of the MXA about a walk (Table 9.8). -/
def walkEvent (typ payload : Nat) : M Unit :=
  modify fun s => s.emitTask s.cur 2 typ ((s.t.pc + word (2 * s.t.member)).toNat + payload * 2 ^ 64)

/-- The last-use marks of a step. -/
structure Marks where
  a : Bool
  b : Bool

/-- The accumulators that a step starts from: those in the bank, else those of the destination's version, else zeros (R146, R398). -/
def stepOld (rd : Bool) (d : MReg) (ty : ETy) : M Tile := do
  let s ← get
  if !rd then return zeroTile ty
  else
    match (s.getCore s.core).acc.filter fun b => b.ctx == s.t.ctx && b.reg == d with
    | some b => return b.tile
    | none => readTile { reg := d, last := false }

/-- The result of a step: a step to the register that the bank holds stays in it, any other writes the bank back and takes it, over a fresh version
of its destination (R146), or the current one where the instruction has begun it (R390); a version that a remote commit superseded is the walk's own no
longer (R50). -/
def stepResult (begun : Bool) (keep : List MReg) (d : MReg) (t : Tile) : M Unit := do
  let s ← get
  if begun && s.banked d then set (s.modCore s.core fun k => { k with acc := some { ctx := s.t.ctx, reg := d, tile := t } })
  else
    freeBank
    if begun then continueTile keep d t else writeTile keep d t
    modify fun s => (s.modCore s.core fun k => { k with acc := some { ctx := s.t.ctx, reg := d, tile := t } }).modT fun t =>
      { t with held := t.held.filter fun x => x.reg != d }

/-- An `mmul` is to stop at the end of its current row: for a pre-emption, or for an asynchronous cause that can be delivered (R244, R249). -/
def Thread.stopsWalk (t : Thread) : Bool := t.preempt || (!t.inh && !t.pend.isEmpty)

/-- The row at whose end a step from row `r0` on stops: its last, or the one that a stop finds in the MXA. -/
def Thread.stepEnd (t : Thread) (free r0 rows : Nat) : Nat :=
  if t.stopsWalk && decide (r0 < rows) then r0 + 1 + Config.stopRow free % (rows - r0) else rows

/-- Run the kept steps from step `j` on (R398, R400); `went` says that a step has completed in this issue. Between steps `vstart` holds
the steps complete; a step that cannot start at once after one that completed is left to a later issue. -/
def mmulSteps (i : Instr) (sh : Shape) (cls : MClass) (tb acc sum : Bool) (m : Marks) : List Step → Nat → Bool → M Unit
  | [], _, _ => modT fun t => { t with vstart := 0 }
  | st :: rest, j, went => do
    let s ← get
    let r0 := if went then 0 else (s.t.vstart.extractLsb' 0 6).toNat
    let rd := acc || (sum && decide (0 < j))
    let srcs := [st.a, st.b] ++ (if rd || r0 != 0 then [st.d] else [])
    if went && (s.t.stopsWalk || !s.stepReady srcs st.d cls.acc) then pauseWalk
    demand i [st.a, st.b, st.d] srcs
    let a ← readTile { reg := st.a, last := m.a }
    let b ← readTile { reg := st.b, last := m.b }
    let old ← stepOld (rd || r0 != 0) st.d cls.acc
    let s ← get
    let r1 := s.t.stepEnd s.free r0 sh.rows
    let r := mmulStep s.t sh cls tb rd r0 r1 a b old
    stepResult ((sum && decide (0 < j)) || r0 != 0) srcs st.d r.1
    if r1 < sh.rows then
      modify fun s => { s with free := s.free + 1 }
      modT fun t => { (t.accrue r.2) with vstart := word (j * 256 + r1) }
      pauseWalk
    else
      modT fun t => { (t.accrue r.2) with vstart := word ((j + 1) * 256) }
      mmulSteps i sh cls tb acc sum m rest (j + 1) true

/-- Steps of a walk; one that a pre-emption, an asynchronous cause or a fault interrupts leaves its record, of the steps complete (Table 9.8). -/
def recordWalk (m : M Unit) : M Unit :=
  tryCatch m fun e => do
    let s ← get
    let interrupted := match e with
      | .trap _ => true
      | .stall .walk => s.t.stopsWalk
      | _ => false
    if interrupted then walkEvent 0x21 ((s.t.vstart.extractLsb' 8 8).toNat + 512)
    throw e

/-- The type of the zero tile that a walk with no kept step writes (R398): the entry of the first A register is read without checks. -/
def zeroKind (ma : MReg) : M ETy := do
  let s ← get
  if (s.t.line? ma).isNone then
    let _ ← attempt (fetchGroup ma)
  let s ← get
  match s.t.line? ma with
  | some l => return if !s.entBad ma.toNat l.entry && entV l.entry && (entTy l.entry == 0x01 || entTy l.entry == 0x02) then .i40 else .a40
  | none => return .a40

/-- Registers of a walk that its gate leaves unnamed, operand by operand (Table 6.7). -/
def skipsOf (walk : Nat) (acc : Bool) (n kept : Nat) : Nat :=
  match walk with
  | 0 => if kept = 0 then (if acc then 3 else 2) else 0
  | 1 => (n - kept) * 2 + (if kept = 0 then 1 else 0)
  | _ => (n - kept) * 2 + (if kept = 0 ∧ acc = true then 1 else 0)

/-- `mmul` (R396 to R400). -/
def execMmul (d : MReg) (ma mb : MSrc) (g : GateSel) (walk : BitVec 2) (tb acc : Bool) (nm1 : BitVec 8) (s : State) : Res :=
  tileOp (do
    let i := Instr.mmul d ma mb g walk tb acc nm1
    let n := nm1.toNat
    let w := walk.toNat
    let dn := if w = 1 then n else 0
    let an := if w = 2 then n else 0
    let bn := if w = 0 then 0 else n
    if w = 3 ∨ (w = 0 ∧ n ≠ 0) then illegal
    if !(rangeOk d dn && rangeOk ma.reg an && rangeOk mb.reg bn) then illegal
    if (regRange d dn).any fun r => (regRange ma.reg an).contains r || (regRange mb.reg bn).contains r then illegal
    let sh ← shape
    let steps := walkSteps w d ma.reg mb.reg (s.t.kept g (n + 1))
    if steps.isEmpty then
      if w ≠ 1 ∧ acc = false then
        destReg d
        let ty ← zeroKind ma.reg
        freeBank
        writeTile [] d (zeroTile ty)
    else
      let c1 ← checkClass none (if w = 2 then steps.map (·.a) else [ma.reg])
      let c2 ← checkClass c1 (if w = 0 then [mb.reg] else steps.map (·.b))
      let cls := c2.getD .f16
      checkDests acc cls.acc (if w = 1 then steps.map (·.d) else [d])
      let done := (s.t.vstart.extractLsb' 8 8).toNat
      let left := steps.drop done
      let begun := w = 2 ∨ (s.t.vstart.extractLsb' 0 6) ≠ 0
      resolveOr i ((left.flatMap fun st => [st.a, st.b]) ++
        (if acc then left.map (·.d) else if s.t.vstart ≠ 0 ∧ begun then (left.take 1).map (·.d) else []))
      if s.t.vstart = 0 ∧ ((s.getCore s.core).tileq.all fun e => e.tid != s.cur) = true then walkEvent 0x20 (steps.length + (g.gate.getD 0).toNat * 512)
      recordWalk (mmulSteps i sh cls tb acc (w == 2) { a := ma.last, b := mb.last } left done false)
      walkEvent 0x21 steps.length
    countSkips (skipsOf w acc (n + 1) steps.length)) s

/-! ## Tile to tile (R401) -/

/-- An instruction that makes a whole new version from one source. -/
def tileToTile (i : Instr) (d : MReg) (src : MSrc) (check : ETy × TypeCode → M Unit) (work : Tile → M (Tile × Word)) : M Unit := do
  let ty ← sourceReg src.reg
  check ty
  destReg d
  let s ← get
  if s.t.past 64 then return ()
  demand i [src.reg, d] [src.reg]
  let t ← readTile src
  let r ← work t
  freeBank
  writeTile [src.reg] d r.1
  modT fun t => t.accrue r.2

/-- `mcvt`: rounding under `fcsr`.RM; into CB4 with the codebook that X names (R401). -/
def execMcvt (d : MReg) (src : MSrc) (ty : TypeCode) (s : State) : Res :=
  tileOp (do
    let nt ← typeOperand ty
    tileToTile (.mcvt d src ty) d src (fun t => if t.2 = ty then illegal else pure ()) fun x =>
      pure (buildTile nt.1 nt.2 (fun i => convert s.t.rm (s.t.book x.ety) (s.t.book nt.1) x.ety nt.1 (tileElem x i)) x.bad x.anyBad)
    noteSubst nt.2) s

/-- `mtr`: the transpose, bits unchanged. -/
def execMtr (d : MReg) (src : MSrc) (s : State) : Res :=
  tileOp (tileToTile (.mtr d src) d src (fun _ => pure ()) fun x =>
    let j := fun (i : Nat) => 64 * (i % 64) + i / 64
    pure (buildTile x.ety x.narrow (fun i => (tileElem x (j i), 0)) (fun i => x.bad (j i)) x.anyBad)) s

/-- `mmov`. -/
def execMmov (d : MReg) (src : MSrc) (s : State) : Res :=
  tileOp (tileToTile (.mmov d src) d src (fun _ => pure ()) fun x => pure (x, 0)) s

/-- `mscale`: rows or columns at and beyond `vl` are copied (R401). -/
def execMscale (d : MReg) (src : MSrc) (v : VSrc) (cols : Bool) (s : State) : Res :=
  tileOp (do
    let c ← vecFlat isFp32
    let l ← sources c [v.reg]
    tileToTile (.mscale d src v cols) d src (fun t => if t.1.scales then pure () else illegal) fun x =>
      let f := ETy.fmt x.ety
      pure (buildTile x.ety x.narrow (fun i =>
        let p := if cols then i % 64 else i / 64
        if p < c.vl then f.finish s.t.rm (mulVals (f.decode (tileElem x i)) (Machine.fp32.decode (elemAt 32 (srcOf l s.t v.reg) p)))
        else (tileElem x i, 0)) x.bad x.anyBad)
    advance c [v.reg]) s

/-! ## Rows and vectors (R402, R403) -/

/-- The row that `mrow` and `mput` name. -/
def rowNumber (t : Thread) (row : RowSel) : Nat := match row with
  | .imm r => r.toNat
  | .scalar x => ((t.reg x).extractLsb' 0 6).toNat

/-- The poisoned elements that a run of flat elements reads: MEM_UE at the lowest row, with its columns. -/
def cleanRun (x : Tile) (lo n : Nat) : M Unit :=
  if x.anyBad then
    cleanRows 64 64 fun r c => decide (lo ≤ 64 * r + c) && decide (64 * r + c < lo + n) && x.bad (64 * r + c)
  else pure ()

/-- Write positions 0 to n - 1 of a vector register. -/
def putFront (a : BitVec 5) (n : Nat) (f : Nat → BitVec 32) : M Unit :=
  modT fun t => (t.setV a (vtab 128 fun p => if p < n then f p else vget (t.vreg a) p 0)).reach n

/-- `mrow` (R402). -/
def execMrow (a : BitVec 5) (src : MSrc) (row : RowSel) (s : State) : Res :=
  tileOp (do
    writableV a
    let c ← vecFlat clsAll
    let ty ← sourceReg src.reg
    if ty.1 ≠ c.ty then vtypeIllegal
    if s.t.past c.vl then return ()
    demand (.mrow a src row) [src.reg] [src.reg]
    let x ← readTile src
    let lo := 64 * rowNumber s.t row
    cleanRun x lo c.vl
    freeBank
    putFront a c.vl fun p => if lo + p < 4096 then canon c.ty (tileElem x (lo + p)) else 0) s

/-- The poison of a tile after a run of elements was written over it: words wholly written lose theirs (R402, R246). -/
def putPoison (x : Tile) (w lo n : Nat) : BitVec 2560 :=
  if x.anyBad then
    BitVec.ofNat 2560 ((List.range 2560).foldl (fun m j =>
      if x.poison.getLsbD j && !(decide (lo * w ≤ 64 * j) && decide (64 * j + 64 ≤ (lo + n) * w)) then m + 2 ^ j else m) 0)
  else 0

/-- `mput` (R402): a partial write; with V = 0 the kept elements are zero. -/
def execMput (d : MReg) (v : VSrc) (row : RowSel) (s : State) : Res :=
  tileOp (do
    let c ← vecFlat clsAll
    let l ← sources c [v.reg]
    let s1 ← get
    let e ← namedEntry d
    let valid := entV e || s1.t.held.any fun x => x.reg == d
    if valid then
      let ty ← sourceReg d
      if ty.1 ≠ c.ty then vtypeIllegal
    if s1.t.past c.vl then
      advance c [v.reg]
      return ()
    let old ← if valid then do
        demand (.mput d v row) [d] [d]
        readTile { reg := d, last := false }
      else pure (zeroTile c.ty)
    let lo := 64 * rowNumber s.t row
    let n := Nat.min c.vl (4096 - lo)
    let codes := (List.range n).map fun p => (lo + p, elemAt c.w (srcOf l s.t v.reg) p)
    freeBank
    writeTile (if valid then [d] else []) d { old with elems := putCodes old.elems codes, poison := putPoison old c.w lo n }
    advance c [v.reg]) s

/-- A reduction of each row to FP32 (R403). -/
def rowReduce (i : Instr) (a : BitVec 5) (src : MSrc) (f : Thread → Tile → List Nat → Nat × Word) (s : State) : Res :=
  tileOp (do
    writableV a
    let _ ← vecFlat isFp32
    let sh ← shape
    let _ ← sourceOf (fun t => t.scales || t.isCb4) src.reg
    if s.t.past sh.rows then return ()
    demand i [src.reg] [src.reg]
    let x ← readTile src
    if x.anyBad then cleanRows sh.rows sh.cols fun r c => x.bad (64 * r + c)
    let r := (List.range sh.rows).map fun r => f s.t x ((List.range sh.cols).map fun c => 64 * r + c)
    freeBank
    putFront a sh.rows fun p => BitVec.ofNat 32 (r.getD p (0, 0)).1
    modT fun t => t.accrue (joinFlags (r.map (·.2)))) s

/-- The format and the code that an element of a `mrmax` source compares with: CB4 as its BF16 entry. -/
def Thread.maxCode (t : Thread) (x : Tile) (i : Nat) : Nat := match x.ety with
  | .cb4 _ => cbEntry (t.book x.ety) (tileElem x i)
  | _ => tileElem x i

/-- `mrmax`: the largest element, rounded to FP32 (R403, R310). -/
def execMrmax (a : BitVec 5) (src : MSrc) (s : State) : Res :=
  rowReduce (.mrmax a src) a src (fun t x is =>
    let f := if x.ety.isCb4 then Machine.bf16 else ETy.fmt x.ety
    match is.map (t.maxCode x) with
    | [] => (0, 0)
    | c :: rest =>
      let m := rest.foldl (fun acc y => let r := f.minmax false acc.1 y; (r.1, acc.2 ||| r.2)) (c, (0 : Word))
      let r := Machine.fp32.encode t.rm (f.decode m.1)
      (r.1, m.2 ||| r.2)) s

/-- `mrsum`: the exact sum, rounded once to FP32 (R403). -/
def execMrsum (a : BitVec 5) (src : MSrc) (s : State) : Res :=
  rowReduce (.mrsum a src) a src (fun t x is => Machine.fp32.finish t.rm (sumVals t.rm (is.map (t.tileVal x)))) s

/-! ## Residency and codebooks (R404, R405) -/

/-- Check the entries of a range. -/
def checkRange : List MReg → M Unit
  | [] => pure ()
  | r :: rest => do
    destReg r
    checkRange rest

/-- Release one register (R168): its version is superseded without spill, V := 0. -/
def releaseReg (r : MReg) : M Unit := do
  let s ← get
  match s.t.line? r with
  | none => pure ()
  | some l =>
    if !entV l.entry then pure ()
    else
      let s := s.supersede r
      set (s.modT fun t => { t with mapCache := setLine r (entMarks l.entry false false false r.toNat) t.mapCache })

def releaseAll : List MReg → M Unit
  | [] => pure ()
  | r :: rest => do
    releaseReg r
    releaseAll rest

/-- `mrel` (R404). -/
def execMrel (d : MReg) (nm1 : BitVec 8) (s : State) : Res :=
  tileOp (do
    if !rangeOk d nm1.toNat then illegal
    checkRange (regRange d nm1.toNat)
    releaseAll (regRange d nm1.toNat)) s

/-- One register of an `mpf` (R167): counted once as useless, dropped, or, when its fill is requested, by what becomes of it (R175). -/
def prefetchReg (r : MReg) : M Unit := do
  countM 22 1
  match ← attempt (namedEntry r) with
  | .error _ => countM 26 1
  | .ok e =>
    let s ← get
    if !entV e || (findSet (s.getCore s.core).sets s.t.ctx r).isSome then countM 25 1
    else
      match ← backingFault [r] with
      | .error _ => countM 26 1
      | .ok _ => requestFill [] true r

/-- The registers of an `mpf` in ascending order; what a register that must wait leaves undone is left to a later issue, and those before it stay
(R159, R167). -/
def prefetchAll : List MReg → Bool → M Unit
  | [], _ => pure ()
  | r :: rest, went => do
    let s ← get
    tryCatch (prefetchReg r) fun e => if went then (do set s; pauseWalk) else throw e
    modT fun t => { t with vdone := t.vdone + 1 }
    prefetchAll rest true

/-- `mpf` (R404): registers beyond m511 are ignored, and it never traps on a register. -/
def execMpf (d : MReg) (g : GateSel) (nm1 : BitVec 8) (s : State) : Res :=
  tileOp (do
    let n := Nat.min (nm1.toNat + 1) (512 - d.toNat)
    let ks := s.t.kept g n
    prefetchAll ((ks.map fun i => d + BitVec.ofNat 9 i).drop s.t.vdone) false
    countSkips (n - ks.length)) s

/-- `mcb`: 32 bytes as row 0 of a load of 16 entries (R405). -/
def execMcb (cb : BitVec 2) (base : SReg) (s : State) : Res :=
  tileOp (do
    if s.t.past 1 then return ()
    let l ← loadRow 16 (s.t.reg base) 16 0 0
    modT fun t => { t with cb := t.cb.set cb.toNat (BitVec.ofNat 256 (l.foldl (fun m x => m + x.2 % 65536 * 2 ^ (16 * x.1)) 0)) }) s

end Sys2Proof.Machine
end

