-- ==== Sys2Proof/Machine/ScoutGate.lean ====
section
/-! DEFINITION. Scout, gate registers and score accumulation, major 0x62 (R406 to R409). -/

namespace Sys2Proof.Machine

/-! ## Scout (R406) -/

/-- The score of one query row and one key row: the exact sum over k < K, rounded once to FP32 under RNE. -/
def scoutDot (t : Thread) (k : Nat) (q key : Tile) (r c : Nat) : Nat :=
  let ks := List.range k
  if q.ety.isInt then
    (Machine.fp32.encode .rne (valOfInt ((ks.map fun i => tileInt q (64 * r + i) * tileInt key (64 * c + i)).sum))).1
  else
    let prods := ks.map fun i => (mulVals (t.tileVal q (64 * r + i)) (t.tileVal key (64 * c + i))).1
    (Machine.fp32.encode .rne (sumVals .rne prods).1).1

/-- The largest score of a key tile; a NaN makes it the canonical NaN. -/
def scoutTile (t : Thread) (sh : Shape) (q key : Tile) : Nat :=
  ((List.range sh.rows).flatMap fun r => (List.range sh.cols).map fun c => scoutDot t sh.k q key r c).foldl
    (fun m d => (Machine.fp32.minmax false m d).1) 0xFF800000

/-- Whether the tile that a step of a gated walk reads is present. -/
def State.present (s : State) (r : MReg) : Bool :=
  s.t.held.any (fun x => x.reg == r && !x.filling) || (findSet (s.getCore s.core).sets s.t.ctx r).any fun x => !x.filling

/-- Read the tiles of a gated walk, one step after another, each of which pins only what it reads (R158): those that earlier issues of the walk have
read come first. A step whose tile is not present after one that was read is left to a later issue. -/
def walkTiles (i : Instr) (also : List MReg) (last : Bool) : List MReg → Bool → M Unit
  | [], _ => pure ()
  | r :: rest, went => do
    let s ← get
    if went && !s.present r then pauseWalk
    demand i (r :: also) (also ++ [r])
    let t ← readTile { reg := r, last := last }
    modT fun th => { th with walked := th.walked ++ [t] }
    walkTiles i also last rest true

/-- The tiles of a gated walk. -/
def readTiles (i : Instr) (also : List MReg) (last : Bool) (regs : List MReg) : M (List Tile) := do
  let s ← get
  walkTiles i also last (regs.drop s.t.walked.length) false
  let s ← get
  return s.t.walked

/-- `scout` (R406): no flag is raised; poison of the query or a key is MEM_UE at its lowest row (R403). -/
def execScout (a : BitVec 5) (query key : MSrc) (g : GateSel) (nm1 : BitVec 7) (s : State) : Res :=
  tileOp (do
    let n := nm1.toNat + 1
    if !rangeOk key.reg nm1.toNat then illegal
    writableV a
    let _ ← vecFlat isFp32
    let sh ← shape
    let ks := s.t.kept g n
    let regs := ks.map fun i => key.reg + BitVec.ofNat 9 i
    let _ ← checkClass none (query.reg :: regs)
    if s.t.past 256 then return ()
    resolveOr (.scout a query key g nm1) (query.reg :: regs)
    let tiles ← readTiles (.scout a query key g nm1) [query.reg] key.last regs
    demand (.scout a query key g nm1) [query.reg] [query.reg]
    let q ← readTile query
    if q.anyBad || tiles.any Tile.anyBad then
      cleanRows 64 sh.k fun r k => (decide (r < sh.rows) && q.bad (64 * r + k)) ||
        (decide (r < sh.cols) && tiles.any fun x => x.bad (64 * r + k))
    let scores := ks.zip (tiles.map (scoutTile s.t sh q))
    putFront a n fun p => BitVec.ofNat 32 ((scores.find? fun x => x.1 == p).map (·.2) |>.getD 0xFF800000)
    countSkips (n - ks.length)) s

/-! ## Gates (R407, R408) -/

/-- Replace bits b to b + n - 1 of a gate. -/
def setBits (old : BitVec 4096) (b n : Nat) (f : Nat → Bool) : BitVec 4096 :=
  BitVec.ofNat 4096 (setFld old.toNat b n ((List.range n).foldl (fun m i => if f i then m + 2 ^ i else m) 0))

/-- Score `i` of a vector of scores: +0.0 at and beyond `vl` (R407). -/
def scoreAt (c : VCfg) (v : Vector (BitVec 32) 128) (i : Nat) : Nat := if i < c.vl then elemAt 32 v i else 0

/-- An instruction that makes gate bits from a vector of scores. -/
def gateFrom (a : GReg) (v : VSrc) (seg : BitVec 4) (nm1 : BitVec 7) (f : (Nat → Nat) → Nat → Nat → Bool) (s : State) : Res :=
  tileOp (do
    let c ← vecFlat isFp32
    let l ← sources c [v.reg]
    let n := nm1.toNat + 1
    let score := scoreAt c (srcOf l s.t v.reg)
    if s.t.past n then pure () else modT fun t => t.setG a (setBits (t.greg a) (256 * seg.toNat) n (f score n))
    advance c [v.reg]) s

/-- `gthr`: the scores that are at least the threshold (R407). -/
def execGthr (a : GReg) (v : VSrc) (t : SReg) (seg : BitVec 4) (nm1 : BitVec 7) (s : State) : Res :=
  gateFrom a v seg nm1 (fun score _ i => fpredicate 3 (Machine.fp32.decode (score i)) (s.t.f32 t)) s

/-- `gtopk`: the first ranks by value, equal scores in ascending order, NaN below every number (R407). -/
def execGtopk (a : GReg) (v : VSrc) (count : SReg) (seg : BitVec 4) (nm1 : BitVec 7) (s : State) : Res :=
  gateFrom a v seg nm1 (fun score n i =>
    ((ranking (fun p q => ranksAbove .fp32 (score p) (score q)) (List.range n)).take (Nat.min (s.t.reg count).toNat n)).contains i) s

/-- `gand` (R408). -/
def execGand (a b c : GReg) (s : State) : Res := tileOp (modT fun t => t.setG a (t.greg b &&& t.greg c)) s

/-- `gor` (R408). -/
def execGor (a b c : GReg) (s : State) : Res := tileOp (modT fun t => t.setG a (t.greg b ||| t.greg c)) s

/-- `gnot` (R408). -/
def execGnot (a b : GReg) (s : State) : Res := tileOp (modT fun t => t.setG a (~~~(t.greg b))) s

/-- Set bits of a gate among b to b + n - 1. -/
def gateCount (g : BitVec 4096) (b n : Nat) : Nat := ((List.range n).filter fun i => g.getLsbD (b + i)).length

/-- `gpop` (R408). -/
def execGpop (a : SReg) (b : GReg) (seg : BitVec 4) (nm1 : BitVec 8) (s : State) : Res :=
  tileOp (modT fun t => t.setReg a (word (gateCount (t.greg b) (256 * seg.toNat) (nm1.toNat + 1)))) s

/-- The lowest set bit of a gate at or above `from_`, else 4,096. -/
def gateNext (g : BitVec 4096) (from_ : Nat) : Nat :=
  ((List.range (4096 - from_)).find? fun i => g.getLsbD (from_ + i)).elim 4096 (from_ + ·)

/-- `gnext` (R408). -/
def execGnext (a : SReg) (b : GReg) (start : SReg) (s : State) : Res :=
  tileOp (modT fun t => t.setReg a (word (gateNext (t.greg b) (t.reg start).toNat))) s

/-- `gld`: all 512 bytes are checked first; poisoned words come from `xscratch` in skip mode, and after a fault of an address all 64 do
(R408). -/
def execGld (a : GReg) (base : SReg) (s : State) : Res :=
  tileOp (do
    if s.t.past 1 then return ()
    let rep := fun (n : Nat) => (List.range n).foldl (fun m i => m + s.t.xscratch.toNat * 2 ^ (64 * i)) 0
    let named := match s.t.skip with
      | some k => k.cause.skipsElements && k.mask.getLsbD 0
      | none => false
    let ue := match s.t.skip with
      | some k => k.cause == .memUe
      | none => false
    if named && !ue then modT fun t => t.setG a (BitVec.ofNat 4096 (rep 64))
    else
      let ps ← placesOr (s.t.reg base) 512 accLoad 0 1
      let bs ← readPlaces ps
      let bad := fun (i : Nat) => ((bs.drop (8 * i)).take 8).any (·.2)
      let w := fun (i : Nat) => if bad i then s.t.xscratch.toNat else leNat (((bs.drop (8 * i)).take 8).map (·.1))
      if (List.range 64).any bad && !(named && ue) then
        let _ ← cleanOr (s.t.reg base) bs 0 1 0
      modT fun t => t.setG a (BitVec.ofNat 4096 ((List.range 64).foldl (fun m i => m + w i * 2 ^ (64 * i)) 0))) s

/-- `gst`: checked whole, written at retirement; in skip mode it writes nothing (R408). -/
def execGst (b : GReg) (base : SReg) (s : State) : Res :=
  tileOp (do
    if s.t.skips 0 || s.t.past 1 then pure ()
    else storeN (s.t.reg base) (leBytes 512 (s.t.greg b).toNat) 0 1 0) s

/-! ## Score accumulation (R409) -/

/-- The entries of one step that fail their checks: an address outside the local window, or a failed access. -/
def saccChecks (a : Word) : List Nat → M (List (Nat × Word × Cause))
  | [] => pure []
  | c :: rest => do
    let va := a + word (4 * c)
    let r ← (places va 4 accTile : StateM State _)
    let more ← saccChecks a rest
    if va.extractLsb' 56 8 ≠ 0xFF then return (c, va, .addrFault) :: more
    else
      match r with
      | .ok _ => return more
      | .error (k, x) => return (c, va + word k, x) :: more

/-- Check the entries of every kept step in order. -/
def saccCheckAll (base : Word) (cols : Nat) : List Nat → M Unit
  | [] => pure ()
  | i :: rest => do
    let s ← get
    let bad ← saccChecks (base + word (256 * i)) ((List.range cols).filter fun c => !s.t.skipCols i c)
    match rowFault bad with
    | some f => raise f.2.2 f.2.1 i (colMask (bad.map (·.1))) (some 0)
    | none => saccCheckAll base cols rest

/-- Update the entries of one step: entry plus the exact sum of a column, rounded once. -/
def saccStep (a : Word) (sh : Shape) (i : Nat) (x : Tile) : List Nat → M Unit
  | [] => pure ()
  | c :: rest => do
    let va := a + word (4 * c)
    let old ← loadN va 4 accTile i (2 ^ c) 0
    let s ← get
    let r := Machine.fp32.finish s.t.rm
      (sumVals s.t.rm (Machine.fp32.decode old :: (List.range sh.rows).map fun r => s.t.tileVal x (64 * r + c)))
    storeN va (leBytes 4 r.1) i (2 ^ c) 0
    modT fun t => t.accrue r.2
    saccStep a sh i x rest

/-- Read the entries of the kept steps, so that a poisoned one stops `sacc` before it writes anything (R238, R409). -/
def saccReads (base : Word) (sh : Shape) : List Nat → M Unit
  | [] => pure ()
  | i :: rest => do
    let s ← get
    for c in (List.range sh.cols).filter fun c => !s.t.skipCols i c do
      let _ ← loadN (base + word (256 * i + 4 * c)) 4 accTile i (2 ^ c) 0
    saccReads base sh rest

/-- The updates of the kept steps, in order. -/
def saccSteps (base : Word) (sh : Shape) : List (Nat × Tile) → M Unit
  | [] => pure ()
  | (i, x) :: rest => do
    let s ← get
    saccStep (base + word (256 * i)) sh i x ((List.range sh.cols).filter fun c => !s.t.skipCols i c)
    saccSteps base sh rest

/-- The kept weight tiles have types that `mscale` reads or CB4. -/
def saccSources : List MReg → M Unit
  | [] => pure ()
  | r :: rest => do
    let _ ← sourceOf (fun t => t.scales || t.isCb4) r
    saccSources rest

/-- `sacc` (R409): every entry address is checked and every weight read before anything is written. -/
def execSacc (base : SReg) (w : MSrc) (g : GateSel) (nm1 : BitVec 8) (s : State) : Res :=
  tileOp (do
    let n := nm1.toNat + 1
    if !rangeOk w.reg nm1.toNat then illegal
    let sh ← shape
    let ks := s.t.kept g n
    let regs := ks.map fun i => w.reg + BitVec.ofNat 9 i
    saccSources regs
    if s.t.past 256 then return ()
    resolveOr (.sacc base w g nm1) regs
    let tiles ← readTiles (.sacc base w g nm1) [] w.last regs
    let s1 ← get
    let noSkip : Bool := match s.t.skip with
      | some k => k.cause == .memUe
      | none => false
    if noSkip then modT fun t => { t with skip := none }
    saccCheckAll (s1.t.reg base) sh.cols ks
    if tiles.any Tile.anyBad then cleanRows sh.rows sh.cols fun r c => tiles.any fun x => x.bad (64 * r + c)
    saccReads (s1.t.reg base) sh ks
    freeBank
    saccSteps (s1.t.reg base) sh (ks.zip tiles)
    countSkips (n - ks.length)) s

end Sys2Proof.Machine
end

