-- ==== Sys2Proof/Machine/Copy.lean ====
section
/-! DEFINITION. Copy transfers and completion rings, major 0x70 (R410 to R420), and the step that completes a transfer. -/

namespace Sys2Proof.Machine

/-! ## The shape of a transfer (R411 to R413) -/

/-- NDIM, MDST and ETYPE of `cpndim` (Table 17.2). -/
def ndimOf (w : Word) : Nat := (w.extractLsb' 0 4).toNat
def mdstOf (w : Word) : Bool := w.getLsbD 16
def etypeOf (w : Word) : TypeCode := w.extractLsb' 18 6

/-- EN, SCOPE and RING of `cpring` (Table 17.3). -/
def ringEn (w : Word) : Bool := w.getLsbD 63
def ringScope (w : Word) : BitVec 3 := w.extractLsb' 60 3
def ringSlot (w : Word) : Nat := (w.extractLsb' 58 2).toNat

/-- The declared scope of a transfer. -/
def Transfer.scope (x : Transfer) : Scope := (scopeOf (ringScope x.ring)).getD .t

/-- The extents in use. -/
def extents (ndim : Word) (ext : Vector Word 10) : List Nat := (List.range (ndimOf ndim)).map fun d => (vget ext d 0).toNat

/-- Bytes that a transfer copies. -/
def volume (l : List Nat) : Nat := l.foldl (· * ·) 1

/-- The offset of iteration point `n`: i0 plus the strides of the higher dimensions, i0 varying fastest (R413). -/
def pointOffset (strides : Vector Word 10) : List Nat → Nat → Nat → Int
  | [], _, _ => 0
  | e :: rest, d, n => (n % e : Nat) * (if d = 0 then 1 else (vget strides d 0).toInt) + pointOffset strides rest (d + 1) (n / e)

/-- The least and the greatest offset that the points of a non-empty transfer reach. -/
def offsetRange (strides : Vector Word 10) : List Nat → Nat → Int × Int
  | [], _ => (0, 0)
  | e :: rest, d =>
    let r := offsetRange strides rest (d + 1)
    let k : Int := ((e : Int) - 1) * (if d = 0 then 1 else (vget strides d 0).toInt)
    (r.1 + (if k < 0 then k else 0), r.2 + (if 0 < k then k else 0))

/-- The bytes of the backing encoding of a type code. -/
def State.imageBytes (s : State) (c : TypeCode) : Nat :=
  match etyOf c, s.desc? c with
  | some t, _ => t.bytes
  | none, some d => 4096 * d.bits / 8
  | none, none => 0

/-- The footprint of a type code: its bytes in whole granules of 4 KiB (R147). -/
def State.footprint (s : State) (c : TypeCode) : Nat := ceilDiv (s.imageBytes c) 4096 * 4096

/-! ## Launch (R414) -/

/-- The checks of `cpgo` on a matrix destination: the type that the tile will have. -/
def checkTileDest (ext : List Nat) : M (ETy × Option TypeCode) := do
  let s ← get
  if s.t.tmapbase == 0 || s.t.cpdst.extractLsb' 9 55 != 0 then illegal
  else
    let ty ← typeOperand (etypeOf s.t.cpndim)
    let r := offsetRange s.t.cpdstS ext 0
    if volume ext ≠ 0 ∧ (r.1 < 0 ∨ (s.footprint (etypeOf s.t.cpndim) : Int) ≤ r.2) then illegal
    else return ty

/-- Give the destination register of a transfer its PRODUCING version, zero in every byte (R156, R414). -/
def renameDest (ty : ETy × Option TypeCode) : M Unit := do
  let s ← get
  let r : MReg := s.t.cpdst.extractLsb' 0 9
  destReg r
  writeTile [] r { zeroTile ty.1 with narrow := ty.2 }
  noteSubst ty.2
  modify fun s => s.modSets s.core fun l => l.map fun x => if x.ctx == s.t.ctx && x.reg == r then { x with filling := true } else x

/-- The id after an id: 2^32 - 1 is followed by 1. -/
def nextTransferId (id : Nat) : Nat := if id = 2 ^ 32 - 1 then 1 else id + 1

/-- Whether a completion ring has no unreserved entry (R419). -/
def Ring.full (r : Ring) : Bool := decide (2 ^ r.log2 ≤ r.reserved - r.released)

/-- `cpgo` (R414). -/
def launchCopy (a : SReg) : M Unit := do
  let s ← get
  let t := s.t
  let n := ndimOf t.cpndim
  let ext := extents t.cpndim t.cpext
  let en := ringEn t.cpring
  let slot := vget t.rings (ringSlot t.cpring) none
  if n == 0 || decide (10 < n) || ringScope t.cpring == 7 || (en && slot.isNone) || decide (2 ^ 40 < volume ext) then illegal
  let ty ← if mdstOf t.cpndim then (do return some (← checkTileDest ext)) else pure none
  if (match t.transfers[15]? with
      | some x => x.status == 0
      | none => false) || (en && slot.any Ring.full) then throw (.stall .copy)
  releaseLease ((scopeOf (ringScope t.cpring)).getD .t)
  match ty with
  | some ty => renameDest ty
  | none => pure ()
  let id := t.nextId
  let x : Transfer :=
    { id := id, status := 0, cause := 0, fva := 0, src := t.cpsrc, dst := t.cpdst, ndim := t.cpndim, ring := t.cpring, ext := t.cpext,
      sst := t.cpsst, dstStride := t.cpdstS, sup := t.sup, map := t.tmapbase,
      done := [], image := [], tainted := false, taken := [], result := none }
  modT fun t =>
    ({ t with nextId := nextTransferId id, transfers := (x :: t.transfers).take 16,
              rings := if en then vput t.rings (ringSlot t.cpring) (slot.map fun (r : Ring) => { r with reserved := r.reserved + 1 })
                       else t.rings }).setReg a (word id)
  modify fun s => s.emitTask s.cur 1 0x10 (id + volume ext * 2 ^ 32)

/-- `cpgo` (R414). -/
def execCpgo (a : SReg) (s : State) : Res := .next (finish (launchCopy a) s)

/-- CSRR_CPGO: a read of the `cpgo` CSR launches a transfer (R277, R414). -/
def execCsrrCpgo (a : SReg) (s : State) : Res := .next (finish (launchCopy a) s)

/-! ## Completion rings (R418, R419) -/

/-- `rinit` (R418): checks, the wait for the entries that transfers have reserved, the stores of zeros, and the new slot; in skip mode it
stores nothing and leaves the slot as it was (R241, log 30). -/
def execRinit (ring : BitVec 2) (b c : SReg) (s : State) : Res :=
  .next (finish (do
    let base := s.t.reg b
    let n := (s.t.reg c).toNat
    if n < 4 ∨ 12 < n then illegal
    if s.t.skips 0 then return ()
    if base.extractLsb' 0 6 ≠ 0 then raise .addrFault base 0 1
    if (vget s.t.rings ring.toNat none).any fun (r : Ring) => r.written != r.reserved then throw (.stall .copy)
    storeN base (List.replicate (16 * 2 ^ n) 0)
    modT fun t =>
      { t with rings := vput t.rings ring.toNat (some { base := base, log2 := n, reserved := 0, written := 0, released := 0 }) }) s)

/-- `rrel` (R419). -/
def execRrel (ring : BitVec 2) (b : SReg) (s : State) : Res :=
  .next (finish (match vget s.t.rings ring.toNat none with
    | none => illegal
    | some r =>
      let g : Ring := { r with released := r.released + min (s.t.reg b).toNat (r.written - r.released) }
      modT fun t => { t with rings := vput t.rings ring.toNat (some g) }) s)

/-! ## Waiting for a transfer (R420) -/

/-- The transfer that an id names: one of the 16 issued most recently. -/
def Thread.transfer? (t : Thread) (id : Nat) : Option Transfer := t.transfers.find? fun x => x.id == id

/-- `rwait` on an id; one outside the last sixteen is complete, and the `rwait` acquires as any does (R196, R420). -/
def awaitTransfer (id : Nat) : M Unit := do
  let s ← get
  match s.t.transfer? id with
  | none => set (s.acquire .t)
  | some x =>
    if x.status = 0 then throw (.stall (.rwait id))
    else if x.status = 2 ∧ s.t.skip.isNone then raise ((causeOf x.cause).getD .pageFault) x.fva 0 1
    else set (s.acquire x.scope)

/-- `rwait` (R420). -/
def execRwait (b : SReg) (s : State) : Res := .next (finish (awaitTransfer ((s.t.reg b).toNat % 2 ^ 32)) s)

/-- RWAIT_DONE: the awaited transfer is complete, and the `rwait` retires or traps (R420). -/
def execRwaitDone (tid : Nat) (s : State) : Res :=
  .next (match (s.thread tid).stall with
    | .rwait id =>
      if ((s.thread tid).transfer? id).all fun x => x.status != 0 then
        finish (awaitTransfer id) ((s.switchTo tid).modT fun t => { t with stall := .none })
      else s
    | _ => s)

/-- `rpoll` (R420). -/
def execRpoll (a b : SReg) (s : State) : Res :=
  .next (match s.t.transfer? ((s.t.reg b).toNat % 2 ^ 32) with
    | none => (s.acquire .t).plain fun t => t.setReg a 1
    | some x => (if x.status = 0 then s else s.acquire x.scope).plain fun t => t.setReg a (word x.status))

/-! ## Performing a transfer (R415) -/

/-- A byte of a transfer: where it is read and where it is written; a byte of a tile image is `tile`. -/
inductive CopyTo where
  | mem (p : Place)
  | tile (i : Nat)
  deriving DecidableEq, Repr

/-- What a transfer does to one byte: its index, its source and its destination, or the cause and the address of its failure. -/
abbrev CopyByte := Except (Cause × Word) (Nat × Place × CopyTo)

/-- Check one byte of a transfer: its read before its write. -/
def copyByte (x : Transfer) (asid : BitVec 16) (part : Nat) (ext : List Nat) (n : Nat) : M CopyByte := do
  let sa := x.src + BitVec.ofInt 64 (pointOffset x.sst ext 0 n)
  let off := pointOffset x.dstStride ext 0 n
  match ← (placeFor asid x.sup part sa accLoad : StateM State _) with
  | .error c => return .error (c, sa)
  | .ok p =>
    if mdstOf x.ndim then return .ok (n, p.pastL1, .tile off.toNat)
    else
      let da := x.dst + BitVec.ofInt 64 off
      match ← (placeFor asid x.sup part da accStore : StateM State _) with
      | .error c => return .error (c, da)
      | .ok q => return .ok (n, p.pastL1, .mem q.pastL1)

/-- Check `k` bytes from index `n` on: the bytes that can be performed, and the first failure with its index of one that has not been. -/
def copyBytes (x : Transfer) (asid : BitVec 16) (part : Nat) (ext : List Nat) :
    Nat → Nat → M (List (Nat × Place × CopyTo) × Option (Nat × Cause × Word))
  | 0, _ => pure ([], none)
  | k + 1, n => do
    let r ← copyByte x asid part ext n
    let more ← copyBytes x asid part ext k (n + 1)
    match r with
    | .ok b => return (b :: more.1, more.2)
    | .error (c, va) => return (more.1, if x.done.contains n then more.2 else some (n, c, va))

/-- The bytes of the atomic unit that a byte of a transfer belongs to: the naturally aligned 8 bytes when they lie wholly in one run of the innermost
dimension, else the byte alone (Table 8.1). -/
def unitBytes (base : Word) (strides : Vector Word 10) (ext : List Nat) (n : Nat) : List Nat :=
  let lo := (base + BitVec.ofInt 64 (pointOffset strides ext 0 n)).toNat % 8
  let e := ext.headD 1
  if lo ≤ n % e && n % e - lo + 8 ≤ e then (List.range 8).map (n - lo + ·) else [n]

/-- The units in which a transfer reads and writes a byte. -/
def Transfer.readUnit (x : Transfer) (n : Nat) : List Nat := unitBytes x.src x.sst (extents x.ndim x.ext) n
def Transfer.writeUnit (x : Transfer) (n : Nat) : List Nat :=
  unitBytes (if mdstOf x.ndim then 0 else x.dst) x.dstStride (extents x.ndim x.ext) n

/-- The bytes of a transfer that write a byte, in index order. -/
def writersOf (bs : List (Nat × Place × CopyTo)) (p : CopyTo) : List (Nat × Place × CopyTo) := bs.filter fun b => b.2.2 == p

/-- The writer of a byte that a read of it in the same transfer followed: a free choice among several (R415). -/
def pickWriter (free : Nat) (bs : List (Nat × Place × CopyTo)) (p : CopyTo) : Option (Nat × Place × CopyTo) :=
  let ws := writersOf bs p
  ws[Config.copyPick free ((ws.head?.map (·.1)).getD 0) % ws.length]?

/-- What a byte of a transfer reads, with its poison: what was read of it ahead, else what its source held before, or, when the transfer writes its source and this byte
was read after that, what a writer of it wrote (R415). -/
def copyValue (x : Transfer) (free : Nat) (old : Place → Byte × Bool) (bs : List (Nat × Place × CopyTo)) : Nat → Nat × Place × CopyTo → Byte × Bool
  | 0, b => old b.2.1
  | fuel + 1, b =>
    match alookup b.1 x.taken with
    | some v => v
    | none =>
      match pickWriter free bs (.mem b.2.1) with
      | some w => if Config.copyBefore free ((x.readUnit b.1).headD b.1) then old b.2.1 else copyValue x free old bs fuel w
      | none => old b.2.1

/-- A register's version has its value: entries of its context that awaited it no longer do, and one that awaits nothing is RESOLVED
(Table 5.6). -/
def State.arrived (s : State) (core : Nat) (c : Ctx) (r : MReg) : State :=
  s.modCore core fun k => { k with tileq := k.tileq.map fun e =>
    if (s.thread e.tid).ctx == c && e.st == .waitFill then
      let left := e.fills.filter fun x => x != r
      { e with fills := left, st := if left.isEmpty then .resolved else .waitFill }
    else e }

/-- The version that a transfer fills: PRODUCING, and given to no later transfer (R156). -/
def State.copyTarget (s : State) (x : Transfer) : Option TileSet :=
  let r : MReg := x.dst.extractLsb' 0 9
  let ctx : Ctx := { s.t.ctx with base := x.map }
  let later := (s.t.transfers.takeWhile fun y => y.id != x.id).any fun y =>
    y.status == 0 && mdstOf y.ndim && y.map == x.map && y.dst == x.dst
  if later then none
  else (s.t.held ++ (s.getCore s.core).sets).find? fun y => y.ctx == ctx && y.reg == r && y.filling && y.dirty

/-- The image of a tile with the bytes that a transfer wrote. -/
def copyImage (s : State) (x : Transfer) (vals : List (Nat × Byte × Bool)) : Tile :=
  let c := etypeOf x.ndim
  let n := s.imageBytes c
  let arr := vals.foldl (fun (a : Array Byte) v => a.setIfInBounds v.1 v.2.1) (Array.replicate n 0)
  tileOfBytes s c arr (vals.foldl (fun p v => if v.2.2 then p ||| BitVec.ofNat 2560 (2 ^ (v.1 / 8)) else p) 0)

/-- A byte that is written by a later byte of the same transfer which has been performed: the later one stays (R204). -/
def Transfer.stale (x : Transfer) (all : List (Nat × Place × CopyTo)) (b : Nat × Place × CopyTo) : Bool :=
  all.any fun d => x.done.contains d.1 && decide (b.1 < d.1) && d.2.2 == b.2.2

/-- Write bytes of a transfer in index order: a byte that several of them write keeps the value of the last (R204). The transfer with what has been
done. -/
def putCopy (x : Transfer) (all bs : List (Nat × Place × CopyTo)) (value : Nat × Place × CopyTo → Byte × Bool) : M Transfer := do
  let vals := (bs.filter fun b => !x.stale all b).map fun b => (b.2.2, value b)
  let mem := vals.filterMap fun v => match v.1 with
    | .mem p => some (p, v.2)
    | .tile _ => none
  let tile := vals.filterMap fun v => match v.1 with
    | .tile i => some (i, v.2)
    | .mem _ => none
  writeMarked (← get).t.part (mem.map (·.1)) (mem.map (·.2.1)) fun i => ((mem[i]?).map (·.2.2)).getD false
  return { x with done := x.done ++ bs.map (·.1), image := x.image ++ tile, taken := x.taken.filter fun v => !bs.any fun b => b.1 == v.1 }

/-- Read bytes of a transfer ahead of their writes. -/
def takeCopy (x : Transfer) (bs : List (Nat × Place × CopyTo)) : M Transfer := do
  let got ← readPlaces (bs.map (·.2.1))
  return { x with taken := x.taken ++ (bs.map (·.1)).zip got, tainted := x.tainted || got.any (·.2) }

/-- Perform bytes of a transfer: those not read ahead are read now. -/
def doCopy (x : Transfer) (all bs : List (Nat × Place × CopyTo)) : M Transfer := do
  let free := (← get).free
  modify fun s => { s with free := s.free + 1 }
  let todo := bs.filter fun b => (alookup b.1 x.taken).isNone
  let got ← readPlaces (todo.map (·.2.1))
  let tab := (todo.map (·.2.1)).zip got
  let old := fun (p : Place) => ((tab.find? fun e => e.1 == p).map (·.2)).getD (0, false)
  putCopy { x with tainted := x.tainted || got.any (·.2) } all bs (copyValue x free old bs bs.length)

/-- The register of a transfer takes its tile (R156). -/
def commitCopy (x : Transfer) : M Unit :=
  modify fun s => match if mdstOf x.ndim then s.copyTarget x else none with
    | none => s
    | some y =>
      let t := copyImage s x x.image
      let put := fun (z : TileSet) =>
        if z.ctx == y.ctx && z.reg == y.reg && z.filling then { z with tile := { t with narrow := z.tile.narrow }, filling := false } else z
      let s := if s.t.held.contains y then s.modT fun t => { t with held := t.held.map put } else s.modSets s.core fun l => l.map put
      s.arrived s.core y.ctx y.reg

/-- Perform what is left of a transfer: its status, cause and failing address. Bytes before the lowest failing one are performed, of those after it some
whole units (R202, R415, log 5). -/
def performCopy (x : Transfer) : M (Nat × BitVec 16 × Word) := do
  let s ← get
  let ext := extents x.ndim x.ext
  let r ← copyBytes x s.t.asid s.t.part ext (volume ext) 0
  let todo := r.1.filter fun b => !x.done.contains b.1
  let bs := match r.2 with
    | none => todo
    | some f => todo.filter fun b => decide (b.1 < f.1) ||
        (Config.copyPerformed s.free ((x.writeUnit b.1).headD b.1) && (x.writeUnit b.1).all fun i => r.1.any fun c => c.1 == i)
  let y ← doCopy x r.1 bs
  commitCopy y
  match r.2 with
  | some f => return (2, f.2.1.code, f.2.2)
  | none => return (if y.tainted then 3 else 1, 0, 0)

/-- Put back a transfer of the thread in hand. -/
def Thread.putTransfer (t : Thread) (y : Transfer) : Thread := { t with transfers := t.transfers.map fun z => if z.id == y.id then y else z }

/-- Read some whole units of a transfer ahead of its completion, and write some whose bytes have all been read (R202, R220): whether any was. -/
def earlyCopy (x : Transfer) : M Bool := do
  let s ← get
  let ext := extents x.ndim x.ext
  let r ← copyBytes x s.t.asid s.t.part ext (volume ext) 0
  let left := r.1.filter fun b => !x.done.contains b.1
  let reads := left.filter fun b => (alookup b.1 x.taken).isNone && Config.copyTaken s.steps ((x.readUnit b.1).headD b.1) &&
    (x.readUnit b.1).all fun i => r.1.any fun c => c.1 == i
  let y ← takeCopy x reads
  let writes := left.filter fun b => Config.copyEarly s.steps ((x.writeUnit b.1).headD b.1) &&
    (x.writeUnit b.1).all fun i => (alookup i y.taken).isSome && r.1.any fun c => c.1 == i
  let y ← putCopy y r.1 writes fun b => (alookup b.1 y.taken).getD (0, false)
  modT fun t => t.putTransfer y
  return !(reads.isEmpty && writes.isEmpty)

/-- The transfer of the thread in hand that an engine may go on with: in progress, with no leased access of it unanswered. -/
def State.openCopy (s : State) (t : Thread) (id : Nat) : Option Transfer :=
  (t.transfer? id).filter fun x => x.status == 0 && !s.awaits (.copy t.uid id)

/-- A transfer of a slot's thread goes on without completing: nothing where no unit is read, written or requested. -/
def State.copyOn (s : State) (tid id : Nat) : Option State :=
  match (s.openCopy (s.thread tid) id).filter fun x => x.result.isNone with
  | none => none
  | some x =>
    let who : Asker := .copy (s.thread tid).uid id
    match (earlyCopy x).exec { s.switchTo tid with agent := some who } with
    | (.ok false, _) => none
    | _ => some (engineRun who (do let _ ← earlyCopy x) (s.switchTo tid))

/-- A completion entry (Table 17.4); `st` is the transfer's status. -/
def ringEntry (id st : Nat) (cause : BitVec 16) (fva : Word) (phase : Nat) : List Byte :=
  leBytes 16 (id + (st - 1) * 2 ^ 32 + phase * 2 ^ 36 + cause.toNat * 2 ^ 48 + fva.toNat * 2 ^ 64)

/-- Write the completion entry of a transfer (R417): the status, cause and failing address after it. The entry counts as written even
when its write fails. -/
def writeEntry (x : Transfer) (r : Nat × BitVec 16 × Word) : M (Nat × BitVec 16 × Word) := do
  let s ← get
  match if ringEn x.ring then vget s.t.rings (ringSlot x.ring) none else none with
  | none => return r
  | some g =>
    let va := g.base + word (16 * (g.written % 2 ^ g.log2))
    modT fun t => { t with rings := vput t.rings (ringSlot x.ring) (some { g with written := g.written + 1 }) }
    match ← (placesGo (fun a => placeFor s.t.asid x.sup s.t.part a accStore) va 16 0 none : StateM State _) with
    | .error (_, c) => return (2, c.code, va)
    | .ok ps =>
      writeRuns (storeRuns ps (ringEntry x.id r.1 r.2.1 r.2.2 (1 - g.written / 2 ^ g.log2 % 2)))
      return r

/-- The bytes of a transfer of the thread in hand are performed, and its writes are visible at its scope: those to leased memory once they are
acknowledged (R221). -/
def copyVisible (x : Transfer) : M (Nat × BitVec 16 × Word) :=
  match x.result with
  | some r => do
    releaseLease x.scope
    return r
  | none => do
    let r ← performCopy x
    modT fun t => t.putTransfer { x with result := some r }
    releaseLease x.scope
    return r

/-- Complete a transfer of the thread in hand: its bytes, its entry, its status and its event record. -/
def completeCopy (x : Transfer) : M Unit := do
  let r ← copyVisible x
  let r ← writeEntry x r
  modT fun t => { t with transfers := t.transfers.map fun y =>
    if y.id == x.id then { y with status := r.1, cause := r.2.1, fva := r.2.2 } else y }
  modify fun s => s.emitTask s.cur 1 0x11 (x.id + (r.1 - 1) * 2 ^ 32)

/-- Run a step of the CPE with a pre-empted task's thread in hand at the slot that it left (R416); ring slots and transfer ids that change are
written into its save record (R250). -/
def State.onSaved (s : State) (p : Pending) (f : State → State) : State :=
  match p.saved, p.home with
  | some t, some (c, i) =>
    let me := s.cur
    let s := s.switchTo (4 * c + i)
    let other := s.t
    let s := f { s with t := t }
    let s := match t.save with
      | some j => if s.t.copyWords == t.copyWords then s else s.writeHbm t.part (s.saveAddr t.part j + copyOffset) .l2 (dwords s.t.copyWords)
      | none => s
    let done := fun (q : Pending) => if q.home == p.home && q.task == p.task then { q with saved := some s.t } else q
    ({ s with t := other, pending := s.pending.map done }).switchTo me
  | _, _ => s

/-- The pre-empted task of a slot that has a transfer in progress. -/
def State.savedCopy (s : State) (tid id : Nat) : Option (Pending × Transfer) :=
  s.pending.findSome? fun p => match p.saved, p.home with
    | some t, some (c, i) => if 4 * c + i == tid then ((t.transfer? id).filter fun x => x.status == 0).map fun x => (p, x) else none
    | _, _ => none

/-- CPE_TRANSFER_COMPLETE: a transfer of a slot's thread, bound or pre-empted, is performed and completes (R415 to R417). -/
def execCpeTransferComplete (tid id : Nat) (s : State) : Res :=
  .next (match ((s.thread tid).transfer? id).filter fun x => x.status == 0 with
    | some x => engineRun (.copy (s.thread tid).uid id) (completeCopy x) (s.switchTo tid)
    | none =>
      match s.savedCopy tid id with
      | some (p, x) => s.onSaved p (engineRun (.copy p.task.uid id) (completeCopy x))
      | none => s)

end Sys2Proof.Machine
end

