-- ==== Sys2Proof/Machine/Stream.lean ====
section
/-! DEFINITION. Stream bindings, major 0x71 (R421, R422), and the run-ahead loads of the stream unit (R196). -/

namespace Sys2Proof.Machine

/-- The binding that a pattern record describes (Table 7.8). -/
def streamOf (r : BitVec 5) (a : Word) (w : Nat) : Stream :=
  { reg := r, record := a, dbase := word (fld w 192 64), btab := word (fld w 128 64), start := BitVec.ofNat 32 (fld w 96 32)
    count := BitVec.ofNat 32 (fld w 64 32), bsh := fld w 58 6, tsh := fld w 53 5, indirect := fld w 52 1 == 1, esz := fld w 50 2
    depth := fld w 48 2, pos := 0, ahead := [] }

/-- A malformed record: a reserved field that is not 0, a reserved code, or a value outside its range (R7, R194). -/
def recordBad (w : Nat) : Bool :=
  fld w 0 48 != 0 || fld w 50 2 == 3 ||
    (if fld w 52 1 == 0 then fld w 128 64 != 0 || fld w 58 6 != 0 || fld w 53 5 != 0
     else decide (fld w 58 6 < 6) || decide (30 < fld w 58 6) || decide (24 < fld w 53 5))

/-- Read and check a pattern record: ADDR_FAULT, the faults of a load, MEM_UE, STREAM_FAULT, in this order (R421). -/
def readRecord (r : BitVec 5) (a : Word) : M Stream := do
  if a.extractLsb' 0 5 ≠ 0 then raise .addrFault a 0 1
  else
    let w ← loadN a 32
    if recordBad w then raise .streamFault a
    else return streamOf r a w

/-- `sbind` (R421). In skip mode, but after MEM_UE (Table 9.3), the record is not read and nothing is bound (R241, log 30). -/
def execSbind (a : BitVec 5) (b : SReg) (s : State) : Res :=
  .next (finish (do
    needUnit
    vtyped
    if decide (4 ≤ s.t.streams.length) && (s.t.stream? a).isNone then illegal
    if s.t.skips 0 && s.t.skip.all fun k => k.cause != .memUe then pure ()
    else
      let st ← readRecord a (s.t.reg b)
      modT fun t => { t with streams := (t.streams.filter fun x => x.reg != a) ++ [st] }) s)

/-- `sfree` (R422). -/
def execSfree (a : BitVec 5) (s : State) : Res :=
  .next (finish (do
    needUnit
    modT fun t => { t with streams := t.streams.filter fun x => x.reg != a }) s)

/-! ## Run-ahead (R196) -/

/-- The first position that the run-ahead of a stream has not loaded. -/
def Stream.nextAhead (st : Stream) : Nat := st.ahead.foldl (fun p v => max p (v.1 + v.2.1.length)) st.pos

/-- Whether the stream unit loads another vector of a stream: fewer than DEPTH + 1 are ahead, the window of 32 lines is not full, and
elements remain. -/
def Stream.wantsAhead (st : Stream) (vl : Nat) : Bool :=
  decide (st.ahead.length < st.depth + 1) && decide ((st.ahead.flatMap fun v => v.2.2).eraseDups.length < 32) && decide (0 < vl) &&
    decide (st.nextAhead < st.count.toNat)

/-- Load `n` elements of a stream from element `j` on, while the lines that are ahead stay within the window of 32; an element that fails is left
for its reading instruction. -/
def aheadGo (st : Stream) : Nat → Nat → List Nat → M (List (Option (BitVec 32)) × List Nat)
  | 0, _, _ => pure ([], [])
  | n + 1, j, lines => do
    let s ← get
    match ← st.load j with
    | .ok x =>
      let all := (x.2 ++ lines).eraseDups
      if 32 < all.length then
        set s
        return ([], [])
      let more ← aheadGo st n (j + 1) all
      return (some (BitVec.ofNat 32 x.1) :: more.1, x.2 ++ more.2)
    | .error _ =>
      let more ← aheadGo st n (j + 1) lines
      return (none :: more.1, more.2)

/-- The lines that a stream has ahead. -/
def Stream.window (st : Stream) : List Nat := (st.ahead.flatMap fun v => v.2.2).eraseDups

/-- STREAM_RUNAHEAD_LOAD: the next run-ahead vector of a bound stream of a slot is loaded, with its lines recorded (R196). A vector that
would need leased memory is left to its reading instruction. -/
def execStreamRunaheadLoad (tid : Nat) (reg : BitVec 5) (s : State) : Res :=
  .next (
    let s1 := s.switchTo tid
    match s1.t.stream? reg, s1.t.vty with
    | some st, some _ =>
      let vl := s1.t.vl.toNat
      if st.wantsAhead vl then
        let j := st.nextAhead
        let r := (aheadGo st (min vl 128) j st.window).exec s1
        let v : Nat × List (Option (BitVec 32)) × List Nat := match r.1 with
          | .ok x => (j, x.1, x.2.eraseDups)
          | .error _ => (j, List.replicate (min vl 128) none, [])
        let s2 := match r.1 with
          | .ok _ => r.2
          | .error _ => s1
        s2.modT fun t => { t with streams := t.streams.map fun x => if x.reg == reg then { x with ahead := x.ahead ++ [v] } else x }
      else s
    | _, _ => s)

end Sys2Proof.Machine
end

