-- ==== Sys2Proof/Machine/Landing.lean ====
section
/-! DEFINITION. Landings, major 0x72 (R91 to R93, R423, R424): `capp`, `qpop`, and the steps that end their waits. -/

namespace Sys2Proof.Machine

/-- The address of entry `i` of a landing, counted from its first. -/
def Landing.entry (l : Landing) (i : Nat) : Word := l.base + word (l.esz * (i % l.cap))

/-! ## `capp` (R423) -/

/-- The landing that a stage may append to: LANDING_FAULT for any other (R91). -/
def appendTo (l : Nat) : M (Launch × Landing) := do
  let s ← get
  match s.launchHere, s.t.task with
  | some la, some k =>
    match la.landings[l]? with
    | some x => if x.pmask.getLsbD k.stage then return (la, x) else raise .landingFault 0 l
    | none => raise .landingFault 0 l
  | _, _ => raise .landingFault 0 l

/-- Check the places of the entries of some positions: places, and faults by position. -/
def entryPlaces (esz : Nat) (acc : Acc) : List (Nat × Word) → M (List (Nat × List Place) × List (Nat × Word × Cause))
  | [] => pure ([], [])
  | (p, va) :: rest => do
    let r ← (places va esz acc : StateM State _)
    let more ← entryPlaces esz acc rest
    match r with
    | .ok ps => return ((p, ps.map Place.pastL1) :: more.1, more.2)
    | .error (k, c) => return (more.1, (p, va + word k, c) :: more.2)

/-- Write bytes at several places in order. -/
def writeEach : List (List Place × List Byte) → M Unit
  | [] => pure ()
  | (ps, bs) :: rest => do
    writePlaces ps bs
    writeEach rest

/-- `capp`, which waits since cycle `since`: reserve, write and publish entries for the active positions in ascending order. Resumed beyond its last
position it appends nothing (R243; log 78). -/
def capp (a : SReg) (src : CappSrc) (c : SReg) (k : QReg) (landing : BitVec 3) (since : Nat) : M Unit := do
  needUnit
  let cf ← vconfig clsAll true
  let la ← appendTo landing.toNat
  let regs := match src with
    | .vec b => [b.reg]
    | .idx => []
  let l ← sources cf regs
  let s ← get
  if s.t.past cf.vl then
    modT fun t => t.setReg a 0
    advance cf regs
    return ()
  let ps := (List.range cf.vl).filter fun p => (s.t.qreg k).getLsbD p
  let x := la.2
  if x.cap - x.ready < ps.length then throw (.stall (.capp a src c k landing.toNat since))
  let addrs := ps.zipIdx.map fun e => (e.1, x.entry (x.tail + e.2))
  let r ← entryPlaces x.esz accStore (addrs.filter fun e => !s.t.skips e.1)
  match lowestFault r.2 with
  | some f => raiseElem f r.2 0
  | none => pure ()
  let value := fun (p : Nat) => s.t.reg c + word (match src with
    | .vec b => (vget (srcOf l s.t b.reg) p 0).toNat
    | .idx => p)
  writeEach (r.1.map fun e => (e.2, leBytes x.esz (value e.1).toNat))
  modT fun t => t.setReg a (word ps.length)
  advance cf regs
  modify fun s => (s.modLaunch la.1.key fun l => l.modLanding landing.toNat fun x => { x with tail := x.tail + ps.length }).activate la.1.key

/-- `capp` (R423). -/
def execCapp (a : SReg) (src : CappSrc) (c : SReg) (k : QReg) (landing : BitVec 3) (s : State) : Res :=
  .next (finish (capp a src c k landing s.now) s)

/-- CAPP_ROOM: a waiting append proceeds once its landing has room (R91). -/
def execCappRoom (tid : Nat) (s : State) : Res :=
  .next (match (s.thread tid).stall with
    | .capp a src c k l since =>
      finish (capp a src c k (BitVec.ofNat 3 l) since) ((s.switchTo tid).modT fun t => { t with stall := .none })
    | _ => s)

/-! ## `qpop` (R424) -/

/-- The input landing of the stage of the thread in hand, with its number; LANDING_FAULT when there is none. -/
def popFrom : M (Launch × Nat × Landing) := do
  let s ← get
  match s.launchHere, s.stageHere with
  | some la, some st =>
    if !st.inv then raise .landingFault
    else
      match la.landings[st.inl]? with
      | some x => return (la, st.inl, x)
      | none => raise .landingFault
  | _, _ => raise .landingFault

/-- Read the entries of places; poison is a fault of its position (R246). -/
def readEntries (bad : Nat → Word) : List (Nat × List Place) → M (List (Nat × Nat) × List (Nat × Word × Cause))
  | [] => pure ([], [])
  | (p, ps) :: rest => do
    let bs ← readPlaces ps
    let more ← readEntries bad rest
    match bs.findIdx? (·.2) with
    | some i => return (more.1, (p, bad p + word i, .memUe) :: more.2)
    | none => return ((p, leNat (bs.map (·.1))) :: more.1, more.2)

/-- The first `qpop` of a task takes it off the count of those owed (R92). -/
def State.notePop (s : State) (key : Nat) : State :=
  match s.t.task with
  | some k =>
    if k.popped then s
    else (s.modLaunch key fun l => l.modStage k.stage fun st => { st with owed := st.owed - 1 }).modT fun t =>
      { t with task := some { k with popped := true } }
  | none => s

/-- `qpop`: pop up to the request, zero the other positions, and report the count. The pop is an acquire at `.p` before the entries are
read. -/
def qpop (a b : SReg) (d : BitVec 5) : M Unit := do
  vtyped
  writableV d
  needUnit
  let cf ← vconfig clsAll true
  let la ← popFrom
  let x := la.2.2
  if x.wide then
    if d.toNat % 2 = 1 ∨ 30 < d.toNat then illegal
    writableV (d + 1)
  let s ← get
  if s.t.past cf.vl then
    modT fun t => t.setReg a 0
    return ()
  if x.ready = 0 ∧ s.closed la.1 x = false then throw (.stall (.qpop a b d))
  let req := (s.t.reg b).toNat
  let q := if req = 0 then cf.vl else min req cf.vl
  let n := min q x.ready
  set (s.acquire .p)
  let addr := fun (p : Nat) => x.entry (x.head + p)
  let r ← entryPlaces x.esz accLoad (((List.range n).filter fun p => !s.t.skips p).map fun p => (p, addr p))
  let e ← readEntries addr r.1
  let bad := r.2 ++ e.2
  match lowestFault bad with
  | some f => raiseElem f bad 0
  | none => pure ()
  let value := fun (p : Nat) => if p < n then (if s.t.skips p then s.t.xscratch.toNat else (alookup p e.1).getD 0) else 0
  let low := vtab 128 fun p => if p < cf.vl then BitVec.ofNat 32 (value p) else vget (s.t.vreg d) p 0
  modT fun t => (t.setV d low).reach cf.vl
  if x.wide then
    modT fun t => t.setV (d + 1) (vtab 128 fun p => if p < cf.vl then BitVec.ofNat 32 (value p / 2 ^ 32) else vget (s.t.vreg (d + 1)) p 0)
  modT fun t => t.setReg a (word n)
  modify fun s => ((s.modLaunch la.1.key fun l => l.modLanding la.2.1 fun x => { x with head := x.head + n }).notePop la.1.key).activate la.1.key

/-- `qpop` (R424). -/
def execQpop (a b : SReg) (d : BitVec 5) (s : State) : Res := .next (finish (qpop a b d) s)

/-- QPOP_READY: a waiting pop proceeds once entries are ready or its landing closes (R424). -/
def execQpopReady (tid : Nat) (s : State) : Res :=
  .next (match (s.thread tid).stall with
    | .qpop a b d => finish (qpop a b d) ((s.switchTo tid).modT fun t => { t with stall := .none })
    | _ => s)

end Sys2Proof.Machine
end

