-- ==== Sys2Proof/Machine/FreeList.lean ====
section
/-! DEFINITION. Free lists, major 0x72: `flpop` and `flpush` (R425, R426). -/

namespace Sys2Proof.Machine

/-- A descriptor (Table 17.6): entry array, capacity, count, and the reserved bits. -/
structure FreeList where
  base : Word
  cap : Nat
  count : Nat
  rsvd : Nat
  deriving DecidableEq, Repr

def freeListOf (w : Nat) : FreeList := { base := word (fld w 192 64), cap := fld w 160 32, count := fld w 128 32, rsvd := fld w 0 128 }

/-- A malformed descriptor (R425). -/
def FreeList.bad (d : FreeList) : Bool :=
  d.base.extractLsb' 0 3 != 0 || d.base.extractLsb' 56 8 == 0xFF || decide (d.cap < d.count) || d.rsvd != 0

/-- Access to a descriptor and to memory where it is serialised: read and write, never a DEV page. -/
def accList : Acc := ⟨true, true, false, false⟩

/-- Read and check the descriptor; its faults are reported at the member. -/
def readFreeList (va : Word) : M (FreeList × List Place) := do
  if va.extractLsb' 0 5 ≠ 0 ∨ va.extractLsb' 56 8 ≠ 0 then raise .addrFault va 0 1
  else
    let ps ← placesOr va 32 accList 0 1
    let ps := ps.map Place.pastL1
    let bs ← readPlaces ps
    let w ← cleanOr va bs 0 1 0
    if (freeListOf w).bad then raise .addrFault va 0 1 else return (freeListOf w, ps)

/-- The array entries that lanes will use, with their lanes: a pop takes from the top, a push puts on it. -/
def listUses (pop : Bool) (cap : Nat) : Nat → List Nat → List (Nat × Nat)
  | _, [] => []
  | c, p :: rest =>
    if pop then (if 0 < c then (p, c - 1) :: listUses pop cap (c - 1) rest else listUses pop cap c rest)
    else (if c < cap then (p, c) :: listUses pop cap (c + 1) rest else listUses pop cap c rest)

/-- One 8-byte word moved for a lane: poison raises MEM_UE at the lane, after the count and the bits of the lanes before it are
written. -/
def moveWord (src dst : List Place) (va : Word) (p : Nat) (fin : M Unit) : M Unit := do
  let bs ← readPlaces src
  match bs.findIdx? (·.2) with
  | some i => do
    fin
    countM 39 1
    raise .memUe (va + word i) p (2 ^ (p % 16)) (some p)
  | none => writePlaces dst (bs.map (·.1))

/-- Serve the lanes in order from a count on; `fin n m` writes the count and the bits once lane `n` is the first not served. -/
def serveLanes (pop : Bool) (lane : Nat → Word) (entry : Nat → Word) (lanePl entryPl : Nat → List Place) (uses : List (Nat × Nat))
    (fin : Nat → Nat → Nat → M Unit) : List Nat → Nat → Nat → M (Nat × Nat)
  | [], c, bits => pure (c, bits)
  | p :: rest, c, bits =>
    match alookup p uses with
    | some j => do
      let stop := fin p c bits
      if pop then moveWord (entryPl j) (lanePl p) (entry j) p stop else moveWord (lanePl p) (entryPl j) (lane p) p stop
      serveLanes pop lane entry lanePl entryPl uses fin rest (if pop then c - 1 else c + 1) (bits + 2 ^ p)
    | none => do
      if pop then writePlaces (lanePl p) (List.replicate 8 0xFF)
      serveLanes pop lane entry lanePl entryPl uses fin rest c bits

/-- `flpop` and `flpush`: everything is checked before anything is performed, and the whole is indivisible. Skip mode leaves the lanes that
it names alone; after a fault of the descriptor itself the member does nothing, but after MEM_UE of it the skip is not honoured (Table 9.3,
R241, log 30); resumed beyond its last lane it does nothing (R243). -/
def freeList (pop : Bool) (a : QReg) (b c : SReg) (k : QReg) (imm : BitVec 16) : M Unit := do
  needUnit
  let cf ← vconfig clsAll true
  let s ← get
  if s.t.past cf.n then return ()
  let from_ := s.t.vstart.toNat
  let lane := fun (p : Nat) => s.t.reg b + imm.signExtend 64 + word (8 * p)
  let va := s.t.reg c
  let atList := decide ((s.t.xaddr - va).toNat < 32)
  let acts := (List.range cf.vl).filter fun p => decide (from_ ≤ p) && (s.t.qreg k).getLsbD p && !(s.t.skips p && !atList)
  if atList && s.t.skips 0 && s.t.skip.all fun k => k.cause != .memUe then return ()
  match ← attempt (readFreeList va) with
  | .error r => throw (.trap r)
  | .ok (d, dps) =>
    let entry := fun (j : Nat) => d.base + word (8 * j)
    let uses := listUses pop d.cap d.count acts
    let lanes ← entryPlaces 8 accStore (acts.map fun p => (p, lane p))
    let words ← entryPlaces 8 (if pop then accLoad else accStore) (uses.map fun u => (u.1, entry u.2))
    let bad := lanes.2 ++ words.2
    match lowestFault bad with
    | some f => raiseElem f bad 0
    | none => pure ()
    let lanePl := fun (p : Nat) => (alookup p lanes.1).getD []
    let entryPl := fun (j : Nat) => ((uses.find? fun u => u.2 == j).bind fun u => alookup u.1 words.1).getD []
    let old := (s.t.qreg a).toNat % 2 ^ from_
    let fin := fun (p n bits : Nat) => do
      writePlaces ((dps.drop 16).take 4) (leBytes 4 n)
      modT fun t => t.setQ a (BitVec.ofNat 128 (old + bits + (s.t.qreg a).toNat / 2 ^ p * 2 ^ p))
    let r ← serveLanes pop lane entry lanePl entryPl uses fin acts d.count 0
    fin 128 r.1 r.2

/-- `flpop` (R426). -/
def execFlpop (a : QReg) (b c : SReg) (k : QReg) (imm : BitVec 16) (s : State) : Res := .next (finish (freeList true a b c k imm) s)

/-- `flpush` (R426). -/
def execFlpush (a : QReg) (b c : SReg) (k : QReg) (imm : BitVec 16) (s : State) : Res := .next (finish (freeList false a b c k imm) s)

end Sys2Proof.Machine
end

