-- ==== Sys2Proof/Machine/Remote.lean ====
section
/-! DEFINITION. Remote tiles, major 0x73 (R427 to R429): `msend`, `mwait`, the window of unanswered messages and their injection (R49, R50),
and the notice of a refused send (R48). -/

namespace Sys2Proof.Machine

/-! ## Destination word and message (R46, R427) -/

/-- Fields of the destination word (Table 17.7). -/
def destTag (w : Word) : Nat := (w.extractLsb' 48 16).toNat
def destAsid (w : Word) : Nat := (w.extractLsb' 32 16).toNat
def destPkg (w : Word) : Nat := (w.extractLsb' 22 10).toNat
def destPart (w : Word) : Nat := (w.extractLsb' 16 6).toNat
def destMreg (w : Word) : Nat := (w.extractLsb' 0 9).toNat

/-- Eight elements or fewer packed from bit 0 (R299): the bytes of the leading `n` elements of a row. -/
def packRow (w n : Nat) (f : Nat → Nat) : List Byte :=
  leBytes (rowBytes n w) ((List.range n).foldl (fun acc i => acc + f i % 2 ^ w * 2 ^ (w * i)) 0)

/-- The payload of a tile: the leading rows and columns, each row packed on its own; and the bytes that come from poisoned words. -/
def tilePayload (t : Tile) (rows cols : Nat) : List Byte :=
  (List.range rows).flatMap fun r => packRow t.ety.width cols fun c => tileElem t (64 * r + c)

/-- Whether byte `k` of the payload comes from a poisoned word of the source tile (R46): a row of the payload is packed as the leading bytes of the
tile's row. -/
def payloadBad (t : Tile) (cols k : Nat) : Bool :=
  let rb := rowBytes cols t.ety.width
  t.poison.getLsbD ((k / rb * (8 * t.ety.width) + k % rb) / 8)

/-- The poison map of a payload of `n` bytes: one bit for each 8 bytes, in 64-byte beats. -/
def poisonMap (t : Tile) (cols n : Nat) : List Byte :=
  leBytes (64 * ceilDiv n 4096) ((List.range (ceilDiv n 8)).foldl (fun m j =>
    if (List.range 8).any fun i => decide (8 * j + i < n) && payloadBad t cols (8 * j + i) then m + 2 ^ j else m) 0)

/-- A payload padded with zeros to whole beats. -/
def padded (bs : List Byte) : List Byte := bs ++ List.replicate (64 * ceilDiv bs.length 64 - bs.length) 0

/-- The TILE message of a tile for a destination (Table 2.3); the common word's sequence number and STICK are set as it is sent. -/
def tileMsg (src : Nat) (dest : Word) (tid : Nat) (t : Tile) (rows cols : Nat) (seq : BitVec 16) : LinkMsg :=
  let p := tilePayload t rows cols
  let map := if (List.range p.length).any (payloadBad t cols) then poisonMap t cols p.length else []
  { common := commonWord 1 src (destPkg dest) seq p.length
    words := [word (destAsid dest * 2 ^ 48 + destPart dest * 2 ^ 42 + destMreg dest * 2 ^ 33 + t.ety.code.toNat * 2 ^ 27 +
        (rows - 1) * 2 ^ 21 + (cols - 1) * 2 ^ 15 + (if map.isEmpty then 0 else 2 ^ 14)),
      word (tid / 4 * 2 ^ 54 + tid % 4 * 2 ^ 52 + destTag dest), 0]
    pmap := map
    payload := padded p }

/-- A message with its tick at injection. -/
def stampMsg (m : LinkMsg) (tick : Word) : LinkMsg :=
  { m with words := m.words.take 2 ++ (if m.words.length ≤ 2 then [] else [tick]) }

/-! ## The window (R49, R50) -/

/-- The window to a destination: its first message has number 0, which the manual does not give (DESIGN CHOICE, log 85). -/
def State.win (s : State) (dest : Nat) : TxWin :=
  (s.tx.find? fun w => w.dest == dest).getD { dest := dest, next := 0, unacked := [], resends := 0, backoff := none }
def State.setWin (s : State) (w : TxWin) : State := { s with tx := (s.tx.filter fun x => x.dest != w.dest) ++ [w] }

/-- 32 messages to a destination await an answer. -/
def State.windowFull (s : State) (dest : Nat) : Bool := decide (32 ≤ (s.win dest).unacked.length)

/-- Whether a message may be injected: those before it to its destination have been, none of its thread's is unanswered (R50), and the leased writes of the
thread before it have been acknowledged (R227). -/
def State.mayInject (s : State) (w : TxWin) (m : Sent) : Bool :=
  !s.writesOut (some m.uid) none && (w.unacked.all fun x => x.ord ≥ m.ord || x.injected) &&
    s.tx.all fun v => v.unacked.all fun x => x.uid != m.uid || x.ord ≥ m.ord

/-- Inject the first message that may be. -/
def State.injectOne (s : State) : Option State :=
  s.tx.findSome? fun w => (w.unacked.find? fun m => !m.injected && s.mayInject w m).map fun m =>
    let s := s.sendLink (stampMsg m.msg s.tick)
    let sent := fun (x : Sent) => if x.ord == m.ord then { x with injected := true, msg := stampMsg m.msg s.tick } else x
    s.setWin { w with unacked := w.unacked.map sent }

/-- Inject every message that may be, at most `fuel` of them. -/
def injectAll : Nat → State → State
  | 0, s => s
  | fuel + 1, s =>
    match s.injectOne with
    | none => s
    | some s => injectAll fuel s

def State.inject (s : State) : State := injectAll ((s.tx.flatMap fun w => w.unacked).length) s

/-! ## REMOTE_NAK (R48) -/

/-- Post an asynchronous cause to the task of a binding, on its slot or pre-empted; a task that has ended receives nothing. -/
def State.postUid (s : State) (uid : Nat) (a : Async) : State :=
  match s.slots.find? fun tid => ((s.thread tid).task.map fun (k : Task) => k.uid) == some uid with
  | some tid => s.post tid a
  | none =>
    match s.pending.find? fun p => p.task.uid == uid && p.saved.isSome with
    | none => s
    | some p => s.postSaved p a

/-- The notice of a refused or unanswered message to its sender: DPKG, DPART and DREG, and the reason. -/
def State.remoteNak (s : State) (m : Sent) (reason : Nat) : State :=
  let w := m.msg.words.headD 0
  let dest := (m.msg.common.extractLsb' 40 10).toNat
  s.postUid m.uid { cause := .remoteNak, xelem := word reason, reg := 0
                    xaddr := word (dest * 2 ^ 15 + (w.extractLsb' 42 6).toNat * 2 ^ 9 + (w.extractLsb' 33 9).toNat) }

/-! ## `msend` and `mwait` -/

/-- Queue a message of the thread in hand. -/
def State.queueSend (s : State) (dest : Word) (t : Tile) (sh : Shape) : State :=
  let w := s.win (destPkg dest)
  let m : Sent :=
    { seq := w.next, msg := tileMsg s.ownId dest s.cur t sh.rows sh.cols w.next, uid := s.t.uid
      ord := s.nextSend, injected := false }
  ({ s with nextSend := s.nextSend + 1 }.setWin { w with next := w.next + 1, unacked := w.unacked ++ [m] }).inject

/-- `msend` (R428). -/
def execMsend (src : MSrc) (dest : SReg) (s : State) : Res :=
  let d := s.t.reg dest
  tileOp (do
    if d.extractLsb' 9 7 ≠ 0 then illegal
    let sh ← shape
    let ty ← sourceReg src.reg
    if !colsFit ty.1 sh.cols then vtypeIllegal
    if s.windowFull (destPkg d) then throw (.stall (.msendWindow (destPkg d)))
    demand (.msend src dest) [src.reg] [src.reg]
    let t ← readTile src
    modify fun s => (s.syncLease s.t.uid .x).queueSend d t sh) s

/-- MSEND_WINDOW_OPEN: the window of a waiting `msend` has room, and it issues again (R49). -/
def execMsendWindowOpen (tid : Nat) (s : State) : Res :=
  .next (match (s.thread tid).stall with
    | .msendWindow dest => if s.windowFull dest then s else (s.switchTo tid).modT fun t => { t with stall := .none }
    | _ => s)

/-- Wait until V of a register is 1; then acquire at `.x` (R429). -/
def awaitValid (d : MReg) : M Unit := do
  let e ← namedEntry d
  if entV e then modify fun s => s.acquire .x else throw (.stall (.mwait d))

/-- `mwait` (R429). -/
def execMwait (d : MReg) (s : State) : Res := tileOp (awaitValid d) s

/-- MWAIT_DONE: the register has become valid, and the `mwait` retires as an acquire at `.x` (R429). -/
def execMwaitDone (tid : Nat) (s : State) : Res :=
  match (s.thread tid).stall with
  | .mwait d => tileOp (awaitValid d) ((s.switchTo tid).modT fun t => { t with stall := .none })
  | _ => .next s

end Sys2Proof.Machine
end

