-- ==== Sys2Proof/Machine/CoreEvents.lean ====
section
/-! DEFINITION. Steps of a core that are no instruction of a thread: issue (R127), asynchronous delivery (R244) and pre-emption (R249), the
tile queue (R140 to R146), the map cache, fills and spills (R152 to R164), and vector units (R132 to R134). -/

namespace Sys2Proof.Machine

/-! ## Issue, delivery, pre-emption -/

/-- Issue from a slot: what comes before its next member is done, or the member is fetched and runs next. -/
def State.issue (s : State) (tid : Nat) : State :=
  let s := s.modCore (tid / 4) fun k => { k with lastSlot := tid % 4 }
  match prepare true tid s with
  | (s, none) => s
  | (s, some _) => { s with turn := .slot tid }

/-- CONVOY_ISSUE: the arbiter has taken a slot, whose next convoy issues (R103, R127, R128). -/
def execConvoyIssue (tid : Nat) (s : State) : Res := .next (s.issue tid)

/-- ASYNC_DELIVERY: a pending asynchronous cause is delivered at a boundary (R244). -/
def execAsyncDelivery (tid : Nat) (s : State) : Res :=
  .next (if (s.thread tid).canDeliver && !(s.thread tid).ending && (s.thread tid).task.isSome && !s.entryRuns tid then (s.switchTo tid).deliver else s)

/-- PREEMPTION: a chosen victim stops at its convoy boundary, saves its state and becomes pending (R101, R249, R250). -/
def execPreemption (tid : Nat) (s : State) : Res :=
  let t := s.thread tid
  .next (if t.preempt && t.atBoundary && !t.resumed && !t.ending && t.task.isSome && !s.entryRuns tid then (s.switchTo tid).preemptNow else s)

/-! ## The tile queue -/

/-- The engine of a tile instruction: 0 the MXA, 1 Goral, 2 the port to memory and the other engines. -/
def engineOf (i : Instr) : Nat :=
  match i with
  | .scout _ _ _ _ _ | .gthr _ _ _ _ _ | .gtopk _ _ _ _ _ | .gand _ _ _ | .gor _ _ _ | .gnot _ _ | .gpop _ _ _ _ | .gnext _ _ _
  | .sacc _ _ _ _ => 1
  | .mld _ _ _ _ | .mst _ _ _ | .mrow _ _ _ | .mput _ _ _ | .mcb _ _ | .gld _ _ | .gst _ _ | .msend _ _ | .mwait _ | .mpf _ _ _ => 2
  | _ => 0

/-- The entry of a slot in the tile queue. -/
def State.entry? (s : State) (tid : Nat) : Option TileEntry := (s.getCore (tid / 4)).tileq.find? fun e => e.tid == tid

def State.modEntry (s : State) (tid : Nat) (f : TileEntry → TileEntry) : State :=
  s.modCore (tid / 4) fun k => { k with tileq := k.tileq.map fun e => if e.tid == tid then f e else e }

/-- An engine of a core is executing an entry. -/
def Core.engineBusy (k : Core) (e : Nat) : Bool := k.tileq.any fun x => x.st == .executing && engineOf x.instr == e

/-- Whether an entry can start: RESOLVED, with its engine free and its issue not withheld by the governor (R115). -/
def State.canStart (s : State) (tid : Nat) : Bool :=
  let k := s.getCore (tid / 4)
  match s.entry? tid with
  | some e => e.st == .resolved && !k.engineBusy (engineOf e.instr) && !(k.withheld && decide (engineOf e.instr ≤ 1))
  | none => false

/-- TILE_ENGINE_START: a RESOLVED entry whose engine is free begins (Table 5.6). -/
def execTileEngineStart (tid : Nat) (s : State) : Res :=
  .next (if s.canStart tid then s.modEntry tid fun e => { e with st := .executing } else s)

/-- TILE_ENGINE_DONE: the engine has done an entry; its instruction, now the oldest of its thread, completes and retires. -/
def execTileEngineDone (tid : Nat) (s : State) : Res :=
  .next (match s.entry? tid with
    | some e =>
      if e.st == .executing then
        let s := ((s.modEntry tid fun e => { e with st := .done }).switchTo tid).modT fun t => { t with stall := .none }
        { s with turn := .slot tid }
      else s
    | none => s)

/-- TILE_FAULT_TAKEN: the fault of a FAULTED entry, now the oldest instruction of its thread, is taken (R144). -/
def execTileFaultTaken (tid : Nat) (s : State) : Res :=
  .next (match (s.entry? tid).bind fun e => if e.st == .faulted && !(s.thread tid).ending then e.fault else none with
    | some f =>
      let s := s.switchTo tid
      s.trap { cause := f.1, xaddr := f.2.1, xelem := f.2.2, xmask := 0, vstart := none } false
    | none => s)

/-! ## Map cache, fills and spills -/

/-- MAP_CACHE_FILL: a group of four entries arrives in a slot's map cache (R152); one that cannot be read is reported by the instruction
that names it (R151). -/
def execMapCacheFill (tid : Nat) (reg : MReg) (s : State) : Res :=
  let s1 := s.switchTo tid
  .next (if s1.t.tmapbase == 0 || s1.t.task.isNone || (s1.t.line? reg).isSome then s
    else engineRun (.map s1.t.uid reg) (do
      let _ ← attempt (fetchGroup reg)) s1)

/-- The slot of a core whose allocation waits for the eviction of a version. -/
def State.waitsFor (s : State) (core : Nat) (x : TileSet) : Option Nat :=
  ((List.range 4).map (4 * core + ·)).find? fun tid => (s.thread tid).stall == .spill x.ctx x.reg

/-- A fill that a waiting entry of the tile queue names. -/
def State.fillAwaited (s : State) (core : Nat) (x : TileSet) : Bool :=
  (s.getCore core).tileq.any fun e => (s.thread e.tid).ctx == x.ctx && e.fills.contains x.reg

/-- The fills that the FSE of a core holds in flight: 16, those that an entry waits for first, then other demand fills, then those of `mpf`, each in
the order of their requests (R160, R161). -/
def State.fillsInFlight (s : State) (core : Nat) : List TileSet :=
  let l := ((s.getCore core).sets ++ (s.getCore core).gone).filter fun x => x.filling && !x.dirty && x.blocked.isNone
  let first := l.filter (s.fillAwaited core)
  let rest := l.filter fun x => !s.fillAwaited core x
  (first ++ (rest.filter fun x => !x.hinted) ++ rest.filter (·.hinted)).take 16

/-- The spills that it holds in flight: 8, those that an allocation waits for first (R160, R161). -/
def State.spillsInFlight (s : State) (core : Nat) : List TileSet :=
  let l := (s.getCore core).sets.filter (·.spilling)
  ((l.filter fun x => (s.waitsFor core x).isSome) ++ l.filter fun x => (s.waitsFor core x).isNone).take 8

/-- The version of a register among those of a core, its active context's before another's. -/
def State.ofReg (s : State) (tid : Nat) (reg : MReg) (l : List TileSet) : Option TileSet :=
  let l := l.filter fun x => x.reg == reg
  match l.find? fun x => x.ctx == (s.thread tid).ctx with
  | some x => some x
  | none => l.head?

/-- The fill in flight of a register on a slot's core, which waits for no lender. -/
def State.fillOf (s : State) (tid : Nat) (reg : MReg) : Option TileSet :=
  s.ofReg tid reg ((s.fillsInFlight (tid / 4)).filter fun x => !s.awaits (.tiles x.job))

/-- Entries that awaited a register whose backing failed are FAULTED with FILL_FAULT (R163). -/
def State.failEntries (s : State) (core : Nat) (c : Ctx) (r : MReg) (va : Word) : State :=
  s.modCore core fun k => { k with tileq := k.tileq.map fun e =>
    if (s.thread e.tid).ctx == c && e.fills.contains r && e.st == .waitFill then
      { e with st := .faulted, fault := some (.fillFault, va, word r.toNat) } else e }

/-- A fill that has run on for nobody ends, and its set is free (R167). -/
def completeGone (core : Nat) (x : TileSet) : M Unit := do
  let _ ← fillImage x.ctx ((← get).ctxSup x.ctx) x.reg x.tile.code
  modify fun s => s.modCore core fun k => { k with gone := k.gone.filter fun y => y.job != x.job }

/-- A fill ends: the version becomes CLEAN, or its set is freed and the register is BACKED again, unless its entry cannot be written (Table 6.3;
log 74). -/
def completeFill (core : Nat) (x : TileSet) : M Unit := do
  let s ← get
  match ← fillImage x.ctx (s.ctxSup x.ctx) x.reg x.tile.code with
  | .ok t =>
    modify fun s => (s.modSets core fun l => l.map fun y =>
      if y.ctx == x.ctx && y.reg == x.reg then { y with tile := t, filling := false } else y).arrived core x.ctx x.reg
  | .error va =>
    let entry ← markEntry x true
    modify fun s =>
      let s := if x.hinted then (s.count x.ctx.part 26 1).modSets core fun l => l.map fun y => if y.job == x.job then { y with hinted := false } else y
        else s
      let s := s.failEntries core x.ctx x.reg va
      match entry with
      | none => s.modSets core fun l => dropSet l x.ctx x.reg
      | some ea => s.spillFault core x ea none

/-- FILL_COMPLETE: a fill of a register on a slot's core finishes or fails (R160, R163). -/
def execFillComplete (tid : Nat) (reg : MReg) (s : State) : Res :=
  .next (match s.fillOf tid reg with
    | some x =>
      let gone := (s.getCore (tid / 4)).gone.any fun y => y.job == x.job
      engineRun (.tiles x.job) (if gone then completeGone (tid / 4) x else completeFill (tid / 4) x) (s.switchTo tid)
    | none => s)

/-- The spill in flight of a register on a slot's core, which waits for no lender. -/
def State.spillOf (s : State) (tid : Nat) (reg : MReg) : Option TileSet :=
  s.ofReg tid reg ((s.spillsInFlight (tid / 4)).filter fun x => !s.awaits (.tiles x.job))

/-- A spill has read out its set, which is freed, or it is blocked and raises SPILL_FAULT (R160, R164). The accumulator bank that holds the
register is written back before (R146). -/
def completeSpill (core : Nat) (x : TileSet) : M Unit := do
  modify fun s => if (s.getCore core).acc.any fun b => b.ctx == x.ctx && b.reg == x.reg then s.writeBackAcc core else s
  let s ← get
  match findSet (s.getCore core).sets x.ctx x.reg with
  | none => pure ()
  | some y =>
    match ← evictVersion core y with
    | none => pure ()
    | some va => modify fun s => s.spillFault core y va (s.waitsFor core y)

/-- SPILL_COMPLETE: a spill of a register on a slot's core ends. -/
def execSpillComplete (tid : Nat) (reg : MReg) (s : State) : Res :=
  .next (match s.spillOf tid reg with
    | some x => engineRun (.tiles x.job) (completeSpill (tid / 4) x) (s.switchTo tid)
    | none => s)

/-! ## Vector units -/

/-- VECTOR_UNIT_GRANT: a free unit goes to the waiter of its core whose turn it is, which issues again, or whose saved state is restored first
(R133, R134). -/
def execVectorUnitGrant (tid : Nat) (s : State) : Res :=
  .next (if (s.thread tid).unitSince.isSome then
      match s.grantUnit tid with
      | some s =>
        s.setThread tid { s.thread tid with stall := if (s.thread tid).vlive then .vectorRestore else .none }
      | none => s
    else s)

/-- The holder that a starved waiter displaces: of equal or numerically higher priority, and of those the one that acquired its unit
earliest (R133). -/
def State.starveVictim (s : State) (tid : Nat) : Option Nat :=
  let k := s.getCore (tid / 4)
  let hs := [k.unit0, k.unit1].filterMap fun u => u.holder.map fun h => (u.acquired, h)
  let ok := hs.filter fun h => decide (s.prioOf tid ≤ s.prioOf h.2)
  match ok with
  | [] => none
  | [a] => some a.2
  | a :: b :: _ => if b.1 < a.1 then some b.2 else some a.2

/-- VECTOR_UNIT_STARVATION: after 65,536 cycles of waiting a holder is chosen for pre-emption, and its unit is for the waiter (R133). -/
def execVectorUnitStarvation (tid : Nat) (s : State) : Res :=
  .next (match (s.thread tid).unitSince with
    | some c =>
      let s := s.cycleTo (c + 65536)
      match s.starveVictim tid with
      | some v =>
        (s.setThread v { s.thread v with preempt := true }).modCore (tid / 4) fun k =>
          { k with starved := (k.starved.filter fun x => (s.thread x.1).unitSince == some x.2.1) ++ [(tid, c, ((s.thread v).unit).getD 0)] }
      | none => s
    | none => s)

/-- L, NSTR and LEN of a frame's header (Table 7.9). -/
def frameHigh (ws : List Word) : Nat := fld (ws.getD 7 0).toNat 16 8
def frameStreamsN (ws : List Word) : Nat := fld (ws.getD 6 0).toNat 53 3
def frameLen (ws : List Word) : Nat := fld (ws.getD 7 0).toNat 32 32

/-- A header that a restore refuses: FVER, NSTR, LEN or a reserved field (Table 7.9). An L outside 16 to 128 is none of the faults that R197 names, and a
frame with it is restored when LEN agrees (DESIGN CHOICE, log 56). -/
def headerBad (ws : List Word) : Bool :=
  fld (ws.getD 7 0).toNat 24 8 != 1 || decide (4 < frameStreamsN ws) || frameLen ws != 64 + 112 + 16 * frameStreamsN ws + 128 * frameHigh ws ||
    fld (ws.getD 6 0).toNat 0 53 != 0 || (List.range 5).any fun i => ws.getD i 0 != 0

/-- A stream entry with a reserved field that is not 0. -/
def entriesBad (ws : List Word) : Bool := (List.range (frameStreamsN ws)).any fun i => fld (ws.getD (23 + 2 * i) 0).toNat 37 27 != 0

/-- The registers of a frame: q1 to q7, and v0 to v31 with every element at or above L cleared (R197). -/
def Thread.fromFrame (t : Thread) (ws : List Word) : Thread :=
  let l := frameHigh ws
  let n := frameStreamsN ws
  let elem := fun r i => if i < l then let k := 44 + 4 * n + r * l + i; (ws.getD (k / 2) 0).extractLsb' (32 * (k % 2)) 32 else 0
  { t with q := vtab 8 fun i => if i = 0 then vget t.q 0 0 else BitVec.ofNat 128 (joinWords ws (8 + 2 * (i - 1)) 2)
           v := vtab 32 fun r => vtab 128 fun i => elem r i
           vhigh := l }

/-- Read the records of the streams that a frame names again, each as it now stands; the positions are the frame's (R197). -/
def frameStreams (ws : List Word) : List Nat → M (List Stream)
  | [] => pure []
  | i :: rest => do
    let w := ws.getD (23 + 2 * i) 0
    let r ← readRecord (w.extractLsb' 32 5) (ws.getD (22 + 2 * i) 0)
    let more ← frameStreams ws rest
    return { r with pos := (w.extractLsb' 0 32).toNat } :: more

/-- Restore the vector state of the thread in hand from the frame of its save record (R134, R197). -/
def restoreFrame : M Unit := do
  let s ← get
  match s.t.save with
  | none => pure ()
  | some i =>
    let a := s.saveAddr s.t.part i + recordBytes
    let r := s.readOwn s.t.part a 64
    set r.1
    if headerBad (wordsOf r.2) then raise .streamFault (word a)
    else
      let s ← get
      let r := s.readOwn s.t.part a (frameLen (wordsOf r.2))
      set r.1
      let ws := wordsOf r.2
      if entriesBad ws then raise .streamFault (word a)
      else
        let l ← frameStreams ws (List.range (frameStreamsN ws))
        modT fun t => { (t.fromFrame ws) with streams := l, save := none }

/-- VECTOR_STATE_RESTORE: the saved state is back in the acquired unit, and the thread's first vector member issues (R134, R197). -/
def execVectorStateRestore (tid : Nat) (s : State) : Res :=
  .next (if (s.thread tid).stall == .vectorRestore then
      let s0 := s.switchTo tid
      finishMoved (do
        restoreFrame
        modT fun t => { t with stall := .none }) (s0.modT fun t => { t with stall := .none })
    else s)

end Sys2Proof.Machine
end

