-- ==== Sys2Proof/Machine/Dkcp.lean ====
section
/-! DEFINITION. DKCP sessions as the device keeps them: sending with fragments and retries (R63, R64), closing, and the delivery of
completion entries (R68 to R70). -/

namespace Sys2Proof.Machine

/-- The partition number of management sessions. -/
def mgmtPart : Nat := 63

def State.session? (s : State) (id : BitVec 32) : Option Session := s.sessions.find? fun x => x.id == id
def State.modSession (s : State) (id : BitVec 32) (f : Session → Session) : State :=
  { s with sessions := s.sessions.map fun x => if x.id == id then f x else x }

/-! ## Sending -/

/-- A payload cut into fragments of at most 8,000 bytes (R63). -/
def fragments : Nat → List Byte → List (List Byte)
  | 0, _ => []
  | n + 1, bs => if bs.length ≤ 8000 then [bs] else bs.take 8000 :: fragments n (bs.drop 8000)

/-- Send the fragments of a message in a session; one that asks for an ACK is kept until it comes. -/
def sendFrags (id : BitVec 32) (typ : Nat) (ar : Bool) (comps : List CompEntry) : List (List Byte) → State → State
  | [], s => s
  | f :: rest, s =>
    match s.session? id with
    | none => s
    | some x =>
      let s := s.send (.dkcp id x.part x.nextSeq x.ver typ ar (!rest.isEmpty) f)
      let u : Unacked := { seq := x.nextSeq, typ := typ, ver := x.ver, more := !rest.isEmpty, payload := f, tries := 0, comps := comps }
      sendFrags id typ ar comps rest (s.modSession id fun y =>
        { y with nextSeq := y.nextSeq + 1, unacked := if ar then y.unacked ++ [u] else y.unacked })

/-- Send a message in a session. -/
def State.dkcpSend (s : State) (id : BitVec 32) (typ : Nat) (ar : Bool) (payload : List Byte) : State :=
  sendFrags id typ ar [] (fragments (payload.length / 8000 + 1) payload) s

/-! ## Completion entries (R68) -/

/-- An entry as it is sent: 16 bytes in version 2, 32 in version 3. -/
def CompEntry.bytes (e : CompEntry) (ver : BitVec 8) : List Byte :=
  let n := leBytes 8 e.id.toNat ++ leBytes 2 e.status.toNat ++ leBytes 2 e.cause.toNat ++ leBytes 4 0
  if ver == 2 then n else n ++ leBytes 8 e.stick.toNat ++ leBytes 8 e.etick.toNat

/-- The session that entries of a queue go to (R70). -/
def State.compSession (s : State) (part qid : Nat) : Option Session :=
  let mine := s.sessions.filter fun x => x.part == part
  let last := (s.queues.find? fun q => q.part == part && q.qid == qid).bind fun q => mine.find? fun x => x.id == q.session
  match last with
  | some x => some x
  | none => mine.head?

/-- The leading entries that one COMPLETE carries to a session: one in version 2, up to 32 in version 3. -/
def State.compBatch (s : State) (part : Nat) (x : Session) (l : List CompEntry) : List CompEntry :=
  (l.takeWhile fun e => (s.compSession part e.qid).any fun y => y.id == x.id).take (if x.ver == 2 then 1 else 32)

/-- Send the completion entries of a partition that have a session to go to. -/
def sendComps (part : Nat) : Nat → State → State
  | 0, s => s
  | fuel + 1, s =>
    match s.part? part with
    | none => s
    | some p =>
      match p.comps.head?.bind fun e => s.compSession part e.qid with
      | none => s
      | some x =>
        let b := s.compBatch part x p.comps
        let s := s.modPart part fun q => { q with comps := q.comps.drop b.length }
        sendComps part fuel (sendFrags x.id 0x11 true b [b.flatMap fun e => e.bytes x.ver] s)

def State.flushComps (s : State) (part : Nat) : State :=
  match s.part? part with
  | some p => sendComps part p.comps.length s
  | none => s

/-- Queue a completion entry of a partition. -/
def State.complete (s : State) (part : Nat) (e : CompEntry) : State :=
  (s.modPart part fun p => { p with comps := p.comps ++ [e] }).flushComps part

/-- A refusal entry is sent at once to the session in which the LAUNCH arrived (R69). -/
def State.refuseLaunch (s : State) (id : BitVec 32) (qid : Nat) (tail : BitVec 32) (status : BitVec 16) : State :=
  match s.session? id with
  | none => s
  | some x =>
    let e : CompEntry :=
      { qid := qid, id := word (0xFFFFFFC000000000 + qid * 2 ^ 32 + tail.toNat), status := status, cause := 0, stick := s.tick, etick := s.tick }
    s.dkcpSend id 0x11 true (e.bytes x.ver)

/-! ## Closing -/

/-- Close a session; its unacknowledged completion entries return to the head of the partition's queue (R70), also when BYE or idleness closes it, and the
entry of a refused LAUNCH that is not acknowledged is lost with its session, neither of which the manual says (DESIGN CHOICE, log 66). -/
def State.closeSession (s : State) (id : BitVec 32) : State :=
  match s.session? id with
  | none => s
  | some x =>
    let back := x.unacked.flatMap fun u => u.comps
    let s := { s with sessions := s.sessions.filter fun y => y.id != id }
    (s.modPart x.part fun p => { p with comps := back ++ p.comps }).flushComps x.part

end Sys2Proof.Machine
end

