-- ==== Sys2Proof/Machine/Place.lean ====
section
/-! DEFINITION. Placement (R89, R95 to R102, R458): the order of pending tasks, the cores that can take one, the state in which it starts or
resumes, and the choice of a task to pre-empt. -/

namespace Sys2Proof.Machine

/-! ## Order (R97, R99, R100) -/

/-- Effective priority: one less for every 2^20 cycles of waiting. -/
def State.effPrio (s : State) (k : Task) : Nat := k.prio - (s.now - k.since) / 2 ^ 20

/-- Whether a pending task goes before another: by effective priority, then system tasks (R97, R99). -/
def State.before (s : State) (a b : Task) : Bool :=
  let key := fun (k : Task) => s.effPrio k * 2 + (if k.launch.isSome then 1 else 0)
  decide (key a < key b)

/-- Insert after everything that does not come later: first come, first served. -/
def State.insertPending (s : State) (p : Pending) : List Pending → List Pending
  | [] => [p]
  | q :: rest => if s.before p.task q.task then p :: q :: rest else q :: s.insertPending p rest

/-- Pending tasks in the order in which they are offered. -/
def State.offered (s : State) : List Pending :=
  (s.pending.filter fun p => !(s.part? p.task.part).any (·.closing)).foldl (fun l p => s.insertPending p l) []

/-- A flight's domain is the package, or spans packages (Table 4.2). -/
def Launch.packageWide (l : Launch) (n : Nat) : Bool := (l.flights[n]?).any fun f => decide (4 ≤ f.domain)

/-- The pending tasks that are bound together with one: the stage-0 tasks of its flight-BARF instance that have not been bound, and all of stage 0 where
BARF's domain is the package (R89). -/
def State.unitOf (s : State) (p : Pending) : List Pending :=
  match p.task.launch.bind s.launch? with
  | some l =>
    if p.task.stage == 0 && p.home.isNone then
      let barf := ((l.stages[0]?).map (·.barf)).getD 0
      s.pending.filter fun q => q.task.launch == p.task.launch && q.task.stage == 0 && q.home.isNone &&
        (l.packageWide barf || instanceOf l q.task barf == instanceOf l p.task barf)
    else [p]
  | none => [p]

/-! ## Candidate cores (R97) -/

/-- The lowest free slot of a core; the slots in `freed` count as free. -/
def State.freeSlot (s : State) (c : Nat) (freed : List Nat) : Option Nat :=
  (List.range 4).find? fun i => (s.thread (4 * c + i)).task.isNone || freed.contains (4 * c + i)

/-- The domain instance of a core (Table 4.2). -/
def domInst (domain core : Nat) : Nat := match domain with
  | 1 => core
  | 2 => dieOf core * 8 + hallOf core
  | 3 => dieOf core
  | _ => 0

/-- A stage-0 task may lie on a core only inside the domain instances that its flight siblings have fixed (R87). -/
def Launch.domainOk (l : Launch) (k : Task) (c : Nat) : Bool :=
  k.stage != 0 || l.fixedDom.all fun f =>
    match l.flights[f.1]? with
    | some x => f.2.1 != instanceOf l k f.1 || f.2.2 == domInst x.domain c
    | none => true

/-- The domain instances that a task fixes by its core. -/
def Launch.fixDom (l : Launch) (k : Task) (c : Nat) : Launch :=
  if k.stage != 0 then l
  else
    let new := l.flights.zipIdx.filterMap fun f =>
      let e := (f.2, instanceOf l k f.2, domInst f.1.domain c)
      if f.1.domain == 0 || l.fixedDom.contains e then none else some e
    { l with fixedDom := l.fixedDom ++ new }

/-- A split that a task accepts on a core: its own, or any on a core that holds no task; a system task takes any (R97). -/
def State.splitOk (s : State) (k : Task) (c : Nat) : Bool :=
  match k.split with
  | none => true
  | some x => (s.getCore c).split == x || !s.holdsTask c

/-- The split that a core has with a task on it: an empty core takes the task's, and 0 with a system task (R97). -/
def State.splitWith (s : State) (k : Task) (c : Nat) : Nat := if s.holdsTask c then (s.getCore c).split else k.split.getD 0

/-- Galleries of another launch at a core. -/
def State.otherGalleries (s : State) (c : Nat) (launch : Option Nat) : Bool :=
  (List.range 4).any fun dir =>
    match neighbour c dir with
    | none => false
    | some d => let q := (s.getCore d).quarter (quarterOf dir); q.st == .lent && q.launch != launch

/-- A quarter that is not FREE keeps its bytes from allocations: its place in the core's own split, and what it is lent as. -/
def Quarter.blocks (x : Quarter) (q size lo n : Nat) : Bool :=
  let hit := fun (bytes : Nat) => decide (q * bytes < lo + n) && decide (lo < (q + 1) * bytes)
  x.st != .free && (hit (size / 4) || hit (spadBytes x.split / 4))

/-- The bases at which a task's scratchpad fits: within the scratchpad, in quarters that are FREE, and in no other allocation. -/
def State.spadRooms (s : State) (k : Task) (c : Nat) : List Nat :=
  let size := spadBytes (s.splitWith k c)
  let n := k.spadu * 4096
  ((List.range (size / 4096)).map (· * 4096)).filter fun lo =>
    decide (lo + n ≤ size) && !s.allocHit c lo n && (List.range 4).all fun q => !((s.getCore c).quarter q).blocks q size lo n

/-- The lowest of them. -/
def State.spadRoom (s : State) (k : Task) (c : Nat) : Option Nat := (s.spadRooms k c).head?

/-- Whether a core can take a task that starts on it, and where its scratchpad then lies; one whose two units are disabled is withdrawn
(R139). -/
def State.canHost (s : State) (k : Task) (lit' : Bool) (freed : List Nat) (c : Nat) : Option Nat :=
  let inPart := match s.part? k.part with
    | some p => p.holds c
    | none => false
  let tiles := match k.launch.bind s.launch? with
    | some l => l.domainOk k c && !(((l.stages[k.stage]?).map (·.tiles)).getD false && l.maps.isEmpty)
    | none => true
  let lanes := !(s.getCore c).unit0.laneMap.isEmpty || !(s.getCore c).unit1.laneMap.isEmpty
  if inPart && tiles && lanes && (!lit' || lit c) && !(s.getDie (dieOf c)).stop && (s.freeSlot c freed).isSome && s.splitOk k c &&
      !s.otherGalleries c k.launch then s.spadRoom k c
  else none

/-! ## Room for whole instances (R89) -/

/-- How many ranges of `n` bytes fit one after another at bases of an ascending list, from `from_` on. -/
def packRooms (n : Nat) : Nat → List Nat → Nat
  | _, [] => 0
  | from_, lo :: rest => if from_ ≤ lo then packRooms n (lo + n) rest + 1 else packRooms n from_ rest

/-- How many tasks like one a core can take. -/
def State.coreRoom (s : State) (k : Task) (lit' : Bool) (freed : List Nat) (c : Nat) : Nat :=
  if (s.canHost k lit' freed c).isNone then 0
  else
    let free := ((List.range 4).filter fun i => (s.thread (4 * c + i)).task.isNone || freed.contains (4 * c + i)).length
    min free (packRooms (k.spadu * 4096) 0 (s.spadRooms k c))

/-- How many instances of a flight cores can take: of its parts inside one instance of its domain, and so on down to threads; the flights are
given from the top. -/
def State.flightRoom (s : State) (k : Task) (lit' : Bool) (freed : List Nat) : List Flight → List Nat → Nat
  | [], cores => cores.foldl (fun n c => n + s.coreRoom k lit' freed c) 0
  | f :: below, cores =>
    ((cores.map (domInst f.domain)).eraseDups).foldl (fun n x =>
      n + s.flightRoom k lit' freed below (cores.filter fun c => domInst f.domain c == x) / (if f.domain = 5 then 1 else f.count)) 0

/-- Whether a core leaves room for the instances that a stage-0 task would fix to its domains: each flight up to BARF whose instance lies nowhere
yet must fit whole in the core's instance of its domain (R87, R89). -/
def State.roomFor (s : State) (l : Launch) (k : Task) (lit' : Bool) (freed : List Nat) (c : Nat) : Bool :=
  let barf := ((l.stages[0]?).map (·.barf)).getD 0
  k.stage != 0 || ((List.range (barf + 1)).drop 1).all fun i =>
    match l.flights[i]? with
    | none => true
    | some f =>
      l.fixedDom.any (fun x => x.1 == i && x.2.1 == instanceOf l k i) ||
        decide (1 ≤ s.flightRoom k lit' freed (((l.flights.take (i + 1)).drop 1).reverse)
          ((List.range 576).filter fun d => domInst f.domain d == domInst f.domain c))

/-- Whether a hot task may run as warm. -/
def State.demotes (s : State) (k : Task) : Bool :=
  match k.launch.bind s.launch? with
  | some l => ((l.stages[k.stage]?).map (·.demote)).getD false
  | none => false

/-- Whether a core can take a task, with room for the members that are bound with it; where its scratchpad then lies. -/
def State.hosts (s : State) (k : Task) (lit' : Bool) (freed : List Nat) (c : Nat) : Option Nat :=
  (s.canHost k lit' freed c).filter fun _ =>
    match k.launch.bind s.launch? with
    | some l => s.roomFor l k (lit' && !s.demotes k) freed c
    | none => true

/-- A die's quota admits another task of a stage, placed as hot or not (R98). -/
def State.underQuota (s : State) (k : Task) (d : Nat) (hot : Bool) : Bool :=
  match k.launch with
  | none => true
  | some key => s.underPool key k.stage d hot

/-- CD4 offers no task of a stage while TLIM of it are bound (R458). -/
def State.underTlim (s : State) (k : Task) : Bool :=
  match k.launch.bind s.launch? with
  | none => true
  | some l =>
    match l.stages[k.stage]? with
    | none => true
    | some st => st.tlim == 0 || decide (s.stageBound l.key k.stage < st.tlim)

/-- The core of a die that takes a task: of those that can, the one with the fewest bound slots, then the lowest id. -/
def State.pickCore (s : State) (k : Task) (lit' : Bool) (d : Nat) : Option (Nat × Nat) :=
  ((List.range 64).map (64 * d + ·)).foldl (fun best c =>
    match s.hosts k lit' [] c with
    | none => best
    | some base =>
      match best with
      | none => some (c, base)
      | some b => if (s.boundOn c).length < (s.boundOn b.1).length then some (c, base) else some b) none

/-- The first die that takes a task, in ascending order (R458). -/
def State.pickDie (s : State) (k : Task) (lit' quota : Bool) : Option (Nat × Nat) :=
  (List.range 9).findSome? fun d => if quota && !s.underQuota k d lit' then none else s.pickCore k lit' d

/-! ## Start state (R95, R278, Table 4.6) -/

def windowBase : Word := 0xFF00000000000000

/-- Threads of stage 0 in one package. -/
def Launch.stage0Count (l : Launch) : Nat := flightSize (l.flights.filter fun f => f.domain != 5) l.flights.length

/-- Threads of stage 0 in the whole launch: those of every package of a gang (R87). -/
def Launch.stage0Total (l : Launch) : Nat := l.stage0Count * if l.gang then l.npkg + 1 else 1

/-- The scalar registers at task start. -/
def startRegs (s : State) (k : Task) : List (SReg × Word) :=
  match k.launch.bind s.launch? with
  | some l =>
    [(2, windowBase + word (k.spadu * 4096 - 4096)), (3, windowBase), (4, l.args), (5, word k.index),
     (6, if k.stage == 0 then word l.stage0Total else 0), (7, k.sarg)]
  | none =>
    [(2, windowBase + word (k.spadu * 4096 - 4096)), (3, windowBase), (4, word (ctlBase + k.part * 4096)), (5, word k.part)]

/-- The thread of a task at its first convoy. -/
def startThread (s : State) (k : Task) (held : Bool) : Thread :=
  let xvec := match s.part? k.part with
    | some p => p.xvec
    | none => 0
  let base : Word := match k.mapSlot, k.launch.bind s.launch? with
    | some j, some l => l.tmpool + word (j * 2 ^ 24)
    | _, _ => 0
  let t := { Thread.reset with pc := k.entry, sup := k.supervisor, xvec := xvec &&& ~~~1, tmapbase := base
                               stall := if held then .gang else .none, task := some k }
  (startRegs s k).foldl (fun t r => t.setReg r.1 r.2) t

/-- The reset values of the entries of a map (Table 6.2): BOFF is 2 + 5n, all else 0. -/
def freshMap : List Byte := (List.range 512).flatMap fun n => leBytes 16 ((2 + 5 * n) * 2 ^ 64)

/-- Write the reset value of every entry of a map (R95, R150): the cause that refuses it. Versions left resident under its context name
nothing any more. -/
def clearMap (c : Ctx) : M (Option Cause) := do
  match ← (fsePlaces c false c.base 8192 : StateM State _) with
  | .error (_, x) => return some x
  | .ok ps =>
    writeRuns (storeRuns ps freshMap)
    modify fun s => s.cores.foldl (fun s k => (k.2.sets.filter fun x => x.ctx == c).foldl (fun s x => s.freeVersion k.1 x) s) s
    return none

/-- What becomes of an attempt to bind a task: done, or the reset of its tile map waits for leased memory (R95). -/
inductive Bind where
  | done (s : State)
  | wait (who : Asker) (x : Stop)

/-- Who asks for the leased accesses of the reset of a task's tile map. -/
def Task.poolAsker (k : Task) : Asker := .pool (k.launch.getD 0) k.stage k.index

/-- Prepare the tile map of the task in hand; a failing write ends its launch with the fault's cause. -/
def State.startMap (s : State) (who : Asker) : Bind :=
  if s.t.tmapbase == 0 then .done s
  else
    match runAs who (clearMap s.t.ctx) s with
    | (.ok none, s') => .done (s'.askDone who)
    | (.ok (some c), s') => .done ((s'.askDone who).endTask (some c.code))
    | (.error x, _) => .wait who x

/-- An attempt to bind goes on once what it waits for has come: a request is sent, or a leased line that has to go to its lender first does. -/
def State.bindWaits (s : State) (who : Asker) (x : Stop) : Option State :=
  match x with
  | .lease part req | .leaseKept part req => some (s.ask who part req)
  | .stall (.links (some n)) =>
    if (s.getDie (n / 64 % 9)).l2.any fun l => l.num == n && l.home.isSome then some (s.dropLease fun l => l.num == n) else none
  | _ => none

/-- What a launch notes when one of its tasks is bound. -/
def Launch.noteBound (l : Launch) (k : Task) (c : Nat) (tick : Word) : Launch :=
  { (l.fixDom k c) with stick := some (l.stick.getD tick), maps := match k.mapSlot with
      | some j => l.maps.filter (· != j)
      | none => l.maps }

/-- Bind a task that has not run to a core, with its scratchpad at a base and in a heat class. -/
def State.bindFresh (s : State) (p : Pending) (c base heat : Nat) : Bind :=
  match s.freeSlot c [] with
  | none => .done s
  | some i =>
    let tid := 4 * c + i
    let l := p.task.launch.bind s.launch?
    let tiles := ((l.bind fun l => l.stages[p.task.stage]?).map (·.tiles)).getD false
    let k := { p.task with spadBase := base, heat := heat, since := s.now, uid := s.nextUid
                           mapSlot := if tiles then l.bind fun l => l.maps.head? else none }
    let me := s.cur
    let s := { s with pending := s.pending.erase p, nextUid := s.nextUid + 1 }
    let s := s.modCore c fun x => { x with split := s.splitWith k c }
    let s := match k.launch with
      | some key => s.modLaunch key fun l => l.noteBound k c s.tick
      | none => s
    let s := s.setThread tid (startThread s k (l.any fun l => !l.started))
    let s := s.zeroRange (spadKey c base) (k.spadu * 4096)
    let s := s.emitTask tid 3 0x30 ((s.launchId k).toNat + k.stage % 8 * 2 ^ 64 + k.index % 2 ^ 32 * 2 ^ 67)
    match (s.switchTo tid).startMap p.task.poolAsker with
    | .done s => .done ((s.switchTo me).scanCore c)
    | w => w

/-- A stage has no slot to receive in a pool of a die: it is over its quota, or its quota is 0 (R98, R458). -/
def State.noSlot (s : State) (key j d : Nat) (hot : Bool) : Bool := s.overPool key j d hot || s.quotaOf key j d hot == some 0

/-- A thread that resumes at a `bar` whose barrier has completed retires it (R336). -/
def Thread.resumeBar (t : Thread) : Thread := if t.stall == .barDone then t.retire else t

/-- Resume a pre-empted task on the core that it left, as its save record then describes it (R102, R250); one of a gang that has not started is held
again (R104). -/
def State.bindSaved (s : State) (p : Pending) : Option State :=
  match p.home, p.saved with
  | some (c, _), some t =>
    if (s.getDie (dieOf c)).stop || p.task.launch.any fun key => s.noSlot key p.task.stage (dieOf c) (p.task.heat == 2) then none
    else
      (s.freeSlot c []).map fun i =>
        let k := { p.task with since := s.now }
        let s := { s with pending := s.pending.erase p }
        let r := s.restored k.part t
        let held := (k.launch.bind s.launch?).any fun (l : Launch) => !l.started
        let s := r.1.setThread (4 * c + i) { r.2.resumeBar with task := some k, stall := if held then .gang else r.2.resumeBar.stall }
        (s.emitTask (4 * c + i) 3 0x30 ((s.launchId k).toNat + k.stage % 8 * 2 ^ 64 + k.index % 2 ^ 32 * 2 ^ 67)).scanCore c
  | _, _ => none

/-- Bind one pending task, when some core can take it; `quota` asks for the die's quota. -/
def State.bindOne (s : State) (quota : Bool) (p : Pending) : Option Bind :=
  if p.home.isSome then (s.bindSaved p).map .done
  else if s.awaits p.task.poolAsker then none
  else
    let hot := p.task.heat == 2
    match s.pickDie p.task hot quota with
    | some x => some (s.bindFresh p x.1 x.2 p.task.heat)
    | none => if hot && s.demotes p.task then (s.pickDie p.task false quota).map fun x => s.bindFresh p x.1 x.2 1 else none

/-- Bind all of a list or none; only the first needs room under the quota (R89). -/
def State.bindAll (s : State) : Bool → List Pending → Option Bind
  | _, [] => some (.done s)
  | quota, p :: rest =>
    match s.bindOne quota p with
    | some (.done s) => s.bindAll false rest
    | x => x

/-- Bind the unit of a pending task. -/
def State.bindUnit (s : State) (p : Pending) : Option Bind := if s.underTlim p.task then s.bindAll true (s.unitOf p) else none

/-! ## Pre-emption (R101) -/

/-- A task waits at a barrier in the flight-BARF instance of a task, bound or pre-empted (R101). -/
def State.instanceAtBar (s : State) (k : Task) : Bool :=
  match k.launch.bind s.launch? with
  | none => false
  | some l =>
    let barf := ((l.stages[0]?).map (·.barf)).getD 0
    let waits := fun (o : Task) (t : Thread) =>
      o.launch == k.launch && o.stage == 0 && instanceOf l o barf == instanceOf l k barf && (match t.stall with
        | .bar _ => true
        | _ => false)
    k.stage == 0 && (s.bound.any (fun b => waits b.2 (s.thread b.1)) || s.pending.any fun p => p.saved.any fun t => waits p.task t)

/-- Galleries are present at a core. -/
def State.anyGallery (s : State) (c : Nat) : Bool := (List.range 4).any fun d => s.hasGallery c d

/-- Whether a bound task must give way to a pending one that can use its slot. -/
def State.givesWay (s : State) (p : Pending) (b : Nat × Task) : Bool :=
  let c := b.1 / 4
  let sys := p.task.launch.isNone
  let same := sys || p.task.launch == b.2.launch
  decide (s.effPrio p.task < b.2.prio) && !(s.thread b.1).ending && (same || !(lit c && s.anyGallery c)) && (same || !s.instanceAtBar b.2)

/-- Whether a pending task could run in the slot of a bound one: that slot counts as free, and, for what is bound with the task, so do all others whose
tasks must give way to it (R89, R101; log 65). -/
def State.couldUse (s : State) (p : Pending) (tid : Nat) : Bool :=
  match p.home with
  | some (c, _) => c == tid / 4 && !(s.getDie (dieOf c)).stop
  | none =>
    let freed := tid :: (s.bound.filter (s.givesWay p)).map fun (b : Nat × Task) => b.1
    let can := fun (hot : Bool) => s.underQuota p.task (dieOf (tid / 4)) hot && (s.hosts p.task hot freed (tid / 4)).isSome
    can (p.task.heat == 2) || (p.task.heat == 2 && s.demotes p.task && can false)

/-- Whether a bound task may be pre-empted for a pending one. -/
def State.mayPreempt (s : State) (p : Pending) (b : Nat × Task) : Bool :=
  s.givesWay p b && !(s.thread b.1).preempt && s.couldUse p b.1

/-- A slot that a pending task could use is being pre-empted. -/
def State.victimComing (s : State) (p : Pending) : Bool := s.bound.any fun b => (s.thread b.1).preempt && s.couldUse p b.1

/-- The slot that is pre-empted for a pending task: the highest priority number, then the longest bound; none while one already is. -/
def State.victimFor (s : State) (p : Pending) : Option Nat :=
  if !s.underTlim p.task || s.awaits p.task.poolAsker || s.victimComing p then none
  else
    ((s.bound.filter (s.mayPreempt p)).foldl (fun best b =>
      match best with
      | none => some b
      | some x => if x.2.prio < b.2.prio || (x.2.prio == b.2.prio && decide (b.2.since < x.2.since)) then some b else some x) none).map
        fun (b : Nat × Task) => b.1

/-! ## TASK_PLACE -/

/-- The lit core that a cool or warm task of a launch would take, when it would take one: that which it left, if it was pre-empted. -/
def State.litTaken (s : State) (p : Pending) : Option Nat :=
  if p.task.heat == 2 || p.task.launch.isNone then none
  else
    let c : Option Nat := match p.home with
      | some (h, _) => some h
      | none => (s.pickDie p.task false true).map fun (x : Nat × Nat) => x.1
    c.filter lit

/-- The hot task, new or pre-empted, that takes a lit core before a cool or warm one of the same effective priority (R98). -/
def State.hotRival (s : State) (p : Pending) : Option Pending :=
  (s.litTaken p).bind fun c => s.offered.find? fun q =>
    q.task.heat == 2 && s.effPrio q.task == s.effPrio p.task && (match q.home with
      | some (h, _) => h == c
      | none => s.underQuota q.task (dieOf c) true && (s.hosts q.task true [] c).isSome) && (s.bindUnit q).isSome

/-- Bind the unit of a pending task, or of the hot one that goes before it; what a binding waits for is requested. -/
def State.placeUnit (s : State) (p : Pending) : Option State :=
  match s.bindUnit p with
  | none => none
  | some b =>
    match ((s.hotRival p).bind s.bindUnit).getD b with
    | .done s' => some s'
    | .wait who x => s.bindWaits who x

/-- Go through the pending tasks in order: bind the first that can be bound, or choose a victim for the first that needs one. While a victim of one that
comes before is leaving, the later ones of its partition wait (log 65). -/
def State.placeFirst (s : State) : List Pending → List Nat → Option State
  | [], _ => none
  | p :: rest, busy =>
    if busy.contains p.task.part then s.placeFirst rest busy
    else
      match s.placeUnit p with
      | some s' => some s'
      | none =>
        match s.victimFor p with
        | some v => some (s.setThread v { s.thread v with preempt := true })
        | none => s.placeFirst rest (if s.victimComing p then p.task.part :: busy else busy)

/-- One placement. -/
def State.placeOne (s : State) : Option State := s.placeFirst s.offered []

/-- TASK_PLACE: pending tasks are offered to dies and bound to slots (R458). -/
def execTaskPlace (s : State) : Res := .next (s.placeOne.getD s)

end Sys2Proof.Machine
end

