-- ==== Sys2Proof/Machine/Quarter.lean ====
section
/-! DEFINITION. The lending states of quarters (R107 to R111, R170, Table 4.7): eviction, the gallery, reclaim, scrub. -/

namespace Sys2Proof.Machine

/-! ## Versions in lent granules -/

/-- The granules of quarter `q` as their own core and as their borrower number them. -/
def ownRange (q g : Nat) : Bool := decide (512 * q ≤ g) && decide (g < 512 * (q + 1))
def galleryRange (q g : Nat) : Bool := let d := (q + 2) % 4; decide (2048 + 512 * d ≤ g) && decide (g < 2048 + 512 * (d + 1))

/-- The versions of a core that hold a granule of a range, and those that a queued entry still reads or a fill still writes (R155, R167). -/
def State.setsIn (s : State) (core : Nat) (inR : Nat → Bool) : List TileSet := (s.getCore core).sets.filter fun x => x.granules.any inR
def State.heldIn (s : State) (core : Nat) (inR : Nat → Bool) : Bool :=
  ((List.range 4).any fun i => (s.thread (4 * core + i)).held.any fun x => x.granules.any inR) ||
    (s.getCore core).gone.any fun x => x.granules.any inR

/-- No version is left in a range. -/
def State.emptied (s : State) (core : Nat) (inR : Nat → Bool) : Bool := (s.setsIn core inR).isEmpty && !s.heldIn core inR

/-- Whether the FSE can act on a version now: no queued entry pins it, and no fill or spill of it is in flight. -/
def State.evictable (s : State) (core : Nat) (x : TileSet) : Bool := !s.pinned core x && !x.filling && !x.spilling && x.blocked.isNone

/-- Evict one version: a dirty one is spilled, and on reclaim counted, a clean one dropped (R158, R170). A context that has ended left none
(R96). -/
def State.evictOne (s : State) (core : Nat) (reclaim : Bool) (x : TileSet) : State :=
  (if reclaim && x.dirty then s.count x.ctx.part 31 1 else s).modSets core fun l =>
    l.map fun y => if y.ctx == x.ctx && y.reg == x.reg then { y with spilling := true } else y

/-- Evict what can be evicted from a range. -/
def State.evictRange (s : State) (core : Nat) (reclaim : Bool) (inR : Nat → Bool) : State :=
  ((s.setsIn core inR).filter (s.evictable core)).foldl (fun s x => s.evictOne core reclaim x) s

/-! ## The steps of Table 4.7 -/

/-- Bytes of a quarter, by the split of the launch it is lent to. -/
def Quarter.bytes (x : Quarter) : Nat := spadBytes x.split / 4

/-- An allocation of core `d` overlaps its quarter `q`. -/
def State.quarterUsed (s : State) (d q : Nat) : Bool :=
  let n := ((s.getCore d).quarter q).bytes
  s.allocHit d (q * n) n

/-- QUARTER_DRAIN: no allocation overlaps a RESERVED quarter, and its granules are evicted. -/
def execQuarterDrain (core quarter : Nat) (s : State) : Res :=
  let x := (s.getCore core).quarter quarter
  .next (if x.st == .reserved && !s.quarterUsed core quarter then
      (s.moveQuarter core quarter { x with st := .draining }).evictRange core false (ownRange quarter)
    else s)

/-- QUARTER_LEND: the eviction is complete, and the gallery is mapped at its borrower; a borrower that has left gets nothing. -/
def execQuarterLend (core quarter : Nat) (s : State) : Res :=
  let x := (s.getCore core).quarter quarter
  .next (if x.st == .draining then
      if s.emptied core (ownRange quarter) then
        if (borrower core quarter).any fun b => s.holdsHot b x.launch true then s.moveQuarter core quarter { x with st := .lent }
        else s.moveQuarter core quarter noQuarter
      else s.evictRange core false (ownRange quarter)
    else s)

/-- QUARTER_SCRUB: the borrower's versions leave the granules of a RECLAIM quarter; once none remains the quarter is zeroed. -/
def execQuarterScrub (core quarter : Nat) (s : State) : Res :=
  let x := (s.getCore core).quarter quarter
  .next (if x.st == .reclaim then
      match borrower core quarter with
      | none => s
      | some b =>
        if s.emptied b (galleryRange quarter) then
          (s.zeroRange (spadKey core (quarter * x.bytes)) x.bytes).moveQuarter core quarter { x with st := .scrub }
        else s.evictRange b true (galleryRange quarter)
    else s)

/-- QUARTER_FREE: the zeroing is complete; a hot neighbour may reserve the quarter again. -/
def execQuarterFree (core quarter : Nat) (s : State) : Res :=
  let x := (s.getCore core).quarter quarter
  .next (if x.st == .scrub then (s.moveQuarter core quarter noQuarter).scanCore core else s)

end Sys2Proof.Machine
end

