-- ==== Sys2Proof/Machine/Epoch.lean ====
section
/-! DEFINITION. The periodic work of the distributors and cores: slot quotas (R98), grant levels (R113), the current governor (R115, R116)
and PC samples (R252). -/

namespace Sys2Proof.Machine

/-! ## Quotas (R98) -/

/-- The slots of a partition on a die that satisfy a predicate of their core. -/
def Partition.slotsOn (p : Partition) (d : Nat) (ok : Nat → Bool) : List Nat :=
  ((List.range 64).map (64 * d + ·)).flatMap fun c => if p.holds c && ok c then (List.range 4).map (4 * c + ·) else []

/-- Slots of a pool less those bound to tasks of the other kind: the lit pool for hot tasks, the general pool for the rest. -/
def State.poolSize (s : State) (p : Partition) (d : Nat) (hot : Bool) : Nat :=
  ((p.slotsOn d fun c => !hot || lit c).filter fun tid =>
    match (s.thread tid).task with
    | none => true
    | some k => (k.heat == 2) == hot).length

/-- A landing that a stage appends to is at least three quarters full. -/
def Launch.crowded (l : Launch) (j : Nat) : Bool := l.landings.any fun x => x.pmask.getLsbD j && decide (3 * x.cap ≤ 4 * x.ready)

/-- The tasks of a stage that have waited in one `capp` for the whole epoch of a die that now ends: it began before the epoch did. -/
def State.stalledTasks (s : State) (d key j : Nat) : List Nat :=
  (s.bound.filter fun b => b.2.launch == some key && b.2.stage == j && (match (s.thread b.1).stall with
    | .capp _ _ _ _ _ since => decide (since < (s.getDie d).epoch)
    | _ => false)).map (·.1)

/-- The weight of a stage. -/
def State.weight (s : State) (d : Nat) (l : Launch) (j : Nat) (st : Stage) : Nat :=
  let w := match if st.inv then l.landings[st.inl]? else none with
    | some x => ceilDiv x.ready 128
    | none => s.stagePending l.key j
  let w := if l.crowded j then w / 4 else w
  if (s.stalledTasks d l.key j).isEmpty then w else 0

/-- Give one more to each entry with work, in order, while slots remain. -/
def oneMore : Nat → List (Nat × Nat × Nat) → List (Nat × Nat × Nat)
  | _, [] => []
  | 0, l => l
  | n + 1, (j, w, q) :: rest => if 0 < w then (j, w, q + 1) :: oneMore n rest else (j, w, q) :: oneMore (n + 1) rest

/-- At least one for each entry with work, in order, while the sum stays within `left` more. -/
def atLeastOne : Nat → List (Nat × Nat × Nat) → List (Nat × Nat × Nat)
  | _, [] => []
  | 0, l => l
  | left + 1, (j, w, q) :: rest =>
    if 0 < w ∧ q = 0 then (j, w, 1) :: atLeastOne left rest else (j, w, q) :: atLeastOne (left + 1) rest

/-- The slots that quotas give. -/
def quotaSum (l : List (Nat × Nat × Nat)) : Nat := l.foldl (fun a x => a + x.2.2) 0

/-- The quotas of a pool of `n` slots from stages with their weights. -/
def poolQuotas (n : Nat) (ws : List (Nat × Nat)) : List (Nat × Nat) :=
  let total := ws.foldl (fun a x => a + x.2) 0
  if total = 0 then ws.map fun x => (x.1, 0)
  else
    let base := ws.map fun x => (x.1, x.2, n * x.2 / total)
    let more := oneMore (n - quotaSum base) base
    (atLeastOne (n - quotaSum more) more).map fun x => (x.1, x.2.2)

/-- The quotas of a launch on a die: the hot stages draw on the lit pool, all others and hot ones that may be demoted on the general pool. -/
def State.launchQuotas (s : State) (d : Nat) (l : Launch) : List (Nat × Nat × Bool × Nat) :=
  match s.part? l.part with
  | none => []
  | some p =>
    let pool := fun (hot : Bool) (ok : Stage → Bool) =>
      (poolQuotas (s.poolSize p d hot) ((l.stages.zipIdx.filter fun x => ok x.1).map fun x => (x.2, s.weight d l x.2 x.1))).map
        fun q => (l.key, q.1, hot, q.2)
    pool true (fun x => x.heat == 2) ++ pool false fun x => x.heat != 2 || x.demote

/-! ## Grant levels (R113) -/

/-- A level and its count of calm epochs after an epoch. -/
def nextLevel (level calm : Nat) (raise lower : Bool) : Nat × Nat :=
  if raise then (if level < 3 then (level + 1, 0) else (level, 0))
  else if lower then
    if 0 < level ∧ 15 ≤ calm then (level - 1, 0) else (level, calm + 1)
  else (level, 0)

/-- The record of a level change: 0 the package, 1 a die (Table 9.8). -/
def State.emitLevel (s : State) (core level which : Nat) (inPart : Partition → Bool) : State :=
  s.parts.foldl (fun s p => if inPart p then s.emit p.id 3 0x33 core 0 0 (level + which * 4) else s) s

/-- The thermal level of a die for the next epoch. -/
def State.dieLevel (s : State) (d : Nat) : State :=
  let x := s.getDie d
  let r := nextLevel x.level x.calm (x.temps.any fun t => decide (950 ≤ t)) (x.temps.all fun t => decide (t ≤ 920))
  let s' := s.modDie d fun k => { k with level := r.1, calm := r.2 }
  if r.1 = x.level then s'
  else s'.emitLevel (64 * d) r.1 1 fun p => (List.range 4).any fun j => p.pairs.getLsbD (4 * d + j)

/-- The package level for the next epoch: power in W, current in 0.1 A (Table 4.11). -/
def State.pkgLevel (s : State) : State :=
  let r := nextLevel s.level s.calm (decide (2400 < s.power) || decide (48000 < s.current))
    (decide (s.power < 2280) && decide (s.current < 45000))
  let s' := { s with level := r.1, calm := r.2 }
  if r.1 = s.level then s' else s'.emitLevel 256 r.1 0 fun _ => true

/-- DST_EPOCH: a die's quotas and thermal level, and on CD4 the package level; a task stalled in `capp` for the whole epoch is chosen for
pre-emption (R98, R113). -/
def execDstEpoch (die : Nat) (s : State) : Res :=
  let q := s.launches.flatMap (s.launchQuotas die)
  let stuck := (s.launches.flatMap fun l => (List.range l.stages.length).flatMap fun j => s.stalledTasks die l.key j).filter fun tid =>
    dieOf (tid / 4) == die
  let s := stuck.foldl (fun s tid => s.setThread tid { s.thread tid with preempt := true }) s
  let s := (s.modDie die fun k => { k with quota := q, epoch := s.now }).dieLevel die
  .next (s.launches.foldl (fun s l => s.activate l.key) (if die = 4 then s.pkgLevel else s))

/-! ## The current governor (R115, R116) -/

/-- Milliamperes that a governed current may move in 64 cycles at 0.69 A/µs. -/
def rampStep : Nat := 17

/-- CURRENT_GOVERNOR: the estimate of a core's current limits its issue, and the ballast draws what a fall leaves, which decays at the slope that
the management controller has programmed. -/
def execCurrentGovernor (core : Nat) (s : State) : Res :=
  let real := Config.coreCurrent core s.free
  let s := { s with free := s.free + 1 }
  .next (s.modCore core fun k =>
    if k.governed + rampStep < real then { k with governed := k.governed + rampStep, ballast := 0, withheld := true }
    else
      let g := max real (k.governed - s.decay)
      { k with governed := g, ballast := min 20000 (g - real), withheld := false })

/-! ## PC samples (R252, Table 9.6) -/

/-- A member that goes to the tile queue (Tables 13.2, 17.1). -/
def tileMajor (v : BitVec 96) : Bool := majorOf v == 0x61 || majorOf v == 0x62 || majorOf v == 0x73

/-- The reason that a wait gives (Table 9.6): a line of code that leased memory holds counts as an I-cache miss. Of the waits that the table does
not name, `sleep` counts as barrier, `halt` and a leased access as remote wait, a full transfer table as copy await (log 79). A tile instruction that
waits for leased memory holds the younger ones: a tile-fill wait (R388). -/
def Thread.waitReason (t : Thread) : Option Nat :=
  match t.stall with
  | .none | .gang => none
  | .tile | .walk | .granules | .spill _ _ => some 1
  | .vectorUnit _ | .vectorRestore | .gather _ => some 3
  | .qpop _ _ _ => some 5
  | .capp _ _ _ _ _ _ => some 6
  | .rwait _ | .copy => some 7
  | .mwait _ | .msendWindow _ | .halt => some 8
  | .lease => some (if t.lineBuf.any fun b => b.1 == lineAddr t.pc then (if tileMajor t.ir then 1 else 8) else 9)
  | .links _ => some (if tileMajor t.ir then 1 else 0xD)
  | .code _ => some 9
  | .missSlot => some 0xA
  | .bar _ | .barDone | .wait _ _ _ _ | .sleep _ => some 0xB
  | .governed => some 0xC
  | .fence _ | .cflush _ _ | .cinv _ _ | .tlbinv _ _ _ => some 0xD

/-- Cycles by which the bank conflicts of a thread's next convoy delay it (R137). -/
def State.nextDelay (s : State) (t : Thread) : Nat :=
  match t.lineBuf with
  | some (a, d) =>
    if a = lineAddr t.pc then
      bankDelay s.act ((convoyOf (((lineValues d).getD []).drop (t.pc.extractLsb' 1 5).toNat)).getD [])
    else 0
  | none => 0

/-- Write-assist may have slowed an access of a thread that has not completed: its core's, which may just have ended, or that of a core whose gallery
it reads (Table 5.4, R130). -/
def State.assisted (s : State) (tid : Nat) : Bool :=
  let c := tid / 4
  let slow := fun (k : Core) => k.wa || k.waOff.any fun n => decide (s.now ≤ n + 16)
  slow (s.getCore c) || (List.range 4).any fun d => (s.gallery c d (s.thread tid).launch).any fun l => slow (s.getCore l)

/-- The reasons that may hold a thread which waits for nothing that the model holds: a pipe of its unit, a bank conflict, a line or a translation
on its way, a write-assist cycle (R131, R135, R137, R185). Which of them holds is free. -/
def State.timingReasons (s : State) (tid : Nat) : List Nat :=
  let t := s.thread tid
  ([(3, t.unit.isSome), (4, decide (0 < s.nextDelay t)), (9, true), (0xA, true), (0xE, s.assisted tid)].filter fun r =>
    r.2 && Config.sampled s.free r.1).map (·.1)

/-- The governor withholds the RESOLVED entry that a slot waits for (R115). -/
def State.entryGoverned (s : State) (tid : Nat) : Bool :=
  (s.thread tid).stall == .tile && (s.getCore (tid / 4)).withheld && (s.entry? tid).any fun e => e.st == .resolved && decide (engineOf e.instr ≤ 1)

/-- The reason that the sample of a slot carries: trap handler, none for a thread whose convoy issues in the cycle, else the lowest that holds;
a thread whose last grant was cut reports grant reduced (R114, R252). -/
def State.stallReason (s : State) (tid : Nat) : Nat :=
  let t := s.thread tid
  if t.inh then 0xF
  else if t.waitReason.isNone && Config.sampled s.free 0 then 0
  else
    let wait := if s.entryGoverned tid then some 0xC else t.waitReason
    let l := wait.toList ++ (if t.cut then [0xC] else []) ++ (if t.waitReason.isNone then s.timingReasons tid else [])
    (l.min?).getD 0

/-- The samples that a task of a partition owes at a core: one for each multiple of 2^PSHIFT that the core's `cycle` has reached since its last sample,
since the task was bound and since PSHIFT was set; none where PSHIFT lies outside its range. -/
def State.samplesDue (s : State) (core : Nat) (k : Task) : Nat :=
  match s.part? k.part with
  | none => 0
  | some p =>
    let n := p.pshift.toNat
    let from_ := max (s.getCore core).sampledAt (max k.since p.pshiftAt)
    if 12 ≤ n ∧ n ≤ 24 then (s.now + Config.cycleSkew core) / 2 ^ n - (from_ + Config.cycleSkew core) / 2 ^ n else 0

/-- Some slot of a core owes a sample. -/
def State.sampleDue (s : State) (core : Nat) : Bool := (s.boundOn core).any fun b => decide (0 < s.samplesDue core b.2)

/-- The record of a sample of a slot (Table 9.8). -/
def State.emitSample (s : State) (tid : Nat) (k : Task) : State :=
  let t := s.thread tid
  { s with free := s.free + 1 }.emitTask tid 0 0x01 (t.pc.toNat + s.stallReason tid * 2 ^ 64 + (if t.sup then 2 ^ 68 else 0) +
    (if t.inh then 2 ^ 69 else 0) + k.stage % 8 * 2 ^ 70)

/-- PC_SAMPLE: each slot of a core that is bound to a task of a partition whose samples fall due writes a record for each of them. -/
def execPcSample (core : Nat) (s : State) : Res :=
  let r := (s.boundOn core).foldl (fun (x : State) b => (List.range (s.samplesDue core b.2)).foldl (fun x _ => x.emitSample b.1 b.2) x) s
  .next (r.modCore core fun k => { k with sampledAt := s.now })

end Sys2Proof.Machine
end

