-- ==== Sys2Proof/Machine/Translate.lean ====
section
/-! DEFINITION. The staging translator (R259, R261): the mode of a region (Table 10.3), the logical threads of a hardware thread, and the
FLN image of a module. The spec fixes the modes, the mapping, the barriers and the place of the shared area; the instructions that
carry them out are the model's (DESIGN CHOICE, log 84). -/

namespace Sys2Proof.Machine

/-! ## Registers of the body instructions (R258) -/

/-- A body instruction with its destination renamed by `d` and its sources by `f`; every other instruction as it is. -/
def mapRegs (d f : SReg → SReg) (i : Instr) : Instr :=
  match i with
  | .add a b c => .add (d a) (f b) (f c) | .sub a b c => .sub (d a) (f b) (f c) | .and a b c => .and (d a) (f b) (f c)
  | .or a b c => .or (d a) (f b) (f c) | .xor a b c => .xor (d a) (f b) (f c) | .sll a b c => .sll (d a) (f b) (f c)
  | .srl a b c => .srl (d a) (f b) (f c) | .sra a b c => .sra (d a) (f b) (f c) | .slt a b c => .slt (d a) (f b) (f c)
  | .sltu a b c => .sltu (d a) (f b) (f c) | .min a b c => .min (d a) (f b) (f c) | .max a b c => .max (d a) (f b) (f c)
  | .minu a b c => .minu (d a) (f b) (f c) | .maxu a b c => .maxu (d a) (f b) (f c) | .mul a b c => .mul (d a) (f b) (f c)
  | .mulh a b c => .mulh (d a) (f b) (f c) | .mulhu a b c => .mulhu (d a) (f b) (f c) | .div a b c => .div (d a) (f b) (f c)
  | .divu a b c => .divu (d a) (f b) (f c) | .rem a b c => .rem (d a) (f b) (f c) | .remu a b c => .remu (d a) (f b) (f c)
  | .addi a b m => .addi (d a) (f b) m | .andi a b m => .andi (d a) (f b) m | .ori a b m => .ori (d a) (f b) m
  | .xori a b m => .xori (d a) (f b) m | .slli a b m => .slli (d a) (f b) m | .srli a b m => .srli (d a) (f b) m
  | .srai a b m => .srai (d a) (f b) m | .slti a b m => .slti (d a) (f b) m | .sltiu a b m => .sltiu (d a) (f b) m
  | .clz a b => .clz (d a) (f b) | .ctz a b => .ctz (d a) (f b) | .popc a b => .popc (d a) (f b)
  | .addw a b c => .addw (d a) (f b) (f c) | .li a m => .li (d a) m | .lih a b m => .lih (d a) (f b) m
  | .fadd a b c => .fadd (d a) (f b) (f c) | .fsub a b c => .fsub (d a) (f b) (f c) | .fmul a b c => .fmul (d a) (f b) (f c)
  | .fma a b c e => .fma (d a) (f b) (f c) (f e) | .fdiv a b c => .fdiv (d a) (f b) (f c) | .fsqrt a b => .fsqrt (d a) (f b)
  | .fcvt a b x y => .fcvt (d a) (f b) x y | .fcmp a b c p => .fcmp (d a) (f b) (f c) p
  | .ldb a b m => .ldb (d a) (f b) m | .ldbu a b m => .ldbu (d a) (f b) m | .ldh a b m => .ldh (d a) (f b) m
  | .ldhu a b m => .ldhu (d a) (f b) m | .ldw a b m => .ldw (d a) (f b) m | .ldwu a b m => .ldwu (d a) (f b) m
  | .ldd a b m => .ldd (d a) (f b) m
  | .stb a b m => .stb (f a) (f b) m | .sth a b m => .sth (f a) (f b) m | .stw a b m => .stw (f a) (f b) m
  | .std a b m => .std (f a) (f b) m
  | .amoAdd a b c sc w o => .amoAdd (d a) (f b) (f c) sc w o | .amoAnd a b c sc w o => .amoAnd (d a) (f b) (f c) sc w o
  | .amoOr a b c sc w o => .amoOr (d a) (f b) (f c) sc w o | .amoXor a b c sc w o => .amoXor (d a) (f b) (f c) sc w o
  | .amoMin a b c sc w o => .amoMin (d a) (f b) (f c) sc w o | .amoMax a b c sc w o => .amoMax (d a) (f b) (f c) sc w o
  | .amoMinu a b c sc w o => .amoMinu (d a) (f b) (f c) sc w o | .amoMaxu a b c sc w o => .amoMaxu (d a) (f b) (f c) sc w o
  | .amoSwap a b c sc w o => .amoSwap (d a) (f b) (f c) sc w o
  | .amoCas a b c e sc w o => .amoCas (d a) (f b) (f c) (f e) sc w o
  | .ldAcq a b sc z o => .ldAcq (d a) (f b) sc z o | .stRel b c sc z o => .stRel (f b) (f c) sc z o
  | .beq b c l h => .beq (f b) (f c) l h | .bne b c l h => .bne (f b) (f c) l h | .blt b c l h => .blt (f b) (f c) l h
  | .bge b c l h => .bge (f b) (f c) l h | .bltu b c l h => .bltu (f b) (f c) l h | .bgeu b c l h => .bgeu (f b) (f c) l h
  | .jal a l h => .jal (d a) l h
  | i => i

/-- The destination of a body instruction, 0 when it writes no register. -/
def destOf (i : Instr) : SReg :=
  match i with
  | .stb _ _ _ | .sth _ _ _ | .stw _ _ _ | .std _ _ _ | .stRel _ _ _ _ _ | .fence _ => 0
  | .beq _ _ _ _ | .bne _ _ _ _ | .blt _ _ _ _ | .bge _ _ _ _ | .bltu _ _ _ _ | .bgeu _ _ _ _ => 0
  | i => match code i with
    | some c => c.a
    | none => 0

/-- The sources of a body instruction, in the order of its operands. -/
def srcsOf (i : Instr) : List SReg :=
  match i with
  | .add _ b c | .sub _ b c | .and _ b c | .or _ b c | .xor _ b c | .sll _ b c | .srl _ b c | .sra _ b c | .slt _ b c
  | .sltu _ b c | .min _ b c | .max _ b c | .minu _ b c | .maxu _ b c | .mul _ b c | .mulh _ b c | .mulhu _ b c | .div _ b c
  | .divu _ b c | .rem _ b c | .remu _ b c | .addw _ b c | .fadd _ b c | .fsub _ b c | .fmul _ b c | .fdiv _ b c
  | .fcmp _ b c _ | .stb b c _ | .sth b c _ | .stw b c _ | .std b c _ | .amoAdd _ b c _ _ _ | .amoAnd _ b c _ _ _
  | .amoOr _ b c _ _ _ | .amoXor _ b c _ _ _ | .amoMin _ b c _ _ _ | .amoMax _ b c _ _ _ | .amoMinu _ b c _ _ _
  | .amoMaxu _ b c _ _ _ | .amoSwap _ b c _ _ _ | .stRel b c _ _ _ | .beq b c _ _ | .bne b c _ _ | .blt b c _ _
  | .bge b c _ _ | .bltu b c _ _ | .bgeu b c _ _ => [b, c]
  | .fma _ b c e | .amoCas _ b c e _ _ _ => [b, c, e]
  | .addi _ b _ | .andi _ b _ | .ori _ b _ | .xori _ b _ | .slli _ b _ | .srli _ b _ | .srai _ b _ | .slti _ b _
  | .sltiu _ b _ | .clz _ b | .ctz _ b | .popc _ b | .lih _ b _ | .fsqrt _ b | .fcvt _ b _ _ | .ldb _ b _ | .ldbu _ b _
  | .ldh _ b _ | .ldhu _ b _ | .ldw _ b _ | .ldwu _ b _ | .ldd _ b _ | .ldAcq _ b _ _ _ => [b]
  | _ => []

/-! ## The mode of a region (Table 10.3) -/

/-- A body instruction with the line and the head where it stands. -/
structure BodyHead where
  line : Nat
  head : Nat
  ins : Instr

/-- The heads of a region body in order. -/
def bodyHeads (act : Nat → Nat) (lines : List (BitVec 512)) : List BodyHead :=
  (lines.zipIdx).flatMap fun l => (((lineValues l.1).getD []).zipIdx).filterMap fun v =>
    match decode act v.1 with
    | .instr i => some ⟨l.2, v.2, i⟩
    | _ => none

/-- The position, in heads, of the target of a branch of the body; none for the other instructions (R282). -/
def targetOf (hs : List BodyHead) (b : BodyHead) : Option Nat :=
  match bodyUse b.ins with
  | .branch loff hidx => hs.findIdx? fun x => (x.line : Int) == b.line + loff.toInt && x.head == hidx.toNat
  | _ => none

/-- An atomic, `ld.acq`, `st.rel` or `fence`: a region that holds one is SERIAL. -/
def ordersMem (i : Instr) : Bool :=
  match i with
  | .amoAdd _ _ _ _ _ _ | .amoAnd _ _ _ _ _ _ | .amoOr _ _ _ _ _ _ | .amoXor _ _ _ _ _ _ | .amoMin _ _ _ _ _ _
  | .amoMax _ _ _ _ _ _ | .amoMinu _ _ _ _ _ _ | .amoMaxu _ _ _ _ _ _ | .amoSwap _ _ _ _ _ _ | .amoCas _ _ _ _ _ _ _
  | .ldAcq _ _ _ _ _ | .stRel _ _ _ _ _ | .fence _ => true
  | _ => false

/-- The arithmetic that keeps a region from LANES. -/
def laneless (i : Instr) : Bool :=
  match i with
  | .div _ _ _ | .divu _ _ _ | .rem _ _ _ | .remu _ _ _ | .mulhu _ _ _ | .clz _ _ | .ctz _ _ | .popc _ _ => true
  | _ => false

/-- The modes of Table 10.3. -/
inductive RegionMode where
  | lanes | coarsen | serial
  deriving DecidableEq, Repr

/-- The distinct scalar registers that a body writes; a write to s0 is discarded (R271). -/
def bodyDests (hs : List BodyHead) : List SReg := ((hs.map fun b => destOf b.ins).filter (· != 0)).eraseDups

/-- The first row of Table 10.3 whose condition holds. -/
def regionMode (hs : List BodyHead) : RegionMode :=
  let backward := hs.zipIdx.any fun b => match targetOf hs b.1 with
    | some t => decide (t ≤ b.2)
    | none => false
  let orders := hs.any fun b => ordersMem b.ins
  if !backward && !orders && !hs.any fun b => laneless b.ins then .lanes
  else if !orders && decide ((bodyDests hs).length ≤ 12) then .coarsen
  else .serial

/-- The logical threads that hardware thread `t` of `h` runs: t, t + H, t + 2H and onward (R261). -/
def logicalThreads (nthr h t : Nat) : List Nat := (List.range nthr).filter fun i => i % h == t

/-! ## Assembling -/

/-- A place in the image that branches name: region, kind and number. -/
abbrev Mark := Nat × Nat × Nat

/-- A piece of the image: an instruction, a branch to a mark, a mark, the start of a line, a line as it is. -/
inductive Piece where
  | op (i : Instr)
  | br (i : Instr) (dest : Mark)
  | mark (m : Mark)
  | align
  | line (l : BitVec 512)

/-- The instruction position after a position in lines of five heads, which always hold their tails (R119). -/
def nextLine (p : Nat) : Nat := (p + 4) / 5 * 5

/-- The position after a piece that starts at `p`; position 5l + i is head i of line l. -/
def afterPiece (p : Nat) : Piece → Nat
  | .op _ | .br _ _ => p + 1
  | .mark _ => p
  | .align => nextLine p
  | .line _ => nextLine p + 5

/-- The positions of the marks. -/
def marksFrom : Nat → List Piece → List (Mark × Nat)
  | _, [] => []
  | p, .mark m :: ps => (m, p) :: marksFrom p ps
  | p, x :: ps => marksFrom (afterPiece p x) ps

/-- A branch with its target set (R282). -/
def retarget (i : Instr) (loff : BitVec 27) (hidx : BitVec 5) : Instr :=
  match i with
  | .beq b c _ _ => .beq b c loff hidx | .bne b c _ _ => .bne b c loff hidx | .blt b c _ _ => .blt b c loff hidx
  | .bge b c _ _ => .bge b c loff hidx | .bltu b c _ _ => .bltu b c loff hidx | .bgeu b c _ _ => .bgeu b c loff hidx
  | .jal a _ _ => .jal a loff hidx
  | i => i

/-- A line of instruction values: heads from the start, tails from the end (R119). -/
def packLine : List (BitVec 96) → Nat → Nat → Nat
  | [], _, _ => 0
  | v :: vs, i, t =>
    let h := v.toNat % 65536
    let l := tailBytes ((v.extractLsb' 14 2))
    h * 256 ^ (2 * i) + (v.toNat / 65536 % 256 ^ l) * 256 ^ (64 - t - l) + packLine vs (i + 1) (t + l)

/-- The lines of the pieces, `acc` the values of the open line, newest first. -/
def linesFrom (marks : List (Mark × Nat)) : Nat → List (BitVec 96) → List Piece → List (BitVec 512)
  | _, acc, [] => if acc.isEmpty then [] else [BitVec.ofNat 512 (packLine acc.reverse 0 0)]
  | p, acc, x :: ps =>
    let put := fun (i : Instr) => (encode i).getD 0
    let close := if acc.isEmpty then [] else [BitVec.ofNat 512 (packLine acc.reverse 0 0)]
    match x with
    | .mark _ => linesFrom marks p acc ps
    | .align => close ++ linesFrom marks (nextLine p) [] ps
    | .line l => close ++ l :: linesFrom marks (nextLine p + 5) [] ps
    | .op i =>
      if acc.length == 4 then BitVec.ofNat 512 (packLine (put i :: acc).reverse 0 0) :: linesFrom marks (p + 1) [] ps
      else linesFrom marks (p + 1) (put i :: acc) ps
    | .br i m =>
      let t := ((marks.find? fun x => x.1 == m).map (·.2)).getD 0
      let i := retarget i (BitVec.ofInt 27 ((t / 5 : Nat) - (p / 5 : Nat))) (BitVec.ofNat 5 (t % 5))
      if acc.length == 4 then BitVec.ofNat 512 (packLine (put i :: acc).reverse 0 0) :: linesFrom marks (p + 1) [] ps
      else linesFrom marks (p + 1) (put i :: acc) ps

/-- The bytes of the pieces. -/
def assemble (ps : List Piece) : List Byte := (linesFrom (marksFrom 0 ps) 0 [] ps).flatMap fun l => leBytes 64 l.toNat

/-! ## The image (R261) -/

/-- What the image of a block is made for: H, NTHR and SHB. -/
structure BlockPlan where
  h : Nat
  nthr : Nat
  shb : Nat

/-- The words of a hardware thread that outlive a logical thread's registers lie in CSRs, which no body instruction names: `cpsst0` the next logical
index, `cpsst1` the thread's number, `cpsst2` the block index, `cpsst3` ARGS, `cpsst4` the shared area, `cpsst5` the registers of a strip. -/
def keptCsr (k : Nat) : BitVec 12 := BitVec.ofNat 12 (0x0A0 + k)
def keepWord (k : Nat) (r : SReg) : Piece := .op (.csrw r (keptCsr k))
def keptWord (r : SReg) (k : Nat) : Piece := .op (.csrr r (keptCsr k))

/-- `li` and `lih` of a 64-bit constant (R323). -/
def literal (r : SReg) (v : Nat) : List Piece :=
  [.op (.li r (BitVec.ofNat 32 v)), .op (.lih r r (BitVec.ofNat 32 (v / 2 ^ 32)))]

/-- Bytes of the registers of a strip: 128 words for each of 63 registers and for the elements' places in the body. -/
def stripBytes : Nat := 65536

/-- Bytes of a block in the global memory of its launch: the shared area when H > 1, and the strips of its threads. -/
def BlockPlan.bytes (b : BlockPlan) : Nat := (if b.h == 1 then 0 else b.shb) + b.h * stripBytes

/-- s5 to s8 of a logical thread, in the registers that `f` gives them: NTHR, block index, shared area, ARGS (R258). -/
def BlockPlan.inputs (b : BlockPlan) (f : SReg → SReg) : List Piece :=
  [.op (.li (f 5) (BitVec.ofNat 32 b.nthr)), keptWord (f 6) 2, keptWord (f 7) 4, keptWord (f 8) 3]

/-- The entry: thread number and block index from the linear index of the task (Table 4.6); the shared area in the scratchpad when H = 1, else in the
memory of the launch, whose place its SARG names. -/
def BlockPlan.entry (b : BlockPlan) : List Piece :=
  [keepWord 3 4, .op (.li 9 (BitVec.ofNat 32 b.h)), .op (.remu 10 5 9), keepWord 1 10, .op (.divu 11 5 9), keepWord 2 11] ++
  literal 12 b.bytes ++ [.op (.mul 12 12 11), .op (.add 12 12 7)] ++
  (if b.h == 1 then literal 13 0xFF00000000000000 ++ [keepWord 4 13]
   else keepWord 4 12 :: literal 13 b.shb ++ [.op (.add 12 12 13)]) ++
  literal 13 stripBytes ++ [.op (.mul 13 13 10), .op (.add 12 12 13), keepWord 5 12]

/-- SERIAL: one logical thread per iteration, the body's own lines. -/
def serialRegion (b : BlockPlan) (r : Nat) (lines : List (BitVec 512)) : List Piece :=
  [keptWord 4 1, keepWord 0 4, .mark (r, 0, 0), keptWord 4 0, .op (.li 5 (BitVec.ofNat 32 b.nthr)), .br (.bgeu 4 5 0 0) (r, 1, 0)] ++ b.inputs id ++
  [.align] ++ lines.map .line ++
  [keptWord 4 0, .op (.addi 4 4 (BitVec.ofNat 10 b.h)), keepWord 0 4, .br (.jal 0 0 0) (r, 0, 0), .mark (r, 1, 0)]

/-- One side of a COARSEN iteration: the body with renamed registers, each member followed by a jump to the other side's next one. -/
def coarseSide (r side : Nat) (hs : List BodyHead) (f : SReg → SReg) (me other : SReg) : List Piece :=
  hs.zipIdx.flatMap fun b =>
    .mark (r, side, b.2) ::
    match targetOf hs b.1 with
    | some t => [.br (mapRegs f f b.1.ins) (r, side, t)]
    | none => [.op (mapRegs f f b.1.ins), .op (.jalr me other 0)]

/-- COARSEN: two logical threads per iteration, interleaved member by member. -/
def coarsenRegion (b : BlockPlan) (r : Nat) (hs : List BodyHead) : List Piece :=
  let used := (bodyDests hs ++ [4, 5, 6, 7, 8]).eraseDups
  let free := ((List.range 63).map fun k => BitVec.ofNat 6 (k + 1)).filter fun x => !used.contains x
  let f : SReg → SReg := fun x => match used.idxOf? x with
    | some k => free.getD k 0
    | none => x
  let spare := fun k => free.getD (used.length + k) 0
  let ra := spare 0
  let rb := spare 1
  let da := spare 2
  let db := spare 3
  [keptWord 4 1, keepWord 0 4, .mark (r, 0, 0), keptWord 4 0, .op (.li 5 (BitVec.ofNat 32 b.nthr)), .br (.bgeu 4 5 0 0) (r, 1, 0)] ++
  b.inputs id ++ [.op (.addi (f 4) 4 (BitVec.ofNat 10 b.h))] ++ b.inputs f ++
  [.op (.li da 0), .op (.li db 0), .br (.bltu (f 4) (f 5) 0 0) (r, 2, 0), .op (.li db 1), .br (.jal rb 0 0) (r, 3, 0),
   .mark (r, 4, 0), .br (.bne da 0 0 0) (r, 5, 0), .op (.jalr rb ra 0), .br (.jal 0 0 0) (r, 4, 0),
   .mark (r, 2, 0), .br (.jal rb 0 0) (r, 3, 0)] ++ coarseSide r 11 hs f rb ra ++
  [.op (.li db 1), .br (.jal 0 0 0) (r, 4, 0), .mark (r, 3, 0)] ++ coarseSide r 10 hs id ra rb ++
  [.op (.li da 1), .mark (r, 6, 0), .br (.bne db 0 0 0) (r, 5, 0), .op (.jalr ra rb 0), .br (.jal 0 0 0) (r, 6, 0),
   .mark (r, 5, 0), keptWord 4 0, .op (.addi 4 4 (BitVec.ofNat 10 (2 * b.h))), keepWord 0 4,
   .br (.jal 0 0 0) (r, 0, 0), .mark (r, 1, 0)]

/-! ### LANES: the registers of a strip lie in memory, 128 words for each, and behind them each element's place in the body. Each head of the body is
a vector loop over the strip, as many elements at a time as the grant of the moment allows; its mask q1 is the elements that stand there. -/

/-- A vector source and destination without chain or zeroing. -/
def plainSrc (v : BitVec 5) : VSrc := ⟨v, false⟩
def plainDst (v : BitVec 5) : VDst := ⟨v, false⟩

/-- The scalars of a LANES region: the strip's registers, its elements, its first logical index, the stride 8; of a head's loop the elements left, the
elements of this round and where their words begin; of a loop over single elements their number and where their words begin. -/
def laneFrame : SReg := 60
def laneCount : SReg := 61
def laneFirst : SReg := 62
def laneStride : SReg := 57
def laneLeft : SReg := 56
def laneRound : SReg := 55
def lanePtr : SReg := 58
def laneNo : SReg := 59
def laneOne : SReg := 49

/-- The address of the n-th 128 words from a base on, into s54: the places are the last of the 64. -/
def laneWords (n : Nat) (base : SReg) : List Piece := [.op (.li 54 (BitVec.ofNat 32 (1024 * n))), .op (.add 54 54 base)]
def lanePlaces : Nat := 63

/-- The address of a register's words. -/
def laneAddr (regs : List SReg) (x base : SReg) : List Piece := laneWords ((regs.idxOf? x).getD 0) base

/-- One half of a register's words into a vector register: 0 the low, 4 the high. -/
def laneLoad (regs : List SReg) (v : BitVec 5) (x : SReg) (half : BitVec 16) : List Piece :=
  if x == 0 then [.op (.vbcast (plainDst v) (.imm 0) 0)]
  else laneAddr regs x lanePtr ++ [.op (.vlds (plainDst v) 54 laneStride 0 half)]

/-- v5 and v6 into a register's words, under q1; a write to s0 is discarded. -/
def laneStore (regs : List SReg) (x : SReg) : List Piece :=
  if x == 0 then []
  else laneAddr regs x lanePtr ++
    [.op (.vsts 54 (plainSrc 5) laneStride 1 0), .op (.vsts 54 (plainSrc 6) laneStride 1 4)]

/-- The operands of a two-source instruction: x in v1 and v2, y in v3 and v4, low half first. -/
def laneXY (regs : List SReg) (x y : SReg) : List Piece :=
  laneLoad regs 1 x 0 ++ laneLoad regs 2 x 4 ++ laneLoad regs 3 y 0 ++ laneLoad regs 4 y 4

/-- The operands of an immediate form: the immediate extended to 64 bits (R322). -/
def laneXI (regs : List SReg) (x : SReg) (m : BitVec 10) : List Piece :=
  laneLoad regs 1 x 0 ++ laneLoad regs 2 x 4 ++
  [.op (.vbcast (plainDst 3) (.imm (m.signExtend 16)) 0), .op (.vbcast (plainDst 4) (.imm (if m.msb then 0xFFFF else 0)) 0)]

/-- A mask cleared, then set by a compare under `k`. -/
def laneMask (q : QReg) (a : BitVec 5) (y : CSel) (k : QReg) (pred : BitVec 3) : List Piece :=
  [.op (.qxor q q q), .op (.vcmp q (plainSrc a) y k pred)]

/-- q4: the elements of q1 whose 64-bit x is less than y; a signed order turns the sign bits of the high halves round. -/
def laneLess (signed : Bool) : List Piece :=
  (if signed then [.op (.li 53 0x80000000), .op (.vxor (plainDst 2) (plainSrc 2) (.scalar 53) 0),
    .op (.vxor (plainDst 4) (plainSrc 4) (.scalar 53) 0)] else []) ++
  laneMask 2 2 (.vec (plainSrc 4)) 1 2 ++ laneMask 3 2 (.vec (plainSrc 4)) 1 0 ++ laneMask 4 1 (.vec (plainSrc 3)) 3 2 ++
  [.op (.qor 4 4 2)]

/-- q4: the elements of q1 whose 64-bit x equals y. -/
def laneSame : List Piece := laneMask 3 2 (.vec (plainSrc 4)) 1 0 ++ laneMask 4 1 (.vec (plainSrc 3)) 3 0

/-- v5 and v6 := 1 for the elements of q4, 0 for the others. -/
def laneFlag : List Piece :=
  [.op (.vbcast (plainDst 5) (.imm 0) 0), .op (.vbcast (plainDst 6) (.imm 0) 0), .op (.vbcast (plainDst 5) (.imm 1) 4)]

/-- The lesser or the greater of two 64-bit values: x for the elements of q4 of a minimum, y of a maximum. -/
def laneSelect (regs : List SReg) (x y : SReg) (signed least : Bool) : List Piece :=
  let a : BitVec 5 := if least then 1 else 3
  let c : BitVec 5 := if least then 3 else 1
  laneXY regs x y ++ laneLess signed ++ laneXY regs x y ++
  [.op (.vsel 5 (plainSrc a) (.vec (plainSrc c)) 4), .op (.vsel 6 (plainSrc (a + 1)) (.vec (plainSrc (c + 1))) 4)]

/-- A bitwise operation on both halves. -/
def laneBits (mk : VDst → VSrc → YSel → QReg → Instr) : List Piece :=
  [.op (mk (plainDst 5) (plainSrc 1) (.vec (plainSrc 3)) 0), .op (mk (plainDst 6) (plainSrc 2) (.vec (plainSrc 4)) 0)]

/-- A sum with the carry of its low half. -/
def laneAdd : List Piece :=
  laneBits .vadd ++ laneMask 2 5 (.vec (plainSrc 3)) 0 2 ++ [.op (.vadd (plainDst 6) (plainSrc 6) (.imm 1) 2)]

/-- A difference with the borrow of its low half. -/
def laneSub : List Piece :=
  laneBits .vsub ++ laneMask 2 1 (.vec (plainSrc 3)) 0 2 ++ [.op (.vsub (plainDst 6) (plainSrc 6) (.imm 1) 2)]

/-- v[d] += v[y], its carries counted in v[c]. -/
def laneCarry (d y c : BitVec 5) : List Piece :=
  .op (.vadd (plainDst d) (plainSrc d) (.vec (plainSrc y)) 0) :: laneMask 2 d (.vec (plainSrc y)) 0 2 ++
  [.op (.vadd (plainDst c) (plainSrc c) (.imm 1) 2)]

/-- v5 and v6 less v7 and v8. -/
def laneTake : List Piece :=
  laneMask 2 5 (.vec (plainSrc 7)) 0 2 ++
  [.op (.vsub (plainDst 5) (plainSrc 5) (.vec (plainSrc 7)) 0), .op (.vsub (plainDst 6) (plainSrc 6) (.vec (plainSrc 8)) 0),
   .op (.vsub (plainDst 6) (plainSrc 6) (.imm 1) 2)]

/-- The low half of the product of x and y. -/
def laneMul : List Piece :=
  let mul := fun (d a c : BitVec 5) => Piece.op (.vmul (plainDst d) (plainSrc a) (.vec (plainSrc c)) 0)
  let add := fun (d a c : BitVec 5) => Piece.op (.vadd (plainDst d) (plainSrc a) (.vec (plainSrc c)) 0)
  [mul 5 1 3, .op (.vmulh (plainDst 6) (plainSrc 1) (.vec (plainSrc 3)) 0), mul 7 1 4, add 6 6 7, mul 7 2 3, add 6 6 7]

/-- The high half of the signed product: the unsigned one from its four parts, less y where x is negative and x where y is. -/
def laneMulh : List Piece :=
  let mul := fun (d a c : BitVec 5) => Piece.op (.vmul (plainDst d) (plainSrc a) (.vec (plainSrc c)) 0)
  let high := fun (d a c : BitVec 5) => Piece.op (.vmulh (plainDst d) (plainSrc a) (.vec (plainSrc c)) 0)
  let zero := fun (d : BitVec 5) => Piece.op (.vbcast (plainDst d) (.imm 0) 0)
  let less := fun (sign lo hi : BitVec 5) =>
    laneMask 3 sign (.scalar 53) 0 3 ++ [zero 7, zero 8, .op (.vadd (plainDst 7) (plainSrc lo) (.imm 0) 3),
      .op (.vadd (plainDst 8) (plainSrc hi) (.imm 0) 3)] ++ laneTake
  [high 7 1 3, mul 8 1 4, high 9 1 4, mul 10 2 3, high 11 2 3, mul 5 2 4, high 6 2 4, zero 12] ++
  laneCarry 7 8 12 ++ laneCarry 7 10 12 ++ laneCarry 5 9 6 ++ laneCarry 5 11 6 ++ laneCarry 5 12 6 ++
  [.op (.li 53 0x80000000)] ++ less 2 3 4 ++ less 4 1 2

/-- A shift of x by the low 6 bits of v3: 0 left, 1 right logical, 2 right arithmetic. A shift by 32 or more takes one half from the other. -/
def laneShift (kind : Nat) : List Piece :=
  let sh := fun (mk : VDst → VSrc → YSel → QReg → Instr) (d a : BitVec 5) (y : YSel) => Piece.op (mk (plainDst d) (plainSrc a) y 0)
  let move := fun (d a : BitVec 5) => Piece.op (.vor (plainDst d) (plainSrc a) (.imm 0) 2)
  let head := sh .vand 3 3 (.imm 63) :: laneMask 2 3 (.imm 32) 0 3 ++ [sh .vxor 8 3 (.imm 31)]
  if kind = 0 then
    head ++ [sh .vsrl 7 1 (.imm 1), sh .vsrl 7 7 (.vec (plainSrc 8)), sh .vsll 5 1 (.vec (plainSrc 3)), sh .vsll 6 2 (.vec (plainSrc 3)),
      sh .vor 6 6 (.vec (plainSrc 7)), move 6 5, .op (.vbcast (plainDst 5) (.imm 0) 2)]
  else
    let high := if kind = 1 then Instr.vsrl else Instr.vsra
    head ++ [sh .vsll 7 2 (.imm 1), sh .vsll 7 7 (.vec (plainSrc 8)), sh .vsrl 5 1 (.vec (plainSrc 3)), sh high 6 2 (.vec (plainSrc 3)),
      sh .vor 5 5 (.vec (plainSrc 7)), move 5 6] ++
    (if kind = 1 then [.op (.vbcast (plainDst 6) (.imm 0) 2)]
     else [sh .vsra 9 2 (.imm 31), .op (.vor (plainDst 6) (plainSrc 9) (.imm 0) 2)])

/-- A shift by an immediate. -/
def laneShiftI (regs : List SReg) (kind : Nat) (x : SReg) (m : BitVec 10) : List Piece :=
  laneLoad regs 1 x 0 ++ laneLoad regs 2 x 4 ++ [.op (.vbcast (plainDst 3) (.imm (m.setWidth 16)) 0)] ++ laneShift kind

/-- A load, a store or a conversion: element by element, for those that stand at head `k`. No vector form does what the scalar instruction does: a
vector access is not single-copy atomic in 8 bytes, is refused on a DEV page and is not ordered as a scalar one, and no vector type has 64 bits. -/
def laneEach (regs : List SReg) (r k : Nat) (i : Instr) : List Piece :=
  let srcs := (srcsOf i).eraseDups
  let f : SReg → SReg := fun x => if x == 0 then 0 else BitVec.ofNat 6 (11 + (srcs.idxOf? x).getD 0)
  [.op (.li laneNo 0), .op (.addi laneOne lanePtr 0), .op (.li 52 (BitVec.ofNat 32 k)), .mark (r, 20, k),
   .br (.bgeu laneNo laneRound 0 0) (r, 21, k), .op (.vmvx 51 (plainSrc 31) (.scalar laneNo)), .br (.bne 51 52 0 0) (r, 22, k)] ++
  (srcs.filter (· != 0)).flatMap (fun x => laneAddr regs x laneOne ++ [.op (.ldd (f x) 54 0)]) ++
  [.op (mapRegs (fun x => if x == 0 then 0 else 15) f i)] ++
  (if destOf i == 0 then [] else laneAddr regs (destOf i) laneOne ++ [.op (.std 15 54 0)]) ++
  [.mark (r, 22, k), .op (.addi laneNo laneNo 1), .op (.addi laneOne laneOne 8), .br (.jal 0 0 0) (r, 20, k), .mark (r, 21, k)]

/-- The scalar FP32 instructions with a vector form (R368). -/
def laneFloat (i : Instr) : Bool :=
  match i with
  | .fadd _ _ _ | .fsub _ _ _ | .fmul _ _ _ | .fma _ _ _ _ | .fdiv _ _ _ | .fsqrt _ _ | .fcmp _ _ _ _ => true
  | _ => false

/-- An FP32 operation under q1, so that only its elements raise flags, the result zero-extended (R302). -/
def laneFp (regs : List SReg) (a b c : SReg) (mk : VDst → VSrc → FSel → QReg → Instr) : List Piece :=
  laneLoad regs 1 b 0 ++ laneLoad regs 3 c 0 ++
  [.op (mk (plainDst 5) (plainSrc 1) (.vec (plainSrc 3)) 1), .op (.vbcast (plainDst 6) (.imm 0) 0)] ++ laneStore regs a

/-- The pieces of one head: its effect under q1. A branch leaves its taken elements in q4. -/
def laneEffect (regs : List SReg) (r k : Nat) (i : Instr) : List Piece :=
  match i with
  | .and a b c => laneXY regs b c ++ laneBits .vand ++ laneStore regs a
  | .or a b c => laneXY regs b c ++ laneBits .vor ++ laneStore regs a
  | .xor a b c => laneXY regs b c ++ laneBits .vxor ++ laneStore regs a
  | .add a b c => laneXY regs b c ++ laneAdd ++ laneStore regs a
  | .sub a b c => laneXY regs b c ++ laneSub ++ laneStore regs a
  | .addw a b c =>
    laneXY regs b c ++ [.op (.vadd (plainDst 5) (plainSrc 1) (.vec (plainSrc 3)) 0), .op (.vsra (plainDst 6) (plainSrc 5) (.imm 31) 0)] ++ laneStore regs a
  | .sll a b c => laneXY regs b c ++ laneShift 0 ++ laneStore regs a
  | .srl a b c => laneXY regs b c ++ laneShift 1 ++ laneStore regs a
  | .sra a b c => laneXY regs b c ++ laneShift 2 ++ laneStore regs a
  | .slt a b c => laneXY regs b c ++ laneLess true ++ laneFlag ++ laneStore regs a
  | .sltu a b c => laneXY regs b c ++ laneLess false ++ laneFlag ++ laneStore regs a
  | .min a b c => laneSelect regs b c true true ++ laneStore regs a
  | .max a b c => laneSelect regs b c true false ++ laneStore regs a
  | .minu a b c => laneSelect regs b c false true ++ laneStore regs a
  | .maxu a b c => laneSelect regs b c false false ++ laneStore regs a
  | .mul a b c => laneXY regs b c ++ laneMul ++ laneStore regs a
  | .mulh a b c => laneXY regs b c ++ laneMulh ++ laneStore regs a
  | .andi a b m => laneXI regs b m ++ laneBits .vand ++ laneStore regs a
  | .ori a b m => laneXI regs b m ++ laneBits .vor ++ laneStore regs a
  | .xori a b m => laneXI regs b m ++ laneBits .vxor ++ laneStore regs a
  | .addi a b m => laneXI regs b m ++ laneAdd ++ laneStore regs a
  | .slli a b m => laneShiftI regs 0 b (m.setWidth 10) ++ laneStore regs a
  | .srli a b m => laneShiftI regs 1 b (m.setWidth 10) ++ laneStore regs a
  | .srai a b m => laneShiftI regs 2 b (m.setWidth 10) ++ laneStore regs a
  | .slti a b m => laneXI regs b m ++ laneLess true ++ laneFlag ++ laneStore regs a
  | .sltiu a b m => laneXI regs b m ++ laneLess false ++ laneFlag ++ laneStore regs a
  | .li a m =>
    [.op (.li 53 m), .op (.vbcast (plainDst 5) (.scalar 53) 0), .op (.vbcast (plainDst 6) (.imm (if m.msb then 0xFFFF else 0)) 0)] ++
    laneStore regs a
  | .lih a b m =>
    laneLoad regs 5 b 0 ++ [.op (.li 53 m), .op (.vbcast (plainDst 6) (.scalar 53) 0)] ++ laneStore regs a
  | .fadd a b c => laneFp regs a b c .vfadd
  | .fsub a b c => laneFp regs a b c .vfsub
  | .fmul a b c => laneFp regs a b c .vfmul
  | .fdiv a b c => laneFp regs a b c .vfdiv
  | .fma a b c d => laneLoad regs 7 d 0 ++ laneFp regs a b c fun x y z q => .vfma x y z (plainSrc 7) q
  | .fsqrt a b => laneFp regs a b 0 fun x y _ q => .vfsqrt x y q
  | .fcmp a b c p =>
    laneLoad regs 1 b 0 ++ laneLoad regs 3 c 0 ++
    [.op (.qxor 4 4 4), .op (.vfcmp 4 (plainSrc 1) (.vec (plainSrc 3)) 1 (BitVec.ofNat 3 (2 * p.toNat)))] ++ laneFlag ++ laneStore regs a
  | .beq b c _ _ => laneXY regs b c ++ laneSame
  | .bne b c _ _ => laneXY regs b c ++ laneSame ++ [.op (.qxor 4 4 1)]
  | .blt b c _ _ => laneXY regs b c ++ laneLess true
  | .bge b c _ _ => laneXY regs b c ++ laneLess true ++ [.op (.qxor 4 4 1)]
  | .bltu b c _ _ => laneXY regs b c ++ laneLess false
  | .bgeu b c _ _ => laneXY regs b c ++ laneLess false ++ [.op (.qxor 4 4 1)]
  | .jal _ _ _ => [.op (.qmov (.maskToMask 4 1))]
  | i => laneEach regs r k i

/-- The link of `jal`, the address of the code behind it, into its destination. -/
def laneLink (regs : List SReg) (r k : Nat) (i : Instr) : List Piece :=
  match i with
  | .jal a _ _ =>
    if a == 0 then []
    else [.br (.jal 53 0 0) (r, 23, k), .mark (r, 23, k), .op (.vbcast (plainDst 5) (.scalar 53) 0), .op (.srli 53 53 32),
      .op (.vbcast (plainDst 6) (.scalar 53) 0)] ++ laneStore regs a
  | _ => []

/-- q1: the elements of this round that stand at head `k`. An FP32 compare of places, which are small numbers and so subnormal, finds equal bits. -/
def laneHere (float : Bool) (k : Nat) : List Piece :=
  laneWords lanePlaces lanePtr ++ [.op (.vlds (plainDst 31) 54 laneStride 0 0), .op (.li 53 (BitVec.ofNat 32 k))] ++
  (if float then [.op (.qxor 1 1 1), .op (.vfcmp 1 (plainSrc 31) (.scalar 53) 0 0)] else laneMask 1 31 (.scalar 53) 0 0)

/-- One head of a LANES body: rounds over the strip, each of as many elements as are granted; its effect under q1, and the next place of each. -/
def laneHead (regs : List SReg) (r : Nat) (hs : List BodyHead) (b : BodyHead × Nat) : List Piece :=
  let k := b.2
  let float := laneFloat b.1.ins
  [.op (.addi laneLeft laneCount 0), .op (.addi lanePtr laneFrame 0), .mark (r, 30, k), .br (.beq laneLeft 0 0 0) (r, 31, k),
   .op (.setvl laneRound laneLeft (if float then 0x12 else 0x06))] ++
  laneHere float k ++ laneLink regs r k b.1.ins ++ laneEffect regs r k b.1.ins ++
  [.op (.li 53 (BitVec.ofNat 32 (k + 1))), .op (.vbcast (plainDst 30) (.scalar 53) 0)] ++
  (match targetOf hs b.1 with
    | some t => [.op (.li 53 (BitVec.ofNat 32 t)), .op (.vbcast (plainDst 30) (.scalar 53) 4)]
    | none => []) ++
  laneWords lanePlaces lanePtr ++ [.op (.vsts 54 (plainSrc 30) laneStride 1 0), .op (.slli 53 laneRound 3), .op (.add lanePtr lanePtr 53),
    .op (.sub laneLeft laneLeft laneRound), .br (.jal 0 0 0) (r, 30, k), .mark (r, 31, k)]

/-- LANES: a strip-mined vector loop over the thread's logical threads, one per element; branches become masks. Every element starts at place 0. -/
def lanesRegion (b : BlockPlan) (r : Nat) (hs : List BodyHead) : List Piece :=
  let regs := ((hs.flatMap fun (x : BodyHead) => destOf x.ins :: srcsOf x.ins) ++ [4, 5, 6, 7, 8]).eraseDups.filter (· != 0)
  [keptWord laneFrame 5, keptWord laneFirst 1, .op (.li laneStride 8)] ++ b.inputs id ++
  [.mark (r, 0, 0), .br (.bgeu laneFirst 5 0 0) (r, 1, 0), .op (.sub 53 5 laneFirst),
   .op (.addi 53 53 (BitVec.ofNat 10 (b.h - 1))), .op (.li 52 (BitVec.ofNat 32 b.h)), .op (.divu 53 53 52),
   .op (.setvl laneCount 53 0x06), .op (.li laneNo 0), .op (.addi laneOne laneFrame 0), .op (.addi 4 laneFirst 0), .mark (r, 2, 0),
   .br (.bgeu laneNo laneCount 0 0) (r, 3, 0)] ++
  ([4, 5, 6, 7, 8] : List SReg).flatMap (fun x => laneAddr regs x laneOne ++ [.op (.std x 54 0)]) ++
  laneWords lanePlaces laneOne ++ [.op (.std 0 54 0)] ++
  [.op (.addi 4 4 (BitVec.ofNat 10 b.h)), .op (.addi laneNo laneNo 1), .op (.addi laneOne laneOne 8), .br (.jal 0 0 0) (r, 2, 0),
   .mark (r, 3, 0)] ++
  hs.zipIdx.flatMap (laneHead regs r hs) ++
  [.op (.li 52 (BitVec.ofNat 32 b.h)), .op (.mul 53 laneCount 52), .op (.add laneFirst laneFirst 53), .br (.jal 0 0 0) (r, 0, 0),
   .mark (r, 1, 0), .op .vrel]

/-- A region in the mode that Table 10.3 gives it. -/
def regionPieces (act : Nat → Nat) (b : BlockPlan) (r : Nat) (lines : List (BitVec 512)) : List Piece :=
  let hs := bodyHeads act lines
  match regionMode hs with
  | .lanes => lanesRegion b r hs
  | .coarsen => coarsenRegion b r hs
  | .serial => serialRegion b r lines

/-- A region boundary: `bar` over the block's flight when H > 1, nothing when H = 1 (R261). -/
def boundary (b : BlockPlan) : List Piece := if b.h == 1 then [] else [.op (.bar 1)]

/-- The FLN image of a module for `h` hardware threads (R259, R261); its entry is its first byte. -/
def translate (act : Nat → Nat) (bs : Array Byte) (h : Nat) : List Byte :=
  let f := fun (off n : Nat) => leNat ((List.range n).map fun i => bs.getD (off + i) 0)
  let b : BlockPlan := { h := h, nthr := f 12 2, shb := f 16 4 }
  let region := fun r =>
    let d := 32 + 16 * r
    regionPieces act b r ((List.range (f (d + 10) 2)).map fun k => lineAt bs (f (d + 12) 4 + 64 * k))
  assemble (b.entry ++ (List.range (f 11 1)).flatMap (fun r => (if r == 0 then [] else boundary b) ++ region r) ++ [.op .halt])

end Sys2Proof.Machine
end

