-- ==== Sys2Proof/Machine/LaunchEnd.lean ====
section
/-! DEFINITION. How launches start late and end: gang starts (R104), completion (R68, R93, R94), aborts (R71, R72), and the translator's
answer (R260, R262). -/

namespace Sys2Proof.Machine

/-- End every task of a launch: bound ones at their next boundary, pending ones at once (R71, R94). -/
def State.abortLaunch (s : State) (key : Nat) : State :=
  let s := s.modLaunch key fun l => { l with aborted := true, started := true }
  let s := s.mapThreads fun _ t => if t.launch == some key then { t with ending := true } else t
  s.dropPending fun p => p.task.launch == some key

/-! ## Gang start (R104) -/

/-- Whether every stage-0 task of a launch is bound. -/
def State.gangBound (s : State) (key : Nat) : Bool := s.stagePending key 0 == 0

/-- GANG_START: at GSTART the held tasks of a gang go on, or the launch ends ABORTED when the package is not SYNCED or a stage-0 task is not
bound. -/
def execGangStart (launch : Nat) (s : State) : Res :=
  .next (match s.launch? launch with
    | none => s
    | some l =>
      if !l.gang || l.started then s
      else
        let s := s.tickTo l.gstart
        if s.synced && s.gangBound launch then
          (s.modLaunch launch fun l => { l with started := true }).mapThreads fun _ t =>
            if t.launch == some launch && t.stall == .gang then { t with stall := .none } else t
        else s.abortLaunch launch)

/-! ## Completion (R68, R93, R94) -/

/-- No task of a launch is bound or pending. -/
def State.launchIdle (s : State) (key : Nat) : Bool :=
  (s.bound.all fun b => b.2.launch != some key) && s.pending.all fun p => p.task.launch != some key

/-- Whether a launch can complete. -/
def State.launchOver (s : State) (l : Launch) : Bool :=
  s.launchIdle l.key && (l.aborted || l.cause.isSome || (List.range l.stages.length).all (s.finished l))

/-- The completion entry of a launch: CAUSE is the first trap cause of any of its tasks, also of one that is aborted (R68). -/
def Launch.entry (l : Launch) (tick : Word) : CompEntry :=
  { qid := l.qid, id := l.id, status := if l.aborted then 2 else if l.cause.isSome then 1 else 0
    cause := l.cause.getD 0, stick := l.stick.getD tick
    etick := if l.stick.isSome then l.etick.getD tick else tick }

/-- LAUNCH_COMPLETE: every task of a launch has ended and its completion entry is queued. -/
def execLaunchComplete (launch : Nat) (s : State) : Res :=
  .next (match s.launch? launch with
    | none => s
    | some l =>
      if s.launchOver l then
        let unq := fun (d : Die) => { d with quota := d.quota.filter fun q => q.1 != launch }
        let s := { s with launches := s.launches.filter fun (x : Launch) => x.key != launch
                          dies := vtab 9 fun i => unq (s.getDie i) }
        let lent := (s.cores.map fun (c : Nat × Core) => c.1).filter fun (c : Nat) =>
          (List.range 4).any fun q => ((s.getCore c).quarter q).launch == some launch
        (lent.foldl State.scanCore s).complete l.part (l.entry s.tick)
      else s)

/-! ## Translations (R260, R262) -/

/-- The image of a module (R261). -/
def State.translation (s : State) (j : TransJob) : List Byte := translate s.act j.code.toArray j.h

/-- A place for an image: line-aligned, in the 8 MiB behind the partition's save records, in the 32 MiB that the device keeps, over no image that the
cache holds (R81; log 23). -/
def Partition.fits (p : Partition) (at_ : Nat) (image : List Byte) : Bool :=
  at_ % 64 == 0 && decide (p.memPa + 1024 * saveStep ≤ at_ + 8388608) && decide (at_ + image.length ≤ p.memPa + 1024 * saveStep) &&
    (p.transCache.take 1023).all fun e => decide (e.pa.toNat + e.bytes ≤ at_) || decide (at_ + image.length ≤ e.pa.toNat)

/-- What a translator has done with a module that it accepts: the image is the module's translation, entered at its first byte, at a place where it
fits. -/
def State.translated (s : State) (p : Partition) (j : TransJob) (image : List Byte) (entryOff at_ : Nat) : Bool :=
  image == s.translation j && entryOff == 0 && p.fits at_ image

/-- The result of a translation is posted for the request that waits for its key. -/
def Partition.post (p : Partition) (j : TransJob) (st : Nat) (bad : Option (BitVec 32)) (result : Word) : Partition :=
  if p.transState == 1 && p.transKey == j.key then { p with transState := st, transBad := bad, transResult := result } else p

/-- TRANSLATION_DONE: the translator of a partition has written the image of its oldest module (R261) at a place of the partition's memory and posts
OK with its entry, or REFUSED with the offset of the offending byte, and ends. Its place is an input (log 23); another image is no result of it. -/
def execTranslationDone (part : Nat) (image : List Byte) (entryOff at_ : Nat) (s : State) : Res :=
  .next (match (s.part? part).bind (fun p => p.transJobs.head?.map fun j => (p, j)), s.bound.find? fun b => b.2.translator && b.2.part == part with
    | some (p, j), some b =>
      if j.bad.isNone && !s.translated p j image entryOff at_ then s
      else
        let s := s.modPart part fun q => { q with transJobs := q.transJobs.drop 1 }
        let s := match j.bad with
          | some off => s.modPart part fun q => q.post j 3 (some off) 0
          | none =>
            let e : TransEntry := { key := j.key, pa := word at_, bytes := image.length }
            (s.devWrite at_ image).modPart part fun q => { q.post j 2 none e.pa with transCache := (e :: q.transCache).take 1024 }
        let me := s.cur
        ((s.switchTo b.1).endTask none).switchTo me
    | _, _ => s)

end Sys2Proof.Machine
end

