-- ==== Sys2Proof/Machine/TileMsgs.lean ====
section
/-! DEFINITION. Remote tile messages as the device receives them: TILE with its commit (R46, R47, R49, R50, R173), TACK, TNAK (R48), and the
timers of the sender (R48, R49). -/

namespace Sys2Proof.Machine

/-! ## Messages -/

/-- Fields of the common word (Table 2.2). -/
def msgType (m : LinkMsg) : Nat := (m.common.extractLsb' 60 4).toNat
def msgSrc (m : LinkMsg) : Nat := (m.common.extractLsb' 50 10).toNat
def msgDest (m : LinkMsg) : BitVec 10 := m.common.extractLsb' 40 10
def msgSeq (m : LinkMsg) : BitVec 16 := m.common.extractLsb' 24 16
def msgLen (m : LinkMsg) : Nat := (m.common.extractLsb' 8 16).toNat

/-- Word 1 or word 2 of a message. -/
def msgWord (m : LinkMsg) (i : Nat) : Word := m.words.getD (i - 1) 0

/-- A message is not the device's own, or a field of its common word that must be 0 is not (R41). -/
def State.commonBad (s : State) (m : LinkMsg) (typ : Nat) (numbered : Bool) : Bool :=
  msgType m != typ || m.common.extractLsb' 0 8 != 0 || s.pkgId != some (msgDest m) || (typ != 1 && msgLen m != 0) ||
    (!numbered && msgSeq m != 0)

/-- A message that is not accepted is discarded and counted (R41). -/
def State.discardLink (s : State) : State := { s with linkDiscarded := s.linkDiscarded + 1 }

/-! ## TILE header (Table 2.3) -/

def tilePart (m : LinkMsg) : Nat := ((msgWord m 1).extractLsb' 42 6).toNat
def tileAsid (m : LinkMsg) : BitVec 16 := (msgWord m 1).extractLsb' 48 16
def tileReg (m : LinkMsg) : MReg := (msgWord m 1).extractLsb' 33 9
def tileCode (m : LinkMsg) : TypeCode := (msgWord m 1).extractLsb' 27 6
def tileRows (m : LinkMsg) : Nat := ((msgWord m 1).extractLsb' 21 6).toNat + 1
def tileCols (m : LinkMsg) : Nat := ((msgWord m 1).extractLsb' 15 6).toNat + 1
def tileHasMap (m : LinkMsg) : Bool := (msgWord m 1).getLsbD 14
def tileTag (m : LinkMsg) : BitVec 16 := (msgWord m 2).extractLsb' 0 16

/-- A TILE message with a reserved field that is not 0, a field outside its range, or lengths that do not agree (R7, R41, R46). Poison-map bits beyond the
tile's elements and padding that is not 0 are ignored: the manual does not say what the receiver does (DESIGN CHOICE, log 85). -/
def State.tileBad (s : State) (m : LinkMsg) : Bool :=
  s.commonBad m 1 true || m.words.length != 3 || (msgWord m 1).extractLsb' 0 14 != 0 || (msgWord m 2).extractLsb' 16 36 != 0 ||
    decide (35 < tilePart m) || decide (575 < ((msgWord m 2).extractLsb' 54 10).toNat) || decide (20480 < msgLen m) ||
    m.payload.length != 64 * ceilDiv (msgLen m) 64 ||
    m.pmap.length != (if tileHasMap m then 64 * ceilDiv (msgLen m) 4096 else 0) ||
    (match etyOf (tileCode m) with
     | some t => msgLen m != tileRows m * rowBytes (tileCols m) t.width
     | none => false)

/-- The code of element (r, c) of a payload. -/
def payloadElem (w cols : Nat) (bs : Array Byte) (r c : Nat) : Nat :=
  let lo := r * rowBytes cols w + c * w / 8
  fld (leNat ((List.range 6).map fun i => if c * w / 8 + i < rowBytes cols w then bs.getD (lo + i) 0 else 0)) (c * w % 8) w

/-- Whether a byte of a payload is in a group that the poison map marks. -/
def mapMarks (m : LinkMsg) (k : Nat) : Bool := (m.pmap.getD (k / 64) 0).getLsbD (k / 8 % 8)

/-- The tile of a message: its elements at the leading rows and columns, all others zero; a word that takes a byte of a marked group is
poisoned (R46, R47). -/
def tileOfMsg (m : LinkMsg) (t : ETy) : Tile :=
  let rows := tileRows m
  let cols := tileCols m
  let rb := rowBytes cols t.width
  let bs := m.payload.toArray
  let bad := (List.range (rows * rb)).foldl (fun (p : BitVec 2560) k =>
    if mapMarks m k then p ||| BitVec.ofNat 2560 (2 ^ ((k / rb * (8 * t.width) + k % rb) / 8)) else p) 0
  { ety := t, narrow := none, poison := if m.pmap.isEmpty then 0 else bad
    elems := vtab 4096 fun i => BitVec.ofNat 40 (if i / 64 < rows ∧ i % 64 < cols then payloadElem t.width cols bs (i / 64) (i % 64) else 0) }

/-! ## The commit (R47, R50, R173) -/

/-- How a commit ends: applied, refused with BACKING, or to be tried again once granules are free. -/
inductive Commit where
  | done (s : State)
  | backing (s : State)
  | wait (s : State)

/-- The thread in hand has issued an instruction that has not retired: one in the tile queue, between two steps of a walk, or waiting for leased
memory once its line is there. -/
def Thread.inHand (t : Thread) : Bool :=
  match t.stall with
  | .tile | .walk | .links _ => true
  | .lease => t.lineBuf.any fun b => b.1 == lineAddr t.pc
  | _ => false

/-- The old version stays with the instruction that the receiving thread has issued and not retired (R50): one in flight is read at once,
one that a transfer produces stays in production. The accumulator bank that holds it is written back first (R146). -/
def keepOld (r : MReg) : M Unit := do
  let s ← get
  if s.t.inHand && !s.t.held.any fun x => x.reg == r then
    match s.t.line? r with
    | none => pure ()
    | some l =>
      if entV l.entry then
        if (s.getCore s.core).acc.any fun b => b.ctx == s.t.ctx && b.reg == r then set (s.writeBackAcc s.core)
        let s ← get
        let old := findSet (s.getCore s.core).sets s.t.ctx r
        match old.filter fun x => !x.filling || x.dirty with
        | some x => modT fun t => { t with held := x :: t.held }
        | none =>
          match ← fillImage s.t.ctx s.t.sup r (entTy l.entry) with
          | .ok t =>
            modT fun th => { th with held := { ctx := s.t.ctx, reg := r, tile := t, dirty := false, lastUsed := false, filling := false
                                               hinted := false, spilling := false, blocked := none, granules := [], job := 0 } :: th.held }
            modify fun s => s.arrived s.core s.t.ctx r
          | .error va => modify fun s => s.failEntries s.core s.t.ctx r va

/-- Rename the register to the received tile in MSM, for the active context of the thread in hand. -/
def renameTile (r : MReg) (t : Tile) : M Unit := do
  let s ← get
  if (s.t.line? r).isNone then fetchGroup r
  let s ← get
  match s.t.line? r with
  | none => raise .tmapFault (entAddr s.t.tmapbase r) r.toNat
  | some l =>
    if s.entBad r.toNat l.entry then raise .tmapFault (entAddr s.t.tmapbase r) r.toNat
    else
      keepOld r
      writeTile [] r t

/-- Write the received tile to the backing slot of an inactive context, with its entry, in memory and where it is kept for a pre-empted task (R152,
R173): a resident version of the register is freed.
False when the entry or the slot cannot be used. -/
def backTile (c : Ctx) (r : MReg) (t : Tile) : M Bool := do
  match ← (fsePlaces c false (entAddr c.base r) 16 : StateM State _) with
  | .error _ => return false
  | .ok eps =>
    let bs ← readFor c.part eps
    let s ← get
    let e := (s.keptEntry c r).getD (BitVec.ofNat 128 (leNat (bs.map (·.1))))
    if s.entBad r.toNat e then return false
    else
      let bs := tileBytes s t
      match ← (fsePlaces c false (backAddr c.base r) bs.length : StateM State _) with
      | .error _ => return false
      | .ok ps =>
        writeMarked c.part ps bs fun i => t.poison.getLsbD (i / 8)
        let new := mkEnt true false false t.code t.ety.granules 0 0 r.toNat
        writeRunsFor c.part (storeRuns eps (leBytes 16 new.toNat))
        modify fun s => (s.setCached c r fun _ => new).getD s
        modify fun s => s.cores.foldl (fun s k =>
          (k.2.sets.filter fun x => x.ctx == c && x.reg == r).foldl (fun s x => s.freeVersion k.1 x) s) s
        return true

/-- Who asks for the leased accesses of a commit. -/
def commitAsker (m : LinkMsg) : Asker := .commit (msgSrc m) (msgSeq m)

/-- Commit a tile to a register of a context. -/
def State.commitTile (s : State) (m : LinkMsg) (c : Ctx) (t : Tile) : Commit :=
  let me := s.cur
  let who := commitAsker m
  match s.activeSlot c with
  | some tid =>
    let s1 := s.switchTo tid
    match runAs who (renameTile (tileReg m) t) s1 with
    | (.ok _, s') => .done ((s'.switchTo me).askDone who)
    | (.error (.trap _), s') => .backing ((s'.switchTo me).askDone who)
    | (.error (.stall (.spill cv rv)), _) =>
      let go := fun (y : TileSet) => if y.ctx == cv && y.reg == rv && y.blocked.isNone then { y with spilling := true } else y
      .wait ((s1.modSets (tid / 4) fun l => l.map go).switchTo me)
    | (.error (.stall (.links _)), s') => .wait (s'.switchTo me)
    | (.error (.lease part req), _) | (.error (.leaseKept part req), _) => .wait (s.ask who part req)
    | (.error _, _) => .wait s
  | none =>
    match runAs who (backTile c (tileReg m) t) s with
    | (.ok true, s') => .done (s'.askDone who)
    | (.ok false, s') => .backing (s'.askDone who)
    | (.error (.stall (.links _)), s') => .wait s'
    | (.error (.lease part req), _) => .wait (s.ask who part req)
    | (.error _, s') => .backing (s'.askDone who)

/-! ## TILE -/

def State.ackTile (s : State) (m : LinkMsg) : State := s.sendWords 2 (msgSrc m) (msgSeq m) []
def State.nakTile (s : State) (m : LinkMsg) (reason : Nat) : State :=
  s.sendWords 3 (msgSrc m) (msgSeq m) [word (reason * 2 ^ 60)]

/-- The registration that a message names: at most one (R174). -/
def State.registration (s : State) (m : LinkMsg) : Option RxReg :=
  s.rxRegs.find? fun r => r.part == tilePart m && r.asid == tileAsid m && r.tag == tileTag m

def RxReg.ctx (r : RxReg) : Ctx := { part := r.part, asid := r.asid, base := r.base }

/-- The pool whose receive slots a message uses: a core, or the package's. -/
def State.poolOf (s : State) (m : LinkMsg) : Option Nat :=
  (s.registration m).bind fun r => (s.activeSlot r.ctx).map fun tid => tid / 4

/-- A pool has a free receive slot. -/
def State.slotFree (s : State) (pool : Option Nat) : Bool :=
  decide ((s.rxHeld.filter fun m => s.poolOf m == pool).length < (if pool.isSome then 16 else 64))

/-- The sequence number expected next from a source: 0 at first, which the manual does not give (DESIGN CHOICE, log 85). -/
def State.expected (s : State) (src : Nat) : BitVec 16 := (alookup src s.rx).getD 0
def State.expectNext (s : State) (m : LinkMsg) : State := { s with rx := ainsert (msgSrc m) (msgSeq m + 1) s.rx }

/-- Commit an accepted message, or keep its receive slot until it can be. -/
def State.applyTile (s : State) (m : LinkMsg) : State :=
  match s.registration m, etyOf (tileCode m) with
  | some r, some t =>
    match s.commitTile m r.ctx (tileOfMsg m t) with
    | .done s => s.ackTile m
    | .backing s => s.nakTile m 5
    | .wait s => { s with rxHeld := s.rxHeld ++ [m] }
  | _, _ => s.nakTile m 1

/-- A message that comes next in order: the checks of R47. -/
def State.acceptTile (s : State) (m : LinkMsg) : State :=
  match s.registration m with
  | none => (s.expectNext m).nakTile m 1
  | some r =>
    if decide ((tileReg m).toNat < r.first) || decide (r.last < (tileReg m).toNat) then (s.expectNext m).nakTile m 0
    else
      match etyOf (tileCode m) with
      | none => (s.expectNext m).nakTile m 2
      | some t =>
        if !colsFit t (tileCols m) then (s.expectNext m).nakTile m 2
        else if !s.slotFree (s.poolOf m) then s.nakTile m 3
        else
          let s := s.expectNext m
          if s.rxHeld.any fun x => msgSrc x == msgSrc m then { s with rxHeld := s.rxHeld ++ [m] } else s.applyTile m

/-- TILE: checked and applied in the order of its source (R47, R49): a duplicate is acknowledged again, one beyond the next expected is
counted and dropped. -/
def execTile (m : LinkMsg) (s : State) : Res :=
  .next (
    let d := msgSeq m - s.expected (msgSrc m)
    if s.tileBad m then s.discardLink
    else if d == 0 then s.acceptTile m
    else if d.msb then
      if s.rxHeld.any fun x => msgSrc x == msgSrc m && msgSeq x == msgSeq m then s else s.ackTile m
    else { s with tileEarly := s.tileEarly + 1 })

/-- The held messages that are the oldest of their source. -/
def oldestHeld : List Nat → List LinkMsg → List LinkMsg
  | _, [] => []
  | seen, m :: rest => if seen.contains (msgSrc m) then oldestHeld seen rest else m :: oldestHeld (msgSrc m :: seen) rest

/-- A held message can be tried again: no version of its core is being spilled, and its leased requests are answered. -/
def State.mayRetry (s : State) (m : LinkMsg) : Bool :=
  (match s.poolOf m with
   | some c => (s.getCore c).sets.all fun x => !x.spilling
   | none => true) && !s.awaits (commitAsker m)

/-- Try one held message again: none when it would only go on waiting (R47). -/
def State.retryTile (s : State) (m : LinkMsg) : Option State :=
  if !s.mayRetry m then none
  else
    match s.registration m, etyOf (tileCode m) with
    | some r, some t =>
      let drop := fun (s : State) => { s with rxHeld := s.rxHeld.erase m }
      match s.commitTile m r.ctx (tileOfMsg m t) with
      | .done s => some ((drop s).ackTile m)
      | .backing s => some ((drop s).nakTile m 5)
      | .wait s' => if s' = s then none else some s'
    | _, _ => some ({ s.askDone (commitAsker m) with rxHeld := s.rxHeld.erase m }.nakTile m 1)

/-- The first held message that can go on. -/
def State.retryHeld (s : State) : Option State := (oldestHeld [] s.rxHeld).findSome? s.retryTile

/-! ## TACK and TNAK -/

/-- Whether a sequence number is at or before another. -/
def seqUpTo (x y : BitVec 16) : Bool := !(y - x).msb

/-- TACK: every message up to its number is acknowledged, and those that waited for it are injected (R49, R50). -/
def execTack (m : LinkMsg) (s : State) : Res :=
  .next (if s.commonBad m 2 true then s.discardLink
    else
      let w := s.win (msgSrc m)
      let left := w.unacked.filter fun x => !(x.injected && seqUpTo x.seq (msgSeq m))
      let cleared := match w.backoff with
        | some b => if seqUpTo b (msgSeq m) then none else w.backoff
        | none => none
      if s.tx.any fun v => v.dest == msgSrc m then (s.setWin { w with unacked := left, resends := 0, backoff := cleared }).inject else s)

/-- TNAK: BUSY starts the wait before a resend; any other reason raises REMOTE_NAK on the sending thread (R48). -/
def execTnak (m : LinkMsg) (s : State) : Res :=
  .next (
    let reason := ((msgWord m 1).extractLsb' 60 4).toNat
    if s.commonBad m 3 true || reason == 4 || decide (5 < reason) then s.discardLink
    else
      let w := s.win (msgSrc m)
      match w.unacked.find? fun x => x.injected && x.seq == msgSeq m with
      | none => s
      | some x =>
        if reason == 3 then s.setWin { w with resends := 0, backoff := some x.seq }
        else ((s.setWin { w with resends := 0, unacked := w.unacked.filter fun y => y.seq != x.seq }).remoteNak x reason).inject)

/-! ## Timers of the sender -/

/-- Send again the injected messages of a list, in order. -/
def resendAll : List Sent → State → State
  | [], s => s
  | x :: rest, s => resendAll rest (if x.injected then s.sendLink x.msg else s)

/-- TILE_RESEND_TIMEOUT: 50 µs without an answer: resend from the oldest, and after four resends report TIMEOUT for every message (R49). -/
def execTileResendTimeout (dest : Nat) (s : State) : Res :=
  .next (
    let w := s.win dest
    if !w.unacked.any (·.injected) then s
    else if w.resends < 4 then resendAll w.unacked (s.setWin { w with resends := w.resends + 1, backoff := none })
    else (w.unacked.foldl (fun s x => s.remoteNak x 4) (s.setWin { w with unacked := [], resends := 0, backoff := none })).inject)

/-- BUSY_BACKOFF_EXPIRY: 1 µs after BUSY the rejected message and every later one are sent again (R48). -/
def execBusyBackoffExpiry (dest : Nat) (s : State) : Res :=
  .next (
    let w := s.win dest
    match w.backoff with
    | none => s
    | some b => resendAll (w.unacked.filter fun x => seqUpTo b x.seq) (s.setWin { w with backoff := none }))

/-- FABRIC_ERROR: an error for a TILE message is counted and is no answer (R49). -/
def execFabricError (_dest : Nat) (s : State) : Res := .next { s with fabricErrors := s.fabricErrors + 1 }

end Sys2Proof.Machine
end

