-- ==== Sys2Proof/Machine/LinkEvents.lean ====
section
/-! DEFINITION. Tick synchronisation (R42 to R45), ports (R37, R38), and requests and completions of leased memory as they cross UALink
(R40, R52). -/

namespace Sys2Proof.Machine

/-! ## Tick synchronisation -/

/-- SYNCED_CLEAR: E has exceeded 10 ns (R44). -/
def execSyncedClear (s : State) : Res := .next s.resync

/-- SYNCED_SET: E has fallen to 10 ns or below (R44). -/
def execSyncedSet (s : State) : Res := .next s.resync

def State.port (s : State) (p : Nat) : Port := vget s.ports p { enabled := false, up := false, stranded := false, lanes := 4, asym := 4 }
def State.setPort (s : State) (p : Nat) (x : Port) : State := { s with ports := vput s.ports p x }

/-- The time master at the `n`-th derivation: the lowest id among the eligible packages, else the lowest id of all (R42). -/
def State.timeMaster (s : State) (n : Nat) : Nat :=
  let ids := (List.range 1024).filter fun i => i == s.ownId || Config.domainHolds n i
  match ids.find? fun i => if i == s.ownId then s.ts.eligible else Config.domainEligible n i with
  | some i => i
  | none => ids.head?.getD s.ownId

/-- The neighbour one hop closer to the master that a port which is up reaches; of several, the one reached through the lower-numbered port (R42), and
of those behind one port the one with the lower id (log 45). -/
def State.nearest (s : State) (n master : Nat) : Option Nat :=
  let hops := fun i => if i == master then 0 else Config.domainHops n i
  let near := (List.range 1024).filter fun i => i != s.ownId && Config.domainHolds n i && Config.domainNeighbour n i && hops i + 1 == hops s.ownId
  (List.range 16).findSome? fun p => if (s.port p).up then near.find? fun i => s.portOf i == p else none

/-- Derive the upstream neighbour anew (R42). A package that stops being the master starts from the master's E = 0 as of that tick, which the manual does
not say (DESIGN CHOICE, log 85). -/
def State.deriveUpstream (s : State) : State :=
  let m := s.timeMaster s.free
  let ts := if s.ts.master then { s.ts with err := 0, offset := 0, lastGood := s.tick } else s.ts
  { s with free := s.free + 1
           ts := if m == s.ownId then { ts with upstream := none, master := true, joined := true, offset := 0, trim := 0, trimPart := 0 }
                 else { ts with upstream := s.nearest s.free m, master := false } }

/-- What TICK_CONFIG has set is taken, after which the upstream path is derived again (R42, R78). -/
def State.takeTickConfig (s : State) : State :=
  match s.ts.config with
  | none => s
  | some (eligible, asyms) =>
    let s := { s with ts := { s.ts with config := none, eligible := eligible } }
    State.deriveUpstream (asyms.zipIdx.foldl (fun s a => s.setPort a.2 { s.port a.2 with asym := a.1 }) s)

/-- TSYNC_PERIOD: every 100 µs an exchange begins, with what TICK_CONFIG has set: TSYNC goes to the upstream neighbour, by the port of that destination,
with the send tick (R38, R43, R78). -/
def execTsyncPeriod (s : State) : Res :=
  .next (match s.pkgId with
    | none => s
    | some _ =>
      let s := s.takeTickConfig
      let s := if s.ts.upstream.isNone then s.deriveUpstream else s
      match s.ts.upstream with
      | none => s
      | some u =>
        if (s.port (s.portOf u)).up then State.sendWords { s with ts := { s.ts with sent := some s.tick } } 4 u 0 [s.tick] else s)

/-- The error bound in whole nanoseconds, as TSYNCR carries it. -/
def State.errWord (s : State) : Word := word (min (ceilDiv s.errBound 1000000) 0xFFFFFFFF)

/-- TSYNC: the neighbour is answered with its tick, the receive and send ticks, and the error bound (R43). -/
def execTsync (m : LinkMsg) (_port : Nat) (s : State) : Res :=
  .next (if s.commonBad m 4 false then s.discardLink
    else s.sendWords 5 (msgSrc m) 0 [msgWord m 1, s.tick, s.tick, s.errWord])

/-- The offset that an exchange estimates (R43); half an odd number of nanoseconds is rounded downwards, which the manual does not say
(DESIGN CHOICE, log 80). -/
def tickOffset (t1 t2 t3 t4 : Word) : Int := ((t2 - t1).toInt - (t4 - t3).toInt) / 2

/-- The mean of a list of numbers. -/
def meanOf (l : List Int) : Int := l.foldl (· + ·) 0 / l.length

/-- TSYNCR: the offset is estimated, E is set anew, the rate is trimmed to the mean of the last eight exchanges, and a package that joins more than
1 µs behind before its partitions' first launch steps forward once; one that joins more than 1 µs ahead launches nothing until it is SYNCED (R43,
R44). With several partitions none of them may have launched for the step, which the manual does not say (DESIGN CHOICE, log 85). -/
def execTsyncr (m : LinkMsg) (s : State) : Res :=
  .next (if s.commonBad m 5 false || (msgWord m 4).extractLsb' 32 32 != 0 then s.discardLink
    else
      match s.ts.upstream, s.ts.sent with
      | some u, some t1 =>
        if u != msgSrc m || t1 != msgWord m 1 then s
        else
          let o := tickOffset t1 (msgWord m 2) (msgWord m 3) s.tick
          let step := !s.ts.joined && (s.parts.all fun p => !p.launched) && decide (1000 < o)
          let now := if step then s.tick + BitVec.ofInt 64 o else s.tick
          let gap := (s.tick - s.ts.lastGood).toNat
          let err := ((msgWord m 4).extractLsb' 0 32).toNat + (s.port (s.portOf u)).asym
          let rates := if s.ts.joined && decide (0 < gap) then ((s.ts.trim + (o - s.ts.offset) * 1000000000 / gap) :: s.ts.rates).take 8 else s.ts.rates
          State.resync
            { s with tick := now
                     ts := { s.ts with err := err, offset := if step then 0 else o, sent := none, lastGood := now, rates := rates
                                       trim := if rates.isEmpty then s.ts.trim else meanOf rates, joined := true, slewed := 0
                                       ahead := s.ts.ahead || (!s.ts.joined && decide (o < -1000)) } }
      | _, _ => s)

/-- TSYNC_LOSS_TIMEOUT: 400 µs without TSYNCR: the upstream is lost and the path is derived again; E goes on rising (R45). -/
def execTsyncLossTimeout (s : State) : Res :=
  .next (State.deriveUpstream { s with ts := { s.ts with upstream := none, sent := none } })

/-! ## Ports -/

/-- The lowest-numbered port that is up. -/
def State.lowestUp (s : State) : Option Nat := (List.range 16).find? fun p => (s.port p).up

/-- Destinations whose entry names a port; an entry never written names port 0. -/
def State.namedBy (s : State) (port : Nat) : List Nat := (List.range 1024).filter fun d => s.portOf d == port

/-- The entries that name a port move to another, what waited for it leaves, and what was not acknowledged is sent again there (R38). -/
def State.movePort (s : State) (port q : Nat) : State :=
  let moved := s.namedBy port
  let s := State.departWaiting { s with portMap := moved.foldl (fun l d => ainsert d q l) s.portMap }
  (s.tx.filter fun w => moved.contains w.dest).foldl (fun s w => resendAll w.unacked s) s

/-- A port goes down: the entries that named it move to the lowest port that is up (R38); while none is up they wait for the next that comes up
(DESIGN CHOICE, log 80). -/
def State.portLost (s : State) (port : Nat) : State :=
  let s := s.setPort port { s.port port with up := false }
  match s.lowestUp with
  | none => s.setPort port { s.port port with stranded := true }
  | some q => s.movePort port q

/-- Entries that name ports which went down while none was up move to the lowest port that is up. -/
def State.unstrand (s : State) : State :=
  match s.lowestUp with
  | none => s
  | some q =>
    (List.range 16).foldl (fun s p =>
      if (s.port p).stranded then
        let s := s.setPort p { s.port p with stranded := false }
        s.movePort p (if (s.port p).up then p else q)
      else s) s

/-- PORT_DOWN (R38). -/
def execPortDown (port : Nat) (s : State) : Res := .next (if (s.port port).up then s.portLost port else s)

/-- PORT_UP: an enabled port has trained again (R38). -/
def execPortUp (port : Nat) (s : State) : Res :=
  .next (if (s.port port).enabled then (s.setPort port { s.port port with up := true }).unstrand.departWaiting else s)

/-- UALINK_LANE_FAILURE: an x4 port narrows to x2, and to x1; with its last lane the port is down (R37). -/
def execUalinkLaneFailure (port : Nat) (s : State) : Res :=
  .next (
    let p := s.port port
    if 1 < p.lanes then s.setPort port { p with lanes := p.lanes / 2 }
    else if p.up then s.portLost port else s)

/-! ## Requests to lent memory (R40, R52) -/

/-- Bytes that a request touches. -/
def reqBytes (r : LinkReq) : Nat := match r with
  | .read n => n
  | .write d => d.length
  | .atomic _ size _ _ => size

/-- The lender's limit: the deadline and 1 ms (Table 2.6). -/
def Lease.lenderLimit (l : Lease) : Word := l.deadline + 1000000

/-- A lent entry that serves its borrower: ACTIVE, or DRAINING until the deadline and 1 ms have passed (R56, Table 2.6). -/
def State.serves (s : State) (l : Lease) : Bool :=
  l.v && l.lent && (l.st == 1 || (l.st == 2 && decide (s.tick.toNat < l.lenderLimit.toNat)))

/-- The lent entry of a borrower that covers a range of HBM: a request of any other package lies outside it (DESIGN CHOICE, log 80). -/
def State.lentTo (s : State) (src off n : Nat) : Option Lease :=
  (s.leases.find? fun p => s.serves p.2 && p.2.peer == src && decide (p.2.lbase * leaseUnit ≤ off) &&
    decide (off + n ≤ (p.2.lbase + p.2.units) * leaseUnit)).map (·.2)

/-- The function of a UALink atomic (Table 2.1). -/
def amoOf (op : Nat) (cmp : Word) : Option AmoOp :=
  match op with
  | 0 => some .add | 1 => some .and | 2 => some .or | 3 => some .xor | 4 => some .min | 5 => some .max | 6 => some .minu
  | 7 => some .maxu | 8 => some .swap | 9 => some (.cas cmp) | _ => none

/-- A request of the kinds that are accepted (Table 2.1): reads and writes of 64 to 256 bytes, atomics of 32 or 64 bits at a multiple of their
size. -/
def reqOk (off : Nat) (r : LinkReq) : Bool :=
  match r with
  | .read n => decide (64 ≤ n) && decide (n ≤ 256)
  | .write d => decide (64 ≤ d.length) && decide (d.length ≤ 256)
  | .atomic op size _ _ => (size == 4 || size == 8) && decide (op ≤ 9) && off % size == 0

/-- Marked bytes at an HBM offset, as another package reads them through L2, charged to the lent entry's partition. -/
def State.lentRead (s : State) (part off n : Nat) : State × Bool × List Byte :=
  let s := (linesOf off n).foldl (fun s l => s.touchL2 part l false) s
  (s, (List.range n).any fun i => s.poisonAt (.hbm (off + i) .l2 false), memReadN s.mem off n)

/-- The bytes that a write carries, in runs: byte enables leave the others as they are. -/
def enabledRuns : Nat → List (Option Byte) → List (Nat × List Byte)
  | _, [] => []
  | off, none :: rest => enabledRuns (off + 1) rest
  | off, some b :: rest =>
    match enabledRuns (off + 1) rest with
    | (o, run) :: more => if o = off + 1 then (off, b :: run) :: more else (off, [b]) :: (o, run) :: more
    | [] => [(off, [b])]

/-- A completion goes to the package that asked, by the port of that destination (R38). -/
def State.answerLink (s : State) (dest : Nat) (error : Bool) (data : List Byte) : State := s.depart dest (.linkReply 0 dest error data)

/-- Serve a request to lent memory. -/
def State.serveLent (s : State) (src part off : Nat) (r : LinkReq) : State :=
  match r with
  | .read n =>
    let x := s.lentRead part off n
    x.1.answerLink src x.2.1 x.2.2
  | .write d => ((enabledRuns off d).foldl (fun s w => s.devStore part w.1 .l2 w.2) s).answerLink src false []
  | .atomic op size v cmp =>
    let x := s.lentRead part off size
    let s := x.1
    match if x.2.1 then none else (amoOf op cmp).bind fun a => a.new (8 * size) (leNat x.2.2) (v.toNat % 2 ^ (8 * size)) with
    | some y => (s.devStore part off .l2 (leBytes size y)).answerLink src x.2.1 x.2.2
    | none => s.answerLink src x.2.1 x.2.2

/-- The partition that counts a request outside every lent range: the one whose memory it names, else the first. -/
def State.receivingPart (s : State) (off : Nat) : Nat :=
  match s.parts.find? fun p => decide (p.memPa ≤ off) && decide (off < p.memPa + p.memBytes) with
  | some p => p.id
  | none => (s.parts.head?.map (·.id)).getD 0

/-- UALINK_REQUEST: a read, write or atomic of another package is served inside its active lent range, else completed with an error and
counted (R40). -/
def execUalinkRequest (src offset : Nat) (r : LinkReq) (s : State) : Res :=
  .next (match if reqOk offset r then s.lentTo src offset (reqBytes r) else none with
    | some l => s.serveLent src l.part offset r
    | none => (s.count (s.receivingPart offset) 37 1).answerLink src true [])

/-! ## Answers from leased memory -/

/-- The answer to a request is there for the agent that sent it. -/
def Ask.answer (tag : Nat) (error : Bool) (data : List Byte) (a : Ask) : Ask := if a.tag = tag then { a with reply := some (error, data) } else a

/-- A write whose answer nobody uses. -/
def Ask.posted (a : Ask) : Bool := match a.who, a.req.req with
  | .post _ _, _ => true
  | .gone, .write _ => true
  | _, _ => false

/-- UALINK_COMPLETION: a lender's answer to the request of a number: the line that was requested ahead arrives, a write that only has to be
acknowledged is, an error of it being counted (R55), and any other waits for the agent that sent the request (R40, R52). -/
def execUalinkCompletion (tag : Nat) (error : Bool) (data : List Byte) (s : State) : Res :=
  .next (match s.asks.find? fun a => a.tag == tag && a.reply.isNone with
    | none => s
    | some a =>
      let left := { s with asks := s.asks.filter fun x => x.tag != tag }
      match a.who with
      | .line h => left.hintArrive h error data
      | .post _ _ | .gone => if error && a.posted then { left with writebackErrors := s.writebackErrors + 1 } else left
      | _ => { s with asks := s.asks.map (Ask.answer tag error data) })

end Sys2Proof.Machine
end

