-- ==== Sys2Proof/Machine/LeaseEvents.lean ====
section
/-! DEFINITION. Leases as the device sets them up and takes them back: LREQ, LGRANT, LDENY (R53, R54), LREVOKE, LRELEASED and the deadlines
of Table 2.6 (R55, R56). -/

namespace Sys2Proof.Machine

/-! ## The lendable pool -/

/-- A list of ranges without a range. -/
def subRange (a n : Nat) (l : List (Nat × Nat)) : List (Nat × Nat) :=
  l.flatMap fun r =>
    (if r.1 < a then [(r.1, min r.2 (a - r.1))] else []) ++
      (if a + n < r.1 + r.2 then [(max r.1 (a + n), r.1 + r.2 - max r.1 (a + n))] else [])

/-- The spans of lent entries in use. -/
def State.lentSpans (s : State) : List (Nat × Nat) :=
  s.leases.filterMap fun p => if p.2.v && p.2.lent then some (p.2.lbase, p.2.units) else none

/-- Lendable ranges that are not lent. -/
def State.lendFree (s : State) : List (Nat × Nat) := s.lentSpans.foldl (fun l r => subRange r.1 r.2 l) s.lendable

/-- Insert a range in the order of its start. -/
def putRange (x : Nat × Nat) : List (Nat × Nat) → List (Nat × Nat)
  | [] => [x]
  | y :: rest => if x.1 ≤ y.1 then x :: y :: rest else y :: putRange x rest

/-- Join ranges that touch or overlap, in a list in order of start. -/
def joinRanges : List (Nat × Nat) → List (Nat × Nat)
  | [] => []
  | x :: rest =>
    match joinRanges rest with
    | y :: more => if y.1 ≤ x.1 + x.2 then (x.1, max x.2 (y.1 + y.2 - x.1)) :: more else x :: y :: more
    | [] => [x]

/-- The lowest-addressed lendable span of `n` units (R53). -/
def State.lendSpan (s : State) (n : Nat) : Option Nat :=
  ((joinRanges (s.lendFree.foldl (fun l r => putRange r l) [])).find? fun r => decide (n ≤ r.2)).map fun (r : Nat × Nat) => r.1

/-- The lowest free entry of the lease table. -/
def State.freeLease (s : State) : Option Nat := (List.range 256).find? fun i => (s.lease? i).all fun l => !l.v

/-- A lease table entry (Table 2.4). -/
def leaseEntry (st peer part lid lbase units : Nat) (lent : Bool) : BitVec 128 :=
  BitVec.ofNat 128 (2 ^ 127 + st * 2 ^ 125 + (if lent then 2 ^ 124 else 0) + peer * 2 ^ 114 + part * 2 ^ 108 + lid * 2 ^ 64 + lbase * 2 ^ 50 +
    (units - 1) * 2 ^ 22)

/-! ## Setting up (R53, R54) -/

/-- LREQ: the lender zeroes and records a span and grants it, or denies: 0 no span, 1 table full; with neither, 0 (DESIGN CHOICE, log 80). -/
def execLreq (m : LinkMsg) (s : State) : Res :=
  .next (
    let w := msgWord m 1
    let lid := (w.extractLsb' 32 32).toNat
    let n := (w.extractLsb' 18 14).toNat + 1
    let part := (w.extractLsb' 12 6).toNat
    if s.commonBad m 6 false || w.extractLsb' 0 12 != 0 || decide (35 < part) then s.discardLink
    else
      match s.lendSpan n, s.freeLease with
      | none, _ => s.sendWords 8 (msgSrc m) 0 [word (lid * 2 ^ 32)]
      | some _, none => s.sendWords 8 (msgSrc m) 0 [word (lid * 2 ^ 32 + 2 ^ 28)]
      | some b, some i =>
        let s := s.zeroRange (b * leaseUnit) (n * leaseUnit)
        let l : Lease := { entry := leaseEntry 1 (msgSrc m) part lid b n true, deadline := 0, drop := false, draining := false }
        (s.setLease i l).sendWords 7 (msgSrc m) 0 [word (lid * 2 ^ 32 + b * 2 ^ 18)])

/-- The entry, lent or borrowed, that a message names by its lease id and its source. -/
def State.leaseBy (s : State) (m : LinkMsg) (lent : Bool) (ok : Nat → Bool) : Option (Nat × Lease) :=
  s.leases.find? fun p => p.2.v && p.2.lent == lent && p.2.peer == msgSrc m && p.2.lid == ((msgWord m 1).extractLsb' 32 32).toNat && ok p.2.st

/-- LGRANT: the borrower's PENDING entry becomes ACTIVE with the lender's base; one that names no such entry is ignored (DESIGN CHOICE, log 80). -/
def execLgrant (m : LinkMsg) (s : State) : Res :=
  .next (if s.commonBad m 7 false || (msgWord m 1).extractLsb' 0 18 != 0 then s.discardLink
    else
      match s.leaseBy m false (· == 0) with
      | none => s
      | some (i, l) =>
        let base := ((msgWord m 1).extractLsb' 18 14).toNat
        s.setLease i { l with entry := BitVec.ofNat 128 (setFld (setFld l.entry.toNat 125 2 1) 50 14 base) })

/-- LDENY: the borrower clears V; one that names no PENDING entry is ignored (DESIGN CHOICE, log 80). -/
def execLdeny (m : LinkMsg) (s : State) : Res :=
  .next (if s.commonBad m 8 false || (msgWord m 1).extractLsb' 0 28 != 0 || decide (1 < ((msgWord m 1).extractLsb' 28 4).toNat) then
      s.discardLink
    else
      match s.leaseBy m false (· == 0) with
      | none => s
      | some (i, l) => s.setLease i l.cleared)

/-! ## Taking back (R55, R56, Table 2.6) -/

/-- LREVOKE: the borrower's ACTIVE entry enters DRAINING, and its supervisor is notified with the deadline and the lease id. -/
def execLrevoke (m : LinkMsg) (s : State) : Res :=
  .next (if s.commonBad m 9 false || (msgWord m 1).extractLsb' 0 32 != 0 then s.discardLink
    else
      match s.leaseBy m false (· == 1) with
      | none => s
      | some (i, l) =>
        (s.setLease i { l.withSt 2 with deadline := msgWord m 2 }).notify l.part
          { cause := .leaseRevoke, xaddr := msgWord m 2, xelem := word l.lid, reg := 0 })

/-- Whether a line lies in the aperture range of a borrowed entry. -/
def Lease.spans (l : Lease) (line : Nat) : Bool :=
  decide (apertureBase + fld l.entry.toNat 36 14 * leaseUnit ≤ 64 * line) &&
    decide (64 * line < apertureBase + (fld l.entry.toNat 36 14 + l.units) * leaseUnit)

/-- The lines of a borrowed range leave L2, those that are dirty being written back, and every L1. -/
def State.dropSpan (s : State) (l : Lease) : State :=
  let s := s.dropLease fun x => l.spans x.num
  s.cores.foldl (fun s c => s.dropL1 c.1 fun x => l.spans x.num) s

/-- A borrowed entry stops new accesses, writes back its dirty lines and drains (Table 2.6). -/
def State.stopLease (s : State) (i : Nat) : State :=
  match s.lease? i with
  | some l => if l.v && !l.lent && (l.st == 1 || l.st == 2) && !l.draining then (s.dropSpan l).setLease i { l with draining := true } else s
  | none => s

/-- LEASE_RELEASE: the borrower's supervisor releases a lease. -/
def execLeaseRelease (idx : Nat) (s : State) : Res := .next (s.stopLease idx)

/-- LEASE_BORROWER_DEADLINE: the deadline of a DRAINING entry forces its release. -/
def execLeaseBorrowerDeadline (idx : Nat) (s : State) : Res :=
  .next (match s.lease? idx with
    | some l => if l.v && !l.lent && l.st == 2 && !l.draining then (s.tickTo l.deadline).stopLease idx else s
    | none => s)

/-- No leased access of a partition awaits an answer. -/
def State.leaseQuiet (s : State) (part : Nat) : Bool :=
  s.asks.all fun a => a.part != part || a.reply.isSome

/-- LEASE_DRAIN_COMPLETE: the write-backs and the other outstanding requests of a released lease have been answered: lines of its range that came
since leave the caches, LRELEASED is sent and V cleared (Table 2.6). -/
def execLeaseDrainComplete (idx : Nat) (s : State) : Res :=
  .next (match s.lease? idx with
    | some l =>
      if l.v && l.draining && s.leaseQuiet l.part then
        ((s.dropSpan l).setLease idx l.cleared).sendWords 10 l.peer 0 [word (l.lid * 2 ^ 32)]
      else s
    | none => s)

/-- A lent entry ends: V is cleared, and a span that LEND_UNMARK took back leaves the pool. -/
def State.endLent (s : State) (i : Nat) (l : Lease) : State :=
  let s := s.setLease i l.cleared
  if l.drop then { s with lendable := subRange l.lbase l.units s.lendable } else s

/-- LRELEASED: the lender clears its entry. -/
def execLreleased (m : LinkMsg) (s : State) : Res :=
  .next (if s.commonBad m 10 false || (msgWord m 1).extractLsb' 0 32 != 0 then s.discardLink
    else
      match s.leaseBy m true fun st => st == 1 || st == 2 with
      | none => s
      | some (i, l) => s.endLent i l)

/-- LEASE_LENDER_DEADLINE: the deadline and 1 ms have passed without LRELEASED, and the entry is cleared. -/
def execLeaseLenderDeadline (idx : Nat) (s : State) : Res :=
  .next (match s.lease? idx with
    | some l => if l.v && l.lent && l.st == 2 then (s.tickTo l.lenderLimit).endLent idx l else s
    | none => s)

/-- A lent entry is revoked: it enters DRAINING, and LREVOKE goes to its borrower with the deadline (R56). -/
def State.revokeLent (s : State) (i : Nat) (l : Lease) (deadline : Word) (drop : Bool) : State :=
  (s.setLease i { l.withSt 2 with deadline := deadline, drop := drop || l.drop }).sendWords 9 l.peer 0 [word (l.lid * 2 ^ 32), deadline]

end Sys2Proof.Machine
end

