-- ==== Sys2Proof/Machine/LaunchRead.lean ====
section
/-! DEFINITION. Launches from the host: the launch record and its validation (R82 to R86), reading the records of a queue (R67), LAUNCH with
its fence (R66, R67, R69) and ABORT (R71). -/

namespace Sys2Proof.Machine

/-! ## The record (Tables 4.1 to 4.4) -/

/-- Flight descriptor `i` of a record. -/
def recFlight (r i : Nat) : Flight :=
  let d := fld r (512 + 64 * i) 64
  { domain := fld d 61 3, scope := fld d 58 3, count := fld d 0 16 }

/-- Stage descriptor `j` of a record. -/
def recStage (r j : Nat) : Stage :=
  let d := fld r (1024 + 256 * j) 256
  { barf := fld d 160 4, tlim := fld d 144 12, spadu := fld d 136 8, inv := fld d 135 1 == 1, inl := fld d 132 3, tiles := fld d 131 1 == 1
    demote := fld d 130 1 == 1, heat := fld d 128 2, sarg := word (fld d 64 64), entry := word (fld d 0 64), created := 0, ended := 0, owed := 0
    stalled := false }

/-- Landing descriptor `l` of a record. -/
def recLanding (r l : Nat) : Landing :=
  let d := fld r (3072 + 128 * l) 128
  { pmask := BitVec.ofNat 8 (fld d 80 8), home := fld d 76 4, cstg := fld d 72 3, wide := fld d 69 1 == 1, lsz := fld d 64 5
    base := word (fld d 0 64), head := 0, tail := 0 }

/-- Reserved fields of a flight, a stage and a landing descriptor. -/
def recRsvd (r nflt nstg nlnd : Nat) : Bool :=
  ((List.range nflt).any fun i => fld r (512 + 64 * i + 16) 42 != 0) ||
    ((List.range nstg).any fun j => fld r (1024 + 256 * j + 164) 92 != 0 || fld r (1024 + 256 * j + 156) 4 != 0) ||
    ((List.range nlnd).any fun l => fld r (3072 + 128 * l + 88) 40 != 0 || fld r (3072 + 128 * l + 75) 1 != 0 ||
      fld r (3072 + 128 * l + 70) 2 != 0)

/-- The launch that a record describes, read under a key. -/
def recLaunch (r key part qid : Nat) : Launch :=
  { key := key, part := part, qid := qid, id := word (fld r 0 64), asid := BitVec.ofNat 16 (fld r 336 16), args := word (fld r 128 64)
    prio := fld r 72 3, split := fld r 76 2, gang := fld r 75 1 == 1, gstart := word (fld r 192 64), grank := fld r 98 10
    npkg := fld r 88 10, tmpool := word (fld r 256 64), maps := List.range (fld r 320 16)
    flights := (List.range (fld r 78 3 + 1)).map (recFlight r), stages := (List.range (fld r 81 3 + 1)).map (recStage r)
    landings := (List.range (fld r 84 4)).map (recLanding r), started := fld r 75 1 == 0, fixedDom := [], stick := none, etick := none
    cause := none, aborted := false }

/-! ## Validation (Table 4.5) -/

/-- Row 1: format, reserved codes and reserved fields. A landing BASE that is not 4 KiB aligned, for which Table 4.5 has no row, counts as a reserved
code (DESIGN CHOICE, log 81). -/
def codesBad (r : Nat) (l : Launch) : Bool :=
  fld r 64 8 != 1 || l.split == 3 || decide (8 < fld r 84 4) || fld r 352 160 != 0 || fld r 108 20 != 0 ||
    recRsvd r l.flights.length l.stages.length l.landings.length || (!l.gang && (l.gstart != 0 || l.grank != 0 || l.npkg != 0)) ||
    (l.flights.any fun f => decide (5 < f.domain) || f.scope == 7 || f.count == 0) ||
    (l.stages.any fun st => st.heat == 3 || (!st.inv && st.inl != 0)) ||
    l.landings.any fun x => (decide (9 ≤ x.home) && decide (x.home ≤ 14)) || decide (x.lsz < 8) || decide (24 < x.lsz) ||
      x.base.extractLsb' 0 12 != 0

/-- Rows 3 and 4: the order of flights, and the domain flight. -/
def flightsBad (l : Launch) : Bool :=
  (l.flights.head?.any fun f => f.domain != 0 || f.count != 1) ||
    ((l.flights.zip (l.flights.drop 1)).any fun p => decide (p.2.domain < p.1.domain)) ||
    (l.flights.any fun f => decide (f.scope < f.domain)) ||
    l.flights.zipIdx.any fun p => p.1.domain == 5 && (!l.gang || p.2 + 1 != l.flights.length || p.1.count != l.npkg + 1)

/-- Hall pairs of a partition on a die, and in all. -/
def Partition.pairsOn (p : Partition) (d : Nat) : Nat := ((List.range 4).filter fun j => p.pairs.getLsbD (4 * d + j)).length
def Partition.pairCount (p : Partition) : Nat := ((List.range 36).filter fun j => p.pairs.getLsbD j).length

/-- Threads that one instance of a domain holds in the partition; half of them for a hot stage 0 from the hall up. -/
def Partition.holdsThreads (p : Partition) (domain npkg : Nat) (hot : Bool) : Nat :=
  let half := fun (n : Nat) => if hot then n / 2 else n
  match domain with
  | 0 => 1
  | 1 => 4
  | 2 => half 32
  | 3 => half (64 * (List.range 9).foldl (fun m d => max m (p.pairsOn d)) 0)
  | 4 => half (64 * p.pairCount)
  | _ => half (64 * p.pairCount * (npkg + 1))

/-- Row 5: an instance of some flight needs more threads than its domain holds. -/
def sizeBad (l : Launch) (p : Partition) : Bool :=
  let hot := (l.stages.head?.map (·.heat)) == some 2
  l.flights.zipIdx.any fun f => decide (p.holdsThreads f.1.domain l.npkg hot < flightSize l.flights f.2)

/-- Rows 6 and 7: inputs, consumers and producers name one another. -/
def landingsBad (l : Launch) : Bool :=
  (l.stages.zipIdx.any fun s => s.1.inv == (s.2 == 0)) ||
    (l.stages.any fun st => st.inv && decide (l.landings.length ≤ st.inl)) ||
    (l.landings.any fun x => decide (l.stages.length ≤ x.cstg) || (List.range 8).any fun i => x.pmask.getLsbD i && decide (l.stages.length ≤ i)) ||
    (l.stages.zipIdx.any fun s => s.1.inv && (l.landings[s.1.inl]?).any fun x => x.cstg != s.2) ||
    l.landings.zipIdx.any fun x => !l.stages.any fun st => st.inv && st.inl == x.2

/-- Rows 8 to 10: BARF, entries and scratchpads, tile maps. -/
def stagesBad (l : Launch) : Bool :=
  (l.stages.zipIdx.any fun s => if s.2 = 0 then decide (l.flights.length ≤ s.1.barf) else s.1.barf != 0) ||
    (l.stages.any fun st => st.entry.extractLsb' 0 6 != 0 || st.spadu == 0 || decide (spadBytes l.split / 4 / 4096 < st.spadu)) ||
    ((l.stages.any (·.tiles)) && l.maps.isEmpty) || l.tmpool.extractLsb' 0 24 != 0

/-- The stages that remain after each stage without a producer among them is taken away, `n` times. -/
def stagesLeft (l : Launch) : Nat → List Nat → List Nat
  | 0, left => left
  | n + 1, left => stagesLeft l n (left.filter fun j => l.landings.any fun x => x.cstg == j && left.any fun i => i != j && x.pmask.getLsbD i)

/-- Row 11: a cycle of the stage graph other than a stage appending to its own input. -/
def cycleBad (l : Launch) : Bool := !(stagesLeft l 8 (List.range l.stages.length)).isEmpty

/-- Row 12: the gang. -/
def gangBad (l : Launch) (tick : Word) : Bool := l.gang && (decide (l.npkg < l.grank) || decide (tick.toNat + 1000000000 < l.gstart.toNat))

/-- A record that fails validation (R86). -/
def State.recordFails (s : State) (r : Nat) (l : Launch) (p : Partition) : Bool :=
  codesBad r l || !((s.asid? l.asid).any fun e => e.part == l.part) || flightsBad l || sizeBad l p || landingsBad l || stagesBad l ||
    cycleBad l || gangBad l s.tick

/-! ## Reading (R67, R86) -/

/-- The bytes of record `i` of a queue, with the rights of a load, or the cause that keeps them from being read. The manual does not say what the
DST finds at a ring base of class 0xFF, taken as any other class that is not 0x00, nor which of the four causes an uncovered lease aperture has,
taken as a failing translation (DESIGN CHOICE, log 81). -/
def readRecordBytes (q : Queue) (i : Nat) : M (Except Cause Nat) := do
  let va := q.base + word (512 * i)
  if va.extractLsb' 56 8 != 0 then return .error .addrFault
  else
    match ← (placesGo (fun a => placeFor q.asid false q.part a accLoad) va 512 0 none : StateM State _) with
    | .error (_, c) => return .error (if c == .leaseFault then .pageFault else c)
    | .ok ps =>
      let bs ← readFor q.part (ps.map Place.pastL1)
      if bs.any (·.2) then return .error .memUe else return .ok (leNat (bs.map (·.1)))

/-- Start a valid launch: its stage-0 tasks become pending in index order (R87, R90). -/
def State.startLaunch (s : State) (l : Launch) : State :=
  let n := l.stage0Count
  let l := l.modStage 0 fun st => { st with created := n }
  match l.stages.head? with
  | none => s
  | some st =>
    { s.modPart l.part fun p => { p with launched := true } with
             launches := s.launches ++ [l]
             pending := s.pending ++ (List.range n).map fun i => Pending.fresh (s.newTask l 0 st (l.grank * n + i)) }

/-- Start record `i` of a queue, or complete it at once: unreadable (FAULT), invalid (BAD_RECORD), or a gang whose start has
passed (ABORTED). -/
def State.takeRecord (s : State) (q : Queue) (i : Nat) (r : Except Cause Nat) : State :=
  let ended := fun (s : State) (id : Word) (status cause : BitVec 16) =>
    s.complete q.part { qid := q.qid, id := id, status := status, cause := cause, stick := s.tick, etick := s.tick }
  match r with
  | .error c => ended s (word (0xFFFFFFC000000000 + q.qid * 2 ^ 32 + i)) 1 c.code
  | .ok r =>
    let l := recLaunch r s.nextLaunch q.part q.qid
    match s.part? q.part with
    | none => s
    | some p =>
      if s.recordFails r l p then ended s l.id 3 0
      else
        let s := { s with nextLaunch := s.nextLaunch + 1 }
        if l.gang && decide (l.gstart.toNat < s.tick.toNat) then ended s l.id 2 0 else s.startLaunch l

def State.queue? (s : State) (part qid : Nat) : Option Queue := s.queues.find? fun q => q.part == part && q.qid == qid
def State.modQueue (s : State) (part qid : Nat) (f : Queue → Queue) : State :=
  { s with queues := s.queues.map fun q => if q.part == part && q.qid == qid then f q else q }

/-- A record of a queue can be read: one is there, none of it is awaited from a lender, and the package may launch (R43). -/
def State.dstReady (s : State) (q : Queue) : Bool := q.unread != 0 && !s.ts.ahead && !s.awaits (.record q.part q.qid)

/-- Read and take the records of a queue up to its tail, in order (R67); a record in leased memory is waited for. -/
def readRecords (part qid : Nat) : Nat → State → State
  | 0, s => s
  | n + 1, s =>
    match s.queue? part qid with
    | none => s
    | some q =>
      if !s.dstReady q then s
      else
        let who : Asker := .record part qid
        match runAs who (readRecordBytes q q.read) s with
        | (.ok r, s) =>
          let s := (s.modQueue part qid fun x => { x with read := (q.read + 1) % q.size, unread := q.unread - 1 }).askDone who
          readRecords part qid n (s.takeRecord q q.read r)
        | (.error (.lease part req), _) => s.ask who part req
        | (.error _, _) => s

/-- The queue of which the DST can read a record. -/
def State.dstStep (s : State) : Option State :=
  (s.queues.find? s.dstReady).map fun (q : Queue) => readRecords q.part q.qid q.size s

/-! ## LAUNCH (R66, R67, R69) -/

/-- A LAUNCH that has arrived, from its payload. -/
def launchOf (n part : Nat) (session : BitVec 32) (bs : List Byte) : FenceWait :=
  let w := leNat bs
  { n := n, session := session, part := part, qid := fld w 0 6, tail := BitVec.ofNat 32 (fld w 32 32), qpn := fld w 64 24
    psn := BitVec.ofNat 24 (fld w 96 24) }

/-- A LAUNCH payload that is not accepted. -/
def launchBad (bs : List Byte) : Bool :=
  let w := leNat bs
  bs.length != 16 || fld w 6 26 != 0 || fld w 88 8 != 0 || fld w 120 8 != 0

/-- The queue pair of a fence has committed every WRITE up to its PSN. -/
def State.fenceMet (s : State) (f : FenceWait) : Bool :=
  f.qpn == 0xFFFFFF || s.qps.any fun q => q.part == f.part && q.qpn == f.qpn && !(q.recvPsn - 1 - f.psn).msb

/-- What the tests of R66 decide of a LAUNCH whose turn has come. -/
inductive LaunchTest where
  | nothing
  | refuse (status : BitVec 16)
  | fence
  | go (q : Queue) (n : Nat)

/-- Entries that a queue holds between its read index and its tail. -/
def Queue.used (q : Queue) : Nat := q.unread

def State.testLaunch (s : State) (f : FenceWait) : LaunchTest :=
  match s.queue? f.part f.qid with
  | none => .refuse 6
  | some q =>
    let n := (f.tail.toNat % q.size + q.size - q.tail) % q.size
    if n = 0 then .nothing
    else if (s.part? f.part).any (·.closing) then .refuse 6
    else if (s.part? f.part).any fun p => decide (4096 ≤ p.comps.length) then .refuse 5
    else if q.size - q.used < n then .refuse 5
    else if s.fenceMet f then .go q n
    else .fence

/-- Advance the tail of a queue and read its records. -/
def State.takeRecords (s : State) (q : Queue) (n : Nat) : State :=
  readRecords q.part q.qid q.size (s.modQueue q.part q.qid fun x => { x with tail := (q.tail + n) % q.size, unread := x.unread + n })

/-- The LAUNCH messages of a queue that wait, in order of arrival. -/
def State.waiting (s : State) (part qid : Nat) : List FenceWait := s.fences.filter fun f => f.part == part && f.qid == qid

def State.dropFence (s : State) (n : Nat) : State := { s with fences := s.fences.filter fun f => f.n != n }

/-- Let the waiting LAUNCH messages of a queue take effect in order, up to one whose fence is not met (R67); none launches while the package has
joined more than 1 µs ahead and is not SYNCED yet (R43). -/
def pumpQueue (part qid : Nat) : Nat → State → State
  | 0, s => s
  | fuel + 1, s =>
    match s.waiting part qid with
    | [] => s
    | f :: _ =>
      match s.testLaunch f with
      | .nothing => pumpQueue part qid fuel (s.dropFence f.n)
      | .refuse st => pumpQueue part qid fuel ((s.dropFence f.n).refuseLaunch f.session f.qid f.tail st)
      | .fence => s
      | .go q n => if s.ts.ahead then s else pumpQueue part qid fuel ((s.dropFence f.n).takeRecords q n)

def State.pump (s : State) (part qid : Nat) : State := pumpQueue part qid (s.waiting part qid).length s

/-- A LAUNCH of a session takes its place among those of its queue, which becomes the session's for completions (R70). -/
def State.launchMsg (s : State) (x : Session) (bs : List Byte) : State :=
  let f := launchOf s.nextFence x.part x.id bs
  let s := s.modQueue x.part f.qid fun q => { q with session := x.id }
  ({ s with nextFence := s.nextFence + 1, fences := s.fences ++ [f] }).pump f.part f.qid

/-- The turn of a LAUNCH has come: it is the first of its queue that waits. -/
def State.headWait (s : State) (f : FenceWait) : Bool := (s.waiting f.part f.qid).head?.any fun g => g.n == f.n

/-- A LAUNCH whose turn has come and whose fence is met (R66). -/
def State.fenceReady (s : State) (f : FenceWait) : Bool :=
  s.headWait f && s.fenceMet f && !s.ts.ahead

/-- LAUNCH_FENCE_RESOLVED: the queue pair has committed the PSN, and the LAUNCH proceeds (R66). -/
def execLaunchFenceResolved (n : Nat) (s : State) : Res :=
  .next (match s.fences.find? fun f => f.n == n with
    | some f => if s.fenceReady f then s.pump f.part f.qid else s
    | none => s)

/-- FENCE_TIMEOUT: 1 ms without the commit refuses a LAUNCH whose turn has come and that waits for it; the next of its queue follows (R66, R69). -/
def execFenceTimeout (n : Nat) (s : State) : Res :=
  .next (match s.fences.find? fun f => f.n == n with
    | some f => if s.headWait f && !s.fenceMet f then ((s.dropFence n).refuseLaunch f.session f.qid f.tail 4).pump f.part f.qid else s
    | none => s)

/-! ## ABORT (R71) -/

/-- An ABORT payload that is not accepted. -/
def abortBad (bs : List Byte) : Bool := bs.length != 16 || fld (leNat bs) 6 58 != 0

/-- ABORT of a session: the launch it names ends; one that is unknown or complete is left. One that is ending by a trap ends ABORTED, with the cause of
that trap, and a record that the queue has taken and that is not read yet is unknown (DESIGN CHOICE, log 81). -/
def State.abortMsg (s : State) (x : Session) (bs : List Byte) : State :=
  let w := leNat bs
  match s.launches.find? fun l => l.part == x.part && l.qid == fld w 0 6 && l.id == word (fld w 64 64) && !l.aborted with
  | some l => s.abortLaunch l.key
  | none => s

end Sys2Proof.Machine
end

