-- ==== Sys2Proof/Machine/Bist.lean ====
section
/-! DEFINITION. Run-time bank tests and bank parking (R24 to R27, R32). -/

namespace Sys2Proof.Machine

/-- The whole table, each entry of it read, goes to flash; the generation before it is kept (R30, R32). -/
def State.flashRemap (s : State) : State :=
  let s := s.consultAll
  { s with remapFlash := s.remap, remapOld := s.remapFlash }

/-! ## Starting a test (R24) -/

/-- A test is refused: the stack has one under way, the pseudo-channel has no free park bank, or its group no free entry. -/
def State.testRefused (s : State) (stack pch : Nat) : Bool :=
  (s.bists.any fun b => b.stack == stack) || ((s.group stack pch).any fun e => remapSwap e.2 && remapState e.2 == 3) ||
    (s.groupFree stack pch).isEmpty

/-- Start a test: its bank-swap entry is PARKING, in the lowest free entry of the group, which the manual leaves open (DESIGN CHOICE, log 82). -/
def State.startTest (s : State) (stack pch bank : Nat) : State :=
  match s.groupFree stack pch with
  | [] => s
  | i :: _ =>
    let e := remapEntry true pch bank 0 0 0
    { (s.setRemap stack i e).logRemap stack e with
      bists := s.bists ++ [{ stack := stack, pch := pch, bank := bank, index := i, st := 0, added := [] }] }

/-- A bank that can be tested. -/
def bankOk (stack pch bank : Nat) : Bool := decide (stack < 12) && decide (pch < 64) && decide (bank < 15)

/-- BIST_SCHEDULED: the management controller starts a test on its own schedule, having read the group's entries (R24, R30). -/
def execBistScheduled (stack pch bank : Nat) (s : State) : Res :=
  let s := s.consult stack pch
  .next (if bankOk stack pch bank && !s.testRefused stack pch then s.startTest stack pch bank else s)

/-! ## The states of Table 1.3 -/

/-- The test of a stack in a state. -/
def State.bistIn (s : State) (stack st : Nat) : Option Bist := s.bists.find? fun b => b.stack == stack && b.st == st

/-- Move the test of a stack to a state, with its entry; the log takes every state that a bank-swap entry is given, the manual does not say which
count as swap events (DESIGN CHOICE, log 82). -/
def State.moveBist (s : State) (b : Bist) (st : Nat) (added : List Nat := []) : State :=
  let e := remapEntry true b.pch b.bank st 0 0
  { (s.setRemap b.stack b.index e).logRemap b.stack e with
    bists := s.bists.map fun x => if x.stack == b.stack then { x with st := st, added := added } else x }

/-- The test of a stack is over. -/
def State.dropBist (s : State) (stack : Nat) : State := { s with bists := s.bists.filter fun x => x.stack != stack }

/-- Copy a bank from where its reads are served: errors that the copy meets are counted, and bursts that cannot be read are poisoned (R25, R26). -/
def State.copyBank (s : State) (b : Bist) : State :=
  let mine := (s.latent.filter fun x => bankAt (32 * x.burst) == (b.stack, b.pch, b.bank)).map fun (x : Latent) => x.burst
  mine.eraseDups.foldl State.readBurst s

/-- BIST_PARK_COMPLETE: the copy to the park bank is complete (R25, R26). -/
def execBistParkComplete (stack : Nat) (s : State) : Res :=
  .next (match s.bistIn stack 0 with
    | none => s
    | some b => (s.copyBank b).moveBist b 1)

/-- The spare rows of a bank that no remap uses, lowest first. -/
def State.sparesFree (s : State) (b : Bist) : List Nat :=
  let used := (s.group b.stack b.pch).filterMap fun e => if !remapSwap e.2 && remapBank e.2 == b.bank then some (remapSpare e.2) else none
  (List.range 32).filter fun i => !used.contains i

/-- Add the remaps of failing rows: row, entry and spare of each. -/
def addRemaps (b : Bist) : List (Nat × Nat × Nat) → State → State
  | [], s => s
  | (row, i, spare) :: rest, s =>
    let e := remapEntry false b.pch b.bank 0 row spare
    addRemaps b rest ((s.setRemap b.stack i e).logRemap b.stack e)

/-- BIST_TEST_COMPLETE: a pass returns the bank; failing rows that all find spare rows and entries are remapped first, in their order to the lowest
of both, which the manual leaves open (DESIGN CHOICE, log 82); else the bank stays swapped. A table that changed for good is in flash before the
change takes effect (R25, R32). -/
def execBistTestComplete (stack : Nat) (r : TestResult) (s : State) : Res :=
  .next (match s.bistIn stack 1 with
    | none => s
    | some b =>
      let s := s.consult b.stack b.pch
      let rows := r.failing.eraseDups
      let spares := s.sparesFree b
      let free := s.groupFree b.stack b.pch
      if rows.isEmpty then s.moveBist b 2
      else if rows.length ≤ spares.length ∧ rows.length ≤ free.length then
        ((addRemaps b (rows.zip (free.zip spares)) s).flashRemap).moveBist b 2 (free.take rows.length)
      else ((s.moveBist b 3).flashRemap).dropBist stack)

/-- BIST_RETURN_COMPLETE: the copy back is complete, and the entry is cleared (R25, R26). -/
def execBistReturnComplete (stack : Nat) (s : State) : Res :=
  .next (match s.bistIn stack 2 with
    | none => s
    | some b => (((s.copyBank b).clearRemap b.stack b.index).logRemap stack 0).dropBist stack)

end Sys2Proof.Machine
end

