-- ==== Sys2Proof/Machine/McEvents.lean ====
section
/-! DEFINITION. The management controller: boot and resets (R17, R27, R31, R32, R73, R74, R457), power (R256), sensors and the lifetime record (R35,
R36, R256), vector lanes (R138, R139) and write-assist (R34). -/

namespace Sys2Proof.Machine

/-! ## Images in flash (R73, R74, R80) -/

/-- An image that both signatures verify and whose security version is at least the fused minimum (R73). -/
def accepted (image : List Byte) : Bool :=
  Config.signatureOk 0 image && Config.signatureOk 1 image && decide (Config.minimumVersion ≤ Config.securityVersion image)

/-- The image of a kind in a flash slot, the shipped one where no other was ever stored. -/
def slotImage (kind : Nat) (slot : List (Nat × List Byte)) : List Byte := (alookup kind slot).getD (Config.shippedImage kind)

/-- The image of a kind that boot takes: of the slot that comes first, else of the other, when it is accepted (R73, R74). -/
def State.bootImage (s : State) (kind : Nat) : Option (List Byte) :=
  let first := if s.activeB then s.flashB else s.flashA
  let other := if s.activeB then s.flashA else s.flashB
  [slotImage kind first, slotImage kind other].find? accepted

/-- The bytes of a digest, highest first, as `sha384` takes them. -/
def digestBytes (d : BitVec 384) : List Byte := (List.range 48).map fun i => d.extractLsb' (8 * (47 - i)) 8

/-- Extend a measurement register with a digest (R74). -/
def State.extend (s : State) (i : Nat) (digest : BitVec 384) : State :=
  { s with meas := vput s.meas i (sha384 (digestBytes (vget s.meas i 0) ++ digestBytes digest)) }

/-- A range that R457 accepts for partition 0. -/
def rangeOk457 (r : Nat × Nat) : Bool :=
  r.1 % 2097152 == 0 && r.2 % 2097152 == 0 && decide (67108864 ≤ r.2) && decide (r.1 + r.2 ≤ hbmEnd)

/-- Partition 0 at boot (R72, R457). -/
def bootPartition (record : List Byte) : Partition :=
  match (Config.recordRange record).filter rangeOk457 with
  | some r => Partition.fresh 0 0xFFFFFFFFF r.1 r.2
  | none => Partition.fresh 0 0xFFFFFFFFF 0 bootMemBytes

/-- A change of a decode-table entry that a later image may make: ILLEGAL to ABSENT, a routine for an ABSENT entry, widening of a matrix
entry; reserved bits are 0, and only an ABSENT entry names a routine (R264, Table 10.4). -/
def tableChange (i : Nat) (e : BitVec 32) : Bool :=
  e.extractLsb' 16 14 == 0 &&
    match shippedAct i, (e.extractLsb' 30 2).toNat with
    | 3, 2 => true
    | 2, 2 => true
    | 0, 1 => e.extractLsb' 0 16 == 0 && decide (0x60 ≤ i / 256) && decide (i / 256 ≤ 0x62)
    | _, _ => false

/-- Load the decode table image (R263, R264, R266): the one that the device is shipped with changes no entry of the shipped table. -/
def State.loadTable (s : State) (image : List Byte) : State :=
  let changes := if image = Config.shippedImage 3 then [] else Config.tableEntries image
  { s with gen := Config.tableGen image
           decodeOver := changes.foldl (fun l e => if tableChange e.1 e.2 then ainsert e.1 e.2 l else l) []
           typeDescs := (Config.tableTypes image).map fun (c, (b, e, m, bias), inf, nan) =>
             { code := c, bits := b, expBits := e, fracBits := m, bias := bias, hasInf := inf, hasNan := nan } }

/-! ## Boot -/

/-- What no reset changes: flash, the logs of the controller, the cells of the stacks, inputs to come, the model's own counters. -/
def State.wiped (s : State) : State :=
  { State.reset with
    inbox := s.inbox, steps := s.steps, free := s.free, flashA := s.flashA, flashB := s.flashB
    activeB := if s.staged then !s.activeB else s.activeB
    remapFlash := s.remapFlash, remapOld := s.remapOld, retiring := s.retiring, training := s.training, life := s.life
    lifeFlash := s.lifeFlash, latent := s.latent, out := s.out, mcLog := s.mcLog, bists := s.bists, rates := s.rates
    decay := max 1 (min 17 Config.decaySlope) }

/-- Entries of the table that abandoned tests leave behind: their bank-swap entries and the row remaps that they added (R27). -/
def abandoned (bists : List Bist) (e : Nat × Nat × BitVec 64) : Bool :=
  (remapSwap e.2.2 && remapState e.2.2 != 3) || bists.any fun b => b.stack == e.1 && (b.index == e.2.1 || b.added.contains e.2.1)

/-- The remap table from flash into both copies and the tag arrays: the previous generation when the record fails its check; tests under way are
abandoned, with the remaps that they added; entries that are ignored as invalid are logged (R27 to R29, R32). -/
def State.loadRemap (s : State) : State :=
  let t := (if Config.flashGood s.free then s.remapFlash else s.remapOld).filter fun e => !abandoned s.bists e
  let odd := t.filter fun e => remapValid e.2.2 && remapIgnored e.2.1 e.2.2
  { s with free := s.free + 1, remap := t, remapCopy := t, bankTags := Vector.replicate 3 (t.map fun e => (e.1, e.2.1, remapTag e.2.2)), bists := []
           remapFlash := t, remapOld := s.remapOld.filter fun e => !abandoned s.bists e
           mcLog := (odd.map fun e => McEvent.ignoredEntry e.1 e.2.1 e.2.2) ++ s.mcLog }

/-- The images from a kind on are verified, each measured before it takes effect; one that neither slot gives leaves the device in recovery (R73, R74). -/
def bootImages : List Nat → State → State
  | [], s => s
  | k :: rest, s =>
    match s.bootImage k with
    | some i => bootImages rest (s.extend k (sha384 i))
    | none => { s with recovery := true, parts := [] }

/-- Secure boot: stage 1, core firmware, distributor firmware and decode table, then the configuration record (R74, Table 3.4). A record that neither slot
gives as accepted is not measured, and partition 0 takes the range of an empty record, which the manual does not say (DESIGN CHOICE, log 87). -/
def State.secureBoot (s : State) : State :=
  let s := bootImages [0, 1, 2, 3] s
  if s.recovery then s
  else
    let s := match s.bootImage 4 with
      | some i => s.extend 4 (sha384 i)
      | none => s
    let s := { s with parts := [bootPartition ((s.bootImage 4).getD [])] }
    if (alookup 3 s.flashA).isNone && (alookup 3 s.flashB).isNone then s
    else match s.bootImage 3 with
      | some i => s.loadTable i
      | none => s

/-- Train a stack: its record is saved, a stack runs no faster than it did since the last cold boot, and a fall-back rate is logged (R17, R31). -/
def State.train (s : State) (stack : Nat) : State :=
  let rate := max (Config.trainedRate s.free % 3) ((alookup stack s.rates).getD 0)
  let r : Training := { rate := rate, delays := Config.trainedDelays s.free stack, vref := Config.trainedVref s.free stack
                        serial := Config.stackSerial s.free stack }
  { s with free := s.free + 1, training := ainsert stack r s.training, rates := ainsert stack rate s.rates
           mcLog := if rate = 0 then s.mcLog else .fallBack stack rate :: s.mcLog }

/-- Restore a stack's training record, or train it again when the record fails its check or names another serial number (R31). -/
def State.restoreTraining (s : State) (stack : Nat) : State :=
  let s' := { s with free := s.free + 1 }
  match alookup stack s.training with
  | some r => if Config.flashGood s.free && r.serial == Config.stackSerial s.free stack then { s' with rates := ainsert stack r.rate s.rates } else s'.train stack
  | none => s'.train stack

/-- The lifetime record from flash: the generation before when the latest fails its CRC-32 (R256). -/
def State.loadLife (s : State) : State :=
  let kept := if Config.flashGood s.free then s.lifeFlash.head? else (s.lifeFlash.drop 1).head?
  { s with free := s.free + 1, life := kept.getD Lifetime.empty }

/-- COLD_BOOT: the package powers up: every stack is trained, the tables and the lifetime record are loaded, and secure boot runs (R31, R32, R74, R256). -/
def execColdBoot (s : State) : Res :=
  let s := { s.wiped.loadLife with rates := [] }
  .next (((List.range 12).foldl State.train s).loadRemap.secureBoot)

/-- WARM_RESET: training records are restored, running tests abandoned, and secure boot runs again (R27, R31, R74). -/
def execWarmReset (s : State) : Res :=
  .next (((List.range 12).foldl State.restoreTraining s.wiped).loadRemap.secureBoot)

/-! ## Power and the lifetime record (R36, R256) -/

/-- Write the lifetime record to flash; two generations are kept. -/
def State.flushLife (s : State) : State := { s with lifeFlash := (s.life :: s.lifeFlash).take 2 }

/-- ORDERLY_SHUTDOWN: the lifetime record is written (R256). -/
def execOrderlyShutdown (s : State) : Res := .next s.flushLife

/-- LIFETIME_FLUSH: every 60 s the lifetime record is written (R256). -/
def execLifetimeFlush (s : State) : Res := .next s.flushLife

/-- POWER_LOSS: everything but flash is lost (R256). -/
def execPowerLoss (s : State) : Res := .next { s.wiped with powered := false, life := Lifetime.empty, activeB := s.activeB, staged := s.staged }

/-- One more in a histogram: row and bin (Table 9.10). -/
def bumpBin (row bin : Nat) : List (Nat × Nat × Nat) → List (Nat × Nat × Nat)
  | [] => [(row, bin, 1)]
  | (r, b, n) :: rest => if r == row && b == bin then (r, b, min 0xFFFFFFFF (n + 1)) :: rest else (r, b, n) :: bumpBin row bin rest

/-- Bins of 6.25 mV from 360 mV and of 2.5 degrees from 25, in units of 1 mV and 0.1 degrees. -/
def voltBin (mv : Nat) : Nat := min 31 ((mv * 100 - 36000) / 625)
def tempBin (t : Nat) : Nat := min 31 ((t - 250) / 25)

/-- Count the sample of a die in the lifetime record. -/
def State.countSample (s : State) (d : Nat) : State :=
  let x := s.getDie d
  let wa := (List.range 64).any fun c => (s.getCore (64 * d + c)).wa
  { s with life := { s.life with
      voltage := bumpBin d (voltBin x.vdd) s.life.voltage
      temperature := x.temps.toList.zipIdx.foldl (fun l t => bumpBin (16 * d + t.2) (tempBin t.1) l) s.life.temperature
      wa := if wa then bump d s.life.wa else s.life.wa } }

/-- Cores of a die in write-assist. -/
def State.inAssist (s : State) (d : Nat) : Nat := (s.cores.filter fun p => p.1 / 64 == d && p.2.wa).length

/-- A die with a new sample, of `wac` cores in write-assist: at 105 degrees placement stops, until every sensor reads 100 or below (R35). -/
def Die.sampled (k : Die) (temps : Vector Nat 16) (vdd idd wac : Nat) : Die :=
  { k with temps := temps, vdd := vdd, idd := idd, levelSeen := k.level, wacSeen := wac
           stop := if temps.any fun t => decide (1050 ≤ t) then true else if temps.all fun t => decide (t ≤ 1000) then false else k.stop }

/-- A version whose word `w` of granule `g` an uncorrectable error has hit (R15). -/
def TileSet.hit (g w : Nat) (x : TileSet) : TileSet :=
  match x.granules.findIdx? (· == g) with
  | some i => { x with tile := { x.tile with poison := x.tile.poison ||| BitVec.ofNat 2560 (2 ^ (512 * i + w % 512)) } }
  | none => x

/-- Poison a word of a granule of a core's pool, as the core numbers it, in every version that lies there. -/
def State.hitGranule (s : State) (core g w : Nat) : State :=
  (s.modCore core fun k => { k with sets := k.sets.map (TileSet.hit g w), gone := k.gone.map (TileSet.hit g w) }).mapThreads fun tid t =>
    if tid / 4 = core then { t with held := t.held.map (TileSet.hit g w) } else t

/-- An uncorrectable error hits a word of an L2 line: the line's copy there is poisoned, what HBM holds is not (R15). -/
def State.hitL2 (s : State) (line w : Nat) : State :=
  let d := line / 64 % 9
  match (s.getDie d).l2.find? fun l => l.num == line with
  | none => s
  | some l =>
    let l := if l.dirty || l.hurt then l else { l with hurt := true, below := lineData s.mem line, belowBad := lineBad s.poison line }
    let s := s.modDie d fun k => { k with l2 := k.l2.map fun m => if m.num == line then l else m }
    { s with poison := nset (8 * line + w % 8) s.poison }

/-- An error that has come into an array: in HBM and in the tables it waits for the read that meets it (R20, R30); in MSM and L2 it is counted for its
bank, repaired when it can be, and else poisons its word (R15; log 83), of a granule in a lent quarter in the borrower's version too (R107, R157). -/
def State.arrayError (s : State) (e : ArrayError) : State :=
  match e with
  | .burst b site ue => { s with latent := s.latent ++ [{ burst := b, site := site, ue := ue }] }
  | .entry stack i second ue => { s with entryErrors := s.entryErrors ++ [{ stack := stack, index := i, second := second, ue := ue }] }
  | .tag stack i copy v => { s with bankTags := vput s.bankTags copy (putAt stack i (some v) (vget s.bankTags copy [])) }
  | .msm core g w ue =>
    let s := s.countError (msmKey core) ue
    if ue then
      let s := s.hitGranule core g w
      match neighbour core (g / 512 % 4) with
      | some b => s.hitGranule b (2048 + 512 * quarterOf (g / 512 % 4) + g % 512) w
      | none => s
    else s
  | .l2 line w ue =>
    let s := s.countError (sliceKey (line / 64 % 9)) ue
    if ue then s.hitL2 line w else s

/-- MC_SAMPLE: every 1 ms sensors and currents are sampled (R35, R36), with what telemetry reports (R79); errors that arrays have taken since show from
here on. -/
def execMcSample (x : Sample) (s : State) : Res :=
  let s := x.errors.foldl State.arrayError { s with power := x.power, current := x.current, syncedSeen := s.synced, levelSeen := s.level }
  .next ((List.range 9).foldl (fun s d =>
    (s.modDie d fun k => k.sampled (vget x.temps d (Vector.replicate 16 0)) (vget x.vdd d 0) (vget x.idd d 0) (s.inAssist d)).countSample d) s)

/-! ## Lanes (R138, R139) -/

/-- REGULATOR_TRIM: a lane at its upper limit whose monitor still fails is marked for retirement (R138, R139). -/
def execRegulatorTrim (core unit lane : Nat) (atLimit failing : Bool) (s : State) : Res :=
  let u := (s.getCore core).vunit unit
  .next (if atLimit && failing && decide (lane < 18) && !u.marked.contains lane && !u.retired.contains lane then
      s.modCore core fun k => k.setVunit unit { u with marked := u.marked ++ [lane] }
    else s)

/-- The lane map over good lanes: 16, else 8, else the unit is disabled. -/
def laneMapOf (retired : List Nat) : List Nat :=
  let good := (List.range 18).filter fun i => !retired.contains i
  if 16 ≤ good.length then good.take 16 else if 8 ≤ good.length then good.take 8 else []

/-- LANE_MAP_REWRITE: the unit is free, and its marked lanes are replaced and logged; a core whose two units are both disabled is reported (R139):
the report stands in the controller's log, as the manual names no message that carries it to the host (DESIGN CHOICE, log 87). -/
def execLaneMapRewrite (core unit : Nat) (s : State) : Res :=
  let u := (s.getCore core).vunit unit
  .next (if u.holder.isNone && !u.marked.isEmpty then
      let gone := u.retired ++ u.marked
      let s := s.modCore core fun k => k.setVunit unit { u with retired := gone, marked := [], laneMap := laneMapOf gone }
      let log := u.marked.map fun l => (s.tick, core, unit, l)
      let k := s.getCore core
      { s with life := { s.life with lanes := (log.reverse ++ s.life.lanes).take 1024 }
               mcLog := if !u.laneMap.isEmpty && k.unit0.laneMap.isEmpty && k.unit1.laneMap.isEmpty then .withdrawn core :: s.mcLog else s.mcLog }
    else s)

/-! ## Write-assist (R34, R130) -/

/-- WRITE_ASSIST_ENTER: a core's supply fell below 0.43 V. -/
def execWriteAssistEnter (core : Nat) (s : State) : Res := .next (s.modCore core fun k => { k with wa := true })

/-- WRITE_ASSIST_EXIT: it rose above 0.45 V. -/
def execWriteAssistExit (core : Nat) (s : State) : Res := .next (s.modCore core fun k => { k with wa := false, waOff := if k.wa then some s.now else k.waOff })

end Sys2Proof.Machine
end

