-- ==== Sys2Proof/Machine/Mgmt.lean ====
section
/-! DEFINITION. What the management operations do (R72, R76 to R79, R81, Table 3.5): each takes the operand words and answers with a status and
result words. -/

namespace Sys2Proof.Machine

/-- A state, a status code of R76 and result words. -/
abbrev Answer := State × Nat × List Word

def okAns (s : State) (l : List Word := []) : Answer := (s, 0, l)
def refuseAns (s : State) (st : Nat) : Answer := (s, st, [])

/-- Operand word `i` as a number. -/
def opd (l : List Word) (i : Nat) : Nat := (l.getD i 0).toNat

/-- Only the named bits of a word are set. -/
def within (v bits : Nat) : Bool := v &&& bits == v

/-! ## Status and partitions (R72, R77, R78) -/

/-- Hall pairs that no partition holds. -/
def State.freePairs (s : State) : BitVec 36 := s.parts.foldl (fun m p => m &&& ~~~p.pairs) (BitVec.allOnes 36)

/-- Existing partitions as a mask. -/
def State.partMask (s : State) : Nat := s.parts.foldl (fun m p => m ||| 2 ^ p.id) 0

/-- STATUS. -/
def opStatus (s : State) : Answer :=
  okAns s [word (s.ownId + (if s.pkgId.isSome then 1024 else 0) + (if s.recovery then 2048 else 0) + (if s.synced then 4096 else 0)),
    s.freePairs.setWidth 64, word s.partMask]

/-- A range of HBM overlaps a partition's memory. -/
def State.partOverlap (s : State) (pa n : Nat) : Bool :=
  s.parts.any fun p => decide (pa < p.memPa + p.memBytes) && decide (p.memPa < pa + n)

/-- PART_CREATE: BUSY, NO_RESOURCE, BAD_ARG, in this order. -/
def opPartCreate (s : State) (l : List Word) : Answer :=
  let mask : BitVec 36 := (l.getD 0 0).extractLsb' 0 36
  let pa := opd l 1
  let n := opd l 2
  if s.parts.any fun p => p.pairs &&& mask != 0 then refuseAns s 5
  else if 36 ≤ s.parts.length then refuseAns s 3
  else if mask == 0 || pa % 2097152 != 0 || n % 2097152 != 0 || decide (n < 67108864) || decide (hbmEnd < pa + n) || s.partOverlap pa n ||
      s.lendableHit pa n then refuseAns s 2
  else
    match (List.range 36).find? fun i => (s.part? i).isNone with
    | none => refuseAns s 3
    | some i => okAns { s with parts := s.parts ++ [Partition.fresh i mask pa n] } [word i]

/-- Complete what is left of a launch that ends. -/
def State.finishLaunch (s : State) (key : Nat) : State :=
  match execLaunchComplete key s with
  | .next s => s
  | _ => s

/-- A partition whose tasks have ended is gone: its sessions, queues, queue pairs, registrations, address spaces and hall pairs are given back, and its
tiles dropped (R72). -/
def State.closePart (s : State) (id : Nat) : State :=
  let keep := fun (k : Core) => { k with sets := k.sets.filter fun x => x.ctx.part != id, acc := k.acc.filter fun b => b.ctx.part != id }
  { s.mapCores fun _ k => keep k with
    parts := s.parts.filter fun p => p.id != id
    sessions := s.sessions.filter fun x => x.part != id
    queues := s.queues.filter fun q => q.part != id
    fences := s.fences.filter fun f => f.part != id
    qps := s.qps.filter fun q => q.part != id
    rxRegs := s.rxRegs.filter fun r => r.part != id
    asids := s.asids.filter fun e => e.part != id
    asks := dropAsks (fun who => match who with
      | .record p _ => p == id
      | _ => false) s.asks }

/-- A partition that is being destroyed has no task left, and no launch. -/
def State.partIdle (s : State) (id : Nat) : Bool :=
  (s.bound.all fun b => b.2.part != id) && (s.launches.all fun l => l.part != id)

/-- Destroy a partition: its launches are aborted and its tasks end at their next convoy boundaries; then it is gone (R72; log 50). -/
def State.destroyPart (s : State) (id : Nat) : State :=
  let s := s.modPart id fun p => { p with closing := true }
  let keys := (s.launches.filter fun l => l.part == id).map fun (l : Launch) => l.key
  let s := keys.foldl State.abortLaunch s
  let s := s.mapThreads fun _ t => if t.task.isSome && t.part == id then { t with ending := true } else t
  let s := s.dropPending fun p => p.task.part == id
  let s := keys.foldl State.finishLaunch s
  if s.partIdle id then s.closePart id else s

/-- PART_DESTROY: BAD_ARG for a partition that does not exist; BUSY while it is being destroyed (log 50). -/
def opPartDestroy (s : State) (l : List Word) : Answer :=
  match s.part? (opd l 0) with
  | some p => if p.closing then refuseAns s 5 else okAns (s.destroyPart (opd l 0))
  | none => refuseAns s 2

/-- A partition that exists and is not being destroyed. -/
def State.openPart (s : State) (id : Nat) : Bool := (s.part? id).any fun p => !p.closing

/-! ## Address spaces, regions, queues, queue pairs -/

/-- ASID_ASSIGN: BUSY when the ASID belongs to another partition. -/
def opAsidAssign (s : State) (l : List Word) : Answer :=
  let a : BitVec 16 := (l.getD 0 0).extractLsb' 0 16
  let p := fld (opd l 0) 16 6
  if (s.part? p).isNone then refuseAns s 2
  else
    match s.asid? a with
    | some e => if e.part == p then okAns s else refuseAns s 5
    | none => okAns { s with asids := s.asids ++ [{ asid := a, part := p, valid := false, root := 0 }] }

/-- A system-queue task of a partition is bound or pending under an address space, or under any when none is named. -/
def State.systemTask (s : State) (part : Nat) (ok : Task → Bool) : Bool :=
  (s.bound.any fun b => b.2.launch.isNone && b.2.part == part && ok b.2) ||
    s.pending.any fun p => p.task.launch.isNone && p.task.part == part && ok p.task

/-- ASID_RELEASE: BUSY while a launch or a system-queue task runs under the ASID. -/
def opAsidRelease (s : State) (l : List Word) : Answer :=
  let a : BitVec 16 := (l.getD 0 0).extractLsb' 0 16
  match s.asid? a with
  | none => refuseAns s 2
  | some e =>
    if (s.launches.any fun x => x.asid == a) || s.systemTask e.part (fun k => k.asid == a) then refuseAns s 5
    else okAns { s with asids := s.asids.filter fun x => x.asid != a }

/-- MR_REGISTER: NO_RESOURCE beyond 1,024 regions, tested before the ASID is, which the manual does not say (DESIGN CHOICE, log 48). -/
def opMrRegister (s : State) (part : Nat) (l : List Word) : Answer :=
  let w := l.getD 0 0
  let a : BitVec 16 := w.extractLsb' 0 16
  match s.part? part with
  | none => refuseAns s 2
  | some p =>
    if 1024 ≤ p.regions.length then refuseAns s 3
    else if !(s.asid? a).any fun e => e.part == part then refuseAns s 2
    else
      let r : Region := { key := BitVec.ofNat 32 s.nextKey, asid := a, read := w.getLsbD 16, write := w.getLsbD 17, va := l.getD 1 0, bytes := l.getD 2 0 }
      okAns ({ s with nextKey := s.nextKey + 1 }.modPart part fun p => { p with regions := p.regions ++ [r] }) [r.key.setWidth 64]

/-- MR_DEREGISTER. -/
def opMrDeregister (s : State) (part : Nat) (l : List Word) : Answer :=
  let k : BitVec 32 := (l.getD 0 0).extractLsb' 0 32
  if (s.part? part).any fun p => p.regions.any fun r => r.key == k then
    okAns (s.modPart part fun p => { p with regions := p.regions.filter fun r => r.key != k })
  else refuseAns s 2

/-- QUEUE_CREATE: BUSY when the QID exists, tested before the operands are, which the manual does not say (DESIGN CHOICE, log 48). -/
def opQueueCreate (s : State) (part : Nat) (session : BitVec 32) (l : List Word) : Answer :=
  let size := opd l 2
  let a : BitVec 16 := (l.getD 3 0).extractLsb' 0 16
  if (s.queue? part (opd l 0)).isSome then refuseAns s 5
  else if opd l 1 % 512 != 0 || !((List.range 17).any fun i => decide (0 < i) && size == 2 ^ i) || !((s.asid? a).any fun e => e.part == part) then
    refuseAns s 2
  else okAns { s with queues := s.queues ++
    [{ part := part, qid := opd l 0, base := l.getD 1 0, size := size, asid := a, tail := 0, read := 0, unread := 0, session := session }] }

/-- QUEUE_DESTROY: BUSY while the queue holds a launch that has not completed; a LAUNCH message that waits and a record that has not been read count as
such (DESIGN CHOICE, log 81). -/
def opQueueDestroy (s : State) (part : Nat) (l : List Word) : Answer :=
  if (s.queue? part (opd l 0)).isNone then refuseAns s 2
  else if (s.launches.any fun x => x.part == part && x.qid == opd l 0) || !(s.waiting part (opd l 0)).isEmpty ||
      (s.queue? part (opd l 0)).any (fun q => q.unread != 0) then refuseAns s 5
  else okAns { s with queues := s.queues.filter fun q => !(q.part == part && q.qid == opd l 0) }

/-- QP_CREATE: NO_RESOURCE beyond 4,096 queue pairs in the device and 256 in the partition, tested before the MTU is, which the manual does not say (DESIGN
CHOICE, log 48). -/
def opQpCreate (s : State) (part : Nat) (l : List Word) : Answer :=
  let w := opd l 0
  let mtu := fld w 24 4
  if 4096 ≤ s.qps.length ∨ 256 ≤ (s.qps.filter fun q => q.part == part).length then refuseAns s 3
  else if mtu < 1 ∨ 5 < mtu then refuseAns s 2
  else
    let q : Qp := { qpn := s.nextQpn, part := part, remote := BitVec.ofNat 24 w, mtu := mtu, addr := (l.getD 1 0, l.getD 2 0)
                    sendPsn := BitVec.ofNat 24 (opd l 3), recvPsn := BitVec.ofNat 24 (fld (opd l 3) 32 24), error := false }
    okAns { s with qps := s.qps ++ [q], nextQpn := s.nextQpn + 1 } [word q.qpn]

/-- QP_DESTROY. -/
def opQpDestroy (s : State) (part : Nat) (l : List Word) : Answer :=
  if s.qps.any fun q => q.part == part && q.qpn == opd l 0 then
    okAns { s with qps := s.qps.filter fun q => !(q.part == part && q.qpn == opd l 0) }
  else refuseAns s 2

/-! ## Package, ports, ticks -/

/-- PKG_ID_SET: DENIED while a port is enabled; the time master is derived again (R42). -/
def opPkgIdSet (s : State) (l : List Word) : Answer :=
  if (List.range 16).any fun p => (s.port p).enabled then refuseAns s 4
  else okAns (State.deriveUpstream { s with pkgId := some ((l.getD 0 0).extractLsb' 0 10) })

/-- The ports that a PORT_TABLE request names, one byte each. -/
def portBytes (l : List Word) (n : Nat) : List Nat := ((l.drop 1).flatMap fun w => (leBytes 8 w.toNat).map fun b => b.toNat).take n

/-- PORT_TABLE: BAD_ARG for a port above 15, a range past entry 1,023, or a count outside 1 to 1,024, which code 0 of its ten bits is (log 49);
what waited for a destination leaves by its new port when that is up. -/
def opPortTable (s : State) (l : List Word) : Answer :=
  let first := fld (opd l 0) 0 10
  let n := fld (opd l 0) 16 10
  let ps := portBytes l n
  if n == 0 || (ps.any fun p => decide (15 < p)) || decide (1024 < first + n) then refuseAns s 2
  else okAns (State.departWaiting { s with portMap := ps.zipIdx.foldl (fun t p => ainsert (first + p.2) p.1 t) s.portMap })

/-- PORT_ENABLE: DENIED without a package id; exactly the ports of the mask are enabled, of which those up or trained now are up, and what waited for
one leaves. -/
def opPortEnable (s : State) (trained : BitVec 16) (l : List Word) : Answer :=
  if s.pkgId.isNone then refuseAns s 4
  else
    let mask := l.getD 0 0
    let lost := (List.range 16).filter fun p => (s.port p).up && !mask.getLsbD p
    let set := fun (s : State) (p : Nat) =>
      let x := s.port p
      s.setPort p { x with enabled := mask.getLsbD p, up := mask.getLsbD p && (x.up || trained.getLsbD p) }
    let s := (List.range 16).foldl set s
    let s := (lost.foldl State.portLost s).unstrand.departWaiting
    okAns s [word ((List.range 16).foldl (fun m p => if (s.port p).up then m + 2 ^ p else m) 0)]

/-- TICK_CONFIG: eligibility and the allowances of the ports, which the next exchange takes (R78). -/
def opTickConfig (s : State) (l : List Word) : Answer :=
  okAns { s with ts := { s.ts with config := some ((l.getD 0 0).getLsbD 0, (List.range 16).map fun p => fld (opd l (1 + p / 8)) (8 * (p % 8)) 8) } }

/-! ## Lending (R53, R56) -/

/-- The range of a LEND_MARK or LEND_UNMARK request in units of 64 MiB. -/
def lendRange (l : List Word) : Nat × Nat := (fld (opd l 0) 0 14, fld (opd l 0) 16 14)

/-- A range of units lies outside HBM, or its count outside 1 to 16,384 (log 49). -/
def lendOutside (r : Nat × Nat) : Bool := r.2 == 0 || decide (hbmEnd < (r.1 + r.2) * leaseUnit)

/-- LEND_MARK: BAD_ARG outside HBM or over a partition's memory. -/
def opLendMark (s : State) (l : List Word) : Answer :=
  let r := lendRange l
  if lendOutside r || s.partOverlap (r.1 * leaseUnit) (r.2 * leaseUnit) then refuseAns s 2
  else okAns { s with lendable := putRange r (subRange r.1 r.2 s.lendable) }

/-- LEND_UNMARK: leases in the range are revoked with a deadline of 1 ms, and the range leaves the pool, its lent spans as they are released. -/
def opLendUnmark (s : State) (l : List Word) : Answer :=
  let r := lendRange l
  if lendOutside r then refuseAns s 2
  else
    let hit := s.leases.filter fun p => p.2.v && p.2.lent && decide (p.2.lbase < r.1 + r.2) && decide (r.1 < p.2.lbase + p.2.units)
    let revoke := fun (s : State) (p : Nat × Lease) =>
      if p.2.st == 1 then s.revokeLent p.1 p.2 (s.tick + 1000000) true else s.setLease p.1 { p.2 with drop := true }
    let s := hit.foldl revoke s
    let gone := s.lentSpans.foldl (fun l x => subRange x.1 x.2 l) [r]
    okAns { s with lendable := gone.foldl (fun l x => subRange x.1 x.2 l) s.lendable }

/-- REVOKE: BAD_ARG when no ACTIVE lent entry has the lease id and the borrower; the deadline is at least 1 ms ahead. -/
def opRevoke (s : State) (l : List Word) : Answer :=
  match s.leases.find? fun p => p.2.v && p.2.lent && p.2.st == 1 && p.2.lid == fld (opd l 0) 0 32 && p.2.peer == fld (opd l 0) 32 10 with
  | none => refuseAns s 2
  | some p => okAns (s.revokeLent p.1 p.2 (s.tick + word (max 1000000 (opd l 1))) false)

/-! ## Tests and the lifetime record -/

/-- BIST_START: BUSY when R24 refuses the test, tested before the operands are, which the manual does not say (DESIGN CHOICE, log 48). -/
def opBistStart (s : State) (l : List Word) : Answer :=
  let stack := fld (opd l 0) 0 4
  let pch := fld (opd l 0) 8 6
  let bank := fld (opd l 0) 16 4
  let s := s.consult stack pch
  if s.testRefused stack pch then refuseAns s 5
  else if !bankOk stack pch bank then refuseAns s 2
  else okAns (s.startTest stack pch bank)

/-- The lifetime record as bytes, quantity by quantity in the order of Table 9.10. -/
def Lifetime.bytes (r : Lifetime) : List Byte :=
  let bins := fun (rows : Nat) (l : List (Nat × Nat × Nat)) => (List.range (32 * rows)).flatMap fun i =>
    leBytes 4 (((l.find? fun x => x.1 == i / 32 && x.2.1 == i % 32).map fun (x : Nat × Nat × Nat) => x.2.2).getD 0)
  let counts := fun (n : Nat) (l : List (Nat × Nat)) => (List.range n).flatMap fun i => leBytes 4 ((alookup i l).getD 0)
  bins 9 r.voltage ++ bins 144 r.temperature ++ counts 9 r.wa ++ counts 12873 r.corrected ++ counts 12873 r.uncorrectable ++
    ((r.lanes ++ List.replicate (1024 - r.lanes.length) ((0 : Word), 0, 0, 0)).flatMap fun (x : Word × Nat × Nat × Nat) =>
      leBytes 8 x.1.toNat ++ leBytes 4 x.2.1 ++ leBytes 2 x.2.2.1 ++ leBytes 2 x.2.2.2) ++
    ((r.remaps ++ List.replicate (4096 - r.remaps.length) ((0 : Word), 0, (0 : BitVec 64))).flatMap fun (x : Word × Nat × BitVec 64) =>
      leBytes 8 x.1.toNat ++ leBytes 8 x.2.1 ++ leBytes 8 x.2.2.toNat)

/-- Bytes of the lifetime record. -/
def lifetimeLen : Nat := 4 * (32 * 9 + 32 * 144 + 9 + 2 * 12873) + 1024 * 16 + 4096 * 24

/-- Bytes as words, the last padded with zeros. -/
def bytesToWords (bs : List Byte) : List Word := (List.range (ceilDiv bs.length 8)).map fun i => word (leNat ((bs.drop (8 * i)).take 8))

/-- LIFETIME_READ: BAD_ARG beyond its end. -/
def opLifetimeRead (s : State) (l : List Word) : Answer :=
  let n := opd l 1
  if n = 0 ∨ 7984 < n ∨ lifetimeLen < opd l 0 + n then refuseAns s 2
  else okAns s (bytesToWords ((s.life.bytes.drop (opd l 0)).take n))

/-- TELEMETRY_CFG. -/
def opTelemetryCfg (s : State) (l : List Word) : Answer :=
  if 10000 < opd l 0 then refuseAns s 2 else okAns { s with telemetry := opd l 0 }

/-! ## Supervisors, measurement, partition memory (R74, R81) -/

/-- The task that SUPV_START starts. -/
def supvTask (part : Nat) (asid : BitVec 16) (entry : Word) (now : Nat) : Task :=
  { launch := none, stage := 0, index := 0, part := part, asid := asid, prio := 0, heat := 0, spadu := 16, spadBase := 0, split := none
    mapSlot := none, entry := entry, sarg := 0, supervisor := true, translator := false, since := now, popped := false, uid := 0 }

/-- SUPV_START: BUSY while a task it started is bound or pending; BAD_ARG for an ASID of another partition or an odd entry or handler. -/
def opSupvStart (s : State) (l : List Word) : Answer :=
  let part := fld (opd l 0) 0 6
  let a : BitVec 16 := (l.getD 0 0).extractLsb' 16 16
  if !s.openPart part then refuseAns s 2
  else if s.systemTask part fun k => !k.translator then refuseAns s 5
  else if !((s.asid? a).any fun e => e.part == part) || (l.getD 2 0).getLsbD 0 || (l.getD 3 0).getLsbD 0 then refuseAns s 2
  else
    let root := ((l.getD 1 0).extractLsb' 12 40).toNat * 4096
    let put := fun (e : AsidEntry) => if e.asid == a then { e with valid := true, root := root } else e
    let s := { s with asids := s.asids.map put }
    let s := s.modPart part fun p => { p with xvec := l.getD 3 0 }
    okAns { s with pending := s.pending ++ [Pending.fresh (supvTask part a (l.getD 2 0) s.now)] }

/-- MEASURE: BAD_ARG for registers 0 to 4. -/
def opMeasure (s : State) (l : List Word) : Answer :=
  let i := opd l 0
  if i ≤ 4 then refuseAns s 2
  else okAns (s.extend i (BitVec.ofNat 384 (((l.drop 1).flatMap fun w => leBytes 8 w.toNat).foldl (fun n b => n * 256 + b.toNat) 0)))

/-- PMEM_WRITE: DENIED below 32 MiB, BAD_ARG beyond the partition's memory. -/
def opPmemWrite (s : State) (l : List Word) : Answer :=
  let bs := (l.drop 2).flatMap fun w => leBytes 8 w.toNat
  match s.part? (opd l 0) with
  | none => refuseAns s 2
  | some p =>
    if opd l 1 < 33554432 then refuseAns s 4
    else if p.memBytes < opd l 1 + bs.length then refuseAns s 2
    else okAns (s.devStore p.id (p.memPa + opd l 1) .l2 bs)

end Sys2Proof.Machine
end

