-- ==== Sys2Proof/Machine/HostEvents.lean ====
section
/-! DEFINITION. DKCP as the device receives it: headers, acknowledgements, duplicates and fragments (R62 to R64), sessions (R65), firmware and
attestation (R75, R80), and the timers of the protocol. -/

namespace Sys2Proof.Machine

/-! ## Headers (R62) -/

/-- A header that is not accepted: MAGIC, TYPE, a reserved field, PART, or LEN. -/
def dkcpBad (m : DkcpMsg) (typ : Nat) : Bool :=
  m.magic != 0x4B44 || m.typ.toNat != typ || m.rsvd != 0 || (decide (36 ≤ m.part.toNat) && m.part != 63) ||
    m.len.toNat != m.payload.length || decide (8000 < m.payload.length)

/-- A message that is not accepted is discarded and counted. -/
def State.discardDkcp (s : State) : State := { s with discarded := s.discarded + 1 }

/-- Message types of Table 3.3 that a host sends. -/
def tAck : Nat := 0x04
def tBye : Nat := 0x05
def tLaunch : Nat := 0x10
def tAbort : Nat := 0x12
def tMgmt : Nat := 0x20
def tAttest : Nat := 0x30
def tFw : Nat := 0x32

/-- A payload that its type does not take; what is wrong in a management request is answered instead. -/
def payloadBadFor (typ : Nat) (bs : List Byte) : Bool :=
  if typ == tLaunch then launchBad bs
  else if typ == tAbort then abortBad bs
  else if typ == tAttest then bs.length != 32
  else if typ == tFw then decide (bs.length < 16) || fld (leNat (bs.take 16)) 20 12 != 0 || fld (leNat (bs.take 16)) 96 32 != 0
  else if typ == tAck then bs.length != 4
  else if typ == tBye then !bs.isEmpty
  else false

/-! ## Management requests (R76) -/

/-- What an operation takes: the kind of session (0 any, 1 management, 2 partition), the number of operand words, and the bits of its first
words that are not reserved. -/
def opShape (op : Nat) (first : Nat) : Option (Nat × (Nat → Bool) × List Nat) :=
  let all := 2 ^ 64 - 1
  match op with
  | 0x0001 => some (0, (· == 0), [])
  | 0x0002 => some (1, (· == 3), [2 ^ 36 - 1])
  | 0x0003 => some (1, (· == 1), [0x3F])
  | 0x0004 => some (1, (· == 1), [0x3FFFFF])
  | 0x0005 => some (1, (· == 1), [0xFFFF])
  | 0x0006 => some (2, (· == 3), [0x3FFFF])
  | 0x0007 => some (2, (· == 1), [0xFFFFFFFF])
  | 0x0008 => some (2, (· == 4), [0x3F, all, all, 0xFFFF])
  | 0x0009 => some (2, (· == 1), [0x3F])
  | 0x000A => some (2, (· == 4), [0xFFFFFFF, all, all, 0x00FFFFFF00FFFFFF])
  | 0x000B => some (2, (· == 1), [0xFFFFFF])
  | 0x000C => some (1, (· == 1), [0x3FF])
  | 0x000D => some (1, (· == 1 + ceilDiv (fld first 16 10) 8), [0x3FF03FF])
  | 0x000E => some (1, (· == 1), [0xFFFF])
  | 0x000F => some (1, (· == 3), [1])
  | 0x0010 | 0x0011 => some (1, (· == 1), [0x3FFF3FFF])
  | 0x0012 => some (1, (· == 2), [2 ^ 42 - 1])
  | 0x0013 => some (1, (· == 1), [0xF3F0F])
  | 0x0014 => some (1, (· == 2), [])
  | 0x0015 => some (1, (· == 1), [0x3FFF])
  | 0x0016 => some (1, (· == 4), [0xFFFF003F])
  | 0x0017 => some (1, (· == 7), [7])
  | 0x0018 => some (1, (fun n => decide (2 ≤ n)), [0x3F])
  | _ => none

/-- A reserved bit of an operand word is set. -/
def reservedSet (ws : List Word) (masks : List Nat) : Bool := (ws.zip masks).any fun p => p.1.toNat &&& p.2 != p.1.toNat

/-- The operation itself, whose operands have the right form. -/
def runOp (op part : Nat) (session : BitVec 32) (trained : BitVec 16) (s : State) (ws : List Word) : Answer :=
  match op with
  | 0x0001 => opStatus s
  | 0x0002 => opPartCreate s ws
  | 0x0003 => opPartDestroy s ws
  | 0x0004 => opAsidAssign s ws
  | 0x0005 => opAsidRelease s ws
  | 0x0006 => opMrRegister s part ws
  | 0x0007 => opMrDeregister s part ws
  | 0x0008 => opQueueCreate s part session ws
  | 0x0009 => opQueueDestroy s part ws
  | 0x000A => opQpCreate s part ws
  | 0x000B => opQpDestroy s part ws
  | 0x000C => opPkgIdSet s ws
  | 0x000D => opPortTable s ws
  | 0x000E => opPortEnable s trained ws
  | 0x000F => opTickConfig s ws
  | 0x0010 => opLendMark s ws
  | 0x0011 => opLendUnmark s ws
  | 0x0012 => opRevoke s ws
  | 0x0013 => opBistStart s ws
  | 0x0014 => opLifetimeRead s ws
  | 0x0015 => opTelemetryCfg s ws
  | 0x0016 => opSupvStart s ws
  | 0x0017 => opMeasure s ws
  | _ => opPmemWrite s ws

/-- The answer to a request: unknown operation, then session and recovery, then form, then the operation (R76). An operation that is unknown is answered
BAD_OP first, whatever its session and its reserved fields, which the manual does not say; in recovery it is answered DENIED as any other (DESIGN CHOICE,
log 48). -/
def State.mgmtAnswer (s : State) (x : Session) (trained : BitVec 16) (bs : List Byte) : Answer :=
  let head := leNat (bs.take 8)
  let op := fld head 16 16
  let ws := bytesToWords (bs.drop 8)
  match opShape op (opd ws 0) with
  | none => if s.recovery then refuseAns s 4 else refuseAns s 1
  | some (kind, count, masks) =>
    if (kind == 1 && x.part != mgmtPart) || (kind == 2 && x.part == mgmtPart) || (s.recovery && op != 1) then refuseAns s 4
    else if bs.length % 8 != 0 || decide (bs.length < 8) || fld head 32 32 != 0 || !count ws.length || reservedSet ws masks then refuseAns s 2
    else runOp op x.part x.id trained s ws

/-- MGMT_RESP: tag, status and result words. -/
def State.mgmtResp (s : State) (session : BitVec 32) (tag status : Nat) (ws : List Word) : State :=
  s.dkcpSend session 0x21 false (leBytes 8 (tag + status * 2 ^ 16) ++ ws.flatMap fun w => leBytes 8 w.toNat)

/-- A management request takes effect and is answered. -/
def State.mgmtMsg (s : State) (x : Session) (trained : BitVec 16) (bs : List Byte) : State :=
  let a := s.mgmtAnswer x trained bs
  a.1.mgmtResp x.id (fld (leNat (bs.take 8)) 0 16) a.2.1 a.2.2

/-! ## Firmware (R73, R80) -/

/-- The load of a tag as it stands, or from nothing when its kind or total differs. -/
def State.fwLoadOf (s : State) (tag : BitVec 16) (kind total : Nat) : FwLoad :=
  match s.fwLoads.find? fun f => f.tag == tag && f.kind == kind && f.total == total with
  | some f => f
  | none => { tag := tag, kind := kind, total := total, image := [] }

/-- Bytes put into an image at an offset. -/
def putImage : Nat → List Byte → List (Nat × Byte) → List (Nat × Byte)
  | _, [], l => l
  | a, b :: rest, l => putImage (a + 1) rest (ainsert a b l)

/-- The inactive slot takes an accepted image. -/
def State.storeImage (s : State) (kind : Nat) (image : List Byte) : State :=
  if s.activeB then { s with flashA := ainsert kind image s.flashA, staged := true }
  else { s with flashB := ainsert kind image s.flashB, staged := true }

/-- FW_LOAD of a session: the bytes join the load of their tag, and a complete image is verified and answered. -/
def State.fwMsg (s : State) (x : Session) (bs : List Byte) : State :=
  let h := leNat (bs.take 16)
  let tag := BitVec.ofNat 16 h
  let kind := fld h 16 4
  let off := fld h 32 32
  let total := fld h 64 32
  let data := bs.drop 16
  if x.part != mgmtPart then s.mgmtResp x.id tag.toNat 4 []
  else if decide (4 < kind) || decide (67108864 < total) || decide (total < off + data.length) then s.mgmtResp x.id tag.toNat 2 []
  else
    let f := s.fwLoadOf tag kind total
    let f := { f with image := putImage off data f.image }
    let others := s.fwLoads.filter fun g => g.tag != tag
    if f.image.length < total then { s with fwLoads := others ++ [f] }
    else
      let image := f.image.map (·.2)
      let s := { s with fwLoads := others }
      if accepted image then (s.storeImage kind image).mgmtResp x.id tag.toNat 0 [] else s.mgmtResp x.id tag.toNat 6 []

/-! ## Attestation (R75) -/

/-- `n` bytes of a list. -/
def exactly (n : Nat) (l : List Byte) : List Byte := (List.range n).map fun i => l.getD i 0

/-- The fields of a report before its signatures. -/
def State.reportBody (s : State) (nonce : List Byte) : List Byte :=
  leBytes 8 s.ownId ++ leBytes 16 Config.serialNumber.toNat ++ (s.meas.toList.flatMap digestBytes) ++ nonce ++ leBytes 8 s.tick.toNat

/-- ATTEST_REPORT with both signatures. -/
def State.attestMsg (s : State) (x : Session) (nonce : List Byte) : State :=
  let body := s.reportBody nonce
  s.dkcpSend x.id 0x31 false (body ++ exactly 384 (Config.signature 0 body) ++ exactly 16224 (Config.signature 1 body))

/-! ## Receiving (R62 to R64) -/

/-- An ACK of the host: the message of its number needs no further sending (R64). -/
def State.ackMsg (s : State) (x : Session) (bs : List Byte) : State :=
  let n := BitVec.ofNat 32 (leNat bs)
  s.modSession x.id fun y => { y with unacked := y.unacked.filter fun u => u.seq != n }

/-- A whole message of a session takes effect. -/
def State.handle (s : State) (x : Session) (typ : Nat) (trained : BitVec 16) (bs : List Byte) : State :=
  if payloadBadFor typ bs then s.discardDkcp
  else if typ == tLaunch then s.launchMsg x bs
  else if typ == tAbort then s.abortMsg x bs
  else if typ == tMgmt then s.mgmtMsg x trained bs
  else if typ == tAttest then s.attestMsg x bs
  else if typ == tFw then s.fwMsg x bs
  else if typ == tAck then s.ackMsg x bs
  else if typ == tBye then s.closeSession x.id
  else s

/-- The fragments from a number on, in order, when they are all there. -/
def collect (l : List (BitVec 32 × Nat × Bool × List Byte)) : Nat → BitVec 32 → Option (List (BitVec 32) × List Byte)
  | 0, _ => none
  | fuel + 1, q =>
    match l.find? fun f => f.1 == q with
    | none => none
    | some f =>
      if f.2.2.1 then (collect l fuel (q + 1)).map fun r => (q :: r.1, f.2.2.2 ++ r.2) else some ([q], f.2.2.2)

/-- Types whose messages may have several fragments and take effect in SEQ order: management requests and firmware. -/
def ordered (typ : Nat) : Bool := typ == tMgmt || typ == tFw

/-- Numbers have been received: the next expected one is the lowest that has not been (R63, R76). -/
def nextExpected (received : List (BitVec 32)) : Nat → BitVec 32 → BitVec 32
  | 0, q => q
  | fuel + 1, q => if received.contains q then nextExpected received fuel (q + 1) else q

/-- The numbers that a session keeps as received: the latest 1,024 (R64), and those that came ahead of a missing one, which is waited for however many
come (R63, R76). -/
def keepNumbers (expect : BitVec 32) (l : List (BitVec 32)) : List (BitVec 32) := l.take 1024 ++ (l.drop 1024).filter fun r => !(r - expect).msb

/-- A firmware load whose reserved fields are not 0, as its first fragment shows, once all that comes before it has been received (R62, R80). -/
def Session.fwBad (x : Session) (m : DkcpMsg) (typ : Nat) : Bool :=
  typ == tFw && m.seq == x.expect && (x.frags.all fun f => !(f.1 - m.seq).msb) && decide (16 ≤ m.payload.length) && payloadBadFor tFw m.payload

/-- The first message of a session that can take effect: every message of a lower number has been received, and it has all its fragments (R63, R76;
log 66). -/
def Session.ready (x : Session) : Option (Nat × List (BitVec 32) × List Byte) :=
  x.frags.findSome? fun f =>
    if !(f.1 - x.expect).msb || (x.frags.any fun g => (g.1 - f.1).msb) then none
    else (collect x.frags x.frags.length f.1).map fun r => (f.2.1, r.1, r.2)

/-- Let the messages that are ready take effect in order (R63, R76). -/
def drainFrags (id : BitVec 32) (trained : BitVec 16) : Nat → State → State
  | 0, s => s
  | fuel + 1, s =>
    match s.session? id with
    | none => s
    | some x =>
      match x.ready with
      | none => s
      | some (typ, qs, bs) =>
        let s := s.modSession id fun y => { y with frags := y.frags.filter fun f => !qs.contains f.1 }
        drainFrags id trained fuel (s.handle x typ trained bs)

/-- What recovery still answers (R74). -/
def answeredInRecovery (typ : Nat) : Bool := typ == tMgmt || typ == tFw || typ == tAttest || typ == tAck || typ == tBye

/-- A datagram of an open session: acknowledged when it asks, and a duplicate dropped; a management request or an image waits for what comes before
it, anything else, whose payload fits one fragment, is handled as it comes (R62 to R64, R76). One of a number that the session has passed does not take
effect again, whether or not the window still has it (log 66). -/
def State.hostMsg (s : State) (m : DkcpMsg) (typ : Nat) (trained : BitVec 16) : State :=
  match if dkcpBad m typ then none else s.session? m.session with
  | none => s.discardDkcp
  | some x =>
    if m.ver != x.ver || (!ordered typ && (m.more || payloadBadFor typ m.payload)) || x.fwBad m typ then s.discardDkcp
    else if s.recovery && !answeredInRecovery typ then s
    else
      let s := if m.ar then s.dkcpSend x.id tAck false (leBytes 4 m.seq.toNat) else s
      if x.received.contains m.seq || (ordered typ && (m.seq - x.expect).msb) then s
      else
        let got := keepNumbers x.expect (m.seq :: x.received)
        let s := s.modSession x.id fun y => { y with received := got, expect := nextExpected got got.length y.expect }
        let s := if ordered typ then s.modSession x.id fun y => { y with frags := y.frags ++ [(m.seq, typ, m.more, m.payload)] }
          else s.handle x typ trained m.payload
        drainFrags x.id trained (x.frags.length + 1) s

/-! ## HELLO (R65) -/

/-- The reason for a HELLO_REJECT, the lowest that holds. -/
def State.helloRefused (s : State) (minv maxv part : Nat) : Option Nat :=
  if min maxv 3 < max minv 2 then some 0
  else if part != mgmtPart && !s.openPart part then some 1
  else if 4 ≤ (s.sessions.filter fun x => x.part == part).length then some 2
  else none

/-- HELLO: a session opens, or is refused with the lowest reason; it is never answered with ACK (R64, R65). Its number counts as received in the session
that it opens (DESIGN CHOICE, log 66). -/
def execHello (m : DkcpMsg) (s : State) : Res :=
  .next (
    let w := leNat m.payload
    let part := fld w 16 6
    if dkcpBad m 0x01 || m.ver != 0 || m.session != 0 || m.more || m.payload.length != 4 || fld w 22 10 != 0 then s.discardDkcp
    else if s.recovery && part != mgmtPart then s
    else
      match s.helloRefused (fld w 0 8) (fld w 8 8) part with
      | some r => s.send (.dkcp 0 part 0 0 0x03 false false (leBytes 4 (2 + 3 * 2 ^ 8 + r * 2 ^ 16)))
      | none =>
        let x : Session := { id := BitVec.ofNat 32 s.nextSession, part := part, ver := BitVec.ofNat 8 (min (fld w 8 8) 3), received := [m.seq], expect := m.seq + 1
                             frags := [], nextSeq := 0, unacked := [] }
        let s := { s with nextSession := s.nextSession + 1, sessions := s.sessions ++ [x] }
        (s.dkcpSend x.id 0x02 false (leBytes 4 (2 + 3 * 2 ^ 8 + s.ownId * 2 ^ 16 + (if s.pkgId.isSome then 2 ^ 26 else 0)))).flushComps part)

/-! ## The messages of an open session -/

/-- ACK (R64). -/
def execAck (m : DkcpMsg) (s : State) : Res := .next (s.hostMsg m tAck 0)

/-- BYE closes its session (R64). -/
def execBye (m : DkcpMsg) (s : State) : Res := .next (s.hostMsg m tBye 0)

/-- LAUNCH (R66, R67). -/
def execLaunch (m : DkcpMsg) (s : State) : Res := .next (s.hostMsg m tLaunch 0)

/-- ABORT (R71). -/
def execAbort (m : DkcpMsg) (s : State) : Res := .next (s.hostMsg m tAbort 0)

/-- ATTEST_REQ (R75). -/
def execAttestReq (m : DkcpMsg) (s : State) : Res := .next (s.hostMsg m tAttest 0)

/-- FW_LOAD (R80). -/
def execFwLoad (m : DkcpMsg) (s : State) : Res := .next (s.hostMsg m tFw 0)

/-! ## Timers (R64) -/

/-- DKCP_RETRANSMIT: 100 µs without an ACK: the message is sent again, at most 8 times, and then its session closes. -/
def execDkcpRetransmit (session seq : BitVec 32) (s : State) : Res :=
  .next (match (s.session? session).bind fun x => (x.unacked.find? fun u => u.seq == seq).map fun u => (x, u) with
    | none => s
    | some (x, u) =>
      if u.tries < 8 then
        let bump := fun (v : Unacked) => if v.seq == seq then { v with tries := v.tries + 1 } else v
        (s.send (.dkcp session x.part seq u.ver u.typ true u.more u.payload)).modSession session fun y =>
          { y with unacked := y.unacked.map bump }
      else s.closeSession session)

/-- DKCP_SESSION_IDLE: 10 s without any message close a session. -/
def execDkcpSessionIdle (session : BitVec 32) (s : State) : Res := .next (s.closeSession session)

end Sys2Proof.Machine
end

