-- ==== Sys2Proof/Machine/RdmaEvents.lean ====
section
/-! DEFINITION. The management requests as messages (Table 3.5), the TELEMETRY message (R79), and the requests of the host on queue pairs (R59
to R61, R228, Table 9.3). -/

namespace Sys2Proof.Machine

/-! ## Management requests: the OP of the payload says which operation runs (R76, R77) -/

/-- STATUS. -/
def execStatus (m : DkcpMsg) (s : State) : Res := .next (s.hostMsg m tMgmt 0)
/-- PART_CREATE. -/
def execPartCreate (m : DkcpMsg) (s : State) : Res := .next (s.hostMsg m tMgmt 0)
/-- PART_DESTROY. -/
def execPartDestroy (m : DkcpMsg) (s : State) : Res := .next (s.hostMsg m tMgmt 0)
/-- ASID_ASSIGN. -/
def execAsidAssign (m : DkcpMsg) (s : State) : Res := .next (s.hostMsg m tMgmt 0)
/-- ASID_RELEASE. -/
def execAsidRelease (m : DkcpMsg) (s : State) : Res := .next (s.hostMsg m tMgmt 0)
/-- MR_REGISTER. -/
def execMrRegister (m : DkcpMsg) (s : State) : Res := .next (s.hostMsg m tMgmt 0)
/-- MR_DEREGISTER. -/
def execMrDeregister (m : DkcpMsg) (s : State) : Res := .next (s.hostMsg m tMgmt 0)
/-- QUEUE_CREATE. -/
def execQueueCreate (m : DkcpMsg) (s : State) : Res := .next (s.hostMsg m tMgmt 0)
/-- QUEUE_DESTROY. -/
def execQueueDestroy (m : DkcpMsg) (s : State) : Res := .next (s.hostMsg m tMgmt 0)
/-- QP_CREATE. -/
def execQpCreate (m : DkcpMsg) (s : State) : Res := .next (s.hostMsg m tMgmt 0)
/-- QP_DESTROY. -/
def execQpDestroy (m : DkcpMsg) (s : State) : Res := .next (s.hostMsg m tMgmt 0)
/-- PKG_ID_SET. -/
def execPkgIdSet (m : DkcpMsg) (s : State) : Res := .next (s.hostMsg m tMgmt 0)
/-- PORT_TABLE. -/
def execPortTable (m : DkcpMsg) (s : State) : Res := .next (s.hostMsg m tMgmt 0)
/-- PORT_ENABLE; `trained` names the ports whose training succeeds. -/
def execPortEnable (m : DkcpMsg) (trained : BitVec 16) (s : State) : Res := .next (s.hostMsg m tMgmt trained)
/-- TICK_CONFIG. -/
def execTickConfig (m : DkcpMsg) (s : State) : Res := .next (s.hostMsg m tMgmt 0)
/-- LEND_MARK. -/
def execLendMark (m : DkcpMsg) (s : State) : Res := .next (s.hostMsg m tMgmt 0)
/-- LEND_UNMARK. -/
def execLendUnmark (m : DkcpMsg) (s : State) : Res := .next (s.hostMsg m tMgmt 0)
/-- REVOKE. -/
def execRevoke (m : DkcpMsg) (s : State) : Res := .next (s.hostMsg m tMgmt 0)
/-- BIST_START. -/
def execBistStart (m : DkcpMsg) (s : State) : Res := .next (s.hostMsg m tMgmt 0)
/-- LIFETIME_READ. -/
def execLifetimeRead (m : DkcpMsg) (s : State) : Res := .next (s.hostMsg m tMgmt 0)
/-- TELEMETRY_CFG. -/
def execTelemetryCfg (m : DkcpMsg) (s : State) : Res := .next (s.hostMsg m tMgmt 0)
/-- SUPV_START. -/
def execSupvStart (m : DkcpMsg) (s : State) : Res := .next (s.hostMsg m tMgmt 0)
/-- MEASURE. -/
def execMeasure (m : DkcpMsg) (s : State) : Res := .next (s.hostMsg m tMgmt 0)
/-- PMEM_WRITE. -/
def execPmemWrite (m : DkcpMsg) (s : State) : Res := .next (s.hostMsg m tMgmt 0)

/-! ## Telemetry (R79, Table 3.6) -/

/-- The telemetry record of one die, of the latest sample. -/
def State.dieRecord (s : State) (d : Nat) : List Byte :=
  let x := s.getDie d
  leBytes 16 (x.vdd % 65536 + x.idd % 65536 * 2 ^ 16 + x.temps.toList.foldl max 0 % 65536 * 2 ^ 32 + x.levelSeen % 4 * 2 ^ 48 +
    (if x.stop then 2 ^ 50 else 0) + x.wacSeen * 2 ^ 51)

/-- The 160 bytes of a TELEMETRY payload: the tick, and the latest sample (R79). -/
def State.telemetryBytes (s : State) : List Byte :=
  leBytes 8 s.tick.toNat ++
    leBytes 8 (s.power % 65536 + s.current % 65536 * 2 ^ 16 + (if s.syncedSeen then 2 ^ 32 else 0) + s.levelSeen % 4 * 2 ^ 33) ++
    (List.range 9).flatMap s.dieRecord

/-- TELEMETRY_PERIOD: one message without AR to every open management session of version 3 while a period is set. -/
def execTelemetryPeriod (s : State) : Res :=
  .next (if s.telemetry = 0 then s
    else (s.sessions.filter fun x => x.part == mgmtPart && x.ver == 3).foldl
      (fun s (x : Session) => s.dkcpSend x.id 0x22 false s.telemetryBytes) s)

/-! ## Queue pairs (R59) -/

/-- Kinds of NAK: out of sequence, invalid request, remote access error, remote operational error. -/
def nakSequence : Nat := 0
def nakInvalid : Nat := 1
def nakAccess : Nat := 2
def nakOperational : Nat := 3

/-- Packets of a transfer on a queue pair, each of which takes one PSN. -/
def Qp.packets (q : Qp) (n : Nat) : Nat := max 1 (ceilDiv n (256 * 2 ^ (q.mtu - 1)))

/-- A queue pair that takes requests. -/
def State.liveQp (s : State) (qpn : Nat) : Option Qp := s.qps.find? fun q => q.qpn == qpn && !q.error

/-- The request of `n` PSNs has been served. -/
def State.served (s : State) (qpn : Nat) (n : Nat) : State :=
  { s with qps := s.qps.map fun (q : Qp) => if q.qpn == qpn then { q with recvPsn := q.recvPsn + BitVec.ofNat 24 n } else q }

/-- A PSN that has been served already. -/
def Qp.past (q : Qp) (psn : BitVec 24) : Bool := (psn - q.recvPsn).msb

/-! ## Reaching memory (R60) -/

/-- The region of a key in a partition. -/
def State.region? (s : State) (part : Nat) (key : BitVec 32) : Option Region :=
  (s.part? part).bind fun p => p.regions.find? fun r => r.key == key

/-- The range lies in the region and its rights allow the access. -/
def Region.allows (r : Region) (write : Bool) (va : Word) (n : Nat) : Bool :=
  (if write then r.write else r.read) && decide (r.va.toNat ≤ va.toNat) && decide (va.toNat + n ≤ r.va.toNat + r.bytes.toNat)

/-- An access of RDMA: the page rights of programs do not bind it. -/
def accRdma : Acc := ⟨false, false, false, false⟩

/-- A byte that RDMA may reach: HBM under a leaf with SH = 1. -/
def Place.shared : Place → Bool
  | .hbm _ _ sh => sh
  | _ => false

/-- The places of an RDMA access, past every L1, or none where R60 forbids it. -/
def State.rdmaPlaces (s : State) (part : Nat) (key : BitVec 32) (write : Bool) (va : Word) (n : Nat) : State × Option (List Place) :=
  match s.region? part key with
  | none => (s, if n = 0 then some [] else none)
  | some r =>
    if !r.allows write va n then (s, if n = 0 then some [] else none)
    else
      match placesGo (fun a => placeFor r.asid true part a accRdma) va n 0 none s with
      | (.ok ps, s) => (s, if ps.all Place.shared then some (ps.map Place.pastL1) else none)
      | (.error _, s) => (s, none)

/-- Write bytes at the places of an RDMA access. -/
def rdmaPut (part : Nat) : List (Place × List Byte) → State → State
  | (.hbm pa via _, bs) :: rest, s => rdmaPut part rest (s.devStore part pa via bs)
  | _ :: rest, s => rdmaPut part rest s
  | [], s => s

/-! ## Requests -/

/-- A request on a queue pair: dropped without a live pair, re-acknowledged when served before, refused when a PSN is missing, else served. -/
def State.onQp (s : State) (qpn : Nat) (psn : BitVec 24) (old new : Qp → State) : Res :=
  .next (match s.liveQp qpn with
    | none => s
    | some q =>
      if psn == q.recvPsn then new q
      else if q.past psn then old q
      else s.send (.rdmaNak qpn q.recvPsn nakSequence))

/-- RDMA READ of a queue pair: data, or the NAK of Table 9.3 for poison. -/
def State.rdmaReadOn (s : State) (q : Qp) (psn : BitVec 24) (rkey : BitVec 32) (va : Word) (n : Nat) (fresh : Bool) : State :=
  match s.rdmaPlaces q.part rkey false va n with
  | (s, none) => s.send (.rdmaNak q.qpn psn nakAccess)
  | (s, some ps) =>
    let s := touchFor q.part ps none s
    if ps.any s.poisonAt then (s.count q.part 47 1).send (.rdmaNak q.qpn psn nakOperational)
    else
      let s := if fresh then s.served q.qpn (q.packets n) else s
      s.send (.rdmaData q.qpn psn (ps.map s.byteAt))

/-- RDMA WRITE of a queue pair: all bytes, in PSN order (R228), or none. -/
def State.rdmaWriteOn (s : State) (q : Qp) (psn : BitVec 24) (rkey : BitVec 32) (va : Word) (bs : List Byte) : State :=
  match s.rdmaPlaces q.part rkey true va bs.length with
  | (s, none) => s.send (.rdmaNak q.qpn psn nakAccess)
  | (s, some ps) =>
    let s := rdmaPut q.part (storeRuns ps bs) s
    (s.served q.qpn (q.packets bs.length)).send (.rdmaAck q.qpn (psn + BitVec.ofNat 24 (q.packets bs.length - 1)))

/-- RDMA_WRITE (R60). -/
def execRdmaWrite (qpn : Nat) (psn : BitVec 24) (rkey : BitVec 32) (va : Word) (data : List Byte) (s : State) : Res :=
  s.onQp qpn psn (fun q => s.send (.rdmaAck qpn (q.recvPsn - 1))) fun q => s.rdmaWriteOn q psn rkey va data

/-- RDMA_READ (R60); one that was served before is served again. -/
def execRdmaRead (qpn : Nat) (psn : BitVec 24) (rkey : BitVec 32) (va : Word) (bytes : Nat) (s : State) : Res :=
  s.onQp qpn psn (fun q => s.rdmaReadOn q psn rkey va bytes false) fun q => s.rdmaReadOn q psn rkey va bytes true

/-- RDMA_SEND (R59): acknowledged; the manual gives the data no place to land. -/
def execRdmaSend (qpn : Nat) (psn : BitVec 24) (data : List Byte) (s : State) : Res :=
  s.onQp qpn psn (fun q => s.send (.rdmaAck qpn (q.recvPsn - 1))) fun q =>
    (s.served qpn (q.packets data.length)).send (.rdmaAck qpn (psn + BitVec.ofNat 24 (q.packets data.length - 1)))

/-- RDMA_INVALID_REQUEST (R59): NAK Invalid Request, the queue pair enters the error state, the partition's counter counts. -/
def execRdmaInvalidRequest (qpn : Nat) (psn : BitVec 24) (s : State) : Res :=
  .next (match s.liveQp qpn with
    | none => s
    | some q =>
      let fail := fun (x : Qp) => if x.qpn == qpn then { x with error := true } else x
      ({ s with qps := s.qps.map fail }.count q.part 36 1).send (.rdmaNak qpn psn nakInvalid))

end Sys2Proof.Machine
end

