-- ==== Sys2Proof/Machine/Dispatch.lean ====
section
/-! DEFINITION. One arm for each instruction, step and input of the opcode table. -/

namespace Sys2Proof.Machine

def exec (i : Instr) (s : State) : Host.Outcome State Fault Refusal :=
  match i with
  | .add a b c => Sys2Proof.Machine.execAdd a b c s
  | .sub a b c => Sys2Proof.Machine.execSub a b c s
  | .and a b c => Sys2Proof.Machine.execAnd a b c s
  | .or a b c => Sys2Proof.Machine.execOr a b c s
  | .xor a b c => Sys2Proof.Machine.execXor a b c s
  | .sll a b c => Sys2Proof.Machine.execSll a b c s
  | .srl a b c => Sys2Proof.Machine.execSrl a b c s
  | .sra a b c => Sys2Proof.Machine.execSra a b c s
  | .slt a b c => Sys2Proof.Machine.execSlt a b c s
  | .sltu a b c => Sys2Proof.Machine.execSltu a b c s
  | .min a b c => Sys2Proof.Machine.execMin a b c s
  | .max a b c => Sys2Proof.Machine.execMax a b c s
  | .minu a b c => Sys2Proof.Machine.execMinu a b c s
  | .maxu a b c => Sys2Proof.Machine.execMaxu a b c s
  | .mul a b c => Sys2Proof.Machine.execMul a b c s
  | .mulh a b c => Sys2Proof.Machine.execMulh a b c s
  | .mulhu a b c => Sys2Proof.Machine.execMulhu a b c s
  | .div a b c => Sys2Proof.Machine.execDiv a b c s
  | .divu a b c => Sys2Proof.Machine.execDivu a b c s
  | .rem a b c => Sys2Proof.Machine.execRem a b c s
  | .remu a b c => Sys2Proof.Machine.execRemu a b c s
  | .addi a b imm => Sys2Proof.Machine.execAddi a b imm s
  | .andi a b imm => Sys2Proof.Machine.execAndi a b imm s
  | .ori a b imm => Sys2Proof.Machine.execOri a b imm s
  | .xori a b imm => Sys2Proof.Machine.execXori a b imm s
  | .slli a b sh => Sys2Proof.Machine.execSlli a b sh s
  | .srli a b sh => Sys2Proof.Machine.execSrli a b sh s
  | .srai a b sh => Sys2Proof.Machine.execSrai a b sh s
  | .slti a b imm => Sys2Proof.Machine.execSlti a b imm s
  | .sltiu a b imm => Sys2Proof.Machine.execSltiu a b imm s
  | .clz a b => Sys2Proof.Machine.execClz a b s
  | .ctz a b => Sys2Proof.Machine.execCtz a b s
  | .popc a b => Sys2Proof.Machine.execPopc a b s
  | .addw a b c => Sys2Proof.Machine.execAddw a b c s
  | .li a lit => Sys2Proof.Machine.execLi a lit s
  | .lih a b lit => Sys2Proof.Machine.execLih a b lit s
  | .fadd a b c => Sys2Proof.Machine.execFadd a b c s
  | .fsub a b c => Sys2Proof.Machine.execFsub a b c s
  | .fmul a b c => Sys2Proof.Machine.execFmul a b c s
  | .fma a b c d => Sys2Proof.Machine.execFma a b c d s
  | .fdiv a b c => Sys2Proof.Machine.execFdiv a b c s
  | .fsqrt a b => Sys2Proof.Machine.execFsqrt a b s
  | .fcvt a b dst src => Sys2Proof.Machine.execFcvt a b dst src s
  | .fcmp a b c pred => Sys2Proof.Machine.execFcmp a b c pred s
  | .beq b c loff hidx => Sys2Proof.Machine.execBeq b c loff hidx s
  | .bne b c loff hidx => Sys2Proof.Machine.execBne b c loff hidx s
  | .blt b c loff hidx => Sys2Proof.Machine.execBlt b c loff hidx s
  | .bge b c loff hidx => Sys2Proof.Machine.execBge b c loff hidx s
  | .bltu b c loff hidx => Sys2Proof.Machine.execBltu b c loff hidx s
  | .bgeu b c loff hidx => Sys2Proof.Machine.execBgeu b c loff hidx s
  | .jal a loff hidx => Sys2Proof.Machine.execJal a loff hidx s
  | .jalr a b imm => Sys2Proof.Machine.execJalr a b imm s
  | .csrr a csr => Sys2Proof.Machine.execCsrr a csr s
  | .csrw b csr => Sys2Proof.Machine.execCsrw b csr s
  | .csrs b csr => Sys2Proof.Machine.execCsrs b csr s
  | .csrc b csr => Sys2Proof.Machine.execCsrc b csr s
  | .ecall code => Sys2Proof.Machine.execEcall code s
  | .brk code => Sys2Proof.Machine.execBrk code s
  | .eret => Sys2Proof.Machine.execEret s
  | .sleep a => Sys2Proof.Machine.execSleep a s
  | .halt => Sys2Proof.Machine.execHalt s
  | .tmsw b e => Sys2Proof.Machine.execTmsw b e s
  | .ldb a b imm => Sys2Proof.Machine.execLdb a b imm s
  | .ldbu a b imm => Sys2Proof.Machine.execLdbu a b imm s
  | .ldh a b imm => Sys2Proof.Machine.execLdh a b imm s
  | .ldhu a b imm => Sys2Proof.Machine.execLdhu a b imm s
  | .ldw a b imm => Sys2Proof.Machine.execLdw a b imm s
  | .ldwu a b imm => Sys2Proof.Machine.execLdwu a b imm s
  | .ldd a b imm => Sys2Proof.Machine.execLdd a b imm s
  | .stb a b imm => Sys2Proof.Machine.execStb a b imm s
  | .sth a b imm => Sys2Proof.Machine.execSth a b imm s
  | .stw a b imm => Sys2Proof.Machine.execStw a b imm s
  | .std a b imm => Sys2Proof.Machine.execStd a b imm s
  | .amoAdd a b c scope wide off => Sys2Proof.Machine.execAmoAdd a b c scope wide off s
  | .amoAnd a b c scope wide off => Sys2Proof.Machine.execAmoAnd a b c scope wide off s
  | .amoOr a b c scope wide off => Sys2Proof.Machine.execAmoOr a b c scope wide off s
  | .amoXor a b c scope wide off => Sys2Proof.Machine.execAmoXor a b c scope wide off s
  | .amoMin a b c scope wide off => Sys2Proof.Machine.execAmoMin a b c scope wide off s
  | .amoMax a b c scope wide off => Sys2Proof.Machine.execAmoMax a b c scope wide off s
  | .amoMinu a b c scope wide off => Sys2Proof.Machine.execAmoMinu a b c scope wide off s
  | .amoMaxu a b c scope wide off => Sys2Proof.Machine.execAmoMaxu a b c scope wide off s
  | .amoSwap a b c scope wide off => Sys2Proof.Machine.execAmoSwap a b c scope wide off s
  | .amoCas a b c d scope wide off => Sys2Proof.Machine.execAmoCas a b c d scope wide off s
  | .ldAcq a b scope size off => Sys2Proof.Machine.execLdAcq a b scope size off s
  | .stRel b c scope size off => Sys2Proof.Machine.execStRel b c scope size off s
  | .fence scope => Sys2Proof.Machine.execFence scope s
  | .bar n => Sys2Proof.Machine.execBar n s
  | .wait a b c imm => Sys2Proof.Machine.execWait a b c imm s
  | .wake b imm => Sys2Proof.Machine.execWake b imm s
  | .ipf b nm1 imm => Sys2Proof.Machine.execIpf b nm1 imm s
  | .dpf b nm1 imm => Sys2Proof.Machine.execDpf b nm1 imm s
  | .cflush b block imm => Sys2Proof.Machine.execCflush b block imm s
  | .cinv b block imm => Sys2Proof.Machine.execCinv b block imm s
  | .tlbinv kind b c => Sys2Proof.Machine.execTlbinv kind b c s
  | .setvl a b ty => Sys2Proof.Machine.execSetvl a b ty s
  | .setvl2 a b c ty => Sys2Proof.Machine.execSetvl2 a b c ty s
  | .vrel => Sys2Proof.Machine.execVrel s
  | .stripm a b c d sizes ty p3 p4 => Sys2Proof.Machine.execStripm a b c d sizes ty p3 p4 s
  | .vld a b k bit imm => Sys2Proof.Machine.execVld a b k bit imm s
  | .vst b c k bit imm => Sys2Proof.Machine.execVst b c k bit imm s
  | .vlds a b c k imm => Sys2Proof.Machine.execVlds a b c k imm s
  | .vsts b c d k imm => Sys2Proof.Machine.execVsts b c d k imm s
  | .vldx a b c k scale imm => Sys2Proof.Machine.execVldx a b c k scale imm s
  | .vstx b c d k scale imm => Sys2Proof.Machine.execVstx b c d k scale imm s
  | .vadd a b y k => Sys2Proof.Machine.execVadd a b y k s
  | .vsub a b y k => Sys2Proof.Machine.execVsub a b y k s
  | .vmul a b y k => Sys2Proof.Machine.execVmul a b y k s
  | .vmulh a b y k => Sys2Proof.Machine.execVmulh a b y k s
  | .vand a b y k => Sys2Proof.Machine.execVand a b y k s
  | .vor a b y k => Sys2Proof.Machine.execVor a b y k s
  | .vxor a b y k => Sys2Proof.Machine.execVxor a b y k s
  | .vsll a b y k => Sys2Proof.Machine.execVsll a b y k s
  | .vsrl a b y k => Sys2Proof.Machine.execVsrl a b y k s
  | .vsra a b y k => Sys2Proof.Machine.execVsra a b y k s
  | .vmin a b y k => Sys2Proof.Machine.execVmin a b y k s
  | .vmax a b y k => Sys2Proof.Machine.execVmax a b y k s
  | .vminu a b y k => Sys2Proof.Machine.execVminu a b y k s
  | .vmaxu a b y k => Sys2Proof.Machine.execVmaxu a b y k s
  | .vsadd a b y k => Sys2Proof.Machine.execVsadd a b y k s
  | .vssub a b y k => Sys2Proof.Machine.execVssub a b y k s
  | .vcmp a b y k pred => Sys2Proof.Machine.execVcmp a b y k pred s
  | .vfcmp a b y k pred => Sys2Proof.Machine.execVfcmp a b y k pred s
  | .vsel a b y k => Sys2Proof.Machine.execVsel a b y k s
  | .vfadd a b y k => Sys2Proof.Machine.execVfadd a b y k s
  | .vfsub a b y k => Sys2Proof.Machine.execVfsub a b y k s
  | .vfmul a b y k => Sys2Proof.Machine.execVfmul a b y k s
  | .vfma a b y d k => Sys2Proof.Machine.execVfma a b y d k s
  | .vfnma a b y d k => Sys2Proof.Machine.execVfnma a b y d k s
  | .vfdiv a b y k => Sys2Proof.Machine.execVfdiv a b y k s
  | .vfsqrt a b k => Sys2Proof.Machine.execVfsqrt a b k s
  | .vfmin a b y k => Sys2Proof.Machine.execVfmin a b y k s
  | .vfmax a b y k => Sys2Proof.Machine.execVfmax a b y k s
  | .vfexp2 a b k => Sys2Proof.Machine.execVfexp2 a b k s
  | .vflog2 a b k => Sys2Proof.Machine.execVflog2 a b k s
  | .vfrcp a b k => Sys2Proof.Machine.execVfrcp a b k s
  | .vfrsq a b k => Sys2Proof.Machine.execVfrsq a b k s
  | .vftanh a b k => Sys2Proof.Machine.execVftanh a b k s
  | .vcvt a b k src => Sys2Proof.Machine.execVcvt a b k src s
  | .vslideup a b n d k => Sys2Proof.Machine.execVslideup a b n d k s
  | .vslidedn a b n k => Sys2Proof.Machine.execVslidedn a b n k s
  | .vperm a b c k => Sys2Proof.Machine.execVperm a b c k s
  | .vcompress a b k => Sys2Proof.Machine.execVcompress a b k s
  | .vexpand a b k => Sys2Proof.Machine.execVexpand a b k s
  | .vbcast a y k => Sys2Proof.Machine.execVbcast a y k s
  | .vmvx a b n => Sys2Proof.Machine.execVmvx a b n s
  | .vmvs a c n => Sys2Proof.Machine.execVmvs a c n s
  | .viota a c k => Sys2Proof.Machine.execViota a c k s
  | .vconflict a b k => Sys2Proof.Machine.execVconflict a b k s
  | .vredsum a b k => Sys2Proof.Machine.execVredsum a b k s
  | .vredmax a b k => Sys2Proof.Machine.execVredmax a b k s
  | .vredmin a b k => Sys2Proof.Machine.execVredmin a b k s
  | .vfredsum a b k => Sys2Proof.Machine.execVfredsum a b k s
  | .vfredmax a b k => Sys2Proof.Machine.execVfredmax a b k s
  | .vfredmin a b k => Sys2Proof.Machine.execVfredmin a b k s
  | .vtopk a b n k => Sys2Proof.Machine.execVtopk a b n k s
  | .qand a b c => Sys2Proof.Machine.execQand a b c s
  | .qor a b c => Sys2Proof.Machine.execQor a b c s
  | .qxor a b c => Sys2Proof.Machine.execQxor a b c s
  | .qnot a b => Sys2Proof.Machine.execQnot a b s
  | .qpopc a b => Sys2Proof.Machine.execQpopc a b s
  | .qfirst a b => Sys2Proof.Machine.execQfirst a b s
  | .qmov m => Sys2Proof.Machine.execQmov m s
  | .setts a b c d => Sys2Proof.Machine.execSetts a b c d s
  | .mld d base stride ty => Sys2Proof.Machine.execMld d base stride ty s
  | .mst src base stride => Sys2Proof.Machine.execMst src base stride s
  | .mzero d ty => Sys2Proof.Machine.execMzero d ty s
  | .mmul d ma mb g walk tb acc nm1 => Sys2Proof.Machine.execMmul d ma mb g walk tb acc nm1 s
  | .mcvt d src ty => Sys2Proof.Machine.execMcvt d src ty s
  | .mtr d src => Sys2Proof.Machine.execMtr d src s
  | .mmov d src => Sys2Proof.Machine.execMmov d src s
  | .mscale d src v cols => Sys2Proof.Machine.execMscale d src v cols s
  | .mrow a src row => Sys2Proof.Machine.execMrow a src row s
  | .mput d v row => Sys2Proof.Machine.execMput d v row s
  | .mrel d nm1 => Sys2Proof.Machine.execMrel d nm1 s
  | .mpf d g nm1 => Sys2Proof.Machine.execMpf d g nm1 s
  | .mcb cb base => Sys2Proof.Machine.execMcb cb base s
  | .mrmax a src => Sys2Proof.Machine.execMrmax a src s
  | .mrsum a src => Sys2Proof.Machine.execMrsum a src s
  | .scout a query key g nm1 => Sys2Proof.Machine.execScout a query key g nm1 s
  | .gthr a v t seg nm1 => Sys2Proof.Machine.execGthr a v t seg nm1 s
  | .gtopk a v n seg nm1 => Sys2Proof.Machine.execGtopk a v n seg nm1 s
  | .gand a b c => Sys2Proof.Machine.execGand a b c s
  | .gor a b c => Sys2Proof.Machine.execGor a b c s
  | .gnot a b => Sys2Proof.Machine.execGnot a b s
  | .gpop a b seg nm1 => Sys2Proof.Machine.execGpop a b seg nm1 s
  | .gnext a b start => Sys2Proof.Machine.execGnext a b start s
  | .gld a base => Sys2Proof.Machine.execGld a base s
  | .gst b base => Sys2Proof.Machine.execGst b base s
  | .sacc base w g nm1 => Sys2Proof.Machine.execSacc base w g nm1 s
  | .cpgo a => Sys2Proof.Machine.execCpgo a s
  | .rinit ring b c => Sys2Proof.Machine.execRinit ring b c s
  | .rwait b => Sys2Proof.Machine.execRwait b s
  | .rrel ring b => Sys2Proof.Machine.execRrel ring b s
  | .rpoll a b => Sys2Proof.Machine.execRpoll a b s
  | .sbind a b => Sys2Proof.Machine.execSbind a b s
  | .sfree a => Sys2Proof.Machine.execSfree a s
  | .capp a src c k landing => Sys2Proof.Machine.execCapp a src c k landing s
  | .qpop a b d => Sys2Proof.Machine.execQpop a b d s
  | .flpop a b c k imm => Sys2Proof.Machine.execFlpop a b c k imm s
  | .flpush a b c k imm => Sys2Proof.Machine.execFlpush a b c k imm s
  | .msend src dest => Sys2Proof.Machine.execMsend src dest s
  | .mwait d => Sys2Proof.Machine.execMwait d s
  | .csrrCpgo a => Sys2Proof.Machine.execCsrrCpgo a s
  | .tmaprxWrite op b => Sys2Proof.Machine.execTmaprxWrite op b s
  | .tile m => Sys2Proof.Machine.execTile m s
  | .tack m => Sys2Proof.Machine.execTack m s
  | .tnak m => Sys2Proof.Machine.execTnak m s
  | .controlPageWrite part off v => Sys2Proof.Machine.execControlPageWrite part off v s
  | .asidRootWordWrite part v => Sys2Proof.Machine.execAsidRootWordWrite part v s
  | .leaseEntryWrite part v => Sys2Proof.Machine.execLeaseEntryWrite part v s
  | .translationRequest part v => Sys2Proof.Machine.execTranslationRequest part v s
  | .counterClear part v => Sys2Proof.Machine.execCounterClear part v s
  | .convoyIssue tid => Sys2Proof.Machine.execConvoyIssue tid s
  | .tileEngineStart tid => Sys2Proof.Machine.execTileEngineStart tid s
  | .tileEngineDone tid => Sys2Proof.Machine.execTileEngineDone tid s
  | .tileFaultTaken tid => Sys2Proof.Machine.execTileFaultTaken tid s
  | .mapCacheFill tid reg => Sys2Proof.Machine.execMapCacheFill tid reg s
  | .fillComplete tid reg => Sys2Proof.Machine.execFillComplete tid reg s
  | .spillComplete tid reg => Sys2Proof.Machine.execSpillComplete tid reg s
  | .tlbWalkComplete die => Sys2Proof.Machine.execTlbWalkComplete die s
  | .icacheFillComplete core line => Sys2Proof.Machine.execIcacheFillComplete core line s
  | .l1LineExpiry core line => Sys2Proof.Machine.execL1LineExpiry core line s
  | .streamRunaheadLoad tid reg => Sys2Proof.Machine.execStreamRunaheadLoad tid reg s
  | .gxuRequest tid dst size idx => Sys2Proof.Machine.execGxuRequest tid dst size idx s
  | .gxuForeignRequest req stack => Sys2Proof.Machine.execGxuForeignRequest req stack s
  | .gxuGroupReturn req group => Sys2Proof.Machine.execGxuGroupReturn req group s
  | .cpeTransferComplete tid id => Sys2Proof.Machine.execCpeTransferComplete tid id s
  | .asyncDelivery tid => Sys2Proof.Machine.execAsyncDelivery tid s
  | .barrierComplete tid => Sys2Proof.Machine.execBarrierComplete tid s
  | .waitResume tid => Sys2Proof.Machine.execWaitResume tid s
  | .waitTimeout tid => Sys2Proof.Machine.execWaitTimeout tid s
  | .sleepEnd tid => Sys2Proof.Machine.execSleepEnd tid s
  | .mwaitDone tid => Sys2Proof.Machine.execMwaitDone tid s
  | .cappRoom tid => Sys2Proof.Machine.execCappRoom tid s
  | .qpopReady tid => Sys2Proof.Machine.execQpopReady tid s
  | .rwaitDone tid => Sys2Proof.Machine.execRwaitDone tid s
  | .haltDrained tid => Sys2Proof.Machine.execHaltDrained tid s
  | .msendWindowOpen tid => Sys2Proof.Machine.execMsendWindowOpen tid s
  | .fenceDone tid => Sys2Proof.Machine.execFenceDone tid s
  | .cflushDone tid => Sys2Proof.Machine.execCflushDone tid s
  | .cinvDone tid => Sys2Proof.Machine.execCinvDone tid s
  | .tlbinvDone tid => Sys2Proof.Machine.execTlbinvDone tid s
  | .translationDone part image entryOff at_ => Sys2Proof.Machine.execTranslationDone part image entryOff at_ s
  | .vectorUnitGrant tid => Sys2Proof.Machine.execVectorUnitGrant tid s
  | .vectorUnitStarvation tid => Sys2Proof.Machine.execVectorUnitStarvation tid s
  | .vectorStateRestore tid => Sys2Proof.Machine.execVectorStateRestore tid s
  | .preemption tid => Sys2Proof.Machine.execPreemption tid s
  | .taskPlace => Sys2Proof.Machine.execTaskPlace s
  | .quarterDrain core quarter => Sys2Proof.Machine.execQuarterDrain core quarter s
  | .quarterLend core quarter => Sys2Proof.Machine.execQuarterLend core quarter s
  | .quarterScrub core quarter => Sys2Proof.Machine.execQuarterScrub core quarter s
  | .quarterFree core quarter => Sys2Proof.Machine.execQuarterFree core quarter s
  | .gangStart launch => Sys2Proof.Machine.execGangStart launch s
  | .launchComplete launch => Sys2Proof.Machine.execLaunchComplete launch s
  | .dstEpoch die => Sys2Proof.Machine.execDstEpoch die s
  | .currentGovernor core => Sys2Proof.Machine.execCurrentGovernor core s
  | .pcSample core => Sys2Proof.Machine.execPcSample core s
  | .hello m => Sys2Proof.Machine.execHello m s
  | .ack m => Sys2Proof.Machine.execAck m s
  | .bye m => Sys2Proof.Machine.execBye m s
  | .dkcpRetransmit session seq => Sys2Proof.Machine.execDkcpRetransmit session seq s
  | .dkcpSessionIdle session => Sys2Proof.Machine.execDkcpSessionIdle session s
  | .launch m => Sys2Proof.Machine.execLaunch m s
  | .launchFenceResolved n => Sys2Proof.Machine.execLaunchFenceResolved n s
  | .fenceTimeout n => Sys2Proof.Machine.execFenceTimeout n s
  | .abort m => Sys2Proof.Machine.execAbort m s
  | .attestReq m => Sys2Proof.Machine.execAttestReq m s
  | .fwLoad m => Sys2Proof.Machine.execFwLoad m s
  | .status m => Sys2Proof.Machine.execStatus m s
  | .partCreate m => Sys2Proof.Machine.execPartCreate m s
  | .partDestroy m => Sys2Proof.Machine.execPartDestroy m s
  | .asidAssign m => Sys2Proof.Machine.execAsidAssign m s
  | .asidRelease m => Sys2Proof.Machine.execAsidRelease m s
  | .mrRegister m => Sys2Proof.Machine.execMrRegister m s
  | .mrDeregister m => Sys2Proof.Machine.execMrDeregister m s
  | .queueCreate m => Sys2Proof.Machine.execQueueCreate m s
  | .queueDestroy m => Sys2Proof.Machine.execQueueDestroy m s
  | .qpCreate m => Sys2Proof.Machine.execQpCreate m s
  | .qpDestroy m => Sys2Proof.Machine.execQpDestroy m s
  | .pkgIdSet m => Sys2Proof.Machine.execPkgIdSet m s
  | .portTable m => Sys2Proof.Machine.execPortTable m s
  | .portEnable m trained => Sys2Proof.Machine.execPortEnable m trained s
  | .tickConfig m => Sys2Proof.Machine.execTickConfig m s
  | .lendMark m => Sys2Proof.Machine.execLendMark m s
  | .lendUnmark m => Sys2Proof.Machine.execLendUnmark m s
  | .revoke m => Sys2Proof.Machine.execRevoke m s
  | .bistStart m => Sys2Proof.Machine.execBistStart m s
  | .lifetimeRead m => Sys2Proof.Machine.execLifetimeRead m s
  | .telemetryCfg m => Sys2Proof.Machine.execTelemetryCfg m s
  | .supvStart m => Sys2Proof.Machine.execSupvStart m s
  | .measure m => Sys2Proof.Machine.execMeasure m s
  | .pmemWrite m => Sys2Proof.Machine.execPmemWrite m s
  | .telemetryPeriod => Sys2Proof.Machine.execTelemetryPeriod s
  | .rdmaWrite qpn psn rkey va data => Sys2Proof.Machine.execRdmaWrite qpn psn rkey va data s
  | .rdmaRead qpn psn rkey va bytes => Sys2Proof.Machine.execRdmaRead qpn psn rkey va bytes s
  | .rdmaSend qpn psn data => Sys2Proof.Machine.execRdmaSend qpn psn data s
  | .rdmaInvalidRequest qpn psn => Sys2Proof.Machine.execRdmaInvalidRequest qpn psn s
  | .tileResendTimeout dest => Sys2Proof.Machine.execTileResendTimeout dest s
  | .busyBackoffExpiry dest => Sys2Proof.Machine.execBusyBackoffExpiry dest s
  | .fabricError dest => Sys2Proof.Machine.execFabricError dest s
  | .tsyncPeriod => Sys2Proof.Machine.execTsyncPeriod s
  | .tsync m port => Sys2Proof.Machine.execTsync m port s
  | .tsyncr m => Sys2Proof.Machine.execTsyncr m s
  | .tsyncLossTimeout => Sys2Proof.Machine.execTsyncLossTimeout s
  | .syncedClear => Sys2Proof.Machine.execSyncedClear s
  | .lreq m => Sys2Proof.Machine.execLreq m s
  | .lgrant m => Sys2Proof.Machine.execLgrant m s
  | .ldeny m => Sys2Proof.Machine.execLdeny m s
  | .lrevoke m => Sys2Proof.Machine.execLrevoke m s
  | .leaseRelease idx => Sys2Proof.Machine.execLeaseRelease idx s
  | .leaseBorrowerDeadline idx => Sys2Proof.Machine.execLeaseBorrowerDeadline idx s
  | .leaseDrainComplete idx => Sys2Proof.Machine.execLeaseDrainComplete idx s
  | .lreleased m => Sys2Proof.Machine.execLreleased m s
  | .leaseLenderDeadline idx => Sys2Proof.Machine.execLeaseLenderDeadline idx s
  | .ualinkRequest src offset r => Sys2Proof.Machine.execUalinkRequest src offset r s
  | .portDown port => Sys2Proof.Machine.execPortDown port s
  | .coldBoot => Sys2Proof.Machine.execColdBoot s
  | .warmReset => Sys2Proof.Machine.execWarmReset s
  | .orderlyShutdown => Sys2Proof.Machine.execOrderlyShutdown s
  | .mcSample x => Sys2Proof.Machine.execMcSample x s
  | .lifetimeFlush => Sys2Proof.Machine.execLifetimeFlush s
  | .regulatorTrim core unit lane atLimit failing => Sys2Proof.Machine.execRegulatorTrim core unit lane atLimit failing s
  | .laneMapRewrite core unit => Sys2Proof.Machine.execLaneMapRewrite core unit s
  | .writeAssistEnter core => Sys2Proof.Machine.execWriteAssistEnter core s
  | .writeAssistExit core => Sys2Proof.Machine.execWriteAssistExit core s
  | .bistScheduled stack pch bank => Sys2Proof.Machine.execBistScheduled stack pch bank s
  | .bistParkComplete stack => Sys2Proof.Machine.execBistParkComplete stack s
  | .bistTestComplete stack r => Sys2Proof.Machine.execBistTestComplete stack r s
  | .bistReturnComplete stack => Sys2Proof.Machine.execBistReturnComplete stack s
  | .ualinkCompletion tid error data => Sys2Proof.Machine.execUalinkCompletion tid error data s
  | .syncedSet => Sys2Proof.Machine.execSyncedSet s
  | .portUp port => Sys2Proof.Machine.execPortUp port s
  | .ualinkLaneFailure port => Sys2Proof.Machine.execUalinkLaneFailure port s
  | .powerLoss => Sys2Proof.Machine.execPowerLoss s

end Sys2Proof.Machine
end

