-- ==== Sys2Proof/Machine/Sched.lean ====
section
/-! DEFINITION. Which step comes next when no input waits and no member is in issue: a step of the device that is due, or the issue of the
slot that the arbiter of a core takes (R103, R127). Which of several that are due together comes first is a free value (log 40). -/

namespace Sys2Proof.Machine

/-! ## Steps of one slot -/

/-- A step that ends a wait, when the slot waits no longer in the same way after it. -/
def State.ends (s : State) (tid : Nat) (r : Res) : Option Res :=
  match r with
  | .next s' => if (s'.thread tid).stall == (s.thread tid).stall && (s'.thread tid).task.isSome then none else some r
  | _ => none

/-- The step that ends what a slot waits for, when it is due. -/
def State.wakeStep (s : State) (tid : Nat) : Option Res :=
  let t := s.thread tid
  match t.stall with
  | .none | .barDone | .copy | .granules | .spill _ _ | .walk | .lease | .links _ | .code _ | .missSlot | .gang | .gather _ | .tile | .governed => none
  | .wait _ _ _ since =>
    if !t.pend.isEmpty then some (execWaitResume tid s) else if since + 2 ^ 20 ≤ s.now then some (execWaitTimeout tid s) else none
  | .sleep d => if t.ending || !t.pend.isEmpty || decide (d.toNat ≤ s.tick.toNat) then some (execSleepEnd tid s) else none
  | .bar _ => s.ends tid (execBarrierComplete tid s)
  | .capp _ _ _ _ _ _ => s.ends tid (execCappRoom tid s)
  | .qpop _ _ _ => s.ends tid (execQpopReady tid s)
  | .rwait _ => s.ends tid (execRwaitDone tid s)
  | .mwait _ => s.ends tid (execMwaitDone tid s)
  | .msendWindow _ => s.ends tid (execMsendWindowOpen tid s)
  | .halt => s.ends tid (execHaltDrained tid s)
  | .fence _ => s.ends tid (execFenceDone tid s)
  | .cflush _ _ => s.ends tid (execCflushDone tid s)
  | .cinv _ _ => s.ends tid (execCinvDone tid s)
  | .tlbinv _ _ _ => s.ends tid (execTlbinvDone tid s)
  | .vectorUnit since =>
    match s.ends tid (execVectorUnitGrant tid s) with
    | some r => some r
    | none =>
      if decide (since + 65536 ≤ s.now) && (s.starveVictim tid).any fun v => !(s.thread v).preempt then
        some (execVectorUnitStarvation tid s) else none
  | .vectorRestore => some (execVectorStateRestore tid s)

/-- The step of a slot's tile entry that is due. -/
def State.tileStep (s : State) (tid : Nat) : Option Res :=
  match s.entry? tid with
  | none => none
  | some e =>
    if e.st == .faulted then (if (s.thread tid).ending then none else some (execTileFaultTaken tid s))
    else if e.st == .executing then some (execTileEngineDone tid s)
    else if s.canStart tid then some (execTileEngineStart tid s)
    else none

/-- The transfer of a thread that its engine can complete: no leased access of it is unanswered, and no write that its completion waits for. -/
def State.dueCopy (s : State) (t : Thread) : Option Nat :=
  (t.transfers.find? fun x => (s.openCopy t x.id).isSome && (x.result.isNone || !s.writesOut (some t.uid) none)).map fun (x : Transfer) => x.id

/-- The step that a slot takes before it issues again: of its tile entry, a pre-emption, a delivery (R238, R244, R249); the end of its task comes
before all of them (R245). -/
def State.mustStep (s : State) (tid : Nat) : Option Res :=
  let t := s.thread tid
  if t.task.isNone || (t.ending && t.atEnd) then none
  else
    match s.tileStep tid with
    | some r => some r
    | none =>
      if t.ending || s.entryRuns tid then none
      else if t.preempt && t.atBoundary && !t.resumed then some (execPreemption tid s)
      else if t.canDeliver then some (execAsyncDelivery tid s)
      else none

/-- The transfer of a slot that can go on. -/
def State.copyStep (s : State) (tid : Nat) : Option Res :=
  let t := s.thread tid
  if t.task.isNone then none else (s.dueCopy t).map fun id => execCpeTransferComplete tid id s

/-- The transfer of a slot of which some bytes are performed now (R220). -/
def State.copyOnStep (s : State) (tid : Nat) : Option Res :=
  if (s.thread tid).task.isNone then none
  else ((s.thread tid).transfers.findSome? fun x => if x.status == 0 then s.copyOn tid x.id else none).map .next

/-- The stream of a slot that can run ahead (R196). -/
def State.aheadStep (s : State) (tid : Nat) : Option Res :=
  let t := s.thread tid
  if t.task.isNone || t.vty.isNone then none
  else (t.streams.find? fun st => st.wantsAhead t.vl.toNat).map fun (st : Stream) => execStreamRunaheadLoad tid st.reg s

/-- The steps of one slot that may be due. -/
def slotSteps (tid : Nat) : List (State → Option Res) :=
  [fun s => s.mustStep tid, fun s => s.copyStep tid, fun s => s.copyOnStep tid, fun s => s.aheadStep tid,
   fun s => if (s.thread tid).task.isNone then none else s.wakeStep tid]

/-! ## Steps of the cores and dies -/

/-- The slot in whose hand the FSE of a core works for a context: the one where it is active, else the first. -/
def State.fseSlot (s : State) (core : Nat) (c : Ctx) : Nat :=
  match s.activeSlot c with
  | some tid => if tid / 4 = core then tid else 4 * core
  | none => 4 * core

/-- The fill or spill in flight of a core that can end: a fill that an entry waits for, a spill that an allocation waits for, another fill, another
spill (R161). -/
def State.setStep (s : State) (c : Nat) : Option Res :=
  let fill := fun (x : TileSet) => let tid := s.fseSlot c x.ctx
    if s.awaits (.tiles x.job) then none else some (execFillComplete tid x.reg s)
  let spill := fun (x : TileSet) => let tid := s.fseSlot c x.ctx
    if s.awaits (.tiles x.job) then none else some (execSpillComplete tid x.reg s)
  let fills := s.fillsInFlight c
  let spills := s.spillsInFlight c
  ((fills.filter (s.fillAwaited c)).findSome? fill).or (((spills.filter fun x => (s.waitsFor c x).isSome).findSome? spill).or
    ((fills.findSome? fill).or (spills.findSome? spill)))

/-- The lane map of a core that can be rewritten (R139). -/
def State.laneStep (s : State) (c : Nat) : Option Res :=
  ([0, 1].find? fun u => let v := (s.getCore c).vunit u; v.holder.isNone && !v.marked.isEmpty).map fun u => execLaneMapRewrite c u s

/-- The step of a quarter of a core that is due (Table 4.7). -/
def State.quarterStep (s : State) (c q : Nat) : Option Res :=
  match ((s.getCore c).quarter q).st with
  | .free | .lent => none
  | .reserved => if s.quarterUsed c q then none else some (execQuarterDrain c q s)
  | .draining =>
    if s.emptied c (ownRange q) || (s.setsIn c (ownRange q)).any (s.evictable c) then some (execQuarterLend c q s) else none
  | .reclaim =>
    match borrower c q with
    | none => none
    | some b =>
      if s.emptied b (galleryRange q) || (s.setsIn b (galleryRange q)).any (s.evictable b) then some (execQuarterScrub c q s) else none
  | .scrub => some (execQuarterFree c q s)

/-- The instruction cache fill of a core that can end. -/
def State.icStep (s : State) (c : Nat) : Option Res :=
  match (s.getCore c).icFills with
  | f :: _ => some (execIcacheFillComplete c f.1 s)
  | [] => none

/-- The steps of one core that may be due. -/
def coreSteps (c : Nat) : List (State → Option Res) :=
  [fun s => s.setStep c, fun s => s.icStep c, fun s => s.laneStep c, fun s => (List.range 4).findSome? fun q => s.quarterStep c q]

/-- The next step of the gathers in progress. -/
def State.gatherStep (s : State) : Option Res :=
  s.gathers.findSome? fun g =>
    if !g.sent then some (execGxuRequest g.tid g.dst g.size g.idx s)
    else
      match g.idx with
      | x :: _ => some (execGxuForeignRequest g.req (stackOf x.2) s)
      | [] => (g.groups.find? fun grp => g.complete grp && !g.returned.contains grp).map fun grp => execGxuGroupReturn g.req grp s

/-! ## Steps of the package -/

/-- The transfer of a pre-empted task that can go on. -/
def State.savedStep (s : State) : Option Res :=
  s.pending.findSome? fun p => match p.saved, p.home with
    | some t, some (c, i) => (s.dueCopy t).map fun id => execCpeTransferComplete (4 * c + i) id s
    | _, _ => none

/-- The transfer of a pre-empted task of which some bytes are read or written now (R220, R416). -/
def State.savedOnStep (s : State) : Option Res :=
  s.pending.findSome? fun p => match p.saved, p.home with
    | some t, some (c, i) =>
      let tid := 4 * c + i
      let there := { (s.switchTo tid) with t := t }
      (t.transfers.find? fun x => (there.copyOn tid x.id).isSome).map fun x =>
        .next (s.onSaved p fun s => (s.copyOn tid x.id).getD s)
    | _, _ => none

/-- The ranges of physical memory that a page table maps, from a level on: base and bytes. -/
def leavesFrom (m : List Host.Cell) : Nat → Nat → List (Nat × Nat)
  | level, table =>
    let entries := (List.range (if level = 4 then 256 else 512)).map fun i => (word (leNat (memReadN m (table + 8 * i) 8)) : Word)
    let leaf := fun (e : Word) => ((e.extractLsb' 12 40).toNat * 4096, 2 ^ (psLog (e.extractLsb' 60 3).toNat).getD 12)
    match level with
    | 0 => (entries.filter fun e => e.getLsbD 0 && e.getLsbD 1 && !pteBad 0 e).map leaf
    | n + 1 =>
      (entries.filter fun e => e.getLsbD 0 && !pteBad (n + 1) e).flatMap fun e =>
        if e.getLsbD 1 then [leaf e] else leavesFrom m n ((e.extractLsb' 12 40).toNat * 4096)

/-- A partition has a page mapped into a bank (R248). -/
def State.mapsBank (s : State) (part : Nat) (b : Nat × Nat × Nat) : Bool :=
  s.asids.any fun a => a.part == part && a.valid && (leavesFrom s.mem 4 a.root).any fun r =>
    decide (r.1 < hbmEnd) && (List.range (r.2 / 32)).any fun i => bankAt (r.1 + 32 * i) == b

/-- The partitions with a page in a bank that was fenced hear of it (R30, R248). -/
def State.fenceNotes (s : State) : State :=
  let tell := fun (s : State) (b : Nat × Nat × Nat) =>
    (s.parts.filter fun p => s.mapsBank p.id b).foldl
      (fun s p => s.notify p.id { cause := .memUe, xaddr := 0, xelem := word (bankKey b), reg := 0 }) s
  s.fenceNews.foldl tell { s with fenceNews := [] }

/-- The step of a lease entry that is due. -/
def State.leaseStep (s : State) : Option Res :=
  s.leases.findSome? fun p =>
    let l := p.2
    if !l.v then none
    else if l.draining then (if s.leaseQuiet l.part then some (execLeaseDrainComplete p.1 s) else none)
    else if l.st != 2 then none
    else if l.lent then (if l.lenderLimit.toNat ≤ s.tick.toNat then some (execLeaseLenderDeadline p.1 s) else none)
    else if l.deadline.toNat ≤ s.tick.toNat then some (execLeaseBorrowerDeadline p.1 s) else none

/-- The step of a launch that is due. -/
def State.launchStep (s : State) : Option Res :=
  match s.launches.find? s.launchOver with
  | some l => some (execLaunchComplete l.key s)
  | none =>
    match s.launches.find? fun l => l.gang && !l.started && decide (l.gstart.toNat ≤ s.tick.toNat) with
    | some l => some (execGangStart l.key s)
    | none => (s.fences.find? s.fenceReady).map fun (f : FenceWait) => execLaunchFenceResolved f.n s

/-- A step that nothing else comes before: a fenced bank of which partitions hear (R30), a PC sample (R252), a line that L1 may hold no longer (R207), a
leased line that L2 may hold no longer (R219; log 15). -/
def State.urgent (s : State) : Option Res :=
  if !s.fenceNews.isEmpty then some (.next s.fenceNotes)
  else
    match (s.cores.find? fun c => s.sampleDue c.1), (s.cores.findSome? fun c =>
      ((s.getCore c.1).l1.find? fun l => decide (l.filled + 4096 ≤ s.now)).map fun (l : Line) => (c.1, l.num)) with
    | some c, _ => some (execPcSample c.1 s)
    | none, some x => some (execL1LineExpiry x.1 x.2 s)
    | none, none =>
      ((List.range 9).findSome? fun d => (s.getDie d).l2.find? fun l => l.home.isSome && decide (l.filled + 4096 ≤ s.now)).map fun (l : L2Line) =>
        .next (s.dropLease fun x => x.num == l.num)

/-- A partition that is being destroyed and has nothing left. -/
def State.closeStep (s : State) : Option State :=
  (s.parts.find? fun p => p.closing && s.partIdle p.id).map fun p => (s.dropPending fun q => q.task.part == p.id).closePart p.id

/-- The steps of the package that may be due. -/
def packageSteps : List (State → Option Res) :=
  [State.gatherStep,
   fun s => ((List.range 9).find? fun d => !(s.getDie d).walks.isEmpty).map fun d => execTlbWalkComplete d s,
   State.savedStep, State.savedOnStep, fun s => s.injectOne.map .next, fun s => s.retryHeld.map .next, fun s => s.dstStep.map .next,
   fun s => s.closeStep.map .next, State.leaseStep, State.launchStep,
   fun s => s.placeOne.map .next]

/-! ## The arbiter (R103) -/

/-- A slot that would issue, or end its task, if the arbiter took it. -/
def State.slotReady (s : State) (tid : Nat) : Bool :=
  let t := s.thread tid
  match t.task with
  | none => false
  | some k =>
    (t.ending && t.atEnd) || (!k.translator && s.reissues tid && match t.stall with
      | .governed => !(s.getCore (tid / 4)).withheld
      | .spill c r => (s.getCore (tid / 4)).sets.all fun x => !(x.ctx == c && x.reg == r && x.spilling)
      | _ => true)

/-- The slot of a core that comes next after the one it took last. -/
def State.pickSlot (s : State) (c : Nat) : Option Nat :=
  let k := s.getCore c
  ((List.range 4).map fun i => 4 * c + (k.lastSlot + 1 + i) % 4).find? s.slotReady

/-- The issue of the slot that a core's arbiter takes, unless something of that slot comes before it. -/
def State.issueStep (s : State) (c : Nat) : Option Res :=
  match s.pickSlot c with
  | some tid => if (s.mustStep tid).isNone then some (execConvoyIssue tid s) else none
  | none => none

/-- Every step of the device that may be due. -/
def State.mayStep (s : State) : List (State → Option Res) :=
  s.slots.flatMap slotSteps ++ s.cores.flatMap (fun c => coreSteps c.1) ++ packageSteps

/-- The cores that hold tasks, in the order of their ids from the one in hand. -/
def State.coreTurns (s : State) : List Nat :=
  let cs := (s.slots.map fun tid => tid / 4).eraseDups.foldl (fun (acc : List Nat) x => nset x acc) []
  (cs.filter fun c => decide (s.core < c)) ++ cs.filter fun c => decide (c ≤ s.core)

/-- A list read in a circle from a position on. -/
def rotate {α : Type} (n : Nat) (l : List α) : List α := l.drop (n % l.length) ++ l.take (n % l.length)

/-- What may happen next, in the order in which it is looked for, which is free (log 40). -/
def State.mayHappen (s : State) : List (State → Option Res) :=
  let due := rotate (Config.dueFrom s.steps) s.mayStep
  let issues := rotate (Config.coreFrom s.steps) (s.coreTurns.map fun c s => State.issueStep s c)
  if Config.issueFirst s.steps then issues ++ due else due ++ issues

/-- The step that is taken, if one is due: one that nothing comes before, else the first found. -/
def State.dueStep (s : State) : Option Res :=
  match s.urgent with
  | some r => some r
  | none => s.mayHappen.findSome? fun f => f s

/-- What the device does by itself. -/
def autonomous (s : State) : Res := s.dueStep.getD (.next s)

/-! ## One step -/

/-- The member that is in issue, run; or what came before it instead (R127, R128, R245). -/
def runSlot (tid : Nat) (s : State) : Res :=
  match prepare false tid s with
  | (s', some i) => exec i s'
  | (s', none) => .next s'

/-- What the next step does, before time passes: the member in issue, else the oldest input, else what the device does by itself; inputs
land at convoy boundaries. -/
def nextStep (s : State) : Res :=
  match s.turn, s.inbox with
  | .slot tid, _ => runSlot tid s
  | .arbiter, i :: rest => exec i { s with inbox := rest }
  | .arbiter, [] => autonomous s

/-- Time passes over a step by a number of cycles that nothing fixes (log 2). -/
def elapse : Res → Res
  | .next s => .next ({ s with steps := s.steps + 1 }.advance (Config.stepCycles s.steps))
  | r => r

/-- Whether anything can happen: without power only COLD_BOOT does (R256). -/
def State.live (s : State) : Bool := s.powered || (s.turn == .arbiter && s.inbox.head? == some .coldBoot)

/-! ## Placing an instruction where the next step fetches it -/

/-- The virtual page, physical page and line of a placed instruction. -/
def placedPc : Word := 0x400000
def placedPa : Nat := 0x200000

/-- The bytes of a line that holds one instruction and fills the rest: the head at the line's start with its tail at the line's end; a
member with J = 1 is followed by a `halt`. -/
def placedLine (w : Nat) : BitVec 512 :=
  let head := w % 2 ^ 16
  let second := if head / 2 ^ 13 % 2 = 1 then 0x0A00 * 2 ^ 16 else 0
  let n := tailBytes (BitVec.ofNat 2 (head / 2 ^ 14))
  BitVec.ofNat 512 (head + second + (w / 2 ^ 16) % 2 ^ (8 * n) * 2 ^ (512 - 8 * n))

/-- The task that a placed instruction belongs to, in partition 0 and address space 1. -/
def placedTask : Task :=
  { launch := none, stage := 0, index := 0, part := 0, asid := 1, prio := 0, heat := 0, spadu := 16, spadBase := 0, split := none
    mapSlot := none, entry := placedPc, sarg := 0, supervisor := false, translator := false, since := 0, popped := false, uid := 0 }

/-- The mapping of the placed page: readable, writable and executable. -/
def placedTlb : TlbEntry :=
  { asid := 1, page := placedPc.toNat / 4096, sizeLog := 12, leaf := word (placedPa + 0x1F) }

/-- The state with an instruction placed: its line in memory, its page mapped, a task bound to slot 0 of core 0 at it, and that slot chosen
to issue. -/
def placed (s : State) (w : Nat) : State :=
  let s := s.switchTo 0
  let s := { s with inbox := [], turn := .slot 0, powered := true, mem := memWriteN s.mem placedPa (leBytes 64 (placedLine w).toNat)
                    asids := { asid := 1, part := 0, valid := true, root := 0x100000 } :: s.asids.filter fun e => e.asid != 1 }
  let s := { s with t := { Thread.reset with pc := placedPc, task := some placedTask } }
  s.modCore 0 fun k => { k with tlb := placedTlb :: k.tlb.filter fun e => !(e.asid == 1)
                                icache := k.icache.filter fun l => l.num != placedPa / 64 }

end Sys2Proof.Machine
end

