-- ==== Sys2Proof/Machine/Step.lean ====
section
/-! DEFINITION. One step of the package: a member in issue, an input, or what the device does by itself, and the time that passes. -/

namespace Sys2Proof.Machine

/-- One step. Without power only COLD_BOOT happens. -/
def step (s : State) : Host.Outcome State Fault Refusal :=
  if s.live then elapse (nextStep s) else .fault .noPower

/-- The state with an instruction of `nbits` bits, the others 0, placed where the next step fetches it. -/
def State.withFetchWord (s : State) (nbits w : Nat) : State := placed s (w % 2 ^ nbits)

end Sys2Proof.Machine
end

