-- ==== Sys2Proof/Safety.lean ====
section
/-! DEFINITION. What a safe run is, and the terms in which claims say what a step leaves alone. -/

namespace Sys2Proof.Claims

open Sys2Proof.Machine

/-! ## Safe runs -/

/-- The states that a run of the machine passes through. -/
inductive Reaches : State → State → Prop where
  | refl (s : State) : Reaches s s
  | step (s t u : State) (h : Machine.step s = .next t) (r : Reaches t u) : Reaches s u

/-- A run that never stops. -/
def Safe (s : State) : Prop := ∀ u, Reaches s u → ∃ v, Machine.step u = .next v

/-! ## What stays as it was -/

/-- Every byte of memory reads as before. -/
def SameMemory (s t : State) : Prop := ∀ a, memRead t.mem a = memRead s.mem a

/-- Every byte outside `n` bytes from `a` on reads as before. -/
def SameMemoryBut (a n : Nat) (s t : State) : Prop := ∀ x, x < a ∨ a + n ≤ x → memRead t.mem x = memRead s.mem x

/-- Nothing changes but the thread in hand, whose turn it is, and what its member had asked of leased memory, which is forgotten. -/
def OnlyThread (s t : State) : Prop := t = { s with t := t.t, turn := t.turn, asks := dropAsks (· == Asker.member s.t.uid) s.asks }

/-- Every scalar register but one reads as before. -/
def SameRegsBut (a : SReg) (t t' : Thread) : Prop := ∀ x, x ≠ a → t'.reg x = t.reg x

/-- The fields of a thread that the retirement of its member moves, taken from `t'`: the place in the program, the resumption point, what the
thread waits for, and what only its member kept: old tiles, checked translations, and registers and elements done. -/
def progress (t t' : Thread) : Thread :=
  { t with pc := t'.pc, member := t'.member, convoyLen := t'.convoyLen, vstart := t'.vstart, skip := t'.skip, stall := t'.stall
           held := t'.held, walked := t'.walked, vdone := t'.vdone, checked := t'.checked, resumed := t'.resumed }

/-- The scalar registers apart, a thread changed only in what retirement moves. -/
def OnlyRegs (t t' : Thread) : Prop := t' = { progress t t' with regs := t'.regs }

end Sys2Proof.Claims
end

