-- ==== Sys2Proof/Certificates/Slice0/Obligations.lean ====
section
/-! DEFINITION. The statements for the provers: what the instructions and the machine do, in the terms of the spec's numbered rules. -/

open Sys2Proof Sys2Proof.Machine Sys2Proof.Claims

/-! ## Reset, decoding, stepping -/

/-- At reset no slot holds a task, every CSR of a slot that Table 11.2 gives a value at task start has it, the package has power and partition 0 holds
all 36 hall pairs. That a slot has these values at package reset too, with `xvec` 0, is the model's choice (log 4), and so is the span of partition 0
(log 72). -/
def Obligations.ResetHoldsTheStatedValues : Prop :=
  State.reset.powered = true ∧
  (∀ tid, (State.reset.thread tid).task = none) ∧
  (∀ tid csr, csr ∈ [0x001, 0x010, 0x012, 0x013, 0x040, 0x041, 0x080, 0x081, 0x083, 0x100, 0x101, 0x102, 0x103, 0x104, 0x105, 0x106, 0x107, 0x108] →
    ({ State.reset with t := State.reset.thread tid }).csr csr = 0) ∧
  (∀ tid i, i < 10 → ({ State.reset with t := State.reset.thread tid }).csr (0x090 + i) = 0 ∧
    ({ State.reset with t := State.reset.thread tid }).csr (0x0A0 + i) = 0 ∧ ({ State.reset with t := State.reset.thread tid }).csr (0x0B0 + i) = 0) ∧
  (∀ tid, (State.reset.thread tid).vlr = 1 ∧ (State.reset.thread tid).tshape = 0x404040 ∧ (State.reset.thread tid).cpndim = 1 ∧
    (State.reset.thread tid).sup = false ∧ (State.reset.thread tid).psup = false ∧ (State.reset.thread tid).inh = false ∧
    (State.reset.thread tid).skipBit = false ∧ (State.reset.thread tid).ntf = false ∧ (State.reset.thread tid).pend = []) ∧
  State.reset.parts.map (fun p => (p.id, p.pairs, p.memPa, p.memBytes)) = [(0, 0xFFFFFFFFF, 0, 575999574016)]

/-- Words that the spec writes out decode to the instructions that they stand for. -/
def Obligations.WordsOfTheSpecDecode : Prop :=
  decodeTableWord 32 0x14604044 = some (.add 4 5 6) ∧
  decodeTableWord 64 0x84300000000090C2 = some (.vadd ⟨2, false⟩ ⟨1, true⟩ (.vec ⟨3, false⟩) 0) ∧
  decodeTableWord 96 0x12345678000000000000C344 = some (.li 4 0x12345678) ∧
  decodeTableWord 64 0x1400FFFFFFE38800 = some (.beq 5 0 (-1) 3) ∧
  decodeTableWord 32 0x08104D84 = some (.ldd 4 2 16) ∧
  decodeTableWord 64 0x1850000480088EC4 = some (.amoAdd 4 6 5 .p false 8) ∧
  decodeTableWord 64 0x2C00000000129004 = some (.setvl 4 11 0x12) ∧
  decodeTableWord 64 0x1461C00000009804 = some (.setts 4 5 6 7) ∧
  decodeTableWord 16 0x9C0D = some (.cpgo 13) ∧
  decodeTableWord 16 0x0903 = some (.ecall 3)

/-- Decoding the encoding of a well-formed instruction gives the instruction back, with every operand at every value that the encoding admits.
Every instruction of a program has an encoding: only the steps and inputs of the device have none. -/
def Obligations.DecodeInvertsEncode : Prop :=
  (∀ (i : Instr) (v : BitVec 96), i.wf = true → encode i = some v → decode shippedAct v = .instr i) ∧
  (∀ (m : Nat) (a : BitVec 6) (t : Tail) (i : Instr), parse m a t = some i → (encode i).isSome = true)

/-- The members of a convoy that are left can issue: the governor withholds no vector, MXA or Goral work of it (R115), the unit that a member needs is held
with its vector state, or can be taken (R127, R132, R134), and the later members have their granules (R127, R159; five for each, log 55). -/
def Sys2Proof.Claims.Ready (s : State) (ms : List (BitVec 96)) : Prop :=
  (ms.any (fun v => vectorMember v || engineMember v) = true → (s.getCore s.core).withheld = false) ∧
  s.granulesFor (5 * ((ms.drop 1).filter versionMember).length) = true ∧
  ((ms.any unitMember || ms.any acquiringMember) = true → s.t.vlive = true → s.t.unit.isSome = true ∧ s.t.save = none) ∧
  (ms.any acquiringMember = true → s.t.unit.isSome = true ∨ s.mayTake s.cur 0 = true ∨ s.mayTake s.cur 1 = true)

/-- The member of a convoy that comes next is latched: the convoy's length, the PC after it, and the member's raw bits. -/
def Sys2Proof.Claims.latched (s : State) (vs ms : List (BitVec 96)) (v : BitVec 96) : State :=
  { s with turn := .arbiter
           t := { s.t with stall := .none, convoyLen := ms.length, nextPc := pcAfter s.t.pc ms.length vs.length, ir := v } }

/-- A slot whose turn it is runs the instruction that its bytes decode to: the line of the PC is in the line buffer and well formed, the convoy that
starts at the PC is legal and can issue, the member of it that comes next decodes to `i`, and nothing comes before the member; then the step is `exec i`, and
time passes. A slot that the arbiter takes has its turn once its convoy is charged with its bank conflicts (R137; log 70), and the last one of a line, unless
it ends in a member that must stand last, has looked the next line up (R126). The line buffer is log 26. -/
def Obligations.StepRunsTheDecodedInstruction : Prop :=
  ∀ (s : State) (k : Task) (d : BitVec 512) (vs ms : List (BitVec 96)) (v : BitVec 96) (i : Instr),
    s.t.task = some k → k.translator = false → s.t.ending = false → s.t.preempt = false → s.t.pend = [] → s.t.stall = .none → s.t.skip = none →
    s.t.lineBuf = some (lineAddr s.t.pc, d) → lineValues d = some vs →
    (s.t.pc.extractLsb' 1 5).toNat < vs.length → convoyBad s.act vs (s.t.pc.extractLsb' 1 5).toNat = none →
    convoyOf (vs.drop (s.t.pc.extractLsb' 1 5).toNat) = some ms → ms[s.t.member]? = some v → decode s.act v = .instr i →
    (s.powered = true → s.turn = .slot s.cur → Ready (latched s vs ms v) (ms.drop s.t.member) →
      Machine.step s = elapse (exec i (latched s vs ms v))) ∧
    (∀ s0 s1 s2 : State, s0 = latched (s.modCore s.core fun k => { k with lastSlot := s.cur % 4 }) vs ms v → Ready s0 (ms.drop s.t.member) →
      s1 = (if s.t.freshIssue then s0.chargeBanks (ms.drop s.t.member) else s0) →
      s2 = (if s.t.freshIssue = true ∧ (s.t.pc.extractLsb' 1 5).toNat + ms.length = vs.length ∧ lastOnly s.act (ms.getLastD 0) = false
        then ((lookAhead (lineAddr s.t.pc + 64)).exec s1).2 else s1) →
      exec (.convoyIssue s.cur) s = .next { s2 with turn := .slot s.cur })

/-! ## Retirement, traps and the return from them -/

/-- A member that retires clears `vstart` outside a handler and is followed by the next member of its convoy, or after the last member by the PC that
sequential fetch reaches; inside a handler `vstart` stays (log 10). -/
def Obligations.RetirementMovesToTheNextMember : Prop :=
  ∀ s : State,
    (s.t.inh = false → s.retire.t.vstart = 0) ∧ (s.t.inh = true → s.retire.t.vstart = s.t.vstart) ∧
    (s.t.member + 1 < s.t.convoyLen → s.retire.t.pc = s.t.pc ∧ s.retire.t.member = s.t.member + 1 ∧ s.retire.turn = .slot s.cur) ∧
    (s.t.convoyLen ≤ s.t.member + 1 → s.retire.t.pc = s.t.nextPc ∧ s.retire.t.member = 0 ∧ s.retire.turn = .arbiter) ∧
    OnlyThread s s.retire ∧ s.retire.t = progress s.t s.retire.t

/-- Trap entry: the trap CSRs take the cause, the pc, the member and the fields of the cause; a synchronous cause with INH = 1, and any with `xvec` = 0, ends
the task, and its launch notes the first such cause; else PSUP takes SUP, SUP and INH become 1, SKIP 0, and the PC is `xvec`. A cause that names no element
leaves `vstart` where the member was issued with it: at 0, or at the resumption point of a member that is performed part by part. The registers, the vector unit and its state, the masks and gates, the tile map, the resident tiles and all memory stay. -/
def Obligations.TrapEntrySavesAndGoesToTheHandler : Prop :=
  ∀ (s t : State) (r : TrapRec) (async : Bool), t = s.trap r async →
    (s.t.inh = false → s.t.xvec ≠ 0 →
      t.t.xcause = (if async then 0x8000000000000000 else 0) ||| r.cause.code.setWidth 64 ∧
      t.t.xepc = s.t.pc ∧ t.t.xconvoy = word s.t.member ∧ t.t.xelem = r.xelem ∧ t.t.xaddr = r.xaddr ∧ t.t.xmask = r.xmask ∧
      t.t.vstart = r.vstart.getD (if s.t.partWise then s.t.vstart else 0) ∧
      t.t.psup = s.t.sup ∧ t.t.sup = true ∧ t.t.inh = true ∧ t.t.skipBit = false ∧ t.t.pc = s.t.xvec ∧ t.t.member = 0 ∧
      t.t.task = s.t.task ∧ t.t.regs = s.t.regs ∧ t.t.v = s.t.v ∧ t.t.q = s.t.q ∧ t.t.g = s.t.g ∧ t.t.cb = s.t.cb ∧ t.t.fcsr = s.t.fcsr ∧
      t.t.unit = s.t.unit ∧ t.t.vlive = s.t.vlive ∧ t.t.vl = s.t.vl ∧ t.t.vlr = s.t.vlr ∧ t.t.vtype = s.t.vtype ∧ t.t.streams = s.t.streams ∧
      t.t.tmapbase = s.t.tmapbase ∧ t.t.mapCache = s.t.mapCache ∧ (t.getCore s.core).sets = (s.getCore s.core).sets ∧ t.mem = s.mem) ∧
    ((s.t.inh = true ∧ async = false) ∨ s.t.xvec = 0 → t.t = Thread.reset ∧
      ∀ key l, s.t.launch = some key → s.launch? key = some l → (t.launch? key).map (·.cause) = some (some (l.cause.getD r.cause.code)))

/-- `ecall` and `brk` complete by taking their exceptions: the cause is theirs, `xaddr` holds the raw bits of the member, the handler is entered, and as
their own words have majors below 0x40, `vstart` is 0. -/
def Obligations.EcallAndBrkEnterTheHandler : Prop :=
  ∀ (i : Instr) (c : Cause) (s : State),
    (∃ code, (i = .ecall code ∧ c = .ecall) ∨ (i = .brk code ∧ c = .brk)) → s.t.inh = false → s.t.xvec ≠ 0 →
    ∃ t, exec i s = .next t ∧ t.t.xcause = c.code.setWidth 64 ∧ t.t.xaddr = s.t.ir.extractLsb' 0 64 ∧ t.t.xelem = 0 ∧ t.t.xmask = 0 ∧
      t.t.xepc = s.t.pc ∧ t.t.xconvoy = word s.t.member ∧ (majorOf s.t.ir < 0x40 → t.t.vstart = 0) ∧ t.t.psup = s.t.sup ∧ t.t.sup = true ∧ t.t.inh = true ∧
      t.t.pc = s.t.xvec ∧ t.t.regs = s.t.regs ∧ t.mem = s.mem

/-- The causes for which Table 9.1 honours SKIP. -/
def Sys2Proof.Claims.skipHonoured (c : Cause) : Bool :=
  [.illegal, .absent, .vtypeIllegal, .ecall, .brk, .addrFault, .pageFault, .memProt, .leaseFault, .memUe].contains c

/-- `eret` in a handler: SUP takes PSUP, INH and SKIP clear, and the thread goes on at member `xconvoy` of the convoy at `xepc`; with SKIP = 1 the skip of a
cause that honours it is noted, else none. Registers, `vstart` and memory stay.
A thread that traps and whose handler returns at once, without SKIP, stands again at the member that trapped, in the mode it had. -/
def Obligations.EretResumesWhereTheHandlerSays : Prop :=
  (∀ s : State, s.t.sup = true → s.t.inh = true →
     ∃ t, exec .eret s = .next t ∧ t.t.sup = s.t.psup ∧ t.t.inh = false ∧ t.t.skipBit = false ∧ t.t.pc = s.t.xepc ∧
       t.t.member = (s.t.xconvoy.extractLsb' 0 2).toNat ∧ t.t.vstart = s.t.vstart ∧ t.t.regs = s.t.regs ∧ t.t.xcause = s.t.xcause ∧
       t.mem = s.mem ∧
       ∀ c : Cause, s.t.xcause = c.code.setWidth 64 →
         t.t.skip = if s.t.skipBit && skipHonoured c then some { cause := c, elem := s.t.xelem.toNat, mask := s.t.xmask } else none) ∧
  (∀ (s : State) (r : TrapRec), s.t.inh = false → s.t.xvec ≠ 0 → s.t.member < 4 →
     ∃ t, exec .eret (s.trap r false) = .next t ∧ t.t.pc = s.t.pc ∧ t.t.member = s.t.member ∧ t.t.sup = s.t.sup ∧ t.t.inh = false ∧
       t.t.vstart = r.vstart.getD (if s.t.partWise then s.t.vstart else 0) ∧ t.t.regs = s.t.regs ∧ t.mem = s.mem)

/-! ## Scalar instructions -/

/-- The integer that a word holds as two's complement, and the word of an integer. -/
abbrev Sys2Proof.Claims.si (x : Word) : Int := x.toInt
def Sys2Proof.Claims.wi (n : Int) : Word := BitVec.ofInt 64 n

/-- The destination and the result of the instructions of Table 14.3, R321, R322 and R323, in the spec's own formulas; `reg` reads a scalar register. -/
def Sys2Proof.Claims.scalarResult (reg : SReg → Word) : Instr → Option (SReg × Word)
  | .add a b c => some (a, wi (si (reg b) + si (reg c)))
  | .sub a b c => some (a, wi (si (reg b) - si (reg c)))
  | .and a b c => some (a, reg b &&& reg c)
  | .or a b c => some (a, reg b ||| reg c)
  | .xor a b c => some (a, reg b ^^^ reg c)
  | .sll a b c => some (a, word ((reg b).toNat * 2 ^ ((reg c).toNat % 64)))
  | .srl a b c => some (a, word ((reg b).toNat / 2 ^ ((reg c).toNat % 64)))
  | .sra a b c => some (a, wi (si (reg b) / (2 ^ ((reg c).toNat % 64) : Nat)))
  | .slt a b c => some (a, if si (reg b) < si (reg c) then 1 else 0)
  | .sltu a b c => some (a, if (reg b).toNat < (reg c).toNat then 1 else 0)
  | .min a b c => some (a, wi (min (si (reg b)) (si (reg c))))
  | .max a b c => some (a, wi (max (si (reg b)) (si (reg c))))
  | .minu a b c => some (a, word (min (reg b).toNat (reg c).toNat))
  | .maxu a b c => some (a, word (max (reg b).toNat (reg c).toNat))
  | .mul a b c => some (a, wi (si (reg b) * si (reg c)))
  | .mulh a b c => some (a, wi (si (reg b) * si (reg c) / (2 ^ 64 : Nat)))
  | .mulhu a b c => some (a, word ((reg b).toNat * (reg c).toNat / 2 ^ 64))
  | .div a b c => some (a, if reg c = 0 then 0xFFFFFFFFFFFFFFFF else wi ((si (reg b)).tdiv (si (reg c))))
  | .divu a b c => some (a, if reg c = 0 then 0xFFFFFFFFFFFFFFFF else word ((reg b).toNat / (reg c).toNat))
  | .rem a b c => some (a, if reg c = 0 then reg b else wi (si (reg b) - (si (reg b)).tdiv (si (reg c)) * si (reg c)))
  | .remu a b c => some (a, if reg c = 0 then reg b else word ((reg b).toNat - (reg b).toNat / (reg c).toNat * (reg c).toNat))
  | .addi a b imm => some (a, wi (si (reg b) + imm.toInt))
  | .andi a b imm => some (a, reg b &&& wi imm.toInt)
  | .ori a b imm => some (a, reg b ||| wi imm.toInt)
  | .xori a b imm => some (a, reg b ^^^ wi imm.toInt)
  | .slli a b sh => some (a, word ((reg b).toNat * 2 ^ sh.toNat))
  | .srli a b sh => some (a, word ((reg b).toNat / 2 ^ sh.toNat))
  | .srai a b sh => some (a, wi (si (reg b) / (2 ^ sh.toNat : Nat)))
  | .slti a b imm => some (a, if si (reg b) < imm.toInt then 1 else 0)
  | .sltiu a b imm => some (a, if (reg b).toNat < (wi imm.toInt).toNat then 1 else 0)
  | .clz a b => some (a, word ((List.range 64).takeWhile fun i => !(reg b).getLsbD (63 - i)).length)
  | .ctz a b => some (a, word ((List.range 64).takeWhile fun i => !(reg b).getLsbD i).length)
  | .popc a b => some (a, word ((List.range 64).filter fun i => (reg b).getLsbD i).length)
  | .addw a b c => some (a, ((BitVec.ofInt 32 (si (reg b) + si (reg c))).toInt |> wi))
  | .li a lit => some (a, wi lit.toInt)
  | .lih a b lit => some (a, word (lit.toNat * 2 ^ 32 + (reg b).toNat % 2 ^ 32))
  | _ => none

/-- Every register, immediate, bit and literal instruction completes in every state: its destination takes the result of Table 14.3, R321, R322 or R323, a
destination s0 takes nothing, and nothing else changes but what retirement moves. -/
def Obligations.ScalarResultsAreThoseOfTheTable : Prop :=
  ∀ (i : Instr) (s : State) (a : SReg) (r : Word), scalarResult s.t.reg i = some (a, r) →
    ∃ t, exec i s = .next t ∧ t.t.reg a = (if a = 0 then 0 else r) ∧ SameRegsBut a s.t t.t ∧ OnlyRegs s.t t.t ∧ OnlyThread s t ∧
      t.t.pc = s.retire.t.pc ∧ t.t.member = s.retire.t.member ∧ t.turn = s.retire.turn

/-- The destination, the result and the flags of the scalar FP32 instructions: the operation on bits [31:0] of the operands under the rounding mode of `fcsr`, for
`fcvt` between two different formats of which at most one is an integer, and for `fcmp` the predicates equal, less, less or equal, unordered. -/
def Sys2Proof.Claims.scalarFpResult (t : Thread) : Instr → Option (SReg × Word × Word)
  | .fadd a b c => let r := fp32.add (rmOf t.fcsr) (x b) (x c); some (a, word r.1, r.2)
  | .fsub a b c => let r := fp32.sub (rmOf t.fcsr) (x b) (x c); some (a, word r.1, r.2)
  | .fmul a b c => let r := fp32.mul (rmOf t.fcsr) (x b) (x c); some (a, word r.1, r.2)
  | .fdiv a b c => let r := fp32.div (rmOf t.fcsr) (x b) (x c); some (a, word r.1, r.2)
  | .fma a b c d => let r := fp32.fma (rmOf t.fcsr) (x b) (x c) (x d); some (a, word r.1, r.2)
  | .fsqrt a b => let r := fp32.sqrt (rmOf t.fcsr) (x b); some (a, word r.1, r.2)
  | .fcvt a b dst src =>
    let r := cvtResult (rmOf t.fcsr) dst (cvtSource src (t.reg b))
    if dst.toNat ≤ 6 ∧ src.toNat ≤ 6 ∧ dst ≠ src ∧ (dst.toNat ≤ 2 ∨ src.toNat ≤ 2) then some (a, r.1, r.2) else none
  | .fcmp a b c p =>
    let k := match p.toNat with
      | 0 => 0
      | 1 => 2
      | 2 => 4
      | _ => 6
    some (a, if fpredicate k (x b) (x c) then 1 else 0, fpredFlags k (x b) (x c))
  | _ => none
where
  /-- bits [31:0] of a register as an FP32 value -/
  x (b : SReg) : FVal := fp32.decode ((t.reg b).toNat % 2 ^ 32)

/-- The scalar FP32 instructions complete in every state: the destination takes the result, the flags accrue into `fcsr`, and nothing else changes but what
retirement moves. An `fcvt` with a code from 7 on, with the same code twice or with two integer codes raises ILLEGAL. -/
def Obligations.ScalarFpWritesResultAndAccruesFlags : Prop :=
  (∀ (i : Instr) (s : State) (a : SReg) (r fl : Word), scalarFpResult s.t i = some (a, r, fl) →
    ∃ t, exec i s = .next t ∧ t.t.reg a = (if a = 0 then 0 else r) ∧ t.t.fcsr = s.t.fcsr ||| fl ∧ SameRegsBut a s.t t.t ∧ OnlyThread s t ∧
      t.t = { progress s.t t.t with regs := t.t.regs, fcsr := t.t.fcsr }) ∧
  ∀ (s : State) (a b : SReg) (dst src : BitVec 4), 7 ≤ dst.toNat ∨ 7 ≤ src.toNat ∨ dst = src ∨ (3 ≤ dst.toNat ∧ 3 ≤ src.toNat) →
    exec (.fcvt a b dst src) s = .next (s.trap { cause := .illegal, xaddr := s.raw, xelem := word s.rawHigh, xmask := 0, vstart := none } false)

/-! ## Branches and jumps -/

/-- Whether the condition of a conditional branch holds, with its target fields (R327). -/
def Sys2Proof.Claims.branchTaken (reg : SReg → Word) : Instr → Option (Bool × BitVec 27 × BitVec 5)
  | .beq b c l h => some (reg b == reg c, l, h)
  | .bne b c l h => some (reg b != reg c, l, h)
  | .blt b c l h => some (decide ((reg b).toInt < (reg c).toInt), l, h)
  | .bge b c l h => some (decide ((reg c).toInt ≤ (reg b).toInt), l, h)
  | .bltu b c l h => some (decide ((reg b).toNat < (reg c).toNat), l, h)
  | .bgeu b c l h => some (decide ((reg c).toNat ≤ (reg b).toNat), l, h)
  | _ => none

/-- The target of R282 from the branch's own PC: its line, LOFF lines and HIDX heads on. -/
def Sys2Proof.Claims.targetOf (pc : Word) (loff : BitVec 27) (hidx : BitVec 5) : Word :=
  word (64 * (pc.toNat / 64)) + wi (64 * loff.toInt) + word (2 * hidx.toNat)

/-- A conditional branch that stands last in its convoy completes: when its condition holds the thread goes on at the target of R282, else at the PC after the
convoy; no register and no memory changes.
`jal` and `jalr` that stand last in their convoy complete: the link register takes the PC after the convoy (s0 takes nothing), and the thread goes on at the target; `jalr`
reads its base before the link is written and ignores bit 0 of the target. -/
def Obligations.BranchesAndJumpsGoToTheirTargets : Prop :=
  (∀ (i : Instr) (s : State) (c : Bool) (l : BitVec 27) (h : BitVec 5), branchTaken s.t.reg i = some (c, l, h) →
     s.t.convoyLen ≤ s.t.member + 1 →
     ∃ t, exec i s = .next t ∧
       t.t.pc = (if c then targetOf (s.t.pc + word (2 * s.t.member)) l h else s.t.nextPc) ∧ t.t.member = 0 ∧
       t.t.regs = s.t.regs ∧ t.t.fcsr = s.t.fcsr ∧ OnlyThread s t) ∧
  (∀ s : State, s.t.convoyLen ≤ s.t.member + 1 →
     (∀ a l h, ∃ t, exec (.jal a l h) s = .next t ∧ t.t.pc = targetOf (s.t.pc + word (2 * s.t.member)) l h ∧ t.t.member = 0 ∧
       t.t.reg a = (if a = 0 then 0 else s.t.nextPc) ∧ SameRegsBut a s.t t.t ∧ OnlyThread s t) ∧
     (∀ a b imm, ∃ t, exec (.jalr a b imm) s = .next t ∧ t.t.pc = (s.t.reg b + wi imm.toInt) &&& ~~~1 ∧ t.t.member = 0 ∧
       t.t.reg a = (if a = 0 then 0 else s.t.nextPc) ∧ SameRegsBut a s.t t.t ∧ OnlyThread s t))

/-! ## Control and status registers -/

/-- Numbers of Table 11.2 that user mode reads, beside `cpgo`, whose read is the row CSRR_CPGO. -/
def Sys2Proof.Claims.userReads : List Nat :=
  [0x001, 0x010, 0x011, 0x012, 0x013, 0x014, 0x020, 0x021, 0x030, 0x040, 0x080, 0x081, 0x082, 0x083] ++
    (List.range 10).flatMap fun i => [0x090 + i, 0x0A0 + i, 0x0B0 + i]
/-- Numbers that only supervisor mode reads and writes. -/
def Sys2Proof.Claims.supervisorOnly : List Nat := [0x041, 0x100, 0x101, 0x102, 0x103, 0x104, 0x105, 0x106, 0x107, 0x108]
/-- Numbers that user mode writes, and those that supervisor mode writes beside them. -/
def Sys2Proof.Claims.userWrites : List Nat :=
  [0x001, 0x080, 0x081, 0x082, 0x083] ++ (List.range 10).flatMap fun i => [0x090 + i, 0x0A0 + i, 0x0B0 + i]
def Sys2Proof.Claims.supervisorWrites : List Nat := supervisorOnly ++ [0x010, 0x011, 0x012, 0x013, 0x014]
def Sys2Proof.Claims.mayRead (sup : Bool) (n : Nat) : Bool := userReads.contains n || (sup && supervisorOnly.contains n)
def Sys2Proof.Claims.mayWrite (sup : Bool) (n : Nat) : Bool := userWrites.contains n || (sup && supervisorWrites.contains n)

/-- The value that a CSR written with `v` holds: reserved fields are discarded, `fcsr` keeps SUBST in user mode, bit 0 of `xepc` and `xvec` is 0, and SUP and PEND of
`xstatus` are read-only. -/
def Sys2Proof.Claims.written (s : State) (n : Nat) (v : Word) : Word :=
  match n with
  | 0x001 => if s.t.sup then v &&& 0x7F03 else (v &&& 0x3F03) ||| (s.t.fcsr &&& 0x4000)
  | 0x012 => v &&& 0x7F
  | 0x014 => v &&& 0x7F7F7F
  | 0x082 => v &&& 0xFD000F
  | 0x083 => v &&& 0xFC00000000000000
  | 0x100 => v &&& 0x800000000000FFFF
  | 0x101 | 0x107 => v &&& ~~~1
  | 0x102 => v &&& 3
  | 0x106 => (v &&& 0x66) ||| (s.csr 0x106 &&& 0x81)
  | _ => v

/-- The number, the value to write and the kind of a CSR write. -/
def Sys2Proof.Claims.csrWriteOf (s : State) : Instr → Option (Nat × Word)
  | .csrw b csr => some (csr.toNat, s.t.reg b)
  | .csrs b csr => some (csr.toNat, s.csr csr.toNat ||| s.t.reg b)
  | .csrc b csr => some (csr.toNat, s.csr csr.toNat &&& ~~~(s.t.reg b))
  | _ => none

/-- `csrr` of a CSR that the mode may read completes: A takes the CSR, and nothing else changes but what retirement moves.
`csrw`, `csrs` and `csrc` of a CSR that the mode may write complete: the CSR takes the value written, the value with the bits of B set, or with them cleared, without
its reserved fields; every other CSR of the thread but `vstart`, every scalar register and all memory stay. `tmaprx`, whose writes register receivers, and a
write that sets NTF, which moves notifications, have statements of their own.
A write of NTF that sets it: it is cleared in every other bound thread of the partition, and the partition's waiting notifications leave its control page. -/
def Obligations.CsrAccessesReadAndWriteTheRegister : Prop :=
  (∀ (a : SReg) (csr : BitVec 12) (s : State), mayRead s.t.sup csr.toNat = true →
     ∃ t, exec (.csrr a csr) s = .next t ∧ t.t.reg a = (if a = 0 then 0 else s.csr csr.toNat) ∧ SameRegsBut a s.t t.t ∧ OnlyRegs s.t t.t ∧
       OnlyThread s t) ∧
  (∀ (i : Instr) (s : State) (n : Nat) (v : Word), csrWriteOf s i = some (n, v) → mayWrite s.t.sup n = true → n ≠ 0x041 → n ≠ 0x013 →
     (n = 0x106 → v.getLsbD 6 = true → s.t.ntf = true) →
     ∃ t, exec i s = .next t ∧ t.csr n = written s n v ∧ t.t.regs = s.t.regs ∧ t.t.sup = s.t.sup ∧
       (∀ m ∈ userReads ++ supervisorOnly, m ≠ n → m ≠ 0x013 → t.csr m = s.csr m) ∧ OnlyThread s t) ∧
  (∀ (b : SReg) (s : State) (tid : Nat), s.t.sup = true → s.t.ntf = false → (s.t.reg b).getLsbD 6 = true → (s.parts.map (·.id)).Nodup →
     ∃ t, exec (.csrw b 0x106) s = .next t ∧ t.t.ntf = true ∧
       (tid ≠ s.cur → (s.thread tid).task.isSome = true → (s.thread tid).part = s.t.part → (t.thread tid).ntf = false) ∧
       (∀ p, t.part? s.t.part = some p → p.notifs = []))

/-- Instructions and CSR accesses that only supervisor mode may run raise ILLEGAL in user mode, with no other effect than the entry: `eret`, `tmsw`, `tlbinv`, and
reads and writes of the trap CSRs, `tmaprx`; so does `eret` of a supervisor outside a handler (R341). A member that is performed part by part keeps its
resumption point.
A CSR access that Table 11.2 does not allow raises ILLEGAL at its member, with its raw bits in `xaddr` and `xelem`, and nothing of it is done: a number that is not in the table, a
write of a CSR that the mode may only read, an access in user mode to a CSR of the supervisor. -/
def Obligations.WhatTheModeForbidsRaisesIllegal : Prop :=
  (∀ (i : Instr) (s : State), s.t.inh = false → s.t.xvec ≠ 0 →
     (i = .eret ∨ s.t.sup = false ∧ ((∃ b e, i = .tmsw b e) ∨ (∃ kind b c, i = .tlbinv kind b c) ∨
       (∃ a csr, csr.toNat ∈ [0x041, 0x100, 0x101, 0x102, 0x103, 0x104, 0x105, 0x106, 0x107, 0x108] ∧
         (i = .csrr a csr ∨ i = .csrw a csr ∨ i = .csrs a csr ∨ i = .csrc a csr)) ∨ (∃ op b, i = .tmaprxWrite op b))) →
     exec i s = .next (s.trap { cause := .illegal, xaddr := s.raw, xelem := word s.rawHigh, xmask := 0, vstart := none } false)) ∧
  (∀ (i : Instr) (s : State),
     ((∃ a csr, i = .csrr a csr ∧ csr ≠ 0x084 ∧ mayRead s.t.sup csr.toNat = false) ∨
       (∃ n v, csrWriteOf s i = some (n, v) ∧ mayWrite s.t.sup n = false)) →
     exec i s = .next (s.trap { cause := .illegal, xaddr := s.raw, xelem := word s.rawHigh, xmask := 0, vstart := none } false))

/-! ## Sleep, halt, map switch -/

/-- `sleep` whose deadline the tick has reached, or for which a cause is pending, retires; any other waits on its deadline, and the thread is not changed otherwise.
`halt` of a thread whose sends are answered and whose transfers are complete ends its task when no cause is pending: the slot is as at reset. While a send is
not answered, or a transfer is in progress (log 21), it waits, and changes nothing else of the thread; then it ends in the same way when HALT_DRAINED comes.
`tmsw` in supervisor mode to no map, from no map: `tmapbase` is 0 and the map cache is empty; a base that is not a multiple of 16 MiB raises TMAP_FAULT with the base in
`xaddr` and, which the model chooses, `xelem` 0 (log 24). A switch from a map of whose versions none has to be spilled writes the changed groups of its map
cache back first; where one cannot be written TMAP_FAULT is raised at its address. -/
def Obligations.SleepHaltAndMapSwitchComplete : Prop :=
  (∀ (a : SReg) (s : State),
     ((s.t.reg a).toNat ≤ s.tick.toNat ∨ s.t.pend ≠ [] → exec (.sleep a) s = .next s.retire) ∧
     (s.tick.toNat < (s.t.reg a).toNat → s.t.pend = [] →
       ∃ t, exec (.sleep a) s = .next t ∧ t.t = { s.t with stall := .sleep (s.t.reg a), resumed := false } ∧ t.mem = s.mem) ∧
     (∀ d, s.t.stall = .sleep d → d.toNat ≤ s.tick.toNat → exec (.sleepEnd s.cur) s = .next s.retire)) ∧
  (∀ s : State,
     (s.t.pend = [] → s.drained s.cur = true →
       (∃ t, exec .halt s = .next t ∧ t.t = Thread.reset ∧ t.cur = s.cur) ∧
       (s.t.stall = .halt → ∃ t, exec (.haltDrained s.cur) s = .next t ∧ t.t = Thread.reset ∧ t.cur = s.cur)) ∧
     ((∃ x ∈ s.t.transfers, x.status = 0) → ∃ t, exec .halt s = .next t ∧ t.t = { s.t with stall := .halt } ∧ t.mem = s.mem)) ∧
  (∀ (b : SReg) (e : Bool) (s : State), s.t.sup = true →
     (s.t.reg b = 0 → s.t.tmapbase = 0 →
       ∃ t, exec (.tmsw b e) s = .next t ∧ t.t.tmapbase = 0 ∧ t.t.mapCache = [] ∧ t.t.regs = s.t.regs ∧ t.mem = s.mem) ∧
     (s.t.tmapbase = 0 → (s.t.reg b).extractLsb' 0 24 = 0 →
       (∀ j < 4, 4 * s.core + j ≠ s.cur → (s.thread (4 * s.core + j)).task = none) →
       ∃ t, exec (.tmsw b e) s = .next t ∧ t.t.tmapbase = s.t.reg b ∧ t.t.mapCache = [] ∧ t.t.regs = s.t.regs ∧ t.mem = s.mem) ∧
     (∀ s1 : State, s.t.tmapbase ≠ 0 → (s.t.reg b).extractLsb' 0 24 = 0 →
       (∀ j < 4, 4 * s.core + j ≠ s.cur → (s.thread (4 * s.core + j)).task = none) →
       (∀ k ∈ (s.getCore s.core).acc, k.ctx ≠ s.t.ctx) → (e = true → ∀ x ∈ (s.getCore s.core).sets, x.ctx ≠ s.t.ctx) →
       ((writeBackFirst s.t.changedGroups).exec s = (.ok none, s1) →
         ∃ t, exec (.tmsw b e) s = .next t ∧ t.t.tmapbase = s.t.reg b ∧ t.t.mapCache = [] ∧ t.t.regs = s1.t.regs ∧ t.mem = s1.mem) ∧
       (∀ va, (writeBackFirst s.t.changedGroups).exec s = (.ok (some va), s1) →
         exec (.tmsw b e) s = .next (s1.trap { cause := .tmapFault, xaddr := va, xelem := 0, xmask := 0, vstart := none } false))) ∧
     ((s.t.reg b).extractLsb' 0 24 ≠ 0 →
       exec (.tmsw b e) s =
         .next (s.trap { cause := .tmapFault, xaddr := s.t.reg b, xelem := 0, xmask := 0, vstart := none } false)))

/-! ## Loads and stores -/

/-- A byte of HBM or of a scratchpad, and the key of memory under which it lies. -/
def Sys2Proof.Claims.plainPlace : Place → Bool
  | .hbm _ _ _ | .spad _ => true
  | _ => false
def Sys2Proof.Claims.keyOf : Place → Nat
  | .hbm pa _ _ => pa
  | .spad key => key
  | _ => 0

/-- `n` bytes from `ad` on may be accessed and lie in HBM or a scratchpad: their places, and the state once the TLBs have been consulted. -/
def Sys2Proof.Claims.Accessible (s : State) (ad : Word) (n : Nat) (acc : Acc) (ps : List Place) (s1 : State) : Prop :=
  (places ad n acc).run s = (.ok ps, s1) ∧ ps.all plainPlace = true

/-- The bytes that a load of places takes once their lines have been touched, and the number that they hold, the lowest byte at the lowest address. -/
def Sys2Proof.Claims.loaded (ps : List Place) (s1 : State) : Nat := leNat (ps.map (touchAll ps none s1).byteAt)
/-- None of the bytes is poisoned. -/
def Sys2Proof.Claims.Clean (ps : List Place) (s1 : State) : Prop := ∀ p ∈ ps, (touchAll ps none s1).poisonAt p = false

/-- Sign or zero extension of `n` bytes (Table 14.5). -/
def Sys2Proof.Claims.extended (signed : Bool) (n x : Nat) : Word :=
  if signed && decide (2 ^ (8 * n - 1) ≤ x) then word x - word (2 ^ (8 * n)) else word x

/-- A thread after an access to a DEV page has been placed: it keeps no vector that its streams loaded ahead (R208). -/
def Sys2Proof.Claims.afterDev (ps : List Place) (t : Thread) : Thread :=
  if ps.any Place.device then { t with streams := t.streams.map fun st => { st with ahead := [] } } else t

/-- Extension, size and operands of the loads of Table 14.5. -/
def Sys2Proof.Claims.loadOf : Instr → Option (Bool × Nat × SReg × SReg × BitVec 10)
  | .ldb a b i => some (true, 1, a, b, i)
  | .ldbu a b i => some (false, 1, a, b, i)
  | .ldh a b i => some (true, 2, a, b, i)
  | .ldhu a b i => some (false, 2, a, b, i)
  | .ldw a b i => some (true, 4, a, b, i)
  | .ldwu a b i => some (false, 4, a, b, i)
  | .ldd a b i => some (false, 8, a, b, i)
  | _ => none

/-- Size and operands of the stores. -/
def Sys2Proof.Claims.storeOf : Instr → Option (Nat × SReg × SReg × BitVec 10)
  | .stb a b i => some (1, a, b, i)
  | .sth a b i => some (2, a, b, i)
  | .stw a b i => some (4, a, b, i)
  | .std a b i => some (8, a, b, i)
  | _ => none

/-- The access of a load or store: a DEV page may be reached by eight aligned bytes (R332). -/
def Sys2Proof.Claims.accOf (acc : Acc) (ad : Word) (n : Nat) : Acc := { acc with dev := n == 8 && ad.toNat % 8 == 0 }

/-- A load whose bytes may be read and are not poisoned completes: A takes the extension of the bytes at s[B] + sext(IMM), and no other scalar register and no byte of memory
changes; an access to a DEV page leaves no vector loaded ahead of it (R208).
A load from the thread's own scratchpad window: the bytes are those of the core's scratchpad from the task's allocation on, and nothing but the destination and what
retirement moves changes. -/
def Obligations.LoadsTakeTheBytesAtTheAddress : Prop :=
  (∀ (i : Instr) (sg : Bool) (n : Nat) (a b : SReg) (imm : BitVec 10) (s s1 : State) (ps : List Place),
     loadOf i = some (sg, n, a, b, imm) → s.t.skip = none →
     Accessible s (s.t.reg b + wi imm.toInt) n (accOf accLoad (s.t.reg b + wi imm.toInt) n) ps s1 →
     ∀ s2 : State, s2 = { s1 with t := afterDev ps s1.t } → Clean ps s2 →
     ∃ t, exec i s = .next t ∧ t.t.reg a = (if a = 0 then 0 else extended sg n (loaded ps s2)) ∧ SameRegsBut a s.t t.t ∧
       OnlyRegs (afterDev ps s.t) t.t ∧ SameMemory s t) ∧
  (∀ (i : Instr) (sg : Bool) (n off : Nat) (a b : SReg) (imm : BitVec 10) (s : State) (k : Task),
     loadOf i = some (sg, n, a, b, imm) → s.t.skip = none → s.t.task = some k → off + n ≤ k.spadu * 4096 → off + n ≤ 2 ^ 56 →
     s.t.reg b + wi imm.toInt = 0xFF00000000000000 + word off →
     (∀ j < n, s.poison.contains ((spadKey s.core (k.spadBase + off) + j) / 8) = false) →
     ∃ t, exec i s = .next t ∧
       t.t.reg a = (if a = 0 then 0 else extended sg n (leNat (memReadN s.mem (spadKey s.core (k.spadBase + off)) n))) ∧
       SameRegsBut a s.t t.t ∧ OnlyRegs s.t t.t ∧ OnlyThread s t)

/-- A store whose bytes may be written completes: byte j of A lies at the place of the j-th byte of s[B] + sext(IMM), every byte outside those places reads as before, and no
scalar register changes. The premise on memory is its canonical form.
What a store put into the thread's own window, a load of the same size from the same address takes, extended: the store and the load both complete. -/
def Obligations.StoresPutTheLowBytesAtTheAddress : Prop :=
  (∀ (i : Instr) (n : Nat) (a b : SReg) (imm : BitVec 10) (s s1 : State) (ps : List Place),
     storeOf i = some (n, a, b, imm) → s.t.skip = none → memWf s.mem = true →
     Accessible s (s.t.reg b + wi imm.toInt) n (accOf accStore (s.t.reg b + wi imm.toInt) n) ps s1 → (ps.map keyOf).Nodup →
     ∃ t, exec i s = .next t ∧ (∀ j p, ps[j]? = some p → memRead t.mem (keyOf p) = (s.t.reg a).extractLsb' (8 * j) 8) ∧
       (∀ x, x ∉ ps.map keyOf → memRead t.mem x = memRead s.mem x) ∧ t.t.regs = s.t.regs ∧ t.t.fcsr = s.t.fcsr ∧ t.t.pc = s.retire.t.pc ∧
       memWf t.mem = true) ∧
  (∀ (i j : Instr) (n off : Nat) (sg : Bool) (a a' b : SReg) (imm : BitVec 10) (s : State) (k : Task),
     storeOf i = some (n, a, b, imm) → loadOf j = some (sg, n, a', b, imm) → a' ≠ 0 → s.t.skip = none → s.t.task = some k →
     off + n ≤ k.spadu * 4096 → off + n ≤ 2 ^ 56 → s.t.reg b + wi imm.toInt = 0xFF00000000000000 + word off →
     memWf s.mem = true → s.poison = [] →
     ∃ t u, exec i s = .next t ∧ exec j t = .next u ∧ u.t.reg a' = extended sg n ((s.t.reg a).toNat % 2 ^ (8 * n)) ∧
       SameMemoryBut (spadKey s.core (k.spadBase + off)) n s u ∧ SameRegsBut a' s.t u.t)

/-! ## Atomics -/

/-- The operation of an `amo` on `w`-bit values, in the formulas of R334; none for a compare that fails. -/
def Sys2Proof.Claims.amoNew (t : Thread) (w old v : Nat) : Instr → Option Nat
  | .amoAdd _ _ _ _ _ _ => some ((old + v) % 2 ^ w)
  | .amoAnd _ _ _ _ _ _ => some (old &&& v)
  | .amoOr _ _ _ _ _ _ => some (old ||| v)
  | .amoXor _ _ _ _ _ _ => some (old ^^^ v)
  | .amoMin _ _ _ _ _ _ => some (if signedOf w v < signedOf w old then v else old)
  | .amoMax _ _ _ _ _ _ => some (if signedOf w old < signedOf w v then v else old)
  | .amoMinu _ _ _ _ _ _ => some (min old v)
  | .amoMaxu _ _ _ _ _ _ => some (max old v)
  | .amoSwap _ _ _ _ _ _ => some v
  | .amoCas _ _ _ d _ _ _ => if old = (t.reg d).toNat % 2 ^ w then some v else none
  | _ => none

/-- Operands of an `amo`: destination, base, operand, scope, whether it is of 8 bytes, offset. -/
def Sys2Proof.Claims.amoOf : Instr → Option (SReg × SReg × SReg × Scope × Bool × BitVec 14)
  | .amoAdd a b c sc w o | .amoAnd a b c sc w o | .amoOr a b c sc w o | .amoXor a b c sc w o | .amoMin a b c sc w o | .amoMax a b c sc w o
  | .amoMinu a b c sc w o | .amoMaxu a b c sc w o | .amoSwap a b c sc w o | .amoCas a b c _ sc w o => some (a, b, c, sc, w, o)
  | _ => none

/-- The release of an operation at a scope is done: at `.x` or wider the leased lines that the thread has cached left L2, and every leased write of it has been
acknowledged (R52, R227). -/
def Sys2Proof.Claims.released (s : State) (sc : Scope) (s0 : State) : Prop :=
  s0 = s.syncLease s.t.uid sc ∧ (farScope sc = true → s0.writesOut (some s.t.uid) none = false)

/-- An aligned `amo` on bytes that may be written and are not poisoned where they are serialised completes once its release is done: A takes the old value of memory sign-extended, the bytes take the new one, or nothing when a
compare fails, and every other byte and register stays.
`ld.acq` and `st.rel` at an aligned accessible address complete once the thread's leased writes before them have been acknowledged: the first takes the bytes sign-extended once the acquire has dropped what the core held, the second
stores the low bytes of C and writes no register. -/
def Obligations.AtomicsAcquireAndReleaseComplete : Prop :=
  (∀ (i : Instr) (a b c : SReg) (sc : Scope) (wide : Bool) (o : BitVec 14) (s s0 s1 : State) (ps : List Place) (n : Nat),
     amoOf i = some (a, b, c, sc, wide, o) → n = (if wide then 8 else 4) → s.t.skip = none → memWf s.mem = true →
     (s.t.reg b + wi o.toInt).toNat % n = 0 → released s sc s0 → Accessible s0 (s.t.reg b + wi o.toInt) n accStore ps s1 → (ps.map keyOf).Nodup →
     (∀ p ∈ ps, (s1.atHome (ps.head?.bind Place.line?)).homeBad p = false) →
     ∃ t old, exec i s = .next t ∧ old = leNat (ps.map fun p => memRead s.mem (keyOf p)) ∧
       t.t.reg a = (if a = 0 then 0 else extended true n old) ∧ SameRegsBut a s.t t.t ∧
       (∀ j p, ps[j]? = some p → memRead t.mem (keyOf p) =
         match amoNew s.t (8 * n) old ((s.t.reg c).toNat % 2 ^ (8 * n)) i with
         | some x => BitVec.ofNat 8 (x / 2 ^ (8 * j))
         | none => memRead s.mem (keyOf p)) ∧
       (∀ x, x ∉ ps.map keyOf → memRead t.mem x = memRead s.mem x)) ∧
  (∀ (a b c : SReg) (sc : Scope) (size : BitVec 2) (o : BitVec 14) (s s0 s1 : State) (ps : List Place) (n : Nat) (ad : Word),
     n = 2 ^ size.toNat → ad = s.t.reg b + wi o.toInt → ad.toNat % n = 0 → s.t.skip = none → memWf s.mem = true →
     (Accessible s ad n (accOf accLoad ad n) ps s1 → released s1 sc s0 → Clean ps (s0.acquire sc) →
       ∃ t, exec (.ldAcq a b sc size o) s = .next t ∧ t.t.reg a = (if a = 0 then 0 else extended true n (loaded ps (s0.acquire sc))) ∧
         SameRegsBut a s.t t.t ∧ SameMemory s t) ∧
     (released s sc s0 → Accessible s0 ad n (accOf accStore ad n) ps s1 → (ps.map keyOf).Nodup →
       ∃ t, exec (.stRel b c sc size o) s = .next t ∧ t.t.regs = s.t.regs ∧
         (∀ j p, ps[j]? = some p → memRead t.mem (keyOf p) = (s.t.reg c).extractLsb' (8 * j) 8) ∧
         (∀ x, x ∉ ps.map keyOf → memRead t.mem x = memRead s.mem x)))

/-- A load or store whose lowest refused byte is byte `j` traps there with the cause of the refusal: `xaddr` is that byte's address, `xelem` 0 and `xmask` 1; no register
and no byte of memory is written.
In skip mode a load writes `xscratch` whole to A and a store writes nothing; both complete without access.
An atomic, `ld.acq` or `st.rel` whose address is not a multiple of its size raises ADDR_FAULT at the address. -/
def Obligations.RefusedAccessesTrapOrAreSkipped : Prop :=
  (∀ (i : Instr) (n j : Nat) (b : SReg) (imm : BitVec 10) (c : Cause) (s s1 : State) (acc : Acc),
     ((∃ sg a, loadOf i = some (sg, n, a, b, imm) ∧ acc = accLoad) ∨ (∃ a, storeOf i = some (n, a, b, imm) ∧ acc = accStore)) →
     s.t.skip = none →
     (places (s.t.reg b + wi imm.toInt) n (accOf acc (s.t.reg b + wi imm.toInt) n)).run s = (.error (j, c), s1) →
     exec i s = .next (s1.trap { cause := c, xaddr := s.t.reg b + wi imm.toInt + word j, xelem := 0, xmask := 1, vstart := some 0 } false) ∧
       s1.t = s.t ∧ s1.mem = s.mem) ∧
  (∀ (i : Instr) (s : State), s.t.skips 0 = true →
     (∀ sg n a b imm, loadOf i = some (sg, n, a, b, imm) → exec i s = .next (s.modT fun t => t.setReg a t.xscratch).retire) ∧
     (∀ n a b imm, storeOf i = some (n, a, b, imm) → exec i s = .next s.retire)) ∧
  (∀ (i : Instr) (s : State) (n : Nat) (ad : Word), s.t.skip = none →
     ((∃ a b c sc wide o, amoOf i = some (a, b, c, sc, wide, o) ∧ n = (if wide then 8 else 4) ∧ ad = s.t.reg b + wi o.toInt) ∨
       (∃ a b sc size o, i = .ldAcq a b sc size o ∧ n = 2 ^ size.toNat ∧ ad = s.t.reg b + wi o.toInt) ∨
       (∃ b c sc size o, i = .stRel b c sc size o ∧ n = 2 ^ size.toNat ∧ ad = s.t.reg b + wi o.toInt)) →
     ad.toNat % n ≠ 0 →
     exec i s = .next (s.trap { cause := .addrFault, xaddr := ad, xelem := 0, xmask := 1, vstart := none } false))

/-! ## Fences, barriers, waits, hints, maintenance -/

/-- No scalar register of the thread in hand and no byte of memory changes. -/
def Sys2Proof.Claims.Quiet (s t : State) : Prop := t.t.regs = s.t.regs ∧ SameMemory s t

/-- A fence that need not wait completes: its scope is `.t` or `.c`, or every store of the thread is acknowledged, and at `.x` or wider every leased write too (R227); one that
waited completes at FENCE_DONE. Then at `.h` or wider no store of the thread is unacknowledged and the core's L1 holds no line; at `.t` and `.c`, which wait for no
acknowledgement (Table 8.4), what is unacknowledged stays so. A fence that must wait waits.
`bar f0` completes at once; `bar fN` above the stage's BARF raises BAR_RANGE with N in `xelem`; the `bar` of the last member of an instance to arrive completes, and one that is
not the last waits; BARRIER_COMPLETE completes a waiting one once every member has arrived. An arrival is a release: at a scope of `.x` or wider it first waits for the
thread's leased writes (R227). -/
def Obligations.FencesAndBarriersComplete : Prop :=
  (∀ (sc : Scope) (s s0 : State), s0 = s.syncLease s.t.uid sc →
     ((sc = .t ∨ sc = .c ∨ s.t.stored = false) → s0.linksOut sc = false →
       ∃ t, exec (.fence sc) s = .next t ∧ (sc = .t ∨ sc = .c → t.t.stored = s.t.stored) ∧
         (sc ≠ .t → sc ≠ .c → t.t.stored = false ∧ (t.getCore s.core).l1 = []) ∧ t.t.pc = s.retire.t.pc ∧ Quiet s t) ∧
     ((sc ≠ .t ∧ sc ≠ .c ∧ s.t.stored = true) ∨ s0.linksOut sc = true →
       ∃ t, exec (.fence sc) s = .next t ∧ t.t = { s.t with stall := .fence sc } ∧ Quiet s t) ∧
     (s.t.stall = .fence sc → s.linksOut sc = false →
       ∃ t, exec (.fenceDone s.cur) s = .next t ∧ t.t.stall = .none ∧ (sc = .t ∨ sc = .c → t.t.stored = s.t.stored) ∧
         (sc ≠ .t → sc ≠ .c → t.t.stored = false ∧ (t.getCore s.core).l1 = []) ∧ Quiet s t)) ∧
  (∀ (n : BitVec 3) (s s0 : State) (k : Task) (st : Stage), s.t.task = some k → s.stageHere = some st → s0 = s.syncLease s.t.uid (s.barScope k n.toNat) →
     (∃ t, exec (.bar 0) s = .next t ∧ t.t.pc = s.retire.t.pc ∧ Quiet s t) ∧
     (st.barf < n.toNat →
       exec (.bar n) s = .next (s.trap { cause := .barRange, xaddr := 0, xelem := word n.toNat, xmask := 0, vstart := none } false)) ∧
     (n ≠ 0 → n.toNat ≤ st.barf → s0.linksOut (s.barScope k n.toNat) = true →
       ∃ t, exec (.bar n) s = .next t ∧ t.t = { s.t with stall := .links none } ∧ Quiet s t) ∧
     (n ≠ 0 → n.toNat ≤ st.barf → s0.linksOut (s.barScope k n.toNat) = false → s.barFull k n.toNat s.cur = true →
       ∃ t, exec (.bar n) s = .next t ∧ t.cur = s.cur ∧ t.t.pc = s.retire.t.pc ∧ Quiet s t) ∧
     (n ≠ 0 → n.toNat ≤ st.barf → s0.linksOut (s.barScope k n.toNat) = false → s.barFull k n.toNat s.cur = false →
       ∃ t, exec (.bar n) s = .next t ∧ t.t = { s.t with stall := .bar n.toNat, resumed := false } ∧ Quiet s t) ∧
     (s.t.stall = .bar n.toNat → s.barFull k n.toNat s.cur = true →
       ∃ t, exec (.barrierComplete s.cur) s = .next t ∧ t.cur = s.cur ∧ t.t.stall = .none ∧ t.t.pc = s.retire.t.pc ∧ Quiet s t))

/-- `wait` on an aligned doubleword that may be read and is not poisoned: when it differs from C it is written to A and the `wait` completes, else the thread waits on its line;
WAIT_RESUME and WAIT_TIMEOUT read the doubleword again, write it to A and retire.
`wake` completes whatever its address: the `wait`s of the partition on the line that it finds are resumed, none when no line is found; no register and no memory changes. -/
def Obligations.WaitAndWakeComplete : Prop :=
  (∀ (a b c : SReg) (imm : BitVec 16) (ad : Word) (s s1 s2 : State) (ps : List Place), s.t.skip = none → ad.toNat % 8 = 0 →
     Accessible s ad 8 accLoad ps s1 → s2 = ((place ad accLoad).run s1).2 → Clean ps s2 →
     (ad = s.t.reg b + wi imm.toInt → word (loaded ps s2) ≠ s.t.reg c →
       ∃ t, exec (.wait a b c imm) s = .next t ∧ t.t.reg a = (if a = 0 then 0 else word (loaded ps s2)) ∧ SameRegsBut a s.t t.t ∧
         SameMemory s t) ∧
     (ad = s.t.reg b + wi imm.toInt → word (loaded ps s2) = s.t.reg c →
       ∃ t line, exec (.wait a b c imm) s = .next t ∧ t.t = { s.t with stall := .wait a ad line s.now, resumed := false } ∧ t.mem = s.mem) ∧
     (∀ (u : State) (line since : Nat), u.t = { s.t with stall := .wait a ad line since } → s.t.stall = .none →
       (s = { u with t := s.t } → ∃ t, exec (.waitResume u.cur) u = .next t ∧ t.t.reg a = (if a = 0 then 0 else word (loaded ps s2)) ∧
         SameRegsBut a u.t t.t ∧ t.t.stall = .none ∧ SameMemory u t) ∧
       (s = { u.cycleTo (since + 2 ^ 20) with t := s.t } → ∃ t, exec (.waitTimeout u.cur) u = .next t ∧
         t.t.reg a = (if a = 0 then 0 else word (loaded ps s2)) ∧ SameRegsBut a u.t t.t ∧ t.t.stall = .none ∧ SameMemory u t))) ∧
  (∀ (b : SReg) (imm : BitVec 16) (s : State),
     ∃ t, exec (.wake b imm) s = .next t ∧ t.t.pc = s.retire.t.pc ∧ Quiet s t ∧
       ∀ l s1 tid, (lineOf (s.t.reg b + wi imm.toInt) ⟨false, false, false, true⟩).run s = (some l, s1) → tid ∈ s1.waitersOn l →
         (s1.thread tid).part = s.t.part → .waitResume tid ∈ t.inbox)

/-- Prefetch hints trap in no state, and change no register and no memory. One completes when its core has the miss slots that it takes, else it waits for them (R185). A line of
one `ipf` whose page a TLB holds and allows, and that is neither present nor on its way, is being filled; a line of one `dpf` that L1 does not hold is in L1. -/
def Obligations.HintsNeverTrap : Prop :=
  ∀ (b : SReg) (nm1 : BitVec 3) (imm : BitVec 16) (s : State),
    (16 < s.missSlots s.core + s.newMisses (s.t.reg b + wi imm.toInt) (nm1.toNat + 1) → ∀ i, (i = .ipf b nm1 imm ∨ i = .dpf b nm1 imm) →
      ∃ t, exec i s = .next t ∧ t.t = { s.t with stall := .missSlot } ∧ Quiet s t) ∧
    (s.missSlots s.core + s.newMisses (s.t.reg b + wi imm.toInt) (nm1.toNat + 1) ≤ 16 →
      (∃ t, exec (.ipf b nm1 imm) s = .next t ∧ t.t.pc = s.retire.t.pc ∧ Quiet s t ∧
        ∀ pa via sh, nm1 = 0 → s.inTlb s.t.asid ((lineAddr (s.t.reg b + wi imm.toInt)).extractLsb' 0 56).toNat = true →
          ((place (lineAddr (s.t.reg b + wi imm.toInt)) accFetch).run s).1 = .ok (.hbm pa via sh) →
          ((s.getCore s.core).icache.any fun l => l.num == pa / 64) = false →
          ((t.getCore s.core).icFills.any fun f => f.1 == pa / 64) = true) ∧
      (∃ t, exec (.dpf b nm1 imm) s = .next t ∧ t.t.pc = s.retire.t.pc ∧ Quiet s t ∧
        ∀ pa sh, nm1 = 0 → s.inTlb s.t.asid ((lineAddr (s.t.reg b + wi imm.toInt)).extractLsb' 0 56).toNat = true →
          ((place (lineAddr (s.t.reg b + wi imm.toInt)) accLoad).run s).1 = .ok (.hbm pa .l1 sh) →
          ((t.getCore s.core).l1.any fun l => l.num == pa / 64) = true))

/-- No cache of the package that holds data keeps a line of a block. -/
def Sys2Proof.Claims.NoData (first lines : Nat) (t : State) : Prop :=
  (∀ d < 9, ∀ l ∈ (t.getDie d).l2, inBlock first lines l.num = false) ∧ ∀ c, ∀ l ∈ (t.getCore c).l1, inBlock first lines l.num = false
/-- No instruction cache, line buffer or L1 keeps a line of a block. -/
def Sys2Proof.Claims.NoCode (first lines : Nat) (t : State) : Prop :=
  (∀ c, ∀ l ∈ (t.getCore c).icache, inBlock first lines l.num = false) ∧ (∀ c, ∀ l ∈ (t.getCore c).l1, inBlock first lines l.num = false) ∧
    t.t.lineBuf = none

/-- A translation of a page under an ASID. -/
def Sys2Proof.Claims.maps (kind : BitVec 2) (va : Word) (as : List (BitVec 16)) (e : TlbEntry) : Prop :=
  e.asid ∈ as ∧ (kind = 0 → e.page = (va.extractLsb' 0 56).toNat / 2 ^ e.sizeLog)

/-- No TLB holds a matching leaf, no walk cache an entry of the ASIDs. -/
def Sys2Proof.Claims.Unmapped (kind : BitVec 2) (va : Word) (as : List (BitVec 16)) (t : State) : Prop :=
  (∀ c, ∀ e ∈ (t.getCore c).tlb, ¬ maps kind va as e) ∧
    ∀ d < 9, (∀ e ∈ (t.getDie d).tlb, ¬ maps kind va as e) ∧ ∀ w ∈ (t.getDie d).walkCache, w.asid ∉ as

/-- `cflush` and `cinv` of a line or block of HBM complete, at once or when their write-backs or fills are done: no L2 and no L1, or no instruction cache, no line buffer (log 26)
and no L1, holds a named line. On an address of the local window they do nothing.
`tlbinv` in supervisor mode of an ASID of the partition, or of all of them, completes, at once or, at TLBINV_DONE, when no store of the thread is unacknowledged and no walk under its
ASIDs is in progress: no TLB of the package then holds a matching leaf, no walk cache an entry of the ASIDs, no store is unacknowledged and the core's L1 is empty; the line buffer
is empty too (log 26). Until then it waits. Of an ASID of another partition it does nothing (R347).
TLB_WALK_COMPLETE ends the oldest hint walk of its die, with those of the same page, and begins none; ICACHE_FILL_COMPLETE of one of the eight fills in flight puts the line as its
home holds it first into the instruction cache and ends its fill; L1_LINE_EXPIRY takes the line out of the core's L1; none changes a register of the thread in hand or memory. -/
def Obligations.CacheAndTlbMaintenanceCompletes : Prop :=
  (∀ (b : SReg) (block : Bool) (imm : BitVec 16) (s s1 s2 : State) (pa : Nat) (l : Via) (sh : Bool) (first lines : Nat), s.t.skip = none →
     l ≠ .dev → (first, lines) = (if block then (pa / 4096 * 64, 64) else (pa / 64, 1)) →
     ((place (s.t.reg b + wi imm.toInt) ⟨true, false, false, true⟩).run s = (.ok (.hbm pa l sh), s1) →
       s2 = s1.dropLease (fun x => inBlock first lines x.num) → s2.dirtyIn first lines = false → s2.blockOut first lines = false →
       ∃ t, exec (.cflush b block imm) s = .next t ∧ NoData first lines t ∧ Quiet s t) ∧
     ((place (s.t.reg b + wi imm.toInt) ⟨false, false, true, true⟩).run s = (.ok (.hbm pa l sh), s1) → s1.fillingIn first lines = false →
       ∃ t, exec (.cinv b block imm) s = .next t ∧ NoCode first lines t ∧ Quiet s t) ∧
     (s.t.stall = .cflush first lines → s.blockOut first lines = false →
       ∃ t, exec (.cflushDone s.cur) s = .next t ∧ NoData first lines t ∧ t.t.stall = .none ∧ Quiet s t) ∧
     (s.t.stall = .cinv first lines → ∃ t, exec (.cinvDone s.cur) s = .next t ∧ NoCode first lines t ∧ t.t.stall = .none ∧ Quiet s t) ∧
     ((s.t.reg b + wi imm.toInt).extractLsb' 56 8 = 0xFF →
       exec (.cflush b block imm) s = .next s.retire ∧ exec (.cinv b block imm) s = .next s.retire)) ∧
  (∀ (kind : BitVec 2) (b c : SReg) (s : State) (va : Word) (asid : BitVec 16), va = s.t.reg b → asid = (s.t.reg c).extractLsb' 0 16 →
     (s.t.sup = true → s.tlbinvForeign kind asid = true → exec (.tlbinv kind b c) s = .next s.retire) ∧
     (s.t.sup = true → s.tlbinvForeign kind asid = false → s.t.stored = false → s.walking kind asid = false →
       ∃ t, exec (.tlbinv kind b c) s = .next t ∧ Unmapped kind va (s.tlbinvAsids kind asid) t ∧ (t.getCore s.core).l1 = [] ∧ t.t.stored = false ∧
         t.t.lineBuf = none ∧ Quiet s t) ∧
     (s.t.sup = true → s.tlbinvForeign kind asid = false → s.t.stored = true ∨ s.walking kind asid = true →
       ∃ t, exec (.tlbinv kind b c) s = .next t ∧ t.t = { s.t with stall := .tlbinv kind va asid } ∧ Quiet s t) ∧
     (∀ va asid, s.t.stall = .tlbinv kind va asid → s.walking kind asid = false →
       ∃ t, exec (.tlbinvDone s.cur) s = .next t ∧ Unmapped kind va (s.tlbinvAsids kind asid) t ∧ (t.getCore s.core).l1 = [] ∧ t.t.stored = false ∧
         t.t.lineBuf = none ∧ t.t.stall = .none ∧ Quiet s t)) ∧
  (∀ s : State,
     (∀ d w rest, d < 9 → (s.getDie d).walks = w :: rest →
       ∃ t, exec (.tlbWalkComplete d) s = .next t ∧
         ((t.getDie d).walks.map fun x => (x.asid, x.page, x.hints)).Sublist (rest.map fun x => (x.asid, x.page, x.hints)) ∧ t.cur = s.cur ∧ Quiet s t) ∧
     (∀ c n f, ((s.getCore c).icFills.take 8).find? (fun f => f.1 == n) = some f →
       ∃ t, exec (.icacheFillComplete c n) s = .next t ∧ ((t.getCore c).icFills.any fun f => f.1 == n) = false ∧
         ((t.getCore c).icache.head?.map fun l => (l.num, l.data, l.hinted)) = some (n, (s.homeLine n f.2.2.2).1, !f.2.2.1) ∧ Quiet s t) ∧
     (∀ c n, ∃ t, exec (.l1LineExpiry c n) s = .next t ∧ (∀ l ∈ (t.getCore c).l1, l.num ≠ n) ∧ Quiet s t))

/-! ## Vector configuration -/

/-- The writes of an instruction in their order, and what a register holds after them: the last write remains, s0 takes nothing. -/
def Sys2Proof.Claims.afterWrites (reg : SReg → Word) (ws : List (SReg × Word)) (x : SReg) : Word :=
  if x = 0 then 0 else ((ws.reverse.find? fun w => w.1 == x).map (·.2)).getD (reg x)

/-- A thread after a configuration of `vl` columns, `vlr` rows and a type: it holds a unit, and its first configuration has cleared v0 to v31 and q1 to q7. -/
def Sys2Proof.Claims.Configured (s t : State) (vl vlr : Nat) (ty : TypeCode) : Prop :=
  t.t.vl = word vl ∧ t.t.vlr = word vlr ∧ t.t.vtype = 0x40 ||| ty.setWidth 64 ∧ t.t.unit.isSome = true ∧ t.t.vlive = true ∧
    (∀ r p, vget (t.t.vreg r) p 0 = if s.t.vlive then vget (s.t.vreg r) p 0 else 0) ∧
    (∀ k, t.t.qreg k = if s.t.vlive ∨ k = 0 then s.t.qreg k else 0)

/-- `setvl`, `setvl2` and `stripm` of a legal type by a thread that holds a vector unit with its state, or, with no live vector state, may take one of its core (R133), complete: `setvl` grants the request up
to the cap of `heat`, `setvl2` a shape, `stripm` advances its pointers by the old strip and grants the rest; the scalar registers take their writes in order and memory stays.
`vrel` completes in every state: no stream stays bound, `vl`, `vlr`, `vtype` and `vstart` are 0, 1, 0 and 0, and no unit is held. A type that is not a vector type raises ILLEGAL. -/
def Obligations.VectorConfigurationGrantsAndReleases : Prop :=
  ∀ (a b c d p3 p4 : SReg) (ty : TypeCode) (e : ETy) (sizes : BitVec 12) (s : State) (cap old rem : Nat),
    cap = s.caps.1 → old = s.t.vl.toNat * s.t.vlr.toNat → rem = (s.t.reg b).toNat - old →
    (vecType ty = none → ∀ i ∈ [Instr.setvl a b ty, .setvl2 a b c ty, .stripm a b c d sizes ty p3 p4],
      exec i s = .next (s.trap { cause := .illegal, xaddr := s.raw, xelem := word s.rawHigh, xmask := 0, vstart := none } false)) ∧
    (vecType ty = some e → (s.t.unit.isSome = true ∧ s.t.save = none ∨ s.t.unit = none ∧ s.t.vlive = false ∧
        (s.mayTake s.cur 0 = true ∨ s.mayTake s.cur 1 = true)) → s.cur < 2304 →
      (∃ t, exec (.setvl a b ty) s = .next t ∧ Configured s t (min (s.t.reg b).toNat cap) 1 ty ∧
        (∀ x, t.t.reg x = afterWrites s.t.reg [(a, word (min (s.t.reg b).toNat cap))] x) ∧ SameMemory s t) ∧
      (∃ t vl vlr, exec (.setvl2 a b c ty) s = .next t ∧ Configured s t vl vlr ty ∧
        ((s.t.reg b = 0 ∨ min (s.t.reg c).toNat cap = 0) → vl = 0 ∧ vlr = 1) ∧
        (s.t.reg b ≠ 0 → min (s.t.reg c).toNat cap ≠ 0 → vl = min (s.t.reg c).toNat cap ∧
          vlr = min (s.t.reg b).toNat (max 1 (cap / (16 * ((vl + 15) / 16))))) ∧
        (∀ x, t.t.reg x = afterWrites s.t.reg [(a, word (vlr * 2 ^ 32 + vl))] x) ∧ SameMemory s t) ∧
      (((List.range 4).all fun j => decide ((sizes.extractLsb' (3 * j) 3).toNat ≤ 5)) = true →
        (VCfg.ok { ty := e, vl := s.t.vl.toNat, vlr := s.t.vlr.toNat }) = true →
        ∃ t, exec (.stripm a b c d sizes ty p3 p4) s = .next t ∧ Configured s t (min rem cap) 1 ty ∧
          (∀ x, t.t.reg x = afterWrites s.t.reg
            (((([(0, c), (1, d), (2, p3), (3, p4)].filter fun p : Nat × SReg => sizes.extractLsb' (3 * p.1) 3 ≠ 0).map fun p =>
              (p.2, s.t.reg p.2 + word (if (sizes.extractLsb' (3 * p.1) 3).toNat = 5 then old * e.width / 8
                else old * 2 ^ ((sizes.extractLsb' (3 * p.1) 3).toNat - 1)))) ++ [(b, word rem), (a, word (min rem cap))])) x) ∧ SameMemory s t)) ∧
    ∃ t, exec .vrel s = .next t ∧ t.t.streams = [] ∧ t.t.vl = 0 ∧ t.t.vlr = 1 ∧ t.t.vtype = 0 ∧ t.t.unit = none ∧ t.t.vlive = false ∧
      t.t.vstart = 0 ∧ t.t.regs = s.t.regs ∧ SameMemory s t

/-! ## Vector instructions -/

/-- Logical element `e` lies at position `p` (R350): row i and column j of the shape. -/
def Sys2Proof.Claims.Logical (c : VCfg) (p e : Nat) : Prop :=
  ∃ i j, i < c.vlr ∧ j < c.vl ∧ e = i * c.vl + j ∧ p = i * (if c.vlr = 1 then c.vl else 16 * ((c.vl + 15) / 16)) + j

/-- A vector instruction may run: the thread does not wait for a unit or for the restore of its state, `vtype` is legal and of an accepted class, the shape keeps within its limits, the destination is not
bound to a stream, and its sources have been read as `l`, with `s1` the state then. -/
def Sys2Proof.Claims.VecReady (s : State) (cls : ETy → Bool) (flat : Bool) (dst : Option (BitVec 5)) (srcs : List (BitVec 5)) (c : VCfg) (l : Sources)
    (s1 : State) : Prop :=
  (s.t.vlive = true → s.t.unit.isSome = true ∧ s.t.save = none) ∧ s.t.vty = some c.ty ∧ c.vl = s.t.vl.toNat ∧ c.vlr = s.t.vlr.toNat ∧ cls c.ty = true ∧ c.ok = true ∧
    (flat = true → c.vlr = 1) ∧ (∀ r, dst = some r → s.t.stream? r = none) ∧ (sources c srcs).exec s = (.ok l, s1)

/-- Every byte reads as before outside the lease aperture, where the device keeps its copies of leased lines (R52). -/
def Sys2Proof.Claims.SameOwnMemory (s t : State) : Prop :=
  ∀ x, x < apertureBase ∨ apertureEnd ≤ x → memRead t.mem x = memRead s.mem x

/-- What a vector instruction leaves and moves: memory stays, the configuration stays, its bound sources advance by `vl`, and it retires. -/
def Sys2Proof.Claims.VecDone (c : VCfg) (srcs : List (BitVec 5)) (s t : State) : Prop :=
  SameOwnMemory s t ∧ t.t.vl = s.t.vl ∧ t.t.vlr = s.t.vlr ∧ t.t.vtype = s.t.vtype ∧ t.t.pc = s.retire.t.pc ∧ t.t.member = s.retire.t.member ∧
    t.t.streams.map (fun x => (x.reg, x.pos)) =
      s.t.streams.map fun x => (x.reg, if srcs.contains x.reg then min x.count.toNat (x.pos + c.vl) else x.pos)

/-- The destination after an element-wise write (R351): positions that hold no logical element from `from_` on keep their contents. -/
def Sys2Proof.Claims.Written (c : VCfg) (from_ : Nat) (mask : BitVec 128) (z : Bool) (old new : Vector (BitVec 32) 128) (f : Nat → Nat) : Prop :=
  ∀ p < 128,
    (∀ e, Logical c p e → from_ ≤ e → vget new p 0 = if mask.getLsbD p then canon c.ty (f p) else if z then 0 else vget old p 0) ∧
    ((∀ e, Logical c p e → e < from_) → vget new p 0 = vget old p 0)

/-- Flags of the active elements from `from_` on are raised, and no others. -/
def Sys2Proof.Claims.Accrued (c : VCfg) (from_ : Nat) (mask : BitVec 128) (old new : Word) (f : Nat → Word) : Prop :=
  ∀ i, new.getLsbD i = true ↔
    old.getLsbD i = true ∨ ∃ p e, p < 128 ∧ Logical c p e ∧ from_ ≤ e ∧ mask.getLsbD p = true ∧ (f p).getLsbD i = true

/-- An element-wise instruction from `from_` on has its effect: the destination takes f, the flags accrue, every other vector register, every mask and every scalar register stays. -/
def Sys2Proof.Claims.Elementwise (s t : State) (c : VCfg) (srcs : List (BitVec 5)) (a : VDst) (k : QReg) (from_ : Nat) (f : Nat → Nat × Word) : Prop :=
  Written c from_ (s.t.qreg k) a.zeroing (s.t.vreg a.reg) (t.t.vreg a.reg) (fun p => (f p).1) ∧
    Accrued c from_ (s.t.qreg k) s.t.fcsr t.t.fcsr (fun p => (f p).2) ∧
    (∀ r, r ≠ a.reg → t.t.vreg r = s.t.vreg r) ∧ t.t.q = s.t.q ∧ t.t.regs = s.t.regs ∧ VecDone c srcs s t

/-- Operands and exact results of the integer instructions of Table 15.5: the result before it is taken modulo 2^w, and whether it saturated. -/
def Sys2Proof.Claims.vintOf : Instr → Option (VDst × VSrc × YSel × QReg × (IFmt → Nat → Nat → Int × Bool))
  | .vadd a b y k => some (a, b, y, k, fun _ x y => (x + y, false))
  | .vsub a b y k => some (a, b, y, k, fun _ x y => ((x : Int) - y, false))
  | .vmul a b y k => some (a, b, y, k, fun _ x y => (x * y, false))
  | .vmulh a b y k => some (a, b, y, k, fun i x y => (i.decode x * i.decode y / (2 ^ i.w : Nat), false))
  | .vand a b y k => some (a, b, y, k, fun _ x y => ((x &&& y : Nat), false))
  | .vor a b y k => some (a, b, y, k, fun _ x y => ((x ||| y : Nat), false))
  | .vxor a b y k => some (a, b, y, k, fun _ x y => ((x ^^^ y : Nat), false))
  | .vsll a b y k => some (a, b, y, k, fun i x y => ((x * 2 ^ (y % i.w) : Nat), false))
  | .vsrl a b y k => some (a, b, y, k, fun i x y => ((x / 2 ^ (y % i.w) : Nat), false))
  | .vsra a b y k => some (a, b, y, k, fun i x y => (signedOf i.w x / (2 ^ (y % i.w) : Nat), false))
  | .vmin a b y k => some (a, b, y, k, fun i x y => (min (signedOf i.w x) (signedOf i.w y), false))
  | .vmax a b y k => some (a, b, y, k, fun i x y => (max (signedOf i.w x) (signedOf i.w y), false))
  | .vminu a b y k => some (a, b, y, k, fun _ x y => ((min x y : Nat), false))
  | .vmaxu a b y k => some (a, b, y, k, fun _ x y => ((max x y : Nat), false))
  | .vsadd a b y k => some (a, b, y, k, fun i x y => clamped i (i.decode x + i.decode y))
  | .vssub a b y k => some (a, b, y, k, fun i x y => clamped i (i.decode x - i.decode y))
  | _ => none
where
  /-- clamped to the range of the type -/
  clamped (i : IFmt) (v : Int) : Int × Bool :=
    if v < i.min then (i.min, true) else if i.max < v then (i.max, true) else (v, false)

/-- The integer vector instructions on integer types complete: every active logical position from `vstart` on takes the result of Table 15.5 modulo 2^w, and saturation raises SAT. -/
def Obligations.VectorIntegersAreThoseOfTheTable : Prop :=
  ∀ (i : Instr) (s s1 : State) (a : VDst) (b : VSrc) (y : YSel) (k : QReg) (f : IFmt → Nat → Nat → Int × Bool) (c : VCfg) (l : Sources) (g : IFmt),
    vintOf i = some (a, b, y, k, f) → VecReady s clsInt false (some a.reg) (b.reg :: YSel.regs y) c l s1 → c.ty.int? = some g →
    ∃ t, exec i s = .next t ∧ Elementwise s t c (b.reg :: YSel.regs y) a k s.t.vstart.toNat fun p =>
      let r := f g ((vget (srcOf l s.t b.reg) p 0).toNat % 2 ^ g.w) (YSel.at_ y l s.t p % 2 ^ g.w)
      ((r.1 % (2 ^ g.w : Nat)).toNat, if r.2 then flagSAT else 0)

/-- Operands and element results of the floating instructions of major 0x45 under the rounding mode of a thread, with the accepted class; `vcvt` from another vector type only. -/
def Sys2Proof.Claims.vfpOf (t : Thread) (c : VCfg) (l : Sources) : Instr → Option (VDst × List (BitVec 5) × QReg × (ETy → Bool) × (Nat → Nat × Word))
  | .vfadd a b y k => some (a, b.reg :: FSel.regs y, k, clsFlt, fun p => fm.add t.rm (x b p) (z y p))
  | .vfsub a b y k => some (a, b.reg :: FSel.regs y, k, clsFlt, fun p => fm.sub t.rm (x b p) (z y p))
  | .vfmul a b y k => some (a, b.reg :: FSel.regs y, k, clsFlt, fun p => fm.mul t.rm (x b p) (z y p))
  | .vfdiv a b y k => some (a, b.reg :: FSel.regs y, k, clsFlt, fun p => fm.div t.rm (x b p) (z y p))
  | .vfmin a b y k => some (a, b.reg :: FSel.regs y, k, clsFlt, fun p => fm.minmax true (u b p) (FSel.at_ y l t p % 2 ^ c.w))
  | .vfmax a b y k => some (a, b.reg :: FSel.regs y, k, clsFlt, fun p => fm.minmax false (u b p) (FSel.at_ y l t p % 2 ^ c.w))
  | .vfma a b y d k => some (a, b.reg :: d.reg :: FSel.regs y, k, clsFlt, fun p => fm.fma t.rm (x b p) (z y p) (x d p))
  | .vfnma a b y d k => some (a, b.reg :: d.reg :: FSel.regs y, k, clsFlt, fun p => fm.fma t.rm (x b p).neg (z y p) (x d p))
  | .vfsqrt a b k => some (a, [b.reg], k, clsFlt, fun p => fm.sqrt t.rm (x b p))
  | .vfexp2 a b k => some (a, [b.reg], k, clsFlt, fun p => fm.exp2 t.rm (x b p))
  | .vflog2 a b k => some (a, [b.reg], k, clsFlt, fun p => fm.log2 t.rm (x b p))
  | .vfrcp a b k => some (a, [b.reg], k, clsFlt, fun p => fm.rcp t.rm (x b p))
  | .vfrsq a b k => some (a, [b.reg], k, clsFlt, fun p => fm.rsq t.rm (x b p))
  | .vftanh a b k => some (a, [b.reg], k, clsFlt, fun p => fm.tanh t.rm (x b p))
  | .vcvt a b k src => if t.vtype.extractLsb' 0 6 = src then none else (vecType src).map fun e =>
      (a, [b.reg], k, clsAll, fun p => convert t.rm (t.book e) (t.book c.ty) e c.ty ((vget (srcOf l t b.reg) p 0).toNat % 2 ^ e.width))
  | _ => none
where
  /-- the element format, the bits and the value of a source position, and the value of the second operand -/
  fm : Fmt := c.ty.fmt?.getD Machine.fp32
  u (b : VSrc) (p : Nat) : Nat := (vget (srcOf l t b.reg) p 0).toNat % 2 ^ c.w
  x (b : VSrc) (p : Nat) : FVal := fm.decode (u b p)
  z (y : FSel) (p : Nat) : FVal := fm.decode (FSel.at_ y l t p % 2 ^ c.w)

/-- The floating vector instructions and `vcvt` complete: every active logical position from `vstart` on takes the rounded result of its operation in the element format, and the
flags of those elements accrue. -/
def Obligations.VectorFloatsRoundOnceAndAccrueFlags : Prop :=
  ∀ (i : Instr) (s s1 : State) (a : VDst) (srcs : List (BitVec 5)) (k : QReg) (cls : ETy → Bool) (f : Nat → Nat × Word) (c : VCfg) (l : Sources),
    vfpOf s.t c l i = some (a, srcs, k, cls, f) → VecReady s cls false (some a.reg) srcs c l s1 →
    ∃ t, exec i s = .next t ∧ Elementwise s t c srcs a k s.t.vstart.toNat f

/-- The mask after a comparison (R366). -/
def Sys2Proof.Claims.Compared (c : VCfg) (from_ : Nat) (mask old new : BitVec 128) (f : Nat → Bool) : Prop :=
  ∀ p < 128,
    (∀ e, Logical c p e → from_ ≤ e → mask.getLsbD p = true → new.getLsbD p = f p) ∧
    ((mask.getLsbD p = false ∨ ∀ e, Logical c p e → e < from_) → new.getLsbD p = old.getLsbD p)

/-- The predicates of `vcmp` in Table 15.6. -/
def Sys2Proof.Claims.vcmpHolds (n : Nat) (x y : Int) : Bool :=
  match n with
  | 0 => x = y
  | 1 => x ≠ y
  | 2 => x < y
  | 3 => x ≥ y
  | 4 => x ≤ y
  | _ => x > y

/-- `vcmp`, `vfcmp` and `vsel` complete: a comparison gives each active logical position from `vstart` on its bit of the mask and keeps every other bit, `vfcmp` accrues its
flags, and `vsel` writes every logical position from `vstart` on from the source that K selects. -/
def Obligations.VectorComparesAndSelectsWriteTheirPositions : Prop :=
  ∀ (a : QReg) (b : VSrc) (k : QReg) (n : BitVec 3) (c : VCfg) (l : Sources) (s s1 : State),
    (∀ (y : CSel) (g : IFmt), a ≠ 0 → n.toNat ≤ 5 → c.ty.int? = some g → VecReady s clsInt false none (b.reg :: CSel.regs y) c l s1 →
      ∃ t, exec (.vcmp a b y k n) s = .next t ∧
        Compared c s.t.vstart.toNat (s.t.qreg k) (s.t.qreg a) (t.t.qreg a) (fun p =>
          vcmpHolds n.toNat (g.decode (vget (srcOf l s.t b.reg) p 0).toNat) (g.decode (CSel.at_ y l s.t p))) ∧
        (∀ q, q ≠ a → t.t.qreg q = s.t.qreg q) ∧ t.t.v = s.t.v ∧ t.t.regs = s.t.regs ∧ t.t.fcsr = s.t.fcsr ∧ VecDone c (b.reg :: CSel.regs y) s t) ∧
    (∀ (y : FSel) (g : Fmt), a ≠ 0 → c.ty.fmt? = some g → VecReady s clsFlt false none (b.reg :: FSel.regs y) c l s1 →
      ∃ t, exec (.vfcmp a b y k n) s = .next t ∧
        Compared c s.t.vstart.toNat (s.t.qreg k) (s.t.qreg a) (t.t.qreg a) (fun p =>
          fpredicate n.toNat (g.decode ((vget (srcOf l s.t b.reg) p 0).toNat % 2 ^ c.w)) (g.decode (FSel.at_ y l s.t p % 2 ^ c.w))) ∧
        Accrued c s.t.vstart.toNat (s.t.qreg k) s.t.fcsr t.t.fcsr (fun p =>
          fpredFlags n.toNat (g.decode ((vget (srcOf l s.t b.reg) p 0).toNat % 2 ^ c.w)) (g.decode (FSel.at_ y l s.t p % 2 ^ c.w))) ∧
        (∀ q, q ≠ a → t.t.qreg q = s.t.qreg q) ∧ t.t.v = s.t.v ∧ t.t.regs = s.t.regs ∧ VecDone c (b.reg :: FSel.regs y) s t) ∧
    (∀ (d : BitVec 5) (y : YSel), VecReady s clsAll false (some d) (b.reg :: YSel.regs y) c l s1 →
      ∃ t, exec (.vsel d b y k) s = .next t ∧
        Written c s.t.vstart.toNat (BitVec.allOnes 128) false (s.t.vreg d) (t.t.vreg d) (fun p =>
          if (s.t.qreg k).getLsbD p then (vget (srcOf l s.t b.reg) p 0).toNat else YSel.at_ y l s.t p) ∧
        (∀ r, r ≠ d → t.t.vreg r = s.t.vreg r) ∧ t.t.q = s.t.q ∧ t.t.regs = s.t.regs ∧ t.t.fcsr = s.t.fcsr ∧ VecDone c (b.reg :: YSel.regs y) s t)

/-- Where an instruction that acts on every element at once begins: with `vstart` not 0 and beyond the elements it has no effect (R353). -/
def Sys2Proof.Claims.wholeFrom (s : State) (c : VCfg) : Nat := if s.t.vstart ≠ 0 ∧ c.n ≤ s.t.vstart.toNat then c.n else 0

/-- `vstart` is 0 or names an element: such an instruction has its effect. -/
def Sys2Proof.Claims.Runs (s : State) (c : VCfg) : Prop := s.t.vstart = 0 ∨ s.t.vstart.toNat < c.n

/-- A cross-lane read (R371). -/
def Sys2Proof.Claims.laneRead (c : VCfg) (v : Vector (BitVec 32) 128) (i : Nat) : Nat := if i < c.vl then (vget v i 0).toNat else 0

/-- An amount, index or count (Table 15.8). -/
def Sys2Proof.Claims.amountOf (t : Thread) : NSel → Nat
  | .scalar x => if 128 < (t.reg x).toNat then 128 else (t.reg x).toNat
  | .imm n => if 128 < n.toNat then 128 else n.toNat

/-- Operands, class, whether the shape must be of one row, and the results of the cross-lane instructions that write element by element, with the element where they begin. -/
def Sys2Proof.Claims.laneOf (s : State) (c : VCfg) (l : Sources) : Instr → Option (VDst × List (BitVec 5) × QReg × (ETy → Bool) × Bool × Nat × (Nat → Nat))
  | .vslideup a b n d k => some (a, [b.reg], k, clsAll, true, wholeFrom s c,
      fun p => if p < amountOf s.t n then (s.t.reg d).toNat else laneRead c (srcOf l s.t b.reg) (p - amountOf s.t n))
  | .vslidedn a b n k => some (a, [b.reg], k, clsAll, true, wholeFrom s c, fun p => laneRead c (srcOf l s.t b.reg) (p + amountOf s.t n))
  | .vperm a b x k => some (a, [b.reg, x.reg], k, clsAll, true, wholeFrom s c,
      fun p => laneRead c (srcOf l s.t b.reg) (vget (srcOf l s.t x.reg) p 0).toNat)
  | .vexpand a b k => some (a, [b.reg], k, clsAll, true, wholeFrom s c,
      fun p => laneRead c (srcOf l s.t b.reg) ((List.range (min p c.vl)).filter fun q => (s.t.qreg k).getLsbD q).length)
  | .viota a q k => some (a, [], k, clsInt, true, wholeFrom s c, fun p => ((List.range (min p c.vl)).filter fun i => (s.t.qreg q).getLsbD i).length)
  | .vbcast a y k => some (a, [], k, clsAll, false, s.t.vstart.toNat, fun _ => match y with
      | .scalar x => (s.t.reg x).toNat
      | .imm v => (v.signExtend 32).toNat)
  | _ => none

/-- A packed destination: the list at positions 0 on, then zeros or the old contents below `vl`, then the old contents. -/
def Sys2Proof.Claims.Packed (c : VCfg) (z : Bool) (old new : Vector (BitVec 32) 128) (xs : List (BitVec 32)) : Prop :=
  ∀ p < 128, vget new p 0 = if h : p < xs.length then xs[p] else if z = true ∧ p < c.vl then 0 else vget old p 0

/-- Positions below `vl` that a mask selects. -/
def Sys2Proof.Claims.Selects (c : VCfg) (mask : BitVec 128) (p : Nat) : Prop := p < c.vl ∧ mask.getLsbD p = true

/-- The cross-lane instructions and `vtopk` complete. Slides, `vperm`, `vexpand`, `viota` and `vbcast` write element by element with the reads of R371; `vcompress` packs the selected
elements; `vmvx` reads one element, extended, or 0 at and beyond `vl`; `vmvs` writes one; `vconflict` marks first occurrences; `vtopk` packs positions ranked by value. -/
def Obligations.CrossLaneInstructionsMoveElements : Prop :=
  ∀ (c : VCfg) (l : Sources) (s s1 : State),
    (∀ (i : Instr) (a : VDst) (srcs : List (BitVec 5)) (k : QReg) (cls : ETy → Bool) (flat : Bool) (from_ : Nat) (f : Nat → Nat),
      laneOf s c l i = some (a, srcs, k, cls, flat, from_, f) → VecReady s cls flat (some a.reg) srcs c l s1 →
      ∃ t, exec i s = .next t ∧ Elementwise s t c srcs a k from_ fun p => (f p, 0)) ∧
    (∀ (a : VDst) (b : VSrc) (k : QReg), VecReady s clsAll true (some a.reg) [b.reg] c l s1 → Runs s c →
      ∃ t, exec (.vcompress a b k) s = .next t ∧
        Packed c a.zeroing (s.t.vreg a.reg) (t.t.vreg a.reg)
          (((List.range c.vl).filter fun p => (s.t.qreg k).getLsbD p).map fun p => canon c.ty (vget (srcOf l s.t b.reg) p 0).toNat) ∧
        (∀ r, r ≠ a.reg → t.t.vreg r = s.t.vreg r) ∧ t.t.q = s.t.q ∧ t.t.regs = s.t.regs ∧ t.t.fcsr = s.t.fcsr ∧ VecDone c [b.reg] s t) ∧
    (∀ (a : SReg) (b : VSrc) (n : NSel), VecReady s clsAll false none [b.reg] c l s1 →
      ∃ t, exec (.vmvx a b n) s = .next t ∧
        t.t.reg a = (if a = 0 then 0 else if amountOf s.t n < c.vl then
          match c.ty.int? with
          | some g => if g.signed then wi (signedOf g.w (vget (srcOf l s.t b.reg) (amountOf s.t n) 0).toNat)
              else word ((vget (srcOf l s.t b.reg) (amountOf s.t n) 0).toNat % 2 ^ g.w)
          | none => word ((vget (srcOf l s.t b.reg) (amountOf s.t n) 0).toNat % 2 ^ c.w)
        else 0) ∧ SameRegsBut a s.t t.t ∧ t.t.v = s.t.v ∧ t.t.q = s.t.q ∧ t.t.fcsr = s.t.fcsr ∧ VecDone c [b.reg] s t) ∧
    (∀ (a : BitVec 5) (x : SReg) (n : NSel), VecReady s clsAll false (some a) [] c l s1 →
      ∃ t, exec (.vmvs a x n) s = .next t ∧
        (∀ p < 128, vget (t.t.vreg a) p 0 = if p = amountOf s.t n ∧ p < c.vl then canon c.ty (s.t.reg x).toNat else vget (s.t.vreg a) p 0) ∧
        (∀ r, r ≠ a → t.t.vreg r = s.t.vreg r) ∧ t.t.q = s.t.q ∧ t.t.regs = s.t.regs ∧ t.t.fcsr = s.t.fcsr ∧ VecDone c [] s t) ∧
    (∀ (a : QReg) (b : VSrc) (k : QReg), a ≠ 0 → VecReady s clsAll true none [b.reg] c l s1 → Runs s c →
      ∃ t, exec (.vconflict a b k) s = .next t ∧
        (∀ p < 128, (t.t.qreg a).getLsbD p = true ↔ Selects c (s.t.qreg k) p ∧
          ∀ r < p, Selects c (s.t.qreg k) r →
            (vget (srcOf l s.t b.reg) r 0).toNat % 2 ^ c.w ≠ (vget (srcOf l s.t b.reg) p 0).toNat % 2 ^ c.w) ∧
        (∀ q, q ≠ a → t.t.qreg q = s.t.qreg q) ∧ t.t.v = s.t.v ∧ t.t.regs = s.t.regs ∧ t.t.fcsr = s.t.fcsr ∧ VecDone c [b.reg] s t) ∧
    (∀ (a : VDst) (b : VSrc) (n : NSel) (k : QReg), VecReady s clsIntFlt true (some a.reg) [b.reg] c l s1 → Runs s c →
      ∃ (t : State) (order : List Nat), exec (.vtopk a b n k) s = .next t ∧
        order.Perm ((List.range c.vl).filter fun p => (s.t.qreg k).getLsbD p) ∧
        order.Pairwise (fun p q =>
          ranksAbove c.ty ((vget (srcOf l s.t b.reg) q 0).toNat % 2 ^ c.w) ((vget (srcOf l s.t b.reg) p 0).toNat % 2 ^ c.w) = false ∧
          (ranksAbove c.ty ((vget (srcOf l s.t b.reg) p 0).toNat % 2 ^ c.w) ((vget (srcOf l s.t b.reg) q 0).toNat % 2 ^ c.w) = false → p < q)) ∧
        Packed c a.zeroing (s.t.vreg a.reg) (t.t.vreg a.reg) ((order.take (amountOf s.t n)).map fun p => BitVec.ofNat 32 p) ∧
        (∀ r, r ≠ a.reg → t.t.vreg r = s.t.vreg r) ∧ t.t.q = s.t.q ∧ t.t.regs = s.t.regs ∧ t.t.fcsr = s.t.fcsr ∧ VecDone c [b.reg] s t)

/-- The fixed pairwise tree of R309: level 0 holds the leaves, level n + 1 combines pairs of level n. -/
def Sys2Proof.Claims.pairTree {α : Type} (f : α → α → α) (leaf : Nat → α) : Nat → Nat → α
  | 0, j => leaf j
  | n + 1, j => f (pairTree f leaf n (2 * j)) (pairTree f leaf n (2 * j + 1))

/-- The element of an active position below `vl`, else an identity. -/
def Sys2Proof.Claims.treeLeaf (c : VCfg) (mask : BitVec 128) (v : Vector (BitVec 32) 128) (ident : Nat) (p : Nat) : Nat :=
  if p < c.vl ∧ mask.getLsbD p = true then (vget v p 0).toNat % 2 ^ c.w else ident

/-- An integer result extended to 64 bits as its type says. -/
def Sys2Proof.Claims.extendInt (g : IFmt) (x : Nat) : Word := if g.signed then wi (signedOf g.w x) else word (x % 2 ^ g.w)

/-- Operands, identity and combination of the integer reductions, on codes of the format. -/
def Sys2Proof.Claims.redOf (g : IFmt) : Instr → Option (SReg × VSrc × QReg × Int × (Nat → Nat → Nat))
  | .vredsum a b k => some (a, b, k, 0, fun x y => (x + y) % 2 ^ g.w)
  | .vredmax a b k => some (a, b, k, g.min, fun x y => if g.decode x < g.decode y then y else x)
  | .vredmin a b k => some (a, b, k, g.max, fun x y => if g.decode y < g.decode x then y else x)
  | _ => none

/-- Operands, identity and combination of the floating reductions: −0.0, −∞ and +∞ (R309). -/
def Sys2Proof.Claims.fredOf (g : Fmt) (rm : RM) : Instr → Option (SReg × VSrc × QReg × Nat × (Nat → Nat → Nat × Word))
  | .vfredsum a b k => some (a, b, k, 2 ^ (g.e + g.m), fun x y => g.add rm (g.decode x) (g.decode y))
  | .vfredmax a b k => some (a, b, k, 2 ^ (g.e + g.m) + (2 ^ g.e - 1) * 2 ^ g.m, fun x y => g.minmax false x y)
  | .vfredmin a b k => some (a, b, k, (2 ^ g.e - 1) * 2 ^ g.m, fun x y => g.minmax true x y)
  | _ => none

/-- The reductions complete: A takes the value at the root of the fixed pairwise tree over the active elements, extended, with the flags of every combination accrued by the floating
ones; with no active element it is the identity. -/
def Obligations.ReductionsFollowTheFixedTree : Prop :=
  ∀ (i : Instr) (a : SReg) (b : VSrc) (k : QReg) (c : VCfg) (l : Sources) (s s1 : State), Runs s c →
    (∀ (g : IFmt) (ident : Int) (f : Nat → Nat → Nat), c.ty.int? = some g → redOf g i = some (a, b, k, ident, f) →
      VecReady s clsInt true none [b.reg] c l s1 →
      ∃ t, exec i s = .next t ∧
        t.t.reg a = (if a = 0 then 0 else
          extendInt g (pairTree f (treeLeaf c (s.t.qreg k) (srcOf l s.t b.reg) (ident % (2 ^ g.w : Nat)).toNat) 7 0)) ∧
        SameRegsBut a s.t t.t ∧ t.t.v = s.t.v ∧ t.t.q = s.t.q ∧ t.t.fcsr = s.t.fcsr ∧ VecDone c [b.reg] s t) ∧
    (∀ (g : Fmt) (ident : Nat) (f : Nat → Nat → Nat × Word), c.ty.fmt? = some g → fredOf g s.t.rm i = some (a, b, k, ident, f) →
      VecReady s clsFlt true none [b.reg] c l s1 →
      ∃ t, exec i s = .next t ∧
        (let r := pairTree (fun x y : Nat × Word => ((f x.1 y.1).1, x.2 ||| y.2 ||| (f x.1 y.1).2))
            (fun p => (treeLeaf c (s.t.qreg k) (srcOf l s.t b.reg) ident p, (0 : Word))) 7 0
         t.t.reg a = (if a = 0 then 0 else word r.1) ∧ t.t.fcsr = s.t.fcsr ||| r.2) ∧
        SameRegsBut a s.t t.t ∧ t.t.v = s.t.v ∧ t.t.q = s.t.q ∧ VecDone c [b.reg] s t)

/-- The mask and the scalar register that the mask instructions on all 128 bits write. -/
def Sys2Proof.Claims.maskResult (t : Thread) : Instr → Option ((QReg × BitVec 128) ⊕ (SReg × Word))
  | .qand a b c => some (.inl (a, t.qreg b &&& t.qreg c))
  | .qor a b c => some (.inl (a, t.qreg b ||| t.qreg c))
  | .qxor a b c => some (.inl (a, t.qreg b ^^^ t.qreg c))
  | .qnot a b => some (.inl (a, ~~~(t.qreg b)))
  | .qmov (.maskToMask a b) => some (.inl (a, t.qreg b))
  | .qmov (.scalarToLow a x) => some (.inl (a, (t.qreg a).extractLsb' 64 64 ++ t.reg x))
  | .qmov (.scalarToHigh a x) => some (.inl (a, t.reg x ++ (t.qreg a).extractLsb' 0 64))
  | .qmov (.lowToScalar a b) => some (.inr (a, (t.qreg b).extractLsb' 0 64))
  | .qmov (.highToScalar a b) => some (.inr (a, (t.qreg b).extractLsb' 64 64))
  | _ => none

/-- The mask instructions complete whenever `vtype` is legal and the thread waits for no unit: the bitwise ones and `qmov` act on all 128 bits whatever `vl` and `vstart` are; `qpopc` counts
the set bits at the positions of logical elements, and `qfirst` gives the lowest, or all ones. -/
def Obligations.MaskInstructionsActOnMasks : Prop :=
  ∀ (i : Instr) (s : State) (ty : ETy), (s.t.vlive = true → s.t.unit.isSome = true ∧ s.t.save = none) → s.t.vty = some ty →
    (∀ a v, maskResult s.t i = some (.inl (a, v)) → a ≠ 0 →
      ∃ t, exec i s = .next t ∧ t.t.qreg a = v ∧ (∀ q, q ≠ a → t.t.qreg q = s.t.qreg q) ∧ t.t.regs = s.t.regs ∧ t.t.v = s.t.v ∧ OnlyThread s t) ∧
    (∀ a v, maskResult s.t i = some (.inr (a, v)) →
      ∃ t, exec i s = .next t ∧ t.t.reg a = (if a = 0 then 0 else v) ∧ SameRegsBut a s.t t.t ∧ OnlyRegs s.t t.t ∧ OnlyThread s t) ∧
    (∀ (a : SReg) (b : QReg) (c : VCfg), VecReady s clsAll false none [] c [] s → Runs s c →
      (∃ (t : State) (ps : List Nat), exec (.qpopc a b) s = .next t ∧ ps.Nodup ∧ (∀ p, p ∈ ps ↔ (s.t.qreg b).getLsbD p = true ∧ ∃ e, Logical c p e) ∧
        t.t.reg a = (if a = 0 then 0 else word ps.length) ∧ SameRegsBut a s.t t.t ∧ OnlyRegs s.t t.t ∧ OnlyThread s t) ∧
      (∃ t, exec (.qfirst a b) s = .next t ∧
        ((∀ p e, (s.t.qreg b).getLsbD p = true → ¬ Logical c p e) → t.t.reg a = (if a = 0 then 0 else 0xFFFFFFFFFFFFFFFF)) ∧
        (∀ p e, Logical c p e → (s.t.qreg b).getLsbD p = true → (∀ q < p, ∀ e', (s.t.qreg b).getLsbD q = true → ¬ Logical c q e') →
          t.t.reg a = (if a = 0 then 0 else word p)) ∧
        SameRegsBut a s.t t.t ∧ OnlyRegs s.t t.t ∧ OnlyThread s t))

/-! ## Vector memory -/

/-- Byte address and bit offset of logical element `e` at its position (Table 15.4), with the register that holds the data or the index. -/
def Sys2Proof.Claims.elemAddr (s : State) (c : VCfg) (l : Sources) : Instr → Option (Nat → Word × Nat)
  | .vld _ b _ bit imm | .vst b _ _ bit imm => some fun e => (s.t.reg b + wi imm.toInt + word ((bit.toNat + e * c.w) / 8), (bit.toNat + e * c.w) % 8)
  | .vlds _ b st _ imm => some fun e => (s.t.reg b + wi imm.toInt + word e * s.t.reg st, 0)
  | .vsts b _ st _ imm => some fun e => (s.t.reg b + wi imm.toInt + word e * s.t.reg st, 0)
  | .vldx _ b x _ sc imm => some fun e => (s.t.reg b + wi imm.toInt + word ((vget (srcOf l s.t x.reg) (c.pos e) 0).toNat * 2 ^ sc.toNat), 0)
  | .vstx b _ x _ sc imm => some fun e => (s.t.reg b + wi imm.toInt + word ((vget (srcOf l s.t x.reg) (c.pos e) 0).toNat * 2 ^ sc.toNat), 0)
  | _ => none

/-- Destination, vector sources, mask and class of the vector loads, and what R361 refuses. -/
def Sys2Proof.Claims.vloadOf (c : VCfg) : Instr → Option (VDst × List (BitVec 5) × QReg × (ETy → Bool))
  | .vld a _ k bit _ => if bit ≠ 0 ∧ 8 ≤ c.w then none else some (a, [], k, clsAll)
  | .vlds a _ _ k _ => some (a, [], k, clsNoSub)
  | .vldx a _ x k sc _ => if 3 < sc.toNat then none else some (a, [x.reg], k, clsNoSub)
  | _ => none

/-- Data register, vector sources, mask and class of the vector stores. -/
def Sys2Proof.Claims.vstoreOf (c : VCfg) : Instr → Option (VSrc × List (BitVec 5) × QReg × (ETy → Bool))
  | .vst _ d k bit _ => if bit ≠ 0 ∧ 8 ≤ c.w then none else some (d, [d.reg], k, clsAll)
  | .vsts _ d _ k _ => some (d, [d.reg], k, clsNoSub)
  | .vstx _ d x k sc _ => if 3 < sc.toNat then none else some (d, [d.reg, x.reg], k, clsNoSub)
  | _ => none

/-- The active logical elements from `vstart` on, in order. -/
def Sys2Proof.Claims.activeFrom (s : State) (c : VCfg) (k : QReg) : List Nat :=
  (List.range (c.vlr * c.vl)).filter fun e => decide (s.t.vstart.toNat ≤ e) && (s.t.qreg k).getLsbD (c.pos e)

/-- The bits of bytes that an active element of a store covers: the place of each byte, the bits in it and their values. -/
def Sys2Proof.Claims.CellsOf (cs : List (Nat × List (Place × Nat × Nat))) : List (Place × Nat × Nat) := cs.flatMap (·.2)

/-- A vector load whose active elements may be read, with no poison and, for `vldx`, none on a GX page, completes: each active position takes what its element read, padding positions
take code 0, and every other position and register stays. An element in the thread's own window reads the bits that the scratchpad holds there.
A vector store whose active elements may be written, on HBM or a scratchpad and with no bit written twice, completes: every bit that an active element covers takes the
element's bit, every other bit of memory outside the lease aperture stays, and no register changes. -/
def Obligations.VectorLoadsAndStoresMoveTheirElements : Prop :=
  (∀ (i : Instr) (a : VDst) (srcs : List (BitVec 5)) (k : QReg) (cls : ETy → Bool) (ad : Nat → Word × Nat) (c : VCfg) (l : Sources)
     (s s1 s2 : State) (vals : List (Nat × BitVec 32)),
     vloadOf c i = some (a, srcs, k, cls) → elemAddr s c l i = some ad → VecReady s cls false (some a.reg) srcs c l s1 →
     (srcs = [] → (loadElems c.w ad (activeFrom s c k)).exec s1 = (.ok (vals, []), s2)) →
     (srcs ≠ [] → (gatherElems c.w ad (activeFrom s c k)).exec s1 = (.ok (vals.map fun x => (x.1, Gathered.value x.2)), s2)) →
     ∃ t, exec i s = .next t ∧
       (∀ p < 128,
         (∀ e, Logical c p e → s.t.vstart.toNat ≤ e → vget (t.t.vreg a.reg) p 0 =
           if (s.t.qreg k).getLsbD p then canon c.ty ((alookup e vals).getD 0).toNat else if a.zeroing then 0 else vget (s.t.vreg a.reg) p 0) ∧
         (c.padding p = true → vget (t.t.vreg a.reg) p 0 = 0) ∧
         (c.padding p = false → (∀ e, Logical c p e → e < s.t.vstart.toNat) → vget (t.t.vreg a.reg) p 0 = vget (s.t.vreg a.reg) p 0)) ∧
       (∀ r, r ≠ a.reg → t.t.vreg r = s.t.vreg r) ∧ t.t.q = s.t.q ∧ t.t.regs = s.t.regs ∧ t.t.fcsr = s.t.fcsr ∧ VecDone c srcs s t ∧
       (∀ e ∈ activeFrom s c k, ∀ off task, s.t.skip = none → s.t.task = some task → (ad e).1 = 0xFF00000000000000 + word off →
         off + ((ad e).2 + c.w + 7) / 8 ≤ task.spadu * 4096 → task.spadu ≤ 64 →
         alookup e vals = some (BitVec.ofNat 32
           (fld (leNat (memReadN s.mem (spadKey s.core (task.spadBase + off)) (((ad e).2 + c.w + 7) / 8))) (ad e).2 c.w)))) ∧
  (∀ (i : Instr) (d : VSrc) (srcs : List (BitVec 5)) (k : QReg) (cls : ETy → Bool) (ad : Nat → Word × Nat) (c : VCfg) (l : Sources)
     (s s1 s2 : State) (cs : List (Nat × List (Place × Nat × Nat))),
     vstoreOf c i = some (d, srcs, k, cls) → elemAddr s c l i = some ad → VecReady s cls false none srcs c l s1 → s.t.skip = none →
     memWf s.mem = true →
     (checkStores c.w ad (fun e => (vget (srcOf l s.t d.reg) (c.pos e) 0).toNat % 2 ^ c.w) (activeFrom s c k)).exec s1 = (.ok (cs, []), s2) →
     (CellsOf cs).all (fun y => plainPlace y.1) = true →
     (CellsOf cs).Pairwise (fun y z => keyOf y.1 = keyOf z.1 → y.2.1 &&& z.2.1 = 0) →
     ∃ t, exec i s = .next t ∧
       (∀ x, x < apertureBase ∨ apertureEnd ≤ x → ∀ b < 8, (memRead t.mem x).getLsbD b =
         match (CellsOf cs).find? fun y => keyOf y.1 == x && y.2.1.testBit b with
         | some y => y.2.2.testBit b
         | none => (memRead s.mem x).getLsbD b) ∧
       t.t.v = s.t.v ∧ t.t.q = s.t.q ∧ t.t.regs = s.t.regs ∧ t.t.fcsr = s.t.fcsr ∧ t.t.pc = s.retire.t.pc ∧ memWf t.mem = true)

/-- The GXUs serve a gather: GXU_REQUEST hands the indices of a waiting `vldx` to the originating GXU, which serves those of its own stack, GXU_FOREIGN_REQUEST serves those of another,
each index as the bytes that HBM holds below L2 (R191), and GXU_GROUP_RETURN of the last complete group, with no poison, lands every active position and retires the `vldx`. -/
def Obligations.GathersLandInGroups : Prop :=
  ∀ (s : State) (g : Gather), s.gather? g.req = some g →
    (g.sent = false → (s.gathers.find? fun x => x.tid == g.tid && !x.sent && x.dst == g.dst && x.size == g.size && x.idx == g.idx) = some g →
      ∃ t h, exec (.gxuRequest g.tid g.dst g.size g.idx) s = .next t ∧ t.gather? g.req = some h ∧ h.sent = true ∧
        h.idx = g.idx.filter (fun x => x.2 / 4096 % 12 ≠ g.origin) ∧ SameMemory s t) ∧
    (∀ stack, g.sent = true →
      ∃ t h, exec (.gxuForeignRequest g.req stack) s = .next t ∧ t.gather? g.req = some h ∧ h.idx = g.idx.filter (fun x => x.2 / 4096 % 12 ≠ stack) ∧
        h.got.map (fun x => (x.1, x.2.1)) = g.got.map (fun x => (x.1, x.2.1)) ++
          (g.idx.filter fun x => x.2 / 4096 % 12 = stack).map (fun x => (x.1, BitVec.ofNat 32 (leNat ((List.range g.size).map fun j => s.hbmByte (x.2 + j))))) ∧
        SameMemory s t) ∧
    (∀ group ty, g.sent = true → g.complete group = true → group ∈ g.groups → group ∉ g.returned → g.idx = [] → g.refused = [] → (∀ x ∈ g.got, x.2.2 = false) →
      (∀ x ∈ g.groups, x = group ∨ x ∈ g.returned) → (∀ x ∈ g.groups, g.complete x = true) → g.zero = [] →
      (s.switchTo g.tid).t.vty = some ty → g.tid < 2304 → s.cur < 2304 →
      ∃ t, exec (.gxuGroupReturn g.req group) s = .next t ∧ t.cur = g.tid ∧ t.t.stall = .none ∧ SameMemory s t ∧
        ∀ e ∈ g.elems, e.2.1 < 128 → ∃ v, alookup e.2.1 g.got = some (v, false) ∧ vget (t.t.vreg g.dst) e.2.1 0 = canon ty v.toNat)

/-! ## Tiles -/

/-- The entry of a register is in the map cache and is sound: it is well formed, and one that claims a resident version names this core, which holds it (R151, R172). -/
def Sys2Proof.Claims.HasEntry (s : State) (r : MReg) (e : BitVec 128) : Prop :=
  (∃ ch, s.t.line? r = some { reg := r, entry := e, changed := ch }) ∧ s.entBad r.toNat e = false ∧
    (entV e = true → entRes e = true → entCore e = s.core ∧ (findSet (s.getCore s.core).sets s.t.ctx r).isSome = true)

/-- A register holds a tile that is present: in its granule set, or in the accumulator bank of the core (R146). -/
def Sys2Proof.Claims.Holds (s : State) (r : MReg) (T : Tile) : Prop :=
  ∃ e x, HasEntry s r e ∧ entV e = true ∧ entTy e = T.code ∧ s.tileType T.code = some T.ety ∧
    findSet (s.getCore s.core).sets s.t.ctx r = some x ∧ x.filling = false ∧ s.tileOf s.core s.t.ctx r = some T

/-- The slot has a map, nothing of an earlier issue is held for it, the register in the core's accumulator bank has its granule set, and `n` granules are free. -/
def Sys2Proof.Claims.TileReady (s : State) (n : Nat) : Prop :=
  s.t.tmapbase ≠ 0 ∧ s.t.held = [] ∧ s.t.walked = [] ∧ s.t.vdone = 0 ∧ (s.freeSet s.core n).isSome = true ∧
    ∀ b, (s.getCore s.core).acc = some b → (findSet (s.getCore s.core).sets b.ctx b.reg).isSome = true

/-- A register has a new version: its entry says valid, resident and dirty with the tile's type, and the core holds the tile. -/
def Sys2Proof.Claims.Gains (s t : State) (r : MReg) (T : Tile) : Prop :=
  ∃ e x, t.t.line? r = some { reg := r, entry := e, changed := true } ∧ entV e = true ∧ entRes e = true ∧ entDirty e = true ∧ entTy e = T.code ∧
    findSet (t.getCore s.core).sets s.t.ctx r = some x ∧ x.dirty = true ∧ x.filling = false ∧ t.tileOf s.core s.t.ctx r = some T

/-- A register keeps its version and its entry. -/
def Sys2Proof.Claims.KeepsTile (s t : State) (r : MReg) : Prop :=
  t.t.line? r = s.t.line? r ∧ t.tileOf s.core s.t.ctx r = s.tileOf s.core s.t.ctx r ∧
    (findSet (t.getCore s.core).sets s.t.ctx r).map (·.dirty) = (findSet (s.getCore s.core).sets s.t.ctx r).map (·.dirty)

/-- What a tile instruction leaves: scalar registers, masks and gates stay, every other register of the map keeps its version, and the member retires. -/
def Sys2Proof.Claims.TileDone (s t : State) (ds : List MReg) : Prop :=
  t.t.regs = s.t.regs ∧ t.t.q = s.t.q ∧ t.t.g = s.t.g ∧ t.t.pc = s.retire.t.pc ∧ t.t.member = s.retire.t.member ∧ t.t.stall = .none ∧
    ∀ r, r ∉ ds → (s.t.line? r).isSome = true → KeepsTile s t r

/-- A type operand and the type that a tile of it has: its own, or for a code whose table entry widens it, the wider type of its descriptor, with the code kept (R266). -/
def Sys2Proof.Claims.TypeIs (s : State) (code : TypeCode) (ty : ETy) (narrow : Option TypeCode) : Prop :=
  (etyOf code = some ty ∧ narrow = none) ∨
    (etyOf code = none ∧ s.act (tableIndex s.t.ir) = 1 ∧ (s.desc? code).bind widenTo = some ty ∧ narrow = some code)

/-- SUBST is raised for a widened type. -/
def Sys2Proof.Claims.substFlag (narrow : Option TypeCode) : Word := if narrow.isSome then 0x4000 else 0

/-- A tile given element by element, with no poison. -/
def Sys2Proof.Claims.tileOf (ty : ETy) (narrow : Option TypeCode) (f : Nat → Nat) : Tile :=
  { ety := ty, elems := vtab 4096 fun i => BitVec.ofNat 40 (f i), poison := 0, narrow := narrow }

/-- The flags of all elements of a tile. -/
def Sys2Proof.Claims.tileFlags (f : Nat → Word) : Word := (List.range 4096).foldl (fun w i => w ||| f i) 0

/-- The shape that `setts` grants: K is capped by KCAP, rows and columns are 64 when 0 or more than 64. -/
def Sys2Proof.Claims.grantedShape (s : State) (b c d : SReg) : Word :=
  word (min (dim (s.t.reg b)) s.caps.2 * 2 ^ 16 + dim (s.t.reg d) * 2 ^ 8 + dim (s.t.reg c))
where
  dim (x : Word) : Nat := if x.toNat = 0 ∨ 64 < x.toNat then 64 else x.toNat

/-- `setts` of a thread with a map completes and grants a shape; without one it raises ILLEGAL, as the model reads R95, R171 and Table 13.4 (log 61). With the map on, the entries sound, the sources present and free of poison and room for the destination, `mzero`, `mmov`, `mtr`, `mcvt`, `mscale`
and `mput` complete: the destination has a new dirty version with the tile that R395, R401 and R402 give, the flags accrue, and every other register of the map keeps its version. One resumed past its count of rows or elements does nothing (R243; log 10). -/
def Obligations.TileInstructionsGiveNewVersions : Prop :=
  ∀ (s : State) (d : MReg),
    (∀ a b x y,
      (s.t.tmapbase ≠ 0 → ∃ t, exec (.setts a b x y) s = .next t ∧ t.t.tshape = grantedShape s b x y ∧
        t.t.reg a = (if a = 0 then 0 else grantedShape s b x y) ∧ SameRegsBut a s.t t.t ∧ OnlyThread s t) ∧
      (s.t.tmapbase = 0 →
        exec (.setts a b x y) s = .next (s.trap { cause := .illegal, xaddr := s.raw, xelem := word s.rawHigh, xmask := 0, vstart := none } false))) ∧
    (∀ (src : MSrc) (T : Tile) (ent : BitVec 128), s.t.past 64 = true → TileReady s 0 → HasEntry s d ent → Holds s src.reg T →
      ∀ i ∈ [Instr.mmov d src, .mtr d src], ∃ t, exec i s = .next t ∧ TileDone s t [] ∧ t.t.v = s.t.v ∧ t.t.fcsr = s.t.fcsr ∧ SameMemory s t) ∧
    (∀ (ty : TypeCode) (e : ETy) (nar : Option TypeCode) (ent : BitVec 128), TypeIs s ty e nar → TileReady s e.granules → HasEntry s d ent →
      ∃ t, exec (.mzero d ty) s = .next t ∧ Gains s t d (tileOf e nar fun _ => 0) ∧ TileDone s t [d] ∧ t.t.v = s.t.v ∧
        t.t.fcsr = s.t.fcsr ||| substFlag nar ∧ SameMemory s t) ∧
    (∀ (src : MSrc) (T : Tile) (ent : BitVec 128), s.t.past 64 = false → TileReady s T.ety.granules → HasEntry s d ent → Holds s src.reg T → T.poison = 0 →
      (∃ t, exec (.mmov d src) s = .next t ∧ Gains s t d T ∧ TileDone s t [d] ∧ t.t.v = s.t.v ∧ t.t.fcsr = s.t.fcsr ∧ SameMemory s t) ∧
      (∃ t, exec (.mtr d src) s = .next t ∧ Gains s t d (tileOf T.ety T.narrow fun i => (vget T.elems (64 * (i % 64) + i / 64) 0).toNat) ∧
        TileDone s t [d] ∧ t.t.v = s.t.v ∧ t.t.fcsr = s.t.fcsr ∧ SameMemory s t)) ∧
    (∀ (src : MSrc) (T : Tile) (ty : TypeCode) (e : ETy) (nar : Option TypeCode) (ent : BitVec 128), s.t.past 64 = false → TypeIs s ty e nar → TileReady s e.granules →
      HasEntry s d ent → Holds s src.reg T → T.poison = 0 → T.code ≠ ty →
      let f := fun i => convert s.t.rm (s.t.book T.ety) (s.t.book e) T.ety e (vget T.elems i 0).toNat
      ∃ t, exec (.mcvt d src ty) s = .next t ∧ Gains s t d (tileOf e nar fun i => (f i).1) ∧ TileDone s t [d] ∧ t.t.v = s.t.v ∧
        t.t.fcsr = s.t.fcsr ||| tileFlags (fun i => (f i).2) ||| substFlag nar ∧ SameMemory s t) ∧
    (∀ (src : MSrc) (T : Tile) (v : VSrc) (cols : Bool) (fm : Fmt) (c : VCfg) (l : Sources) (s1 : State) (ent : BitVec 128),
      s.t.past 64 = false → TileReady s T.ety.granules → HasEntry s d ent → Holds s src.reg T → T.poison = 0 → T.ety.scales = true → T.ety.fmt? = some fm →
      VecReady s isFp32 true none [v.reg] c l s1 →
      let f := fun i =>
        let p := if cols then i % 64 else i / 64
        if p < c.vl then fm.finish s.t.rm (mulVals (fm.decode (vget T.elems i 0).toNat) (Machine.fp32.decode (vget (srcOf l s.t v.reg) p 0).toNat))
        else ((vget T.elems i 0).toNat, 0)
      ∃ t, exec (.mscale d src v cols) s = .next t ∧ Gains s t d (tileOf T.ety T.narrow fun i => (f i).1) ∧ TileDone s t [d] ∧ t.t.v = s.t.v ∧
        t.t.fcsr = s.t.fcsr ||| tileFlags (fun i => (f i).2) ∧ SameOwnMemory s t) ∧
    (∀ (v : VSrc) (row : RowSel) (T : Tile) (c : VCfg) (l : Sources) (s1 : State) (lo : Nat),
      lo = 64 * (match row with | .imm r => r.toNat | .scalar x => (s.t.reg x).toNat % 64) →
      s.t.past c.vl = false → TileReady s c.ty.granules → VecReady s clsAll true none [v.reg] c l s1 →
      (Holds s d T ∧ T.ety = c.ty ∧ T.poison = 0 ∨ (∃ ent, HasEntry s d ent ∧ entV ent = false) ∧ T = tileOf c.ty none fun _ => 0) →
      ∃ t, exec (.mput d v row) s = .next t ∧
        Gains s t d (tileOf c.ty T.narrow fun i =>
          if lo ≤ i ∧ i < lo + c.vl then (vget (srcOf l s.t v.reg) (i - lo) 0).toNat % 2 ^ c.w else (vget T.elems i 0).toNat) ∧
        TileDone s t [d] ∧ t.t.v = s.t.v ∧ t.t.fcsr = s.t.fcsr ∧ SameOwnMemory s t)

/-- The first `n` positions of a vector register take values, and the rest keep theirs. -/
def Sys2Proof.Claims.FrontIs (old new : Vector (BitVec 32) 128) (n : Nat) (f : Nat → BitVec 32) : Prop :=
  ∀ p < 128, vget new p 0 = if p < n then f p else vget old p 0

/-- `mrow`, `mrmax` and `mrsum` that are not resumed past their elements or rows (R243), of a present tile without poison complete: the vector register takes the run of elements, the largest element or the exact sum of each row rounded to FP32. `mrel`
releases every register of its range: V is 0, no version is resident, and memory stays. `mpf` changes no register and no byte of memory: with every register present or invalid it completes, and one whose slot can
be read is given a fill. -/
def Obligations.RowsReachVectorsAndRegistersAreReleased : Prop :=
  ∀ (s : State) (a : BitVec 5) (src : MSrc) (T : Tile) (c : VCfg),
    (∀ (row : RowSel) (lo : Nat), lo = 64 * (match row with | .imm r => r.toNat | .scalar x => (s.t.reg x).toNat % 64) →
      s.t.past c.vl = false → TileReady s 0 → Holds s src.reg T → T.poison = 0 → T.ety = c.ty → VecReady s clsAll true (some a) [] c [] s →
      ∃ t, exec (.mrow a src row) s = .next t ∧
        FrontIs (s.t.vreg a) (t.t.vreg a) c.vl (fun p => if lo + p < 4096 then canon c.ty (vget T.elems (lo + p) 0).toNat else 0) ∧
        (∀ r, r ≠ a → t.t.vreg r = s.t.vreg r) ∧ TileDone s t [] ∧ t.t.fcsr = s.t.fcsr ∧ SameMemory s t) ∧
    (TileReady s 0 → Holds s src.reg T → T.poison = 0 → s.t.shape.ok = true → s.t.past s.t.shape.rows = false → VecReady s isFp32 true (some a) [] c [] s →
      (T.ety.scales = true ∨ T.ety.isCb4 = true) →
      (∃ t, exec (.mrsum a src) s = .next t ∧
        FrontIs (s.t.vreg a) (t.t.vreg a) s.t.shape.rows (fun r => BitVec.ofNat 32 (Machine.fp32.finish s.t.rm
          (sumVals s.t.rm ((List.range s.t.shape.cols).map fun k => s.t.tileVal T (64 * r + k)))).1) ∧
        (∀ r, r ≠ a → t.t.vreg r = s.t.vreg r) ∧ TileDone s t [] ∧ SameMemory s t) ∧
      (∀ fm, (if T.ety.isCb4 then some Machine.bf16 else T.ety.fmt?) = some fm →
        ∃ t, exec (.mrmax a src) s = .next t ∧
        FrontIs (s.t.vreg a) (t.t.vreg a) s.t.shape.rows (fun r => BitVec.ofNat 32 (Machine.fp32.encode s.t.rm (fm.decode
          (((List.range (s.t.shape.cols - 1)).foldl (fun m k => (fm.minmax false m (s.t.maxCode T (64 * r + k + 1))).1) (s.t.maxCode T (64 * r)))))).1) ∧
        (∀ r, r ≠ a → t.t.vreg r = s.t.vreg r) ∧ TileDone s t [] ∧ SameMemory s t)) ∧
    (∀ (d : MReg) (nm1 : BitVec 8), TileReady s 0 → d.toNat + nm1.toNat < 512 → (∀ r : MReg, d.toNat ≤ r.toNat → r.toNat ≤ d.toNat + nm1.toNat → ∃ e, HasEntry s r e) →
      ∃ t, exec (.mrel d nm1) s = .next t ∧ TileDone s t ((List.range (nm1.toNat + 1)).map fun i => d + BitVec.ofNat 9 i) ∧ t.t.v = s.t.v ∧ SameMemory s t ∧
        ∀ r : MReg, d.toNat ≤ r.toNat → r.toNat ≤ d.toNat + nm1.toNat → (∃ l, t.t.line? r = some l ∧ entV l.entry = false) ∧
          ((∃ e, HasEntry s r e ∧ entV e = true) → findSet (t.getCore s.core).sets s.t.ctx r = none)) ∧
    (∀ (d : MReg) (g : GateSel) (nm1 : BitVec 8), TileReady s 0 →
      (∀ i ≤ nm1.toNat, d.toNat + i < 512 → ∃ e, HasEntry s (d + BitVec.ofNat 9 i) e ∧
        (entV e = true → (findSet (s.getCore s.core).sets s.t.ctx (d + BitVec.ofNat 9 i)).isSome = true)) →
      ∃ t, exec (.mpf d g nm1) s = .next t ∧ TileDone s t [] ∧ t.t.v = s.t.v ∧ SameMemory s t) ∧
    (∀ (d : MReg) (e : BitVec 128) (ty : ETy) (ps : List Place) (s1 : State), HasEntry s d e → entV e = true →
      findSet (s.getCore s.core).sets s.t.ctx d = none → s.tileType (entTy e) = some ty → TileReady s ty.granules →
      (fsePlaces s.t.ctx s.t.sup (backAddr s.t.tmapbase d) ty.bytes).run s = (.ok ps, s1) →
      ∃ t x, exec (.mpf d { gate := none, seg := 0 } 0) s = .next t ∧ TileDone s t [d] ∧ t.t.v = s.t.v ∧ SameMemory s t ∧
        findSet (t.getCore s.core).sets s.t.ctx d = some x ∧ x.filling = true ∧ x.hinted = true)

/-- Column `k` of a row in the thread's own window: `w` bits of the scratchpad from bit `k * w` of byte `off` of the allocation on. -/
def Sys2Proof.Claims.windowColumn (s : State) (task : Task) (off w k : Nat) : Nat :=
  fld (leNat (memReadN s.mem (spadKey s.core (task.spadBase + off + k * w / 8)) ((k * w % 8 + w + 7) / 8))) (k * w % 8) w

/-- The bytes of a row of codes. -/
def Sys2Proof.Claims.rowLen (cols w : Nat) : Nat := (cols * w + 7) / 8

/-- The rows that a tile instruction moves lie in the thread's own window, in ascending order without overlap; nothing there is poisoned. -/
def Sys2Proof.Claims.WindowRows (s : State) (task : Task) (base stride : Word) (off st rows len : Nat) : Prop :=
  s.t.skip = none ∧ s.t.vstart = 0 ∧ s.t.task = some task ∧ task.spadu ≤ 64 ∧ base = 0xFF00000000000000 + word off ∧ stride = word st ∧ len ≤ st ∧ 1 ≤ rows ∧
    off + (rows - 1) * st + len ≤ task.spadu * 4096 ∧ s.poison = []

/-- `mld`, `mst`, `mcb` and `sacc` on rows in the thread's own window complete. `mld`: element (r, k) of the new version is column k of row r, re-encoded for a widened type, and all others are 0. `mst`: the rows of memory hold the
codes of the leading rows and columns, and every other byte stays. `mcb`: the codebook takes 32 bytes. `sacc`: each entry of a kept step takes the entry plus the exact sum of a column of weights, rounded
once, and every other byte stays. -/
def Obligations.TileRowsMoveToAndFromMemory : Prop :=
  ∀ (s : State) (task : Task) (base stride : SReg) (off st : Nat),
    (∀ (d : MReg) (code : TypeCode) (ty : ETy) (nar : Option TypeCode) (ent : BitVec 128) (w : Nat), TypeIs s code ty nar →
      w = (match nar.bind s.desc? with | some x => x.bits | none => ty.width) → s.t.shape.ok = true → colsFit ty s.t.shape.cols = true →
      TileReady s ty.granules → HasEntry s d ent →
      WindowRows s task (s.t.reg base) (s.t.reg stride) off st s.t.shape.rows (rowLen s.t.shape.cols w) →
      ∃ t, exec (.mld d base stride code) s = .next t ∧
        Gains s t d (tileOf ty nar fun i => if i / 64 < s.t.shape.rows ∧ i % 64 < s.t.shape.cols then
          (let x := windowColumn s task (off + i / 64 * st) w (i % 64)
           match nar.bind s.desc?, ty.fmt? with
           | some e, some f => (f.encode .rne (e.fmt.decode x)).1
           | _, _ => x) else 0) ∧
        TileDone s t [d] ∧ t.t.v = s.t.v ∧ t.t.fcsr = s.t.fcsr ||| substFlag nar ∧ SameMemory s t) ∧
    (∀ (src : MSrc) (T : Tile), Holds s src.reg T → T.poison = 0 → T.narrow = none → s.t.shape.ok = true → colsFit T.ety s.t.shape.cols = true →
      TileReady s 0 → memWf s.mem = true →
      WindowRows s task (s.t.reg base) (s.t.reg stride) off st s.t.shape.rows (rowLen s.t.shape.cols T.ety.width) →
      ∃ t, exec (.mst src base stride) s = .next t ∧
        (∀ r < s.t.shape.rows, ∀ k < s.t.shape.cols, ∀ b < T.ety.width,
          (memRead t.mem (spadKey s.core (task.spadBase + off + r * st + (k * T.ety.width + b) / 8))).getLsbD ((k * T.ety.width + b) % 8) =
            (vget T.elems (64 * r + k) 0).getLsbD b) ∧
        (∀ x, (∀ r < s.t.shape.rows, x < spadKey s.core (task.spadBase + off + r * st) ∨
          spadKey s.core (task.spadBase + off + r * st) + rowLen s.t.shape.cols T.ety.width ≤ x) → memRead t.mem x = memRead s.mem x) ∧
        TileDone s t [] ∧ t.t.v = s.t.v ∧ t.t.fcsr = s.t.fcsr) ∧
    (∀ cb : BitVec 2, TileReady s 0 → WindowRows s task (s.t.reg base) 32 off 32 1 32 →
      ∃ t, exec (.mcb cb base) s = .next t ∧
        (t.t.cbreg cb).toNat = leNat (memReadN s.mem (spadKey s.core (task.spadBase + off)) 32) ∧ (∀ j, j ≠ cb → t.t.cbreg j = s.t.cbreg j) ∧
        TileDone s t [] ∧ t.t.v = s.t.v ∧ SameMemory s t) ∧
    (∀ (w : MSrc) (g : GateSel) (nm1 : BitVec 8) (τ : MReg → Tile), TileReady s 0 → s.t.shape.ok = true → w.reg.toNat + nm1.toNat < 512 → memWf s.mem = true →
      (∀ i ∈ s.t.kept g (nm1.toNat + 1), Holds s (w.reg + BitVec.ofNat 9 i) (τ (w.reg + BitVec.ofNat 9 i)) ∧ (τ (w.reg + BitVec.ofNat 9 i)).poison = 0 ∧
        ((τ (w.reg + BitVec.ofNat 9 i)).ety.scales = true ∨ (τ (w.reg + BitVec.ofNat 9 i)).ety.isCb4 = true)) →
      WindowRows s task (s.t.reg base) 256 off 256 (nm1.toNat + 1) 256 →
      ∃ t, exec (.sacc base w g nm1) s = .next t ∧
        (∀ i ∈ s.t.kept g (nm1.toNat + 1), ∀ k < s.t.shape.cols,
          leNat (memReadN t.mem (spadKey s.core (task.spadBase + off + 256 * i + 4 * k)) 4) =
            (Machine.fp32.finish s.t.rm (sumVals s.t.rm
              (Machine.fp32.decode (leNat (memReadN s.mem (spadKey s.core (task.spadBase + off + 256 * i + 4 * k)) 4)) ::
                (List.range s.t.shape.rows).map fun r => s.t.tileVal (τ (w.reg + BitVec.ofNat 9 i)) (64 * r + k)))).1) ∧
        (∀ x, (∀ i ∈ s.t.kept g (nm1.toNat + 1), x < spadKey s.core (task.spadBase + off + 256 * i) ∨
          spadKey s.core (task.spadBase + off + 256 * i) + 4 * s.t.shape.cols ≤ x) → memRead t.mem x = memRead s.mem x) ∧
        TileDone s t [] ∧ t.t.v = s.t.v)

/-- Kept step `i` of a walk: destination, A and B (Table 16.4). -/
def Sys2Proof.Claims.walkStep (walk : Nat) (d a b : MReg) (i : Nat) : MReg × MReg × MReg :=
  (if walk = 1 then d + BitVec.ofNat 9 i else d, if walk = 2 then a + BitVec.ofNat 9 i else a, if walk = 0 then b else b + BitVec.ofNat 9 i)

/-- The element (r, k) of a step: the accumulator plus the products of row r of A and column k of B, or row k of B when it is transposed, in groups of 16. -/
def Sys2Proof.Claims.stepElement (th : Thread) (sh : Shape) (cls : MClass) (tb : Bool) (A B : Tile) (x : Nat) (i : Nat) : Nat × Word :=
  dotGroups cls sh.k x (fun k => th.tileVal A (64 * (i / 64) + k)) (fun k => th.tileVal B (if tb then 64 * (i % 64) + k else 64 * k + i % 64))
    (fun k => tileInt A (64 * (i / 64) + k)) (fun k => tileInt B (if tb then 64 * (i % 64) + k else 64 * k + i % 64))

/-- The tiles after the steps of a walk and the flags that they raise; `rd` says whether a step reads its destination. -/
def Sys2Proof.Claims.walkTiles (th : Thread) (sh : Shape) (cls : MClass) (tb acc sum : Bool) : List (MReg × MReg × MReg) → Bool → (MReg → Tile) → (MReg → Tile) × Word
  | [], _, τ => (τ, 0)
  | (d, a, b) :: rest, later, τ =>
    let rd := acc || sum && later
    let f := fun i => if i / 64 < sh.rows ∧ i % 64 < sh.cols then stepElement th sh cls tb (τ a) (τ b) (if rd then (vget (τ d).elems i 0).toNat else 0) i
      else (if rd then (vget (τ d).elems i 0).toNat else 0, 0)
    let r := walkTiles th sh cls tb acc sum rest true fun x => if x = d then tileOf cls.acc none fun i => (f i).1 else τ x
    (r.1, tileFlags (fun i => (f i).2) ||| r.2)

/-- A byte of an event ring of a partition. -/
def Sys2Proof.Claims.EventByte (s : State) (part x : Nat) : Prop :=
  ∃ p, s.part? part = some p ∧ ∃ j < 4, ∀ r, vget p.rings j { base := 0, log2 := 0, head := 0, tail := 0 } = r →
    8 ≤ r.log2.toNat ∧ r.log2.toNat ≤ 24 ∧ r.base.toNat ≤ x ∧ x < r.base.toNat + 32 * 2 ^ r.log2.toNat

/-- A new `mmul` whose kept operands are present, of one class and without poison, with room for its destinations, and which no pre-emption and no pending cause stops (R244), completes in every walk: each destination has the accumulator tile of its steps, the flags of every element accrue, and only
event records change memory. With no step kept, an accumulating or a spreading walk changes nothing, and any other gives the destination a zero accumulator. -/
def Obligations.MatrixMultiplyAccumulatesEveryKeptStep : Prop :=
  ∀ (s : State) (d : MReg) (ma mb : MSrc) (g : GateSel) (walk : BitVec 2) (tb acc : Bool) (nm1 : BitVec 8) (cls : MClass) (τ : MReg → Tile)
    (steps : List (MReg × MReg × MReg)),
    walk.toNat ≤ 2 → (walk = 0 → nm1 = 0) → s.t.shape.ok = true → s.t.vstart = 0 → s.t.stopsWalk = false → s.t.tmapbase ≠ 0 →
    d.toNat + (if walk = 1 then nm1.toNat else 0) < 512 → ma.reg.toNat + (if walk = 2 then nm1.toNat else 0) < 512 →
    mb.reg.toNat + (if walk = 0 then 0 else nm1.toNat) < 512 →
    (∀ i ≤ nm1.toNat, ∀ j ≤ nm1.toNat, (walkStep walk.toNat d ma.reg mb.reg i).1 ≠ (walkStep walk.toNat d ma.reg mb.reg j).2.1 ∧
      (walkStep walk.toNat d ma.reg mb.reg i).1 ≠ (walkStep walk.toNat d ma.reg mb.reg j).2.2) →
    steps = (s.t.kept g (nm1.toNat + 1)).map (walkStep walk.toNat d ma.reg mb.reg) →
    (steps ≠ [] → TileReady s (5 * steps.length) →
      (∀ x ∈ steps, Holds s x.2.1 (τ x.2.1) ∧ Holds s x.2.2 (τ x.2.2) ∧ (τ x.2.1).poison = 0 ∧ (τ x.2.2).poison = 0 ∧
        (τ x.2.1).ety.mclass? = some cls ∧ (τ x.2.2).ety.mclass? = some cls ∧
        (if acc then Holds s x.1 (τ x.1) ∧ (τ x.1).ety = cls.acc ∧ (τ x.1).poison = 0 else ∃ e, HasEntry s x.1 e)) →
      ∃ t, exec (.mmul d ma mb g walk tb acc nm1) s = .next t ∧
        (∀ x ∈ steps, Gains s t x.1 ((walkTiles s.t s.t.shape cls tb acc (walk == 2) steps false τ).1 x.1)) ∧
        t.t.fcsr = s.t.fcsr ||| (walkTiles s.t s.t.shape cls tb acc (walk == 2) steps false τ).2 ∧ t.t.v = s.t.v ∧ TileDone s t (steps.map (·.1)) ∧
        (∀ x, ¬ EventByte s s.t.part x → memRead t.mem x = memRead s.mem x)) ∧
    (steps = [] → (walk = 1 ∨ acc = true) →
      ∃ t, exec (.mmul d ma mb g walk tb acc nm1) s = .next t ∧ TileDone s t [] ∧ t.t.v = s.t.v ∧ t.t.fcsr = s.t.fcsr ∧ SameMemory s t) ∧
    (steps = [] → walk ≠ 1 → acc = false → TileReady s 5 → (s.t.line? ma.reg).isSome = true → (∃ e, HasEntry s d e) →
      ∃ t ty, exec (.mmul d ma mb g walk tb acc nm1) s = .next t ∧ (ty = .a40 ∨ ty = .i40) ∧ Gains s t d (tileOf ty none fun _ => 0) ∧ TileDone s t [d] ∧
        t.t.fcsr = s.t.fcsr ∧ SameMemory s t)

/-- Positions ranked by score descending, equal scores in ascending position, NaN last. -/
def Sys2Proof.Claims.Ranked (ty : ETy) (score : Nat → Nat) (order : List Nat) : Prop :=
  order.Pairwise fun p q => ranksAbove ty (score q) (score p) = false ∧ (ranksAbove ty (score p) (score q) = false → p < q)

/-- What an instruction on gates leaves: every other gate, every vector register and mask, and all memory but the copies of leased lines. -/
def Sys2Proof.Claims.GateDone (a : GReg) (s t : State) : Prop :=
  (∀ b, b ≠ a → t.t.greg b = s.t.greg b) ∧ t.t.v = s.t.v ∧ t.t.q = s.t.q ∧ t.t.pc = s.retire.t.pc ∧ SameOwnMemory s t

/-- With the map on, `scout` and the gate instructions complete. `scout` writes the largest score of each kept key tile and −∞ for the others; `gthr` and `gtopk` write a run of bits from scores; the bitwise ones act on
4,096 bits; `gpop` counts, `gnext` finds the next set bit or gives 4,096; `gld` and `gst` move 512 bytes that may be accessed. `gthr`, `gtopk`, `gld` and `gst` do nothing when they are
resumed past their scores or their only row (R243; log 10). -/
def Obligations.ScoutAndGateInstructionsComplete : Prop :=
  ∀ (s : State) (a b x : GReg) (r y : SReg), s.t.tmapbase ≠ 0 →
    (a ≠ 0 → (∃ t, exec (.gand a b x) s = .next t ∧ t.t.greg a = s.t.greg b &&& s.t.greg x ∧ t.t.regs = s.t.regs ∧ GateDone a s t ∧ SameMemory s t) ∧
      (∃ t, exec (.gor a b x) s = .next t ∧ t.t.greg a = s.t.greg b ||| s.t.greg x ∧ t.t.regs = s.t.regs ∧ GateDone a s t ∧ SameMemory s t) ∧
      (∃ t, exec (.gnot a b) s = .next t ∧ t.t.greg a = ~~~(s.t.greg b) ∧ t.t.regs = s.t.regs ∧ GateDone a s t ∧ SameMemory s t)) ∧
    (∀ (seg : BitVec 4) (nm1 : BitVec 8), ∃ t, exec (.gpop r b seg nm1) s = .next t ∧
      t.t.reg r = (if r = 0 then 0 else word ((List.range 4096).filter fun i =>
        decide (256 * seg.toNat ≤ i) && decide (i ≤ 256 * seg.toNat + nm1.toNat) && (s.t.greg b).getLsbD i).length) ∧
      SameRegsBut r s.t t.t ∧ GateDone 0 s t ∧ SameMemory s t) ∧
    (∃ t, exec (.gnext r b y) s = .next t ∧
      (∀ i, i < 4096 → (s.t.reg y).toNat ≤ i → (s.t.greg b).getLsbD i = true → (∀ j < i, (s.t.reg y).toNat ≤ j → (s.t.greg b).getLsbD j = false) →
        t.t.reg r = if r = 0 then 0 else word i) ∧
      ((∀ i < 4096, (s.t.reg y).toNat ≤ i → (s.t.greg b).getLsbD i = false) → t.t.reg r = if r = 0 then 0 else 4096) ∧
      SameRegsBut r s.t t.t ∧ GateDone 0 s t ∧ SameMemory s t) ∧
    (∀ (v : VSrc) (seg : BitVec 4) (nm1 : BitVec 7) (c : VCfg) (l : Sources) (s1 : State) (score : Nat → Nat), a ≠ 0 →
      VecReady s isFp32 true none [v.reg] c l s1 → (∀ i, score i = if i < c.vl then (vget (srcOf l s.t v.reg) i 0).toNat else 0) →
      (s.t.past (nm1.toNat + 1) = true → ∀ i ∈ [Instr.gthr a v y seg nm1, .gtopk a v y seg nm1],
        ∃ t, exec i s = .next t ∧ t.t.g = s.t.g ∧ t.t.regs = s.t.regs ∧ GateDone 0 s t) ∧
      (s.t.past (nm1.toNat + 1) = false →
      (∃ t, exec (.gthr a v y seg nm1) s = .next t ∧ t.t.regs = s.t.regs ∧ GateDone a s t ∧
        ∀ i < 4096, (t.t.greg a).getLsbD i = if 256 * seg.toNat ≤ i ∧ i ≤ 256 * seg.toNat + nm1.toNat then
          fpredicate 3 (Machine.fp32.decode (score (i - 256 * seg.toNat))) (Machine.fp32.decode ((s.t.reg y).toNat % 2 ^ 32))
          else (s.t.greg a).getLsbD i) ∧
      (∃ (t : State) (order : List Nat), exec (.gtopk a v y seg nm1) s = .next t ∧ t.t.regs = s.t.regs ∧ GateDone a s t ∧
        order.Perm (List.range (nm1.toNat + 1)) ∧ Ranked .fp32 score order ∧
        ∀ i < 4096, (t.t.greg a).getLsbD i = if 256 * seg.toNat ≤ i ∧ i ≤ 256 * seg.toNat + nm1.toNat then
          (order.take (s.t.reg y).toNat).contains (i - 256 * seg.toNat) else (s.t.greg a).getLsbD i))) ∧
    (∀ (ps : List Place) (s1 : State), s.t.skip = none → s.t.past 1 = false →
      (Accessible s (s.t.reg y) 512 accLoad ps s1 → Clean ps s1 → a ≠ 0 →
        ∃ t, exec (.gld a y) s = .next t ∧ (t.t.greg a).toNat = loaded ps s1 ∧ t.t.regs = s.t.regs ∧ GateDone a s t ∧ SameMemory s t) ∧
      (Accessible s (s.t.reg y) 512 accStore ps s1 → (ps.map keyOf).Nodup → memWf s.mem = true →
        ∃ t, exec (.gst b y) s = .next t ∧ (∀ j p, ps[j]? = some p → memRead t.mem (keyOf p) = (s.t.greg b).extractLsb' (8 * j) 8) ∧
          (∀ z, z ∉ ps.map keyOf → memRead t.mem z = memRead s.mem z) ∧ t.t.regs = s.t.regs ∧ t.t.g = s.t.g)) ∧
    (s.t.past 1 = true → ∀ i ∈ [Instr.gld a y, .gst b y], ∃ t, exec i s = .next t ∧ t.t.g = s.t.g ∧ t.t.regs = s.t.regs ∧ t.t.pc = s.retire.t.pc ∧ SameMemory s t) ∧
    (∀ (v : BitVec 5) (q key : MSrc) (g : GateSel) (nm1 : BitVec 7) (c : VCfg) (cls : MClass) (τ : MReg → Tile), TileReady s 0 → s.t.shape.ok = true → s.t.past 256 = false →
      key.reg.toNat + nm1.toNat < 512 → VecReady s isFp32 true (some v) [] c [] s →
      (∀ m ∈ q.reg :: (s.t.kept g (nm1.toNat + 1)).map (fun i => key.reg + BitVec.ofNat 9 i),
        Holds s m (τ m) ∧ (τ m).poison = 0 ∧ (τ m).ety.mclass? = some cls) →
      ∃ t, exec (.scout v q key g nm1) s = .next t ∧
        FrontIs (s.t.vreg v) (t.t.vreg v) (nm1.toNat + 1) (fun p => BitVec.ofNat 32 (if p ∈ s.t.kept g (nm1.toNat + 1) then
          ((List.range s.t.shape.rows).flatMap fun i => (List.range s.t.shape.cols).map fun j =>
            scoutDot s.t s.t.shape.k (τ q.reg) (τ (key.reg + BitVec.ofNat 9 p)) i j).foldl (fun m e => (Machine.fp32.minmax false m e).1) 0xFF800000
          else 0xFF800000)) ∧
        (∀ u, u ≠ v → t.t.vreg u = s.t.vreg u) ∧ TileDone s t [] ∧ t.t.fcsr = s.t.fcsr ∧ SameMemory s t)

/-! ## Copies, streams, landings, free lists -/

/-- The launch registers describe a transfer that may launch: 1 to 10 dimensions, a known scope, a ring that is set up and not full when entries are enabled, at most 2^40 bytes,
and no transfer of 16 earlier in progress. -/
def Sys2Proof.Claims.MayLaunch (t : Thread) (ext : List Nat) : Prop :=
  1 ≤ (t.cpndim.extractLsb' 0 4).toNat ∧ (t.cpndim.extractLsb' 0 4).toNat ≤ 10 ∧ t.cpring.extractLsb' 60 3 ≠ 7 ∧
    ext = (List.range (t.cpndim.extractLsb' 0 4).toNat).map (fun d => (vget t.cpext d 0).toNat) ∧ ext.foldl (· * ·) 1 ≤ 2 ^ 40 ∧
    (t.cpring.getLsbD 63 = true → ∃ g, vget t.rings (t.cpring.extractLsb' 58 2).toNat none = some g ∧ g.reserved - g.released < 2 ^ g.log2) ∧
    (∀ x, t.transfers[15]? = some x → x.status ≠ 0)

/-- The transfer that a launch records: its id, in progress, and the launch registers, mode and map as they are. -/
def Sys2Proof.Claims.launched (t : Thread) : Transfer :=
  { id := t.nextId, status := 0, cause := 0, fva := 0, src := t.cpsrc, dst := t.cpdst, ndim := t.cpndim, ring := t.cpring, ext := t.cpext, sst := t.cpsst
    dstStride := t.cpdstS, sup := t.sup, map := t.tmapbase, done := [], image := [], tainted := false, taken := [], result := none }

/-- Only event records change memory. -/
def Sys2Proof.Claims.OnlyEvents (s t : State) : Prop := ∀ x, ¬ EventByte s s.t.part x → memRead t.mem x = memRead s.mem x

/-- A byte of a copy in memory: its source key and its destination key. -/
def Sys2Proof.Claims.copyKeys (b : Nat × Place × CopyTo) : Nat × Nat :=
  (keyOf b.2.1, match b.2.2 with
    | .mem q => keyOf q
    | .tile i => i)

/-- The thread in hand has no leased line in L2 and no leased write that has not been acknowledged. -/
def Sys2Proof.Claims.Unleased (s : State) : Prop :=
  s.writesOut (some s.t.uid) none = false ∧ ∀ d < 9, ∀ l ∈ (s.getDie d).l2, l.users.contains s.t.uid = false

/-- A launch, by `cpgo` or by a read of its CSR, to memory or to a matrix register whose footprint holds every byte, completes once the thread's leased writes
before it have been acknowledged at a scope of `.x` or wider: A takes the id, the record of the transfer comes first among the 16 kept, the next id follows
(1 after 2^32 − 1), a ring entry is reserved when entries are enabled, and a destination register has a version that awaits its bytes.
CPE_TRANSFER_COMPLETE of a transfer to memory with no completion entry and none of its bytes read or moved yet, at a scope of `.x` or wider of a thread that has nothing of leased memory in flight, every byte of which may be read and written, no byte written twice or read after it is written, and none poisoned once its line has been
touched: each destination byte takes its source byte, every other byte but event records stays, and the transfer's status is OK. -/
def Obligations.CopiesAreRecordedAndMoveEveryByte : Prop :=
  (∀ (i : Instr) (a : SReg) (s s0 : State) (ext : List Nat), (i = .cpgo a ∨ i = .csrrCpgo a) → MayLaunch s.t ext →
     released s ((scopeOf (s.t.cpring.extractLsb' 60 3)).getD .t) s0 →
     (s.t.cpndim.getLsbD 16 = true → s.t.tmapbase ≠ 0 ∧ s.t.cpdst.extractLsb' 9 55 = 0 ∧
       (ext.foldl (· * ·) 1 = 0 ∨ 0 ≤ (offsetRange s.t.cpdstS ext 0).1 ∧ (offsetRange s.t.cpdstS ext 0).2 < s.footprint (s.t.cpndim.extractLsb' 18 6)) ∧
       ∃ ty nar ent, TypeIs s (s.t.cpndim.extractLsb' 18 6) ty nar ∧ TileReady s ty.granules ∧ HasEntry s (s.t.cpdst.extractLsb' 0 9) ent) →
     ∃ t, exec i s = .next t ∧ t.t.reg a = (if a = 0 then 0 else word s.t.nextId) ∧ SameRegsBut a s.t t.t ∧
       t.t.transfers = (launched s.t :: s.t.transfers).take 16 ∧ t.t.nextId = (if s.t.nextId = 2 ^ 32 - 1 then 1 else s.t.nextId + 1) ∧
       (∀ j, vget t.t.rings j none = if s.t.cpring.getLsbD 63 = true ∧ j = (s.t.cpring.extractLsb' 58 2).toNat then
         (vget s.t.rings j none).map fun (r : Ring) => { r with reserved := r.reserved + 1 } else vget s.t.rings j none) ∧
       (s.t.cpndim.getLsbD 16 = true → ∃ x, findSet (t.getCore s.core).sets s.t.ctx (s.t.cpdst.extractLsb' 0 9) = some x ∧ x.filling = true ∧ x.dirty = true) ∧
       t.t.v = s.t.v ∧ t.t.q = s.t.q ∧ t.t.pc = s.retire.t.pc ∧ OnlyEvents s t) ∧
  (∀ (s s1 s2 : State) (id : Nat) (x : Transfer) (bs : List (Nat × Place × CopyTo)),
     s.t.transfer? id = some x → x.status = 0 → x.ndim.getLsbD 16 = false → x.ring.getLsbD 63 = false → s.awaits (.copy s.t.uid id) = false → memWf s.mem = true → x.done = [] → x.taken = [] → x.result = none →
     x.tainted = false → (farScope x.scope = true → Unleased s) →
     (copyBytes x s.t.asid s.t.part (extents x.ndim x.ext) (volume (extents x.ndim x.ext)) 0).exec { s with agent := some (.copy s.t.uid id) } = (.ok (bs, none), s1) →
     bs.all (fun b => plainPlace b.2.1 && (match b.2.2 with | .mem q => plainPlace q | .tile _ => false)) = true →
     s2 = touchAll (bs.map (·.2.1)) none { s1 with free := s1.free + 1 } → (∀ b ∈ bs, s2.poisonAt b.2.1 = false) →
     (bs.map fun b => (copyKeys b).2).Nodup → (∀ b ∈ bs, ∀ b' ∈ bs, (copyKeys b).1 ≠ (copyKeys b').2) →
     ∃ t y, exec (.cpeTransferComplete s.cur id) s = .next t ∧ t.t.transfer? id = some y ∧ y.status = 1 ∧ t.t.regs = s.t.regs ∧
       (∀ b ∈ bs, ¬ EventByte s s.t.part (copyKeys b).2 → memRead t.mem (copyKeys b).2 = s2.byteAt b.2.1) ∧
       (∀ z, (∀ b ∈ bs, z ≠ (copyKeys b).2) → ¬ EventByte s s.t.part z → memRead t.mem z = memRead s.mem z))

/-- `rinit` of an aligned writable buffer with no entry awaited stores zeros and sets the slot up, `rrel` releases entries up to those written, `rpoll` gives the status of a transfer, 1 for one no longer kept,
and `rwait` and RWAIT_DONE retire when the transfer is complete and not faulted, `rwait` of one no longer kept at once, as an acquire at `.t` (R196, R420); `rwait` of a faulted one traps with its recorded cause and address, and one in progress waits. -/
def Obligations.RingsAndTransferWaitsComplete : Prop :=
  ∀ (s : State) (ring : BitVec 2) (a b c : SReg) (id : Nat), id = (s.t.reg b).toNat % 2 ^ 32 →
    (∀ (n : Nat) (ps : List Place) (s1 : State), n = (s.t.reg c).toNat → 4 ≤ n → n ≤ 12 → s.t.skip = none → (s.t.reg b).extractLsb' 0 6 = 0 → memWf s.mem = true →
      (∀ r, vget s.t.rings ring.toNat none = some r → r.written = r.reserved) →
      Accessible s (s.t.reg b) (16 * 2 ^ n) accStore ps s1 →
      ∃ t, exec (.rinit ring b c) s = .next t ∧
        vget t.t.rings ring.toNat none = some { base := s.t.reg b, log2 := n, reserved := 0, written := 0, released := 0 } ∧
        (∀ j, j ≠ ring.toNat → vget t.t.rings j none = vget s.t.rings j none) ∧ (∀ p ∈ ps, memRead t.mem (keyOf p) = 0) ∧
        (∀ z, z ∉ ps.map keyOf → memRead t.mem z = memRead s.mem z) ∧ t.t.regs = s.t.regs) ∧
    (∀ r, vget s.t.rings ring.toNat none = some r →
      ∃ t, exec (.rrel ring b) s = .next t ∧
        vget t.t.rings ring.toNat none = some { r with released := r.released + min (s.t.reg b).toNat (r.written - r.released) } ∧
        (∀ j, j ≠ ring.toNat → vget t.t.rings j none = vget s.t.rings j none) ∧ t.t.regs = s.t.regs ∧ OnlyThread s t) ∧
    (∃ t, exec (.rpoll a b) s = .next t ∧ SameRegsBut a s.t t.t ∧ SameMemory s t ∧
      t.t.reg a = (if a = 0 then 0 else match s.t.transfer? id with
        | none => 1
        | some x => word x.status)) ∧
    (s.t.transfer? id = none → exec (.rwait b) s = .next (s.acquire .t).retire) ∧
    (∀ x, s.t.transfer? id = some x →
      (x.status = 0 → ∃ t, exec (.rwait b) s = .next t ∧ t.t = { s.t with stall := .rwait id } ∧ t.mem = s.mem) ∧
      (x.status = 1 ∨ x.status = 3 →
        (∃ t, exec (.rwait b) s = .next t ∧ t.t.regs = s.t.regs ∧ t.t.pc = s.retire.t.pc ∧ SameMemory s t) ∧
        (s.t.stall = .rwait id → ∃ t, exec (.rwaitDone s.cur) s = .next t ∧ t.t.regs = s.t.regs ∧ t.t.stall = .none ∧ t.t.pc = s.retire.t.pc ∧ SameMemory s t)) ∧
      (∀ cause, x.status = 2 → causeOf x.cause = some cause → s.t.skip = none →
        exec (.rwait b) s = .next (s.trap { cause := cause, xaddr := x.fva, xelem := 0, xmask := 1, vstart := none } false)))

/-- `sbind` of a well-formed aligned record that may be read binds the stream that it describes, at position 0, in place of one bound to the same register; `sfree` ends a binding; STREAM_RUNAHEAD_LOAD loads the
next vector of a stream that wants one, as much of it as its window of 32 lines takes, its elements as its address sequence gives them, and the position stays. -/
def Obligations.StreamsAreBoundFreedAndRunAhead : Prop :=
  ∀ (a : BitVec 5) (b : SReg) (s s1 : State), (s.t.vlive = true → s.t.unit.isSome = true ∧ s.t.save = none) →
    (∀ ps ty, s.t.vty = some ty → s.t.skip = none → (s.t.streams.length < 4 ∨ (s.t.stream? a).isSome = true) → (s.t.reg b).extractLsb' 0 5 = 0 →
      Accessible s (s.t.reg b) 32 accLoad ps s1 → Clean ps s1 → recordBad (loaded ps s1) = false →
      ∃ t st, exec (.sbind a b) s = .next t ∧ t.t.stream? a = some st ∧ st.pos = 0 ∧ st.ahead = [] ∧ st.record = s.t.reg b ∧
        st.dbase = word (fld (loaded ps s1) 192 64) ∧ st.btab = word (fld (loaded ps s1) 128 64) ∧ st.start.toNat = fld (loaded ps s1) 96 32 ∧
        st.count.toNat = fld (loaded ps s1) 64 32 ∧ st.bsh = fld (loaded ps s1) 58 6 ∧ st.tsh = fld (loaded ps s1) 53 5 ∧
        st.indirect = (loaded ps s1).testBit 52 ∧ st.esz = fld (loaded ps s1) 50 2 ∧ st.depth = fld (loaded ps s1) 48 2 ∧
        (∀ r, r ≠ a → t.t.stream? r = s.t.stream? r) ∧ t.t.regs = s.t.regs ∧ t.t.v = s.t.v ∧ SameMemory s t) ∧
    (∃ t, exec (.sfree a) s = .next t ∧ t.t.stream? a = none ∧ (∀ r, r ≠ a → t.t.stream? r = s.t.stream? r) ∧ t.t.regs = s.t.regs ∧ t.t.v = s.t.v ∧ OnlyThread s t) ∧
    (∀ st ty xs, s.t.stream? a = some st → s.t.vty = some ty → st.wantsAhead s.t.vl.toNat = true → s.t.vl.toNat ≤ 128 →
      (aheadGo st s.t.vl.toNat st.nextAhead st.window).exec s = (.ok xs, s1) →
      ∃ t st', exec (.streamRunaheadLoad s.cur a) s = .next t ∧ t.t.stream? a = some st' ∧ st'.pos = st.pos ∧
        st'.ahead = st.ahead ++ [(st.nextAhead, xs.1, xs.2.eraseDups)] ∧ t.t.regs = s.t.regs ∧ SameOwnMemory s t)

/-- The entries of a landing from entry `from_` on, one for each position, in order. -/
def Sys2Proof.Claims.landingEntries (x : Landing) (from_ : Nat) (ps : List Nat) : List (Nat × Word) :=
  ps.zipIdx.map fun e => (e.1, x.base + word ((if x.wide then 8 else 4) * ((from_ + e.2) % 2 ^ x.lsz)))

/-- A byte that an access through L2, or to a scratchpad, reaches. -/
def Sys2Proof.Claims.cachedPlace : Place → Bool
  | .hbm _ .gx _ | .hbm _ .dev _ => false
  | _ => true

/-- Nothing that HBM, L2 or a scratchpad holds is poisoned, and no array holds an error. -/
def Sys2Proof.Claims.NoErrors (s : State) : Prop :=
  s.poison = [] ∧ s.latent = [] ∧ s.entryErrors = [] ∧ s.fenced = [] ∧ ∀ d < 9, ∀ l ∈ (s.getDie d).l2, l.belowBad = 0

/-- Every byte of the entries lies in HBM or a scratchpad, each once. -/
def Sys2Proof.Claims.PlainEntries (pl : List (Nat × List Place)) : Prop :=
  (pl.flatMap (·.2)).all plainPlace = true ∧ ((pl.flatMap (·.2)).map keyOf).Nodup

/-- `capp` of a stage that may append, with room in the landing and entries that may be written, completes: the entry of each active position takes s[C] plus its index or element, A the count, and the landing's tail moves on; CAPP_ROOM completes a
waiting one in the same way; neither is resumed past its positions (R243). `qpop` of a landing with entries that may be read completes: up to `vl` positions, or the request, take entries, the other positions below `vl` take 0, A takes the count, and the head moves on; QPOP_READY likewise. -/
def Obligations.LandingsAppendAndPop : Prop :=
  ∀ (a b : SReg) (k : QReg) (c : VCfg) (l : Sources) (s s1 s2 : State) (la : Launch) (j : Nat) (x : Landing) (task : Task) (pl : List (Nat × List Place)),
    s.launchHere = some la → s.t.task = some task → la.landings[j]? = some x → s.t.skip = none → s.t.stall = .none → memWf s.mem = true → s.t.past c.vl = false →
    (s.launches.filter fun y => y.key == la.key) = [la] →
    (∀ (src : CappSrc) (n : BitVec 3) (acts : List Nat), n.toNat = j → x.pmask.getLsbD task.stage = true →
      VecReady s clsAll true none (match src with | .vec r => [r.reg] | .idx => []) c l s1 → acts = (List.range c.vl).filter (fun p => (s.t.qreg k).getLsbD p) →
      acts.length ≤ 2 ^ x.lsz - (x.tail - x.head) →
      (entryPlaces (if x.wide then 8 else 4) accStore (landingEntries x x.tail acts)).exec s1 = (.ok (pl, []), s2) → PlainEntries pl →
      ∀ i u, (i = .capp a src b k n ∧ u = s ∨ i = .cappRoom s.cur ∧ ∃ since, u = s.modT fun t => { t with stall := .capp a src b k j since }) →
      ∃ t, exec i u = .next t ∧ t.t.reg a = (if a = 0 then 0 else word acts.length) ∧ SameRegsBut a s.t t.t ∧ t.t.v = s.t.v ∧ t.t.stall = .none ∧
        (∀ y ∈ pl, leNat (y.2.map fun p => memRead t.mem (keyOf p)) = (s.t.reg b + word (match src with
          | .vec r => (vget (srcOf l s.t r.reg) y.1 0).toNat
          | .idx => y.1)).toNat % 2 ^ (8 * (if x.wide then 8 else 4))) ∧
        (∀ z, z ∉ (pl.flatMap (·.2)).map keyOf → z < apertureBase ∨ apertureEnd ≤ z → memRead t.mem z = memRead s.mem z) ∧
        ∃ la' x', t.launch? la.key = some la' ∧ la'.landings[j]? = some x' ∧ x'.tail = x.tail + acts.length ∧ x'.head = x.head) ∧
    (∀ (d : BitVec 5) (st : Stage) (n : Nat) (vals : List (Nat × Nat)) (s3 : State), s.stageHere = some st → st.inv = true → st.inl = j → x.head < x.tail →
      VecReady s clsAll true (some d) [] c [] s → (x.wide = true → d.toNat % 2 = 0 ∧ s.t.stream? (d + 1) = none) →
      n = min (if s.t.reg b = 0 then c.vl else min (s.t.reg b).toNat c.vl) (x.tail - x.head) →
      (entryPlaces (if x.wide then 8 else 4) accLoad (landingEntries x x.head (List.range n))).exec (s.acquire .p) = (.ok (pl, []), s2) →
      (readEntries (fun _ => 0) pl).exec s2 = (.ok (vals, []), s3) → PlainEntries pl →
      ∀ i u, (i = .qpop a b d ∧ u = s ∨ i = .qpopReady s.cur ∧ u = s.modT fun t => { t with stall := .qpop a b d }) →
      ∃ t, exec i u = .next t ∧ t.t.reg a = (if a = 0 then 0 else word n) ∧ SameRegsBut a s.t t.t ∧ t.t.stall = .none ∧ SameMemory s t ∧
        (∀ p < 128, vget (t.t.vreg d) p 0 = if p < n then BitVec.ofNat 32 ((alookup p vals).getD 0) else if p < c.vl then 0 else vget (s.t.vreg d) p 0) ∧
        (x.wide = true → ∀ p < 128, vget (t.t.vreg (d + 1)) p 0 =
          if p < n then BitVec.ofNat 32 ((alookup p vals).getD 0 / 2 ^ 32) else if p < c.vl then 0 else vget (s.t.vreg (d + 1)) p 0) ∧
        (∀ y ∈ pl, y.2.all cachedPlace = true → alookup y.1 vals = some (leNat (y.2.map fun p => memRead s.mem (keyOf p)))) ∧
        ∃ la' x', t.launch? la.key = some la' ∧ la'.landings[j]? = some x' ∧ x'.head = x.head + n ∧ x'.tail = x.tail)

/-- `flpop` and `flpush` on a well-formed descriptor whose lanes and entries may be used, each byte in HBM or a scratchpad and none shared, complete in one step: a pop gives the top entries of the list to the active lanes in ascending order and −1 to the lanes that
find it empty, a push puts lanes on top until it is full; the mask names the lanes served, and the count follows. -/
def Obligations.FreeListsPopAndPushLanes : Prop :=
  ∀ (a k : QReg) (b c : SReg) (imm : BitVec 16) (cf : VCfg) (s s1 s2 s3 : State) (d : FreeList) (dps : List Place) (acts : List Nat)
    (lanes words : List (Nat × List Place)) (pop : Bool) (m : Nat) (uses : List (Nat × Nat)),
    a ≠ 0 → VecReady s clsAll true none [] cf [] s → s.t.skip = none → s.t.vstart = 0 → memWf s.mem = true → NoErrors s →
    acts = (List.range cf.vl).filter (fun p => (s.t.qreg k).getLsbD p) → (readFreeList (s.t.reg c)).exec s = (.ok (d, dps), s1) →
    m = min acts.length (if pop then d.count else d.cap - d.count) →
    uses = (List.range m).map (fun i => (acts.getD i 0, if pop then d.count - 1 - i else d.count + i)) →
    (entryPlaces 8 accStore (acts.map fun p => (p, s.t.reg b + wi imm.toInt + word (8 * p)))).exec s1 = (.ok (lanes, []), s2) →
    (entryPlaces 8 (if pop then accLoad else accStore) (uses.map fun u => (u.1, d.base + word (8 * u.2)))).exec s2 = (.ok (words, []), s3) →
    PlainEntries (lanes ++ words ++ [(0, dps)]) →
    ∃ t, exec (if pop then .flpop a b c k imm else .flpush a b c k imm) s = .next t ∧
      (∀ p, (t.t.qreg a).getLsbD p = (acts.take m).contains p) ∧ (∀ q, q ≠ a → t.t.qreg q = s.t.qreg q) ∧ t.t.regs = s.t.regs ∧ t.t.v = s.t.v ∧
      leNat (((dps.drop 16).take 4).map fun p => memRead t.mem (keyOf p)) = (if pop then d.count - m else d.count + m) ∧
      (∀ p ∈ acts.take m, ∀ x y, (p, x) ∈ lanes → (p, y) ∈ words → (if pop then y else x).all cachedPlace = true →
        (if pop then x else y).map (fun q => memRead t.mem (keyOf q)) = (if pop then y else x).map fun q => memRead s.mem (keyOf q)) ∧
      (pop = true → ∀ p ∈ acts.drop m, ∀ x, (p, x) ∈ lanes → ∀ q ∈ x, memRead t.mem (keyOf q) = 0xFF) ∧
      (∀ z, z ∉ ((dps.drop 16).take 4).map keyOf → (∀ y ∈ (if pop then lanes else words), z ∉ y.2.map keyOf) → memRead t.mem z = memRead s.mem z)

/-! ## Remote tiles and links -/

/-- The package reaches another package: it is not itself, and the port of its destination is up. -/
def Sys2Proof.Claims.Reachable (s : State) (dest : Nat) : Prop :=
  dest < 1024 ∧ s.pkgId ≠ some (BitVec.ofNat 10 dest) ∧ (s.port (s.portOf dest)).up = true

/-- A message of words only that the package sends. -/
def Sys2Proof.Claims.wordsTo (s : State) (typ dest : Nat) (seq : BitVec 16) (words : List Word) : Out :=
  .link (s.portOf dest) { common := word (typ * 2 ^ 60 + s.ownId * 2 ^ 50 + dest * 2 ^ 40 + seq.toNat * 2 ^ 24), words := words, pmap := [], payload := [] }

/-- A message of words only of a type has arrived for this package, with its reserved bits and its length 0; one without a sequence number has 0 there. -/
def Sys2Proof.Claims.Received (s : State) (m : LinkMsg) (typ : Nat) : Prop :=
  msgType m = typ ∧ m.common.extractLsb' 0 8 = 0 ∧ s.pkgId = some (msgDest m) ∧ msgLen m = 0 ∧ (typ ≠ 2 → typ ≠ 3 → msgSeq m = 0)

/-- `msend` of a present tile without poison to a package whose window has room completes: a TILE message of Table 2.3 joins the window under the next sequence number, its payload the leading rows and columns, its third
word the tick of its injection; the register and memory stay. `mwait` and MWAIT_DONE complete when the register is valid, and `mwait` waits while it is not; MSEND_WINDOW_OPEN lets a `msend` that waited issue again. -/
def Obligations.MsendQueuesAMessageAndMwaitAwaitsOne : Prop :=
  ∀ (s : State) (src : MSrc) (b : SReg) (T : Tile) (d : MReg) (ent : BitVec 128),
    ((s.t.reg b).extractLsb' 9 7 = 0 → s.t.shape.ok = true → colsFit T.ety s.t.shape.cols = true → TileReady s 0 → Holds s src.reg T → T.poison = 0 →
      (s.win (destPkg (s.t.reg b))).unacked.length < 32 →
      ∃ (t : State) (x : Sent), exec (.msend src b) s = .next t ∧ TileDone s t [] ∧ t.t.v = s.t.v ∧ SameMemory s t ∧
        x ∈ (t.win (destPkg (s.t.reg b))).unacked ∧ x.seq = (s.win (destPkg (s.t.reg b))).next ∧ (t.win (destPkg (s.t.reg b))).next = x.seq + 1 ∧
        x.msg.payload = padded (tilePayload T s.t.shape.rows s.t.shape.cols) ∧ x.msg.pmap = [] ∧
        x.msg.words.take 2 =
          [word (destAsid (s.t.reg b) * 2 ^ 48 + destPart (s.t.reg b) * 2 ^ 42 + destMreg (s.t.reg b) * 2 ^ 33 + T.ety.code.toNat * 2 ^ 27 +
             (s.t.shape.rows - 1) * 2 ^ 21 + (s.t.shape.cols - 1) * 2 ^ 15),
           word (s.core * 2 ^ 54 + s.cur % 4 * 2 ^ 52 + destTag (s.t.reg b))] ∧
        (x.injected = true → x.msg.words.drop 2 = [s.tick])) ∧
    (TileReady s 0 → HasEntry s d ent →
      (entV ent = true →
        (∃ t, exec (.mwait d) s = .next t ∧ TileDone s t [] ∧ t.t.v = s.t.v ∧ SameMemory s t) ∧
        (s.t.stall = .mwait d → ∃ t, exec (.mwaitDone s.cur) s = .next t ∧ TileDone s t [] ∧ t.t.v = s.t.v ∧ SameMemory s t)) ∧
      (entV ent = false → ∃ t, exec (.mwait d) s = .next t ∧ t.t = { s.t with stall := .mwait d, resumed := false } ∧ SameMemory s t)) ∧
    (∀ dest, s.t.stall = .msendWindow dest → (s.win dest).unacked.length < 32 →
      exec (.msendWindowOpen s.cur) s = .next { s with t := { s.t with stall := .none } })

/-- Messages sent again, the first of a list first. -/
def Sys2Proof.Claims.sentAgain (s : State) (dest : Nat) (l : List Sent) (o : List Out) : List Out :=
  ((l.filter (·.injected)).map fun x => Out.link (s.portOf dest) x.msg).reverse ++ o

/-- TILE that comes next from its source, for a registered register of the thread in hand with room for the tile, commits: the register has a new dirty version, its leading rows and columns from the payload and zeros elsewhere, and TACK goes
back; with no registration TNAK has reason 1, outside its registers reason 0, a duplicate is acknowledged again, and one beyond the next only counted. TACK ends the wait of every injected message up to its number; TNAK with BUSY
starts the wait before a resend, and with another reason the message leaves the window and its thread has REMOTE_NAK pending; 50 µs without an answer resend the window four times, and 1 µs after BUSY the rejected message and later ones are sent
again; FABRIC_ERROR is only counted. -/
def Obligations.TileMessagesAreCommittedAndAnswered : Prop :=
  ∀ (s : State) (m : LinkMsg) (dest : Nat) (w : TxWin),
    (s.tileBad m = false → Reachable s (msgSrc m) →
      (∀ (r : RxReg) (ty : ETy) (ent : BitVec 128), msgSeq m = s.expected (msgSrc m) → s.registration m = some r → r.first ≤ (tileReg m).toNat → (tileReg m).toNat ≤ r.last →
        etyOf (tileCode m) = some ty → colsFit ty (tileCols m) = true → s.rxHeld = [] → s.activeSlot r.ctx = some s.cur → s.t.stall = .none → TileReady s ty.granules →
        HasEntry s (tileReg m) ent → m.pmap = [] →
        ∃ (t : State) (T : Tile), exec (.tile m) s = .next t ∧ Gains s t (tileReg m) T ∧ T.ety = ty ∧ T.narrow = none ∧ T.poison = 0 ∧
          (∀ i < 4096, (vget T.elems i 0).toNat = if i / 64 < tileRows m ∧ i % 64 < tileCols m then
            payloadElem ty.width (tileCols m) m.payload.toArray (i / 64) (i % 64) % 2 ^ 40 else 0) ∧
          t.expected (msgSrc m) = msgSeq m + 1 ∧ t.out = wordsTo s 2 (msgSrc m) (msgSeq m) [] :: s.out ∧ t.t.regs = s.t.regs ∧ t.t.pc = s.t.pc ∧ SameMemory s t) ∧
      (msgSeq m = s.expected (msgSrc m) → s.registration m = none → ∃ t, exec (.tile m) s = .next t ∧ t.expected (msgSrc m) = msgSeq m + 1 ∧
        t.out = wordsTo s 3 (msgSrc m) (msgSeq m) [word (1 * 2 ^ 60)] :: s.out ∧ t.t = s.t ∧ t.cores = s.cores ∧ t.mem = s.mem) ∧
      (∀ r : RxReg, msgSeq m = s.expected (msgSrc m) → s.registration m = some r → (tileReg m).toNat < r.first ∨ r.last < (tileReg m).toNat →
        ∃ t, exec (.tile m) s = .next t ∧ t.out = wordsTo s 3 (msgSrc m) (msgSeq m) [0] :: s.out ∧ t.t = s.t ∧ t.cores = s.cores ∧ t.mem = s.mem) ∧
      ((msgSeq m - s.expected (msgSrc m)).msb = true → s.rxHeld = [] →
        exec (.tile m) s = .next { s with out := wordsTo s 2 (msgSrc m) (msgSeq m) [] :: s.out }) ∧
      (msgSeq m ≠ s.expected (msgSrc m) → (msgSeq m - s.expected (msgSrc m)).msb = false → exec (.tile m) s = .next { s with tileEarly := s.tileEarly + 1 })) ∧
    (Received s m 2 → w ∈ s.tx → w.dest = msgSrc m →
      ∃ t, exec (.tack m) s = .next t ∧ (t.win (msgSrc m)).resends = 0 ∧ t.t = s.t ∧ t.mem = s.mem ∧
        (t.win (msgSrc m)).unacked.map (·.seq) =
          ((s.win (msgSrc m)).unacked.filter fun x => !(x.injected && !(msgSeq m - x.seq).msb)).map (·.seq)) ∧
    (∀ (x : Sent) (k : Task) (reason : Nat), msgType m = 3 → Received s m 3 → reason = ((msgWord m 1).extractLsb' 60 4).toNat →
      ((s.win (msgSrc m)).unacked.find? fun y => y.injected && y.seq == msgSeq m) = some x →
      (reason = 3 → ∃ t, exec (.tnak m) s = .next t ∧ (t.win (msgSrc m)).backoff = some (msgSeq m) ∧
        (t.win (msgSrc m)).unacked = (s.win (msgSrc m)).unacked ∧ t.t = s.t ∧ t.mem = s.mem) ∧
      (reason = 0 ∨ reason = 1 ∨ reason = 2 ∨ reason = 5 → s.t.task = some k → k.uid = x.uid → (∀ a ∈ s.t.pend, a.cause ≠ .remoteNak) →
        ∃ t a, exec (.tnak m) s = .next t ∧ (∀ y ∈ (t.win (msgSrc m)).unacked, y.seq ≠ msgSeq m) ∧ t.t = { s.t with pend := s.t.pend ++ [a] } ∧
          a.cause = .remoteNak ∧ a.xelem = word reason ∧ t.mem = s.mem)) ∧
    (Reachable s dest → w = s.win dest → (∀ x ∈ w.unacked, ((x.msg.common.extractLsb' 40 10).toNat : Nat) = dest) →
      (w.unacked.any (·.injected) = true → w.resends < 4 → ∃ t, exec (.tileResendTimeout dest) s = .next t ∧ (t.win dest).resends = w.resends + 1 ∧
        (t.win dest).unacked = w.unacked ∧ t.out = sentAgain s dest w.unacked s.out ∧ t.t = s.t ∧ t.mem = s.mem) ∧
      (w.unacked.any (·.injected) = true → 4 ≤ w.resends → ∃ t, exec (.tileResendTimeout dest) s = .next t ∧ (t.win dest).unacked = [] ∧ (s.pending = [] → t.mem = s.mem)) ∧
      (∀ bk, w.backoff = some bk → ∃ t, exec (.busyBackoffExpiry dest) s = .next t ∧ (t.win dest).backoff = none ∧ (t.win dest).unacked = w.unacked ∧
        t.out = sentAgain s dest (w.unacked.filter fun x => !(x.seq - bk).msb) s.out ∧ t.t = s.t ∧ t.mem = s.mem)) ∧
    exec (.fabricError dest) s = .next { s with fabricErrors := s.fabricErrors + 1 }

/-- TSYNC_PERIOD sends the tick to the upstream neighbour by the port of that destination; TSYNC is answered with the send tick that it carries, the package's tick on receipt and on reply, and its error bound; TSYNCR that answers the TSYNC in
flight sets the offset to half the difference of the two delays, E to the sender's bound plus the asymmetry of the port, and a package that joins more than 1 µs behind before its partitions' first launch steps forward; TSYNC_LOSS_TIMEOUT derives the
path again, and E does not fall by it; SYNCED is clear when E exceeds 10 ns, and set, with a launch ban of a package that joined ahead lifted, at 10 ns or below. What TICK_CONFIG has set is taken at the next exchange. Threads and memory stay. The
model's choices: half an odd number is rounded downwards (log 80), Eu is rounded up to whole nanoseconds (log 41), the path is derived again from what the package knows of its domain (log 45), and with several partitions none may have launched for
the step (log 85). -/
def Obligations.TickExchangesSetTheOffset : Prop :=
  ∀ (s : State) (m : LinkMsg) (p u : Nat),
    (∀ (e : Bool) (asyms : List Nat), s.pkgId.isSome = true → s.ts.config = some (e, asyms) →
      ∃ t, exec .tsyncPeriod s = .next t ∧ t.ts.config = none ∧ t.ts.eligible = e ∧ (∀ q a, q < 16 → asyms[q]? = some a → (t.port q).asym = a) ∧ t.t = s.t ∧ t.mem = s.mem) ∧
    (s.pkgId.isSome = true → s.ts.config = none → s.ts.upstream = some u → Reachable s u →
      exec .tsyncPeriod s = .next { s with ts := { s.ts with sent := some s.tick }, out := wordsTo s 4 u 0 [s.tick] :: s.out }) ∧
    (Received s m 4 → Reachable s (msgSrc m) →
      exec (.tsync m p) s = .next { s with
        out := wordsTo s 5 (msgSrc m) 0 [msgWord m 1, s.tick, s.tick, word (min ((s.errBound + 999999) / 1000000) 0xFFFFFFFF)] :: s.out }) ∧
    (∀ (o : Int), Received s m 5 → (msgWord m 4).extractLsb' 32 32 = 0 → s.ts.upstream = some u → u = msgSrc m → s.ts.sent = some (msgWord m 1) →
      o = ((msgWord m 2 - msgWord m 1).toInt - (s.tick - msgWord m 3).toInt) / 2 →
      ∃ t, exec (.tsyncr m) s = .next t ∧ t.ts.err = ((msgWord m 4).extractLsb' 0 32).toNat + (s.port (s.portOf u)).asym ∧ t.ts.sent = none ∧ t.ts.joined = true ∧
        (if s.ts.joined = false ∧ (∀ q ∈ s.parts, q.launched = false) ∧ 1000 < o then t.tick = s.tick + BitVec.ofInt 64 o ∧ t.ts.offset = 0
         else t.tick = s.tick ∧ t.ts.offset = o) ∧
        t.ts.lastGood = t.tick ∧ t.synced = t.errSmall ∧ t.t = s.t ∧ t.mem = s.mem) ∧
    (∃ t, exec .tsyncLossTimeout s = .next t ∧ t.ts.sent = none ∧ t.ts.master = (s.timeMaster s.free == s.ownId) ∧
      t.ts.upstream = (if s.timeMaster s.free = s.ownId then none else s.nearest s.free (s.timeMaster s.free)) ∧
      (s.ts.master = false → t.ts.master = false → t.errBound = s.errBound) ∧ t.t = s.t ∧ t.mem = s.mem) ∧
    (10000000 < s.errBound → exec .syncedClear s = .next { s with synced := false }) ∧
    (s.errBound ≤ 10000000 → s.ts.joined = true → exec .syncedSet s = .next { s with synced := true, ts := { s.ts with ahead := false } })

/-- The lease table has a lease at an index, with these fields. -/
def Sys2Proof.Claims.LeaseIs (t : State) (i : Nat) (p : Lease → Prop) : Prop := ∃ l, t.lease? i = some l ∧ p l

/-- The lender of LREQ with a span and a free entry zeroes the span, records it as lent and ACTIVE and grants it, and without a span denies with reason 0; LGRANT makes the borrower's PENDING entry ACTIVE at the lender's base, and LDENY clears it. With a span and no free entry the reason is 1; with neither it is 0 (log 80); the lent entry has the fields of log 42. LREVOKE makes an ACTIVE entry DRAINING with
its deadline; a release, or the deadline, stops new accesses; a drained lease whose accesses are answered is cleared, and LRELEASED sent; the lender clears its entry on LRELEASED, or when its own limit is past. Threads stay, and memory but for the zeroed span. -/
def Obligations.LeasesAreGrantedAndTakenBack : Prop :=
  ∀ (s : State) (m : LinkMsg) (i : Nat) (l : Lease) (w : Word), w = msgWord m 1 → Reachable s (msgSrc m) → Reachable s l.peer →
    (∀ (n b : Nat), Received s m 6 → w.extractLsb' 0 12 = 0 → (w.extractLsb' 12 6).toNat ≤ 35 → n = (w.extractLsb' 18 14).toNat + 1 →
      (s.lendSpan n = some b → b < 2 ^ 14 → s.freeLease = some i →
        ∃ t, exec (.lreq m) s = .next t ∧
          LeaseIs t i (fun x => x.v = true ∧ x.lent = true ∧ x.st = 1 ∧ x.peer = msgSrc m ∧ x.part = (w.extractLsb' 12 6).toNat ∧
            x.lid = (w.extractLsb' 32 32).toNat ∧ x.lbase = b ∧ x.units = n) ∧
          t.out = wordsTo s 7 (msgSrc m) 0 [word ((w.extractLsb' 32 32).toNat * 2 ^ 32 + b * 2 ^ 18)] :: s.out ∧ t.t = s.t ∧
          (memWf s.mem = true → ∀ a, memRead t.mem a = if b * leaseUnit ≤ a ∧ a < (b + n) * leaseUnit then 0 else memRead s.mem a)) ∧
      (s.lendSpan n = none → exec (.lreq m) s = .next { s with
        out := wordsTo s 8 (msgSrc m) 0 [word ((w.extractLsb' 32 32).toNat * 2 ^ 32)] :: s.out }) ∧
      (s.lendSpan n = some b → s.freeLease = none → exec (.lreq m) s = .next { s with
        out := wordsTo s 8 (msgSrc m) 0 [word ((w.extractLsb' 32 32).toNat * 2 ^ 32 + 1 * 2 ^ 28)] :: s.out })) ∧
    (s.leaseBy m false (· == 0) = some (i, l) →
      (Received s m 7 → w.extractLsb' 0 18 = 0 → ∃ t, exec (.lgrant m) s = .next t ∧
        LeaseIs t i (fun x => x.v = true ∧ x.st = 1 ∧ x.lbase = (w.extractLsb' 18 14).toNat ∧ x.lid = l.lid ∧ x.units = l.units ∧ x.part = l.part ∧ x.peer = l.peer) ∧ t.t = s.t ∧ t.mem = s.mem) ∧
      (Received s m 8 → w.extractLsb' 0 28 = 0 → (w.extractLsb' 28 4).toNat ≤ 1 → ∃ t, exec (.ldeny m) s = .next t ∧ LeaseIs t i (fun x => x.v = false) ∧ t.t = s.t ∧ t.mem = s.mem)) ∧
    (Received s m 9 → w.extractLsb' 0 32 = 0 → s.leaseBy m false (· == 1) = some (i, l) → ∃ t, exec (.lrevoke m) s = .next t ∧
      LeaseIs t i (fun x => x.v = true ∧ x.st = 2 ∧ x.deadline = msgWord m 2 ∧ x.lid = l.lid) ∧ t.t.regs = s.t.regs ∧
      ((∀ q ∈ s.pending, q.task.part = l.part → ∀ u, q.saved = some u → u.ntf = false) → t.mem = s.mem) ∧
      (∀ p, (∀ tid ∈ s.slots, (s.thread tid).ntf = false) → (∀ q ∈ s.pending, q.task.part = l.part → ∀ u, q.saved = some u → u.ntf = false) → s.part? l.part = some p → p.notifs.length < 16 →
        (t.part? l.part).map (·.notifs) = some (p.notifs ++ [{ code := 0x0032, xelem := BitVec.ofNat 32 l.lid, xaddr := msgWord m 2 }]))) ∧
    (s.lease? i = some l → l.v = true →
      (l.lent = false → l.st = 1 ∨ l.st = 2 →
        ∃ t, exec (.leaseRelease i) s = .next t ∧ t.lease? i = some { l with draining := true } ∧ t.t = s.t ∧ t.mem = s.mem) ∧
      (l.lent = false → l.st = 2 → l.draining = false →
        ∃ t, exec (.leaseBorrowerDeadline i) s = .next t ∧ t.lease? i = some { l with draining := true } ∧ l.deadline.toNat ≤ t.tick.toNat ∧ t.t = s.t ∧ t.mem = s.mem) ∧
      (l.draining = true → s.leaseQuiet l.part = true → (∀ d < 9, ∀ x ∈ (s.getDie d).l2, x.home.isSome = true → x.dirty = false) →
        ∃ t, exec (.leaseDrainComplete i) s = .next t ∧ LeaseIs t i (fun x => x.v = false) ∧
          t.out = wordsTo s 10 l.peer 0 [word (l.lid * 2 ^ 32)] :: s.out ∧ t.t = s.t ∧ t.mem = s.mem) ∧
      (l.lent = true → l.st = 2 → ∃ t, exec (.leaseLenderDeadline i) s = .next t ∧ LeaseIs t i (fun x => x.v = false) ∧ t.t = s.t ∧ t.mem = s.mem)) ∧
    (Received s m 10 → w.extractLsb' 0 32 = 0 → s.leaseBy m true (fun st => st == 1 || st == 2) = some (i, l) →
      ∃ t, exec (.lreleased m) s = .next t ∧ LeaseIs t i (fun x => x.v = false) ∧ t.t = s.t ∧ t.mem = s.mem)

/-- A request of Table 2.1 of another package inside memory lent to it is served, and the answer leaves by the port of that package: a read of 64 to 256 bytes returns the bytes, with an error when one of them is poison there; a write stores those that
its byte enables name; an atomic returns the old value and stores the new one. Any other completes with an error and stores nothing (of other sizes: log 39; inside a range lent to another package: log 80). The answer to a request of a task reaches that
task's request, and that of a write-back is counted when it is an error. A port that goes down hands its destinations to the lowest port that is up; PORT_UP brings an enabled port back; a lane failure halves the lanes. -/
def Obligations.LinkRequestsAreServedAndPortsFail : Prop :=
  ∀ (s : State) (src off tag p : Nat),
    (s.reaches src = true → ∀ (n : Nat) (l : Lease), 64 ≤ n → n ≤ 256 → s.lentTo src off n = some l →
      ∃ t, exec (.ualinkRequest src off (.read n)) s = .next t ∧
        t.out.head? = some (.linkReply (s.portOf src) src (s.lentRead l.part off n).2.1 (memReadN s.mem off n)) ∧ t.t = s.t ∧ t.mem = s.mem) ∧
    (s.reaches src = true → ∀ (d : List (Option Byte)) (l : Lease), 64 ≤ d.length → d.length ≤ 256 → s.lentTo src off d.length = some l → memWf s.mem = true →
      ∃ t, exec (.ualinkRequest src off (.write d)) s = .next t ∧ SameMemoryBut off d.length s t ∧ t.out.head? = some (.linkReply (s.portOf src) src false []) ∧
        ∀ j b, d[j]? = some b → memRead t.mem (off + j) = b.getD (memRead s.mem (off + j))) ∧
    (s.reaches src = true → ∀ (op size : Nat) (v cmp : Word) (f : AmoOp) (y : Nat) (l : Lease), size = 4 ∨ size = 8 → op ≤ 9 → off % size = 0 → s.lentTo src off size = some l →
      (s.lentRead l.part off size).2.1 = false → memWf s.mem = true → amoOf op cmp = some f →
      f.new (8 * size) (leNat (memReadN s.mem off size)) (v.toNat % 2 ^ (8 * size)) = some y → y < 2 ^ (8 * size) →
      ∃ t, exec (.ualinkRequest src off (.atomic op size v cmp)) s = .next t ∧ leNat (memReadN t.mem off size) = y ∧ SameMemoryBut off size s t ∧
        t.out.head? = some (.linkReply (s.portOf src) src false (memReadN s.mem off size))) ∧
    (s.reaches src = true → ∀ r, reqOk off r = false ∨ s.lentTo src off (reqBytes r) = none →
      ∃ t, exec (.ualinkRequest src off r) s = .next t ∧ t.out = .linkReply (s.portOf src) src true [] :: s.out ∧ t.t = s.t ∧ t.mem = s.mem) ∧
    (∀ (e : Bool) (d : List Byte) (a : Ask), (s.asks.find? fun x => x.tag == tag && x.reply.isNone) = some a →
      (∀ uid, a.who = .member uid → exec (.ualinkCompletion tag e d) s =
        .next { s with asks := s.asks.map fun x => if x.tag = tag then { x with reply := some (e, d) } else x }) ∧
      (∀ uids line, a.who = .post uids line → ∃ t, exec (.ualinkCompletion tag e d) s = .next t ∧ (∀ x ∈ t.asks, x.tag ≠ tag) ∧
        t.writebackErrors = s.writebackErrors + (if e then 1 else 0) ∧ t.t = s.t ∧ t.mem = s.mem)) ∧
    (p < 16 →
      (∀ q, (s.port p).up = true → q < 16 → q ≠ p → (s.port q).up = true → (∀ j < q, j ≠ p → (s.port j).up = false) →
        ∃ t, exec (.portDown p) s = .next t ∧ (t.port p).up = false ∧ (∀ d < 1024, t.portOf d = if s.portOf d = p then q else s.portOf d) ∧ t.t = s.t ∧ t.mem = s.mem) ∧
      ((s.port p).enabled = true → ∃ t, exec (.portUp p) s = .next t ∧ (∀ j, t.port j = { s.port j with up := j == p || (s.port j).up, stranded := false }) ∧ t.t = s.t ∧ t.mem = s.mem) ∧
      (1 < (s.port p).lanes →
        ∃ t, exec (.ualinkLaneFailure p) s = .next t ∧ t.port p = { s.port p with lanes := (s.port p).lanes / 2 } ∧ (∀ j, j ≠ p → t.port j = s.port j) ∧ t.t = s.t ∧ t.mem = s.mem))

/-! ## Steps of a core and stores to the control page -/

/-- CONVOY_ISSUE of a slot whose convoy is in its line buffer, is well formed and can issue chooses its next member to run next. ASYNC_DELIVERY at a boundary outside a handler enters the handler with the pending cause of the lowest code, which is pending no more. PREEMPTION at a boundary ends a `sleep`, writes the save record of
Table 9.5, makes the task pending on its own core and frees the slot. The model's choices: where a record lies (log 56), that bank conflicts are charged as a convoy first issues (log 70), the physical base of event rings (log 19), and one tile
entry for each thread (logs 55 and 62). A RESOLVED tile entry begins when its engine is free, one that is EXECUTING is done and its instruction runs next, and a FAULTED one raises its fault. -/
def Obligations.IssueDeliveryAndTheTileQueue : Prop :=
  ∀ (s : State) (k : Task), s.t.task = some k →
    (∀ (d : BitVec 512) (vs ms : List (BitVec 96)) (v : BitVec 96) (i : Instr), k.translator = false → s.t.ending = false → s.t.preempt = false → s.t.pend = [] →
      s.t.stall = .none → s.t.skip = none → s.t.lineBuf = some (lineAddr s.t.pc, d) → lineValues d = some vs →
      (s.t.pc.extractLsb' 1 5).toNat < vs.length → convoyBad s.act vs (s.t.pc.extractLsb' 1 5).toNat = none →
      convoyOf (vs.drop (s.t.pc.extractLsb' 1 5).toNat) = some ms → ms[s.t.member]? = some v → decode s.act v = .instr i →
      ∀ s1 s2 s3 : State, s1 = latched (s.modCore s.core fun c => { c with lastSlot := s.cur % 4 }) vs ms v →
        Ready s1 (ms.drop s.t.member) → s2 = (if s.t.freshIssue then s1.chargeBanks (ms.drop s.t.member) else s1) →
        s3 = (if s.t.freshIssue = true ∧ (s.t.pc.extractLsb' 1 5).toNat + ms.length = vs.length ∧ lastOnly s.act (ms.getLastD 0) = false
          then ((lookAhead (lineAddr s.t.pc + 64)).exec s2).2 else s2) →
        exec (.convoyIssue s.cur) s = .next { s3 with turn := .slot s.cur }) ∧
    (∀ a ∈ s.t.pend, (∀ b ∈ s.t.pend, b ≠ a → a.cause.code < b.cause.code) → s.t.inh = false → s.t.xvec ≠ 0 → s.t.stall = .none → s.t.member = 0 →
      s.t.ending = false → s.t.resumed = false → s.t.skip = none →
      s.entryRuns s.cur = false →
      ∃ t, exec (.asyncDelivery s.cur) s = .next t ∧ t.t.xcause = 0x8000000000000000 ||| a.cause.code.setWidth 64 ∧ t.t.xaddr = a.xaddr ∧ t.t.xelem = a.xelem ∧
        t.t.xepc = s.t.pc ∧ t.t.xconvoy = 0 ∧ t.t.vstart = s.t.vstart ∧ t.t.pc = s.t.xvec ∧ t.t.psup = s.t.sup ∧ t.t.sup = true ∧ t.t.inh = true ∧
        t.t.pend = s.t.pend.filter (fun b => b.cause != a.cause) ∧ t.t.regs = s.t.regs ∧ t.t.v = s.t.v ∧ t.mem = s.mem) ∧
    (∀ (i : Nat) (u : Thread), u = s.wake.t → s.t.preempt = true → s.t.atBoundary = true → s.t.resumed = false → s.t.ending = false → s.entryRuns s.cur = false →
      s.t.changedGroups = [] → s.saveFor = some i →
      ∃ t, exec (.preemption s.cur) s = .next t ∧ t.t = Thread.reset ∧
        (memWf s.mem = true → (List.range recordBytes).map (fun j => memRead t.mem (s.saveAddr s.t.part i + j)) = u.saveRecord) ∧
        (∀ x, ¬ EventByte s s.t.part x → (x < s.saveAddr s.t.part i ∨ s.saveAddr s.t.part i + recordBytes + u.frame.length ≤ x) →
          memRead t.mem x = memRead s.mem x) ∧
        t.pending = s.pending ++ [{ task := { k with since := s.now }, home := some (s.core, s.cur % 4)
                                    saved := some { u.suspended with task := some { k with since := s.now }, save := some i } }]) ∧
    (∀ e, s.entry? s.cur = some e →
      (s.canStart s.cur = true → ∃ t, exec (.tileEngineStart s.cur) s = .next t ∧ t.entry? s.cur = some { e with st := .executing } ∧ t.t = s.t ∧ t.mem = s.mem) ∧
      (e.st = .executing → ∃ t, exec (.tileEngineDone s.cur) s = .next t ∧ t.entry? s.cur = some { e with st := .done } ∧ t.turn = .slot s.cur ∧
        t.t = { s.t with stall := .none } ∧ t.mem = s.mem) ∧
      (∀ f, e.st = .faulted → e.fault = some f → s.t.ending = false →
        exec (.tileFaultTaken s.cur) s =
          .next (s.trap { cause := f.1, xaddr := f.2.1, xelem := f.2.2, xmask := 0, vstart := none } false)))

/-- The bytes at places as the core of the thread in hand reads them. -/
def Sys2Proof.Claims.bytesAt (ps : List Place) (s : State) : List Byte := ps.map (touchAll ps none s).byteAt

/-- MAP_CACHE_FILL brings the group of four entries in which a register's lies; FILL_COMPLETE gives a filling version the tile that the backing slot holds; SPILL_COMPLETE writes the image of a dirty version to its backing slot and frees its set, and that of a clean one only
frees it; a waiter whose turn it is takes a free vector unit; after 65,536 cycles of waiting a holder is chosen for pre-emption and its unit is for the waiter; VECTOR_STATE_RESTORE takes the registers from the frame of the save record, clears every element at or above
L, and reads the records of bound streams again with the positions of the frame (the place of the frame, and a frame with an L outside 16 to 128, are log 56). -/
def Obligations.FillsSpillsAndVectorUnitsComplete : Prop :=
  ∀ (s s1 : State) (r : MReg) (ps : List Place),
    (s.t.tmapbase ≠ 0 → s.t.task.isSome = true → s.t.line? r = none → s.awaits (.map s.t.uid r) = false → ps.all plainPlace = true →
      (fsePlaces s.t.ctx s.t.sup (s.t.tmapbase + word (64 * (r.toNat / 4))) 64).run { s with agent := some (.map s.t.uid r) } = (.ok ps, s1) →
      ∃ t, exec (.mapCacheFill s.cur r) s = .next t ∧ SameMemory s t ∧ t.t.regs = s.t.regs ∧ t.t.pc = s.t.pc ∧
        t.t.line? r = some { reg := r, entry := BitVec.ofNat 128 (leNat (((bytesAt ps s1).drop (16 * (r.toNat % 4))).take 16)), changed := false } ∧
        ∀ q, (s.t.line? q).isSome = true → t.t.line? q = s.t.line? q) ∧
    (∀ (x : TileSet) (ty : ETy), s.fillOf s.cur r = some x → x.reg = r → x.ctx = s.t.ctx → s.activeSlot x.ctx = some s.cur → x ∈ (s.getCore s.core).sets →
      (∀ y ∈ (s.getCore s.core).gone, y.job ≠ x.job) → s.t.checked = none → x.tile.ety = ty → x.tile.narrow = none → ps.all plainPlace = true →
      (fsePlaces x.ctx s.t.sup (backAddr x.ctx.base r) ty.bytes).run { s with agent := some (.tiles x.job) } = (.ok ps, s1) →
      ∃ t y, exec (.fillComplete s.cur r) s = .next t ∧ SameMemory s t ∧ t.t.regs = s.t.regs ∧ findSet (t.getCore s.core).sets x.ctx r = some y ∧ y.tile.ety = ty ∧
        y.filling = false ∧ ∀ i < 4096, (vget y.tile.elems i 0).toNat = imageElem ty.width (bytesAt ps s1).toArray i) ∧
    (∀ (x : TileSet) (tl : Tile) (s0 : State), s.spillOf s.cur r = some x → findSet (s.getCore s.core).sets x.ctx r = some x → x.ctx = s.t.ctx → s.activeSlot x.ctx = some s.cur →
      memWf s.mem = true → ps.all plainPlace = true → (ps.map keyOf).Nodup → (∃ l, s.t.line? r = some l) → s.tileOf s.core x.ctx r = some tl →
      s0 = (if (s.getCore s.core).acc.any fun b => b.ctx == x.ctx && b.reg == r then State.writeBackAcc { s with agent := some (.tiles x.job) } s.core
        else { s with agent := some (.tiles x.job) }) →
      (x.dirty = true → (fsePlaces x.ctx s.t.sup (backAddr x.ctx.base r) (tileBytes s tl).length).run (s0.count x.ctx.part 28 1) = (.ok ps, s1)) →
      ∃ t, exec (.spillComplete s.cur r) s = .next t ∧ t.t.regs = s.t.regs ∧ findSet (t.getCore s.core).sets x.ctx r = none ∧
        (∃ l, t.t.line? r = some l ∧ entRes l.entry = false) ∧ (x.dirty = true → (ps.map fun p => memRead t.mem (keyOf p)) = tileBytes s tl) ∧
        (∀ z, (x.dirty = true → z ∉ ps.map keyOf) → memRead t.mem z = memRead s.mem z)) ∧
    (∀ since, s.t.stall = .vectorUnit since →
      (s.mayTake s.cur 0 = true ∨ s.mayTake s.cur 1 = true →
        ∃ t, exec (.vectorUnitGrant s.cur) s = .next t ∧
          t.t = { s.t with unit := some (if s.mayTake s.cur 0 then 0 else 1), stall := if s.t.vlive then .vectorRestore else .none } ∧
          ((t.getCore s.core).vunit (if s.mayTake s.cur 0 then 0 else 1)).holder = some s.cur ∧ t.mem = s.mem) ∧
      (∀ v, v ≠ s.cur → (s.cycleTo (since + 65536)).starveVictim s.cur = some v →
        ∃ t, exec (.vectorUnitStarvation s.cur) s = .next t ∧ t.thread v = { s.thread v with preempt := true } ∧ since + 65536 ≤ t.now ∧ t.t = s.t ∧ t.mem = s.mem ∧
          (s.cur, since, (s.thread v).unit.getD 0) ∈ (t.getCore s.core).starved)) ∧
    (∀ (i a n : Nat) (ws : List Word) (l : List Stream) (s0 s2 : State), s.t.stall = .vectorRestore → s.t.save = some i → a = s.saveAddr s.t.part i + recordBytes →
      s0 = ((s.modT fun t => { t with stall := .none }).readOwn s.t.part a 64).1 →
      n = frameLen (wordsOf ((s.modT fun t => { t with stall := .none }).readOwn s.t.part a 64).2) →
      headerBad (wordsOf ((s.modT fun t => { t with stall := .none }).readOwn s.t.part a 64).2) = false →
      ws = wordsOf (s0.readOwn s.t.part a n).2 → s2 = (s0.readOwn s.t.part a n).1 → entriesBad ws = false →
      (frameStreams ws (List.range (frameStreamsN ws))).exec s2 = (.ok l, s1) →
      ∃ t, exec (.vectorStateRestore s.cur) s = .next t ∧ t.t.stall = .none ∧ t.t.save = none ∧ t.t.streams = l ∧
        l.map (·.pos) = (List.range (frameStreamsN ws)).map (fun j => ((ws.getD (23 + 2 * j) 0).extractLsb' 0 32).toNat) ∧
        (∀ r < 32, ∀ e < 128, (vget (vget t.t.v r (Vector.replicate 128 0)) e 0).toNat =
          if e < frameHigh ws then (ws.getD ((44 + 4 * frameStreamsN ws + r * frameHigh ws + e) / 2) 0).toNat /
            2 ^ (32 * ((44 + 4 * frameStreamsN ws + r * frameHigh ws + e) % 2)) % 2 ^ 32 else 0) ∧
        t.t.regs = s.t.regs ∧ SameOwnMemory s t)

/-- Words of the control page that software writes and the device keeps as they are, with the bits that they keep (Table 7.11). -/
def Sys2Proof.Claims.ctlKept : List (Nat × Word) :=
  [(0x000, 0xFFFFFFFFFFFFFFFF), (0x020, 31), (0x038, 0xFFFF), (0x048, 0xFF), (0x060, 0xFFFFFFFFFFFFFFFF)] ++
    (List.range 4).flatMap fun i => [0x080 + 32 * i, 0x088 + 32 * i, 0x098 + 32 * i].map fun o => (o, 0xFFFFFFFFFFFFFFFF)

/-- Stores to the control page of an existing partition complete: the plain words read back as written without their reserved bits, the ASID root word sets V and ROOT of the selected address space of the partition, a new PENDING borrowed entry is recorded and sends LREQ, bit 0 of the counter word clears every
counter, and words that are read-only or reserved change nothing. A translation request with H out of range is refused at offset 0; one whose module can be read computes its key, and a cached key answers OK with the cached entry; for another the state is busy, and unless the key is being translated already the translator is queued with
the module as it was read, as a supervisor system task; the translator's answer to the oldest module writes the image at its place and enters it into the cache, posts OK with the entry, or REFUSED when the module is bad, if the request still waits for that key, and ends its
task. The model's choices: a second request and the place of the image (log 23), the offset of a refusal and bytes that cannot be read (logs 23 and 84). `tmaprx` with V = 0 ends the registration of the map, with V = 1 it makes one, and LAST below FIRST raises ILLEGAL. -/
def Obligations.ControlPageStoresComplete : Prop :=
  ∀ (s : State) (part : Nat) (p : Partition) (v : Word) (op : CsrOp) (b : SReg), s.part? part = some p → p.id = part →
    (∀ o m, (o, m) ∈ ctlKept → ∃ t, exec (.controlPageWrite part o v) s = .next t ∧ t.ctlWord part o = v &&& m ∧ t.t = s.t ∧ t.mem = s.mem) ∧
    (∀ o, o ∈ [0x008, 0x010, 0x018, 0x028, 0x030, 0x070, 0x078, 0x108] ∨ (0x110 ≤ o ∧ o < 0x1000) → exec (.controlPageWrite part o v) s = .next s) ∧
    (∀ e ∈ s.asids, e.asid = p.asidSel.extractLsb' 0 16 → e.part = part → (s.asids.map (·.asid)).Nodup →
      ∃ t, exec (.asidRootWordWrite part v) s = .next t ∧ t.asid? e.asid = some { e with root := (v.extractLsb' 12 40).toNat * 4096, valid := v.getLsbD 0 } ∧
        (∀ a, a ≠ e.asid → t.asid? a = s.asid? a) ∧ t.t = s.t ∧ t.mem = s.mem) ∧
    (∀ l : Lease, l = { entry := v ++ p.leaseLow, deadline := 0, drop := false, draining := false } → s.lease? (p.leaseIdx.toNat % 256) = none → leaseOk l.entry = true →
      l.v = true → l.lent = false → l.st = 0 → Reachable s l.peer →
      ∃ t, exec (.leaseEntryWrite part v) s = .next t ∧ t.lease? (p.leaseIdx.toNat % 256) = some l ∧
        t.out = wordsTo s 6 l.peer 0 [word (l.lid * 2 ^ 32 + (l.units - 1) * 2 ^ 18 + l.part * 2 ^ 12)] :: s.out ∧ t.t = s.t ∧ t.mem = s.mem) ∧
    (v.getLsbD 0 = true → ∃ t, exec (.counterClear part v) s = .next t ∧ (t.part? part).map (·.counters) = some (Vector.replicate 64 0) ∧ t.t = s.t ∧ t.mem = s.mem) ∧
    ((v &&& 63 = 0 ∨ 32 < (v &&& 63).toNat) →
      ∃ t, exec (.translationRequest part v) s = .next t ∧ (t.part? part).map (fun q => (q.transState, q.transBad, q.transResult)) = some (3, some 0, 0) ∧ t.t = s.t ∧ t.mem = s.mem) ∧
    (∀ (hd bs : List Byte) (key : BitVec 384) (s1 s2 : State), v &&& 63 ≠ 0 → (v &&& 63).toNat ≤ 32 →
      (moduleBytes p.transVa 32).run (s.modPart part fun q => { q with transH := v &&& 63 }) = (.ok hd, s1) →
      (moduleBytes p.transVa (leNat ((hd.drop 4).take 4))).run s1 = (.ok bs, s2) → key = transKeyOf bs s.gen (v &&& 63) →
      ∃ t, exec (.translationRequest part v) s = .next t ∧ t.t.regs = s.t.regs ∧ t.t.pc = s.t.pc ∧ SameMemory s t ∧
        (∀ e, (p.transCache.find? fun x => x.key == key) = some e →
          (t.part? part).map (fun q => (q.transState, q.transBad, q.transResult, q.transKey)) = some (2, none, e.pa, key) ∧ t.pending = s.pending) ∧
        ((∀ e ∈ p.transCache, e.key ≠ key) →
          (t.part? part).map (fun q => (q.transState, q.transBad, q.transResult, q.transKey)) =
            some (1, none, 0, key) ∧
          ((∃ j ∈ p.transJobs, j.key = key) → (t.part? part).map (·.transJobs) = some p.transJobs ∧ t.pending = s.pending) ∧
          ((∀ j ∈ p.transJobs, j.key ≠ key) →
          (t.part? part).map (·.transJobs) = some (p.transJobs ++
            [{ key := key, h := (v &&& 63).toNat, code := bs, bad := (moduleBad s.act (bs ++ hd.drop bs.length).toArray).map (BitVec.ofNat 32) }]) ∧
          ∃ q, t.pending = s.pending ++ [q] ∧ q.task.translator = true ∧ q.task.part = part ∧ q.task.asid = s.t.asid ∧ q.task.launch = none ∧
            q.task.supervisor = true ∧ q.task.prio = 0 ∧ q.task.spadu = 16 ∧ q.task.since = s.now ∧ q.home = none ∧ q.saved = none))) ∧
    (∀ (k : Task) (image : List Byte) (entryOff at_ : Nat) (j : TransJob), s.t.task = some k → (s.bound.find? fun x => x.2.translator && x.2.part == part) = some (s.cur, k) →
      p.transJobs.head? = some j → (j.bad.isSome = true ∨ s.translated p j image entryOff at_ = true) →
      ∃ t, exec (.translationDone part image entryOff at_) s = .next t ∧ t.t = Thread.reset ∧ (t.part? part).map (·.transJobs) = some (p.transJobs.drop 1) ∧
        (t.part? part).map (fun q => (q.transState, q.transBad, q.transResult)) = some (if p.transState = 1 ∧ p.transKey = j.key then
            (match j.bad with
              | some o => (3, some o, 0)
              | none => (2, none, word at_))
          else (p.transState, p.transBad, p.transResult)) ∧
        (j.bad = none → (t.part? part).map (fun q => q.transCache.head?) = some (some { key := j.key, pa := word at_, bytes := image.length })) ∧
        (s.t.tmapbase = 0 → memWf s.mem = true → ∀ x, (∀ q, ¬ EventByte s q x) → memRead t.mem x =
          if j.bad = none ∧ at_ ≤ x then (s.translation j).getD (x - at_) (memRead s.mem x) else memRead s.mem x)) ∧
    (∀ x : Word, s.t.sup = true → x = ((match op with
        | .write => s.t.reg b
        | .set => s.t.tmaprx ||| s.t.reg b
        | .clear => s.t.tmaprx &&& ~~~(s.t.reg b)) &&& 0x8000FFFF0003FFFF) →
      (x.getLsbD 63 = false → ∃ t, exec (.tmaprxWrite op b) s = .next t ∧ t.t.tmaprx = x ∧ t.t.regs = s.t.regs ∧ t.mem = s.mem ∧
        t.rxRegs = s.rxRegs.filter fun r => !(r.part == s.t.part && r.asid == s.t.asid && r.base == s.t.tmapbase)) ∧
      (x.getLsbD 63 = true → (x.extractLsb' 0 9).toNat ≤ (x.extractLsb' 9 9).toNat → s.rxRegs = [] → s.t.tmapbase ≠ 0 → s.t.part = part → p.pairs.getLsbD 0 = true →
        ∃ t, exec (.tmaprxWrite op b) s = .next t ∧ t.t.tmaprx = x ∧ t.t.regs = s.t.regs ∧ t.mem = s.mem ∧
          t.rxRegs = [{ part := s.t.part, asid := s.t.asid, tag := x.extractLsb' 32 16, base := s.t.tmapbase, first := (x.extractLsb' 0 9).toNat, last := (x.extractLsb' 9 9).toNat }]) ∧
      (x.getLsbD 63 = true → (x.extractLsb' 9 9).toNat < (x.extractLsb' 0 9).toNat →
        exec (.tmaprxWrite op b) s = .next (s.trap { cause := .illegal, xaddr := s.raw, xelem := word s.rawHigh, xmask := 0, vstart := none } false)))

/-! ## The distributor -/

/-- A byte of an event ring of some partition. -/
def Sys2Proof.Claims.AnyEventByte (s : State) (x : Nat) : Prop := ∃ part, EventByte s part x

/-- TASK_PLACE of one pending task that has not run and takes no tile map, for which a core has room, binds it to the lowest free slot of that core: the slot stands at the entry with the registers of Table 4.6, every other register 0, the handler of its partition,
no map, its scratchpad zeroed; a task of a gang that has not started is held. `s6` of a gang counts the threads of all its packages, which is the model's reading (log 69). -/
def Obligations.PendingTasksStartAsTable46Says : Prop :=
  ∀ (s : State) (k : Task) (c base i : Nat), s.pending = [Pending.fresh k] → k.mapSlot = none → (s.part? k.part).all (fun p => !p.closing) = true →
    (∀ l st, k.launch.bind s.launch? = some l → l.stages[k.stage]? = some st → st.tiles = false ∧ (st.tlim = 0 ∨ s.stageBound l.key k.stage < st.tlim)) →
    s.awaits k.poolAsker = false → s.pickDie k (k.heat == 2) true = some (c, base) → s.freeSlot c [] = some i → memWf s.mem = true →
    ∃ t k', exec .taskPlace s = .next t ∧ t.pending = [] ∧ (t.thread (4 * c + i)).task = some k' ∧ k' = { k with spadBase := base, since := s.now, uid := s.nextUid } ∧
      (t.thread (4 * c + i)).pc = k.entry ∧ (t.thread (4 * c + i)).sup = k.supervisor ∧ (t.thread (4 * c + i)).tmapbase = 0 ∧ (t.thread (4 * c + i)).inh = false ∧
      (t.thread (4 * c + i)).xvec = ((s.part? k.part).map (·.xvec)).getD 0 &&& ~~~1 ∧
      (t.thread (4 * c + i)).stall = (if (k.launch.bind s.launch?).any fun l => !l.started then .gang else .none) ∧
      (∀ r : SReg, (t.thread (4 * c + i)).reg r =
        if r = 2 then 0xFF00000000000000 + word (k.spadu * 4096 - 4096)
        else if r = 3 then 0xFF00000000000000
        else match k.launch.bind s.launch? with
          | some l => if r = 4 then l.args else if r = 5 then word k.index
            else if r = 6 then (if k.stage = 0 then word ((l.flights.filter fun f => f.domain != 5).foldl (fun n f => n * f.count) (if l.gang then l.npkg + 1 else 1)) else 0) else if r = 7 then k.sarg else 0
          | none => if r = 4 then word (0xF000000000000 + k.part * 4096) else if r = 5 then word k.part else 0) ∧
      (∀ j < k.spadu * 4096, ¬ AnyEventByte s (spadKey c (base + j)) → memRead t.mem (spadKey c (base + j)) = 0) ∧
      (∀ j, j ≠ 4 * c + i → t.thread j = s.thread j)

/-- A quarter of a core is in a state, for its launch. -/
def Sys2Proof.Claims.QuarterIs (s : State) (c q : Nat) (st : QState) : Prop := ((s.getCore c).quarter q).st = st

/-- The lending states move as Table 4.7 says: RESERVED to DRAINING when no allocation overlaps, DRAINING to LENT once no version is left and the borrower still holds the launch's hot task (else FREE), RECLAIM to SCRUB with the quarter's scratchpad zeroed once the borrower's versions have left, SCRUB to FREE.
At GSTART a gang whose stage-0 tasks are bound starts, and else is aborted; a launch all of whose tasks have ended and that is over completes: it is gone, and its entry joins the completion queue of a partition with no session; that an aborted launch keeps the cause of its first trap is the model's choice (log 81).
DST_EPOCH takes the new quotas of a die and moves its thermal level by at most one: up with a sensor at 95.0 degrees or more, down when all have been at 92.0 or less for 16 epochs. CURRENT_GOVERNOR lets a core's governed current rise by at most its ramp, withholding issue meanwhile, and fall by the programmed decay, the ballast drawing the difference up to 20 A (the numbers of milliamperes are log 7's). PC_SAMPLE writes one record for the task of a partition one of whose samples falls due, through the physical base of its ring (log 19), with the lowest reason that holds (log 79). The quotas are those that logs 20 and 65 read from R98. -/
def Obligations.TheDistributorMovesOn : Prop :=
  (∀ (s : State) (c q key : Nat), memWf s.mem = true → q < 4 →
     (QuarterIs s c q .reserved → s.quarterUsed c q = false → ∃ t, exec (.quarterDrain c q) s = .next t ∧ QuarterIs t c q .draining ∧
       ((t.getCore c).quarter q).launch = ((s.getCore c).quarter q).launch ∧ t.t.regs = s.t.regs) ∧
     (QuarterIs s c q .draining → s.emptied c (ownRange q) = true → ∃ t, exec (.quarterLend c q) s = .next t ∧ t.t = s.t ∧
       QuarterIs t c q (if (neighbour c q).any fun b => s.holdsHot b ((s.getCore c).quarter q).launch true then .lent else .free)) ∧
     (∀ b, QuarterIs s c q .reclaim → neighbour c q = some b → s.emptied b (galleryRange q) = true →
       ∃ t, exec (.quarterScrub c q) s = .next t ∧ QuarterIs t c q .scrub ∧ t.t = s.t ∧
         ∀ j < spadBytes ((s.getCore c).quarter q).split / 4, ¬ AnyEventByte s (spadKey c (q * (spadBytes ((s.getCore c).quarter q).split / 4) + j)) →
           memRead t.mem (spadKey c (q * (spadBytes ((s.getCore c).quarter q).split / 4) + j)) = 0) ∧
     (QuarterIs s c q .scrub → (∀ b, neighbour c q = some b → s.boundOn b = []) → ∃ t, exec (.quarterFree c q) s = .next t ∧ QuarterIs t c q .free ∧ t.t = s.t) ∧
     (∀ l, s.launch? key = some l →
       (l.gang = true → l.started = false →
         ∃ t, exec (.gangStart key) s = .next t ∧ l.gstart.toNat ≤ t.tick.toNat ∧ t.t.regs = s.t.regs ∧
           ((s.tickTo l.gstart).synced = true → s.stagePending key 0 = 0 → (t.launch? key).map (·.started) = some true ∧ (t.launch? key).map (·.aborted) = some l.aborted ∧
             (s.t.launch = some key → s.t.stall = .gang → t.t = { s.t with stall := .none }) ∧ t.mem = s.mem) ∧
           ((s.tickTo l.gstart).synced = false ∨ s.stagePending key 0 ≠ 0 → (∀ p ∈ s.pending, p.saved = none) → (t.launch? key).map (·.aborted) = some true ∧
             (s.t.launch = some key → t.t = { s.t with ending := true }))) ∧
       (s.launchOver l = true → (∀ x ∈ s.sessions, x.part ≠ l.part) →
         ∃ t, exec (.launchComplete key) s = .next t ∧ t.launch? key = none ∧ t.t = s.t ∧
           (∀ p, s.part? l.part = some p → (t.part? l.part).map (·.comps) = some (p.comps ++
             [{ qid := l.qid, id := l.id, status := if l.aborted then 2 else if l.cause.isSome then 1 else 0, cause := l.cause.getD 0
                stick := l.stick.getD s.tick, etick := if l.stick.isSome then l.etick.getD s.tick else s.tick }]))))) ∧
  (∀ (s : State) (d c : Nat),
     (d < 9 → ∃ t, exec (.dstEpoch d) s = .next t ∧ t.t.regs = s.t.regs ∧ (∀ x, ¬ AnyEventByte s x → memRead t.mem x = memRead s.mem x) ∧
       (t.getDie d).quota = s.launches.flatMap (s.launchQuotas d) ∧ (t.getDie d).epoch = s.now ∧
       (t.getDie d).level =
         if (s.getDie d).temps.any (fun x => decide (950 ≤ x)) then (if (s.getDie d).level < 3 then (s.getDie d).level + 1 else (s.getDie d).level)
         else if (s.getDie d).temps.all (fun x => decide (x ≤ 920)) ∧ 15 ≤ (s.getDie d).calm then (s.getDie d).level - 1 else (s.getDie d).level) ∧
     (∀ real, Config.coreCurrent c s.free = real → ∃ t, exec (.currentGovernor c) s = .next t ∧ t.t = s.t ∧ t.mem = s.mem ∧ t.free = s.free + 1 ∧
       ((s.getCore c).governed + 17 < real → (t.getCore c).governed = (s.getCore c).governed + 17 ∧ (t.getCore c).withheld = true ∧ (t.getCore c).ballast = 0) ∧
       (real ≤ (s.getCore c).governed + 17 → (t.getCore c).governed = max real ((s.getCore c).governed - s.decay) ∧ (t.getCore c).withheld = false ∧
         (t.getCore c).ballast = min 20000 ((t.getCore c).governed - real))) ∧
     (∀ (k : Task) (p : Partition) (r : EvRing) (a n : Nat), s.cur < 2304 → s.boundOn s.core = [(s.cur, k)] → s.t.task = some k → s.part? k.part = some p → s.samplesDue s.core k = 1 →
       r = vget p.rings 0 { base := 0, log2 := 0, head := 0, tail := 0 } → n = 2 ^ r.log2.toNat → 8 ≤ r.log2.toNat → r.log2.toNat ≤ 24 → r.base.extractLsb' 0 12 = 0 →
       (r.head - r.tail).toNat < n → a = r.base.toNat + 32 * (r.head.toNat % n) → p.memPa ≤ a → a + 32 ≤ p.memPa + p.memBytes → memWf s.mem = true →
       ∃ t, exec (.pcSample s.core) s = .next t ∧ t.t = s.t ∧ SameMemoryBut a 32 s t ∧ (t.getCore s.core).sampledAt = s.now ∧
         (t.part? k.part).map (fun q => vget q.rings 0 { base := 0, log2 := 0, head := 0, tail := 0 }) = some { r with head := r.head + 1 } ∧
         leNat (memReadN t.mem a 32) = (s.t.pc.toNat + s.stallReason s.cur * 2 ^ 64 + (if s.t.sup then 2 ^ 68 else 0) + (if s.t.inh then 2 ^ 69 else 0) + k.stage % 8 * 2 ^ 70) * 2 ^ 128 +
           1 * 2 ^ 120 + s.core * 2 ^ 106 + s.cur % 4 * 2 ^ 104 + k.asid.toNat * 2 ^ 88 + s.tick.toNat))

/-! ## Messages of the host -/

/-- A datagram of an open session that is accepted: its header is in order, its version is the session's, it is new there, not fragmented and asks for no ACK, and the device is not in recovery. -/
def Sys2Proof.Claims.Arrives (s : State) (m : DkcpMsg) (typ : Nat) (x : Session) : Prop :=
  m.magic = 0x4B44 ∧ m.typ.toNat = typ ∧ m.rsvd = 0 ∧ (m.part.toNat < 36 ∨ m.part = 63) ∧ m.len.toNat = m.payload.length ∧ m.payload.length ≤ 8000 ∧
    s.session? m.session = some x ∧ m.ver = x.ver ∧ m.more = false ∧ x.frags = [] ∧ m.seq ∉ x.received ∧ m.ar = false ∧ s.recovery = false

/-- The payload of LAUNCH: queue, tail, queue pair and PSN. -/
def Sys2Proof.Claims.launchPayload (qid : Nat) (tail : BitVec 32) (qpn : Nat) (psn : BitVec 24) : List Byte :=
  leBytes 16 (qid + tail.toNat * 2 ^ 32 + qpn * 2 ^ 64 + psn.toNat * 2 ^ 96)

/-- The launches, tasks and completion entries are as before. -/
def Sys2Proof.Claims.NothingStarts (s t : State) : Prop := t.launches = s.launches ∧ t.pending = s.pending ∧ t.t = s.t ∧ t.mem = s.mem

/-- LAUNCH whose fence is not met waits, and is remembered; with no fence, or once its queue pair has committed the PSN, one new record that is valid starts its launch: the launch that the record describes is running, its stage-0 tasks are pending in index order, and the queue's tail
has moved. FENCE_TIMEOUT refuses a LAUNCH with status 4 in its session. ABORT of a launch marks it ABORTED, ends its bound tasks at their next boundary and drops its pending ones. The cause in the entry of an aborted launch, and an ABORT of a record that is not read yet, are the model's choices (log 81). -/
def Obligations.LaunchMessagesStartAndEndLaunches : Prop :=
  ∀ (s s1 : State) (m : DkcpMsg) (x : Session) (q : Queue) (f : FenceWait) (p : Partition) (r qid qpn : Nat) (psn : BitVec 24) (tail : BitVec 32) (l : Launch) (st : Stage) (n : Nat),
    qid < 64 → qpn < 2 ^ 24 → s.ts.ahead = false →
    (∀ u, Arrives s m 0x10 x → m.payload = launchPayload qid tail qpn psn → s.queue? x.part qid = some q → 0 < q.size → s.waiting x.part qid = [] → (∀ g ∈ s.fences, g.n ≠ s.nextFence) →
      (q.tail + 1) % q.size = tail.toNat % q.size → 1 < q.size → q.tail < q.size → q.read = q.tail → q.unread = 0 → s.awaits (.record x.part qid) = false →
      s.part? x.part = some p → p.closing = false → p.comps.length < 4096 →
      (qpn ≠ 0xFFFFFF → (∀ y ∈ s.qps, ¬ (y.part = x.part ∧ y.qpn = qpn)) →
        ∃ t, exec (.launch m) s = .next t ∧ NothingStarts s t ∧
          t.fences = s.fences ++ [{ n := s.nextFence, session := x.id, part := x.part, qid := qid, tail := tail, qpn := qpn, psn := psn }]) ∧
      (qpn = 0xFFFFFF → u = { s with
          sessions := (s.modSession x.id fun y => { y with received := keepNumbers x.expect (m.seq :: x.received), expect := nextExpected (keepNumbers x.expect (m.seq :: x.received)) (keepNumbers x.expect (m.seq :: x.received)).length y.expect }).sessions, nextFence := s.nextFence + 1
          queues := s.queues.map fun y => if y.part == x.part && y.qid == qid then { y with session := x.id, tail := (q.tail + 1) % q.size, unread := y.unread + 1 } else y } →
        runAs (.record x.part qid) (readRecordBytes q q.tail) u = (.ok (.ok r), s1) → l = recLaunch r s.nextLaunch x.part qid → s.recordFails r l p = false → l.gang = false → l.stages.head? = some st →
        n = l.stage0Count →
        ∃ t, exec (.launch m) s = .next t ∧ t.launches = s.launches ++ [l.modStage 0 fun y => { y with created := n }] ∧
          t.pending = s.pending ++ (List.range n).map (fun i => Pending.fresh (s.newTask l 0 st i)) ∧ (t.queue? x.part qid).map (fun z => (z.tail, z.read)) = some ((q.tail + 1) % q.size, (q.tail + 1) % q.size) ∧ t.t = s.t ∧ SameOwnMemory s t)) ∧
    (∀ y : Qp, f ∈ s.fences → (∀ g ∈ s.fences, g.n = f.n → g = f) → s.waiting f.part f.qid = [f] → s.queue? f.part f.qid = some q → q.part = f.part → q.qid = f.qid → s.part? f.part = some p →
      y ∈ s.qps → y.part = f.part → y.qpn = f.qpn → (y.recvPsn - 1 - f.psn).msb = false → p.closing = false → p.comps.length < 4096 → q.tail < q.size → 1 < q.size → q.read = q.tail → q.unread = 0 → s.awaits (.record f.part f.qid) = false →
      (q.tail + 1) % q.size = f.tail.toNat % q.size →
      runAs (.record f.part f.qid) (readRecordBytes q q.tail) ((s.dropFence f.n).modQueue f.part f.qid fun x => { x with tail := (q.tail + 1) % q.size, unread := x.unread + 1 }) = (.ok (.ok r), s1) →
      l = recLaunch r s.nextLaunch f.part f.qid → s.recordFails r l p = false → l.gang = false → l.stages.head? = some st → n = l.stage0Count →
      ∃ t, exec (.launchFenceResolved f.n) s = .next t ∧ t.launches = s.launches ++ [l.modStage 0 fun z => { z with created := n }] ∧
        t.pending = s.pending ++ (List.range n).map (fun i => Pending.fresh (s.newTask l 0 st i)) ∧ (∀ g ∈ t.fences, g.n ≠ f.n) ∧ t.t = s.t ∧ SameOwnMemory s t) ∧
    (f ∈ s.fences → (∀ g ∈ s.fences, g.n = f.n → g = f) → s.waiting f.part f.qid = [f] → s.fenceMet f = false → s.session? f.session = some x → x.ver = 2 ∨ x.ver = 3 →
      ∃ t, exec (.fenceTimeout f.n) s = .next t ∧ NothingStarts s t ∧ t.fences = s.fences.filter (fun g => g.n != f.n) ∧
        t.out = .dkcp f.session x.part x.nextSeq x.ver 0x11 true false
          (leBytes 8 ((0xFFFFFFC000000000 + f.qid * 2 ^ 32 + f.tail.toNat) % 2 ^ 64) ++ leBytes 2 4 ++ leBytes 2 0 ++ leBytes 4 0 ++
            (if x.ver = 2 then [] else leBytes 8 s.tick.toNat ++ leBytes 8 s.tick.toNat)) :: s.out) ∧
    (∀ id : Word, Arrives s m 0x12 x → m.payload = leBytes 8 qid ++ leBytes 8 id.toNat → (∀ y ∈ s.pending, y.saved = none ∧ y.home = none) → l ∈ s.launches → l.part = x.part → l.qid = qid → l.id = id → l.aborted = false →
      (∀ y ∈ s.launches, y.part = x.part → y.qid = qid → y.id = id → y = l) → s.launch? l.key = some l →
      ∃ t, exec (.abort m) s = .next t ∧ (t.launch? l.key).map (·.aborted) = some true ∧ (∀ y ∈ t.pending, y.task.launch ≠ some l.key) ∧
        (s.t.launch = some l.key → t.t = { s.t with ending := true }) ∧ t.mem = s.mem)

/-- A session is open with these contents. -/
def Sys2Proof.Claims.SessionIs (t : State) (id : BitVec 32) (p : Session → Prop) : Prop := ∃ y, t.session? id = some y ∧ p y

/-- A session is gone, and what it carried waits again at the head of its partition's completion queue, which no session takes. -/
def Sys2Proof.Claims.Closed (s t : State) (x : Session) : Prop :=
  t.session? x.id = none ∧ (∀ p, s.part? x.part = some p → (∀ y ∈ s.sessions, y.id ≠ x.id → y.part ≠ x.part) →
    (t.part? x.part).map (·.comps) = some ((x.unacked.flatMap fun u => u.comps) ++ p.comps)) ∧ t.t = s.t ∧ t.mem = s.mem

/-- HELLO for an existing partition with a session to spare opens the next session at the highest version of both sides and is answered by HELLO_ACK; one that may not open is answered by HELLO_REJECT with the lowest reason that holds. ACK ends the wait of the message that it names; BYE, ten silent seconds and a message sent eight times
in vain close a session; before that 100 µs without ACK send the message again. ATTEST_REQ is answered by the report of three fragments. FW_LOAD of a whole image, in its turn, stores it when both signatures verify and its security version is not below the fused minimum, and answers status 6 when not. TELEMETRY_PERIOD sends the record to a management session of version 3. That what is unacknowledged returns to the completion queue also when BYE or idleness closes a session is the model's choice (log 66). -/
def Obligations.SessionsOpenCloseAndAnswer : Prop :=
  ∀ (s : State) (m : DkcpMsg) (x : Session) (part minv maxv : Nat) (seq : BitVec 32),
    (m.magic = 0x4B44 → m.typ = 0x01 → m.rsvd = 0 → (m.part.toNat < 36 ∨ m.part = 63) → m.len = 4 → m.ver = 0 → m.session = 0 → m.more = false → s.recovery = false →
      minv < 256 → maxv < 256 → part < 64 → m.payload = leBytes 4 (minv + maxv * 2 ^ 8 + part * 2 ^ 16) →
      (max minv 2 ≤ min maxv 3 → (part = 63 ∨ ∃ p, s.part? part = some p ∧ p.closing = false ∧ p.comps = []) → (part = 63 → s.part? 63 = none) → (s.sessions.filter fun y => y.part == part).length < 4 → s.session? (BitVec.ofNat 32 s.nextSession) = none →
        ∃ t, exec (.hello m) s = .next t ∧ t.nextSession = s.nextSession + 1 ∧ t.t = s.t ∧ t.mem = s.mem ∧
          SessionIs t (BitVec.ofNat 32 s.nextSession) (fun y => y.part = part ∧ y.ver = BitVec.ofNat 8 (min maxv 3) ∧ y.nextSeq = 1 ∧ y.unacked = []) ∧
          t.out = .dkcp (BitVec.ofNat 32 s.nextSession) part 0 (BitVec.ofNat 8 (min maxv 3)) 0x02 false false
            (leBytes 4 (2 + 3 * 2 ^ 8 + s.ownId * 2 ^ 16 + (if s.pkgId.isSome then 2 ^ 26 else 0))) :: s.out) ∧
      (∀ reason, (if min maxv 3 < max minv 2 then reason = 0 else if part ≠ 63 ∧ (∀ p, s.part? part = some p → p.closing = true) then reason = 1 else 4 ≤ (s.sessions.filter fun y => y.part == part).length ∧ reason = 2) →
        exec (.hello m) s = .next { s with out := .dkcp 0 part 0 0 0x03 false false (leBytes 4 (2 + 3 * 2 ^ 8 + reason * 2 ^ 16)) :: s.out })) ∧
    (Arrives s m 0x04 x → m.payload = leBytes 4 seq.toNat →
      ∃ t, exec (.ack m) s = .next t ∧ SessionIs t m.session (fun y => y.unacked = x.unacked.filter fun u => u.seq != seq) ∧ t.t = s.t ∧ t.mem = s.mem) ∧
    (Arrives s m 0x05 x → m.payload = [] → ∃ t, exec (.bye m) s = .next t ∧ Closed s t x) ∧
    (s.session? x.id = some x → ∃ t, exec (.dkcpSessionIdle x.id) s = .next t ∧ Closed s t x) ∧
    (∀ u, s.session? x.id = some x → x.unacked = [u] →
      (u.tries < 8 → ∃ t, exec (.dkcpRetransmit x.id u.seq) s = .next t ∧ t.out = .dkcp x.id x.part u.seq u.ver u.typ true u.more u.payload :: s.out ∧
        SessionIs t x.id (fun y => y.unacked = [{ u with tries := u.tries + 1 }]) ∧ t.t = s.t ∧ t.mem = s.mem) ∧
      (8 ≤ u.tries → ∃ t, exec (.dkcpRetransmit x.id u.seq) s = .next t ∧ Closed s t x)) ∧
    (Arrives s m 0x30 x → m.payload.length = 32 → ∃ t a b c, exec (.attestReq m) s = .next t ∧
      t.out = .dkcp x.id x.part (x.nextSeq + 2) x.ver 0x31 false false c :: .dkcp x.id x.part (x.nextSeq + 1) x.ver 0x31 false true b ::
        .dkcp x.id x.part x.nextSeq x.ver 0x31 false true a :: s.out ∧
      a ++ b ++ c = s.reportBody m.payload ++ exactly 384 (Config.signature 0 (s.reportBody m.payload)) ++ exactly 16224 (Config.signature 1 (s.reportBody m.payload)) ∧
      t.t = s.t ∧ t.mem = s.mem) ∧
    (∀ (tag : BitVec 16) (kind : Nat) (data : List Byte), Arrives s m 0x32 x → m.seq = x.expect → x.received.length < 2 ^ 31 → x.part = 63 → kind ≤ 4 → 0 < data.length →
      m.payload = leBytes 16 (tag.toNat + kind * 2 ^ 16 + data.length * 2 ^ 64) ++ data → s.fwLoads = [] →
      ((Config.signatureOk 0 data && Config.signatureOk 1 data && decide (Config.minimumVersion ≤ Config.securityVersion data)) = true → ∃ t, exec (.fwLoad m) s = .next t ∧ t.staged = true ∧ alookup kind (if s.activeB then t.flashA else t.flashB) = some data ∧
        t.out = .dkcp x.id x.part x.nextSeq x.ver 0x21 false false (leBytes 8 tag.toNat) :: s.out ∧ t.t = s.t ∧ t.mem = s.mem) ∧
      ((Config.signatureOk 0 data && Config.signatureOk 1 data && decide (Config.minimumVersion ≤ Config.securityVersion data)) = false → ∃ t, exec (.fwLoad m) s = .next t ∧ t.flashA = s.flashA ∧ t.flashB = s.flashB ∧
        t.out = .dkcp x.id x.part x.nextSeq x.ver 0x21 false false (leBytes 8 (tag.toNat + 6 * 2 ^ 16)) :: s.out ∧ t.t = s.t ∧ t.mem = s.mem)) ∧
    (s.telemetry ≠ 0 → s.sessions = [x] → x.part = 63 → x.ver = 3 →
      ∃ t, exec .telemetryPeriod s = .next t ∧ t.out = .dkcp x.id 63 x.nextSeq 3 0x22 false false s.telemetryBytes :: s.out ∧ t.t = s.t ∧ t.mem = s.mem)

/-! ## Management requests -/

/-- A management request of a session has arrived in its turn, every message before it having been received: its tag, its operation and its operand words. -/
def Sys2Proof.Claims.Asks (s : State) (m : DkcpMsg) (x : Session) (tag op : Nat) (ws : List Word) : Prop :=
  Arrives s m 0x20 x ∧ m.seq = x.expect ∧ x.received.length < 2 ^ 31 ∧ tag < 2 ^ 16 ∧ m.payload = leBytes 8 (tag + op * 2 ^ 16) ++ ws.flatMap fun w => leBytes 8 w.toNat

/-- A request is answered with OK and result words, and what it asks for holds. -/
def Sys2Proof.Claims.Grants (s : State) (i : Instr) (x : Session) (tag : Nat) (ws : List Word) (p : State → Prop) : Prop :=
  ∃ t, exec i s = .next t ∧ t.out.head? = some (.dkcp x.id x.part x.nextSeq x.ver 0x21 false false (leBytes 8 tag ++ ws.flatMap fun w => leBytes 8 w.toNat)) ∧ p t

/-- A request is refused with a status, and nothing else happens. -/
def Sys2Proof.Claims.Refuses (s : State) (i : Instr) (x : Session) (tag status : Nat) : Prop :=
  ∃ t, exec i s = .next t ∧ t.out = .dkcp x.id x.part x.nextSeq x.ver 0x21 false false (leBytes 8 (tag + status * 2 ^ 16)) :: s.out ∧ t.t = s.t ∧ t.mem = s.mem ∧
    t.parts = s.parts ∧ t.asids = s.asids ∧ t.queues = s.queues ∧ t.qps = s.qps ∧ t.pkgId = s.pkgId ∧ t.ports = s.ports ∧ t.pending = s.pending

/-- Requests on partitions, address spaces, memory regions, queues and queue pairs that their operands and the state allow are answered OK with their effect, and MR_REGISTER and QP_CREATE give the key or number that they made. PART_CREATE of hall pairs that a partition holds is BUSY, and PART_DESTROY of none is BAD_ARG; PART_DESTROY of a partition with no bound task takes everything of it away, and of another ends its tasks first. -/
def Obligations.PartitionRequestsTakeEffect : Prop :=
  ∀ (s : State) (m : DkcpMsg) (x : Session) (tag part : Nat) (p : Partition) (w a b c : Word) (e : AsidEntry),
    (Asks s m x tag 0x0001 [] →
      Grants s (.status m) x tag [word (s.ownId + (if s.pkgId.isSome then 1024 else 0) + (if s.synced then 4096 else 0)), s.freePairs.setWidth 64, word s.partMask] (NothingStarts s)) ∧
    (Asks s m x tag 0x0002 [w, a, b] → x.part = 63 → w.toNat < 2 ^ 36 →
      ((∀ q ∈ s.parts, q.pairs &&& w.setWidth 36 = 0) → s.parts.length < 36 → w ≠ 0 → a.toNat % 2097152 = 0 → b.toNat % 2097152 = 0 → 67108864 ≤ b.toNat → a.toNat + b.toNat ≤ 0x861C468000 →
        s.partOverlap a.toNat b.toNat = false → s.lendableHit a.toNat b.toNat = false → part < 36 → s.part? part = none → (∀ j < part, s.part? j ≠ none) →
        Grants s (.partCreate m) x tag [word part] fun t => t.part? part = some (Partition.fresh part (w.setWidth 36) a.toNat b.toNat) ∧ (∀ j, j ≠ part → t.part? j = s.part? j) ∧ NothingStarts s t) ∧
      ((∃ q ∈ s.parts, q.pairs &&& w.setWidth 36 ≠ 0) → Refuses s (.partCreate m) x tag 5)) ∧
    (Asks s m x tag 0x0003 [w] → x.part = 63 → w.toNat < 64 → part = w.toNat →
      (s.part? part = some p → part ≠ 63 → p.closing = false → (∀ y ∈ s.pending, y.saved = none) →
        ((∀ y ∈ s.bound, y.2.part ≠ part ∧ ∀ l ∈ s.launches, l.part = part → y.2.launch ≠ some l.key) →
          Grants s (.partDestroy m) x tag [] fun t => t.part? part = none ∧ (∀ y ∈ t.sessions, y.part ≠ part) ∧ (∀ y ∈ t.queues, y.part ≠ part) ∧
            (∀ y ∈ t.qps, y.part ≠ part) ∧ (∀ y ∈ t.asids, y.part ≠ part) ∧ (∀ y ∈ t.rxRegs, y.part ≠ part)) ∧
        ((∃ y ∈ s.bound, y.2.part = part) →
          Grants s (.partDestroy m) x tag [] fun t => (t.part? part).map (·.closing) = some true ∧
            ∀ tid k, (s.thread tid).task = some k → k.part = part → (t.thread tid).ending = true ∧ (t.thread tid).task = some k)) ∧
      (s.part? part = some p → p.closing = true → Refuses s (.partDestroy m) x tag 5) ∧
      (s.part? part = none → Refuses s (.partDestroy m) x tag 2)) ∧
    (Asks s m x tag 0x0004 [w] → x.part = 63 → w.toNat < 2 ^ 22 → part = (w.extractLsb' 16 6).toNat → s.part? part = some p → s.asid? (w.extractLsb' 0 16) = none →
      Grants s (.asidAssign m) x tag [] fun t => t.asid? (w.extractLsb' 0 16) = some { asid := w.extractLsb' 0 16, part := part, valid := false, root := 0 } ∧
        (∀ j, j ≠ w.extractLsb' 0 16 → t.asid? j = s.asid? j) ∧ NothingStarts s t) ∧
    (Asks s m x tag 0x0005 [w] → x.part = 63 → w.toNat < 2 ^ 16 → s.asid? (w.extractLsb' 0 16) = some e → (∀ l ∈ s.launches, l.asid ≠ w.extractLsb' 0 16) →
      (s.systemTask e.part fun k => k.asid == w.extractLsb' 0 16) = false →
      Grants s (.asidRelease m) x tag [] fun t => t.asid? (w.extractLsb' 0 16) = none ∧ (∀ j, j ≠ w.extractLsb' 0 16 → t.asid? j = s.asid? j) ∧ NothingStarts s t) ∧
    (x.part = part → part ≠ 63 → s.part? part = some p → p.id = part →
      (Asks s m x tag 0x0006 [w, a, b] → w.toNat < 2 ^ 18 → p.regions.length < 1024 → s.asid? (w.extractLsb' 0 16) = some e → e.part = part →
        Grants s (.mrRegister m) x tag [word (s.nextKey % 2 ^ 32)] fun t => (t.part? part).map (·.regions) = some (p.regions ++
          [{ key := BitVec.ofNat 32 s.nextKey, asid := w.extractLsb' 0 16, read := w.getLsbD 16, write := w.getLsbD 17, va := a, bytes := b }]) ∧ NothingStarts s t) ∧
      (Asks s m x tag 0x0007 [w] → w.toNat < 2 ^ 32 → (∃ r ∈ p.regions, r.key = w.extractLsb' 0 32) →
        Grants s (.mrDeregister m) x tag [] fun t => (t.part? part).map (·.regions) = some (p.regions.filter fun r => r.key != w.extractLsb' 0 32) ∧ NothingStarts s t) ∧
      (∀ n, Asks s m x tag 0x0008 [w, a, b, c] → w.toNat < 64 → c.toNat < 2 ^ 16 → s.queue? part w.toNat = none → a.toNat % 512 = 0 → 0 < n → n ≤ 16 → b.toNat = 2 ^ n →
        s.asid? (c.extractLsb' 0 16) = some e → e.part = part →
        Grants s (.queueCreate m) x tag [] fun t => t.queue? part w.toNat =
          some { part := part, qid := w.toNat, base := a, size := b.toNat, asid := c.extractLsb' 0 16, tail := 0, read := 0, unread := 0, session := x.id } ∧ NothingStarts s t) ∧
      (∀ q, Asks s m x tag 0x0009 [w] → w.toNat < 64 → s.queue? part w.toNat = some q → (∀ l ∈ s.launches, ¬ (l.part = part ∧ l.qid = w.toNat)) → s.waiting part w.toNat = [] → q.unread = 0 →
        Grants s (.queueDestroy m) x tag [] fun t => t.queue? part w.toNat = none ∧ NothingStarts s t) ∧
      (Asks s m x tag 0x000A [w, a, b, c] → w.toNat < 2 ^ 28 → c.toNat &&& 0x00FFFFFF00FFFFFF = c.toNat → s.qps.length < 4096 → (s.qps.filter fun q => q.part == part).length < 256 →
        1 ≤ (w.extractLsb' 24 4).toNat → (w.extractLsb' 24 4).toNat ≤ 5 →
        Grants s (.qpCreate m) x tag [word s.nextQpn] fun t => t.qps = s.qps ++ [{ qpn := s.nextQpn, part := part, remote := w.extractLsb' 0 24, mtu := (w.extractLsb' 24 4).toNat, addr := (a, b)
                                                                                   sendPsn := c.extractLsb' 0 24, recvPsn := c.extractLsb' 32 24, error := false }] ∧ NothingStarts s t) ∧
      (Asks s m x tag 0x000B [w] → w.toNat < 2 ^ 24 → (∃ q ∈ s.qps, q.part = part ∧ q.qpn = w.toNat) →
        Grants s (.qpDestroy m) x tag [] fun t => t.qps = s.qps.filter (fun q => !(q.part == part && q.qpn == w.toNat)) ∧ NothingStarts s t))

/-- A unit of HBM is lendable. -/
def Sys2Proof.Claims.Lendable (s : State) (u : Nat) : Prop := ∃ r ∈ s.lendable, r.1 ≤ u ∧ u < r.1 + r.2

/-- Requests of a management session on the package, its ports and ticks, lending, tests, records, supervisors, measurement and partition memory that their operands and the state allow are answered OK with their effect, but what TICK_CONFIG sets is taken at the next exchange; PKG_ID_SET with an enabled port and PMEM_WRITE below 32 MiB are DENIED. -/
def Obligations.PackageRequestsTakeEffect : Prop :=
  ∀ (s : State) (m : DkcpMsg) (x : Session) (tag n part : Nat) (p : Partition) (w a b c : Word) (ws : List Word), x.part = 63 →
    (Asks s m x tag 0x000C [w] → w.toNat < 1024 →
      ((∀ q < 16, (s.port q).enabled = false) → Grants s (.pkgIdSet m) x tag [] fun t => t.pkgId = some (w.extractLsb' 0 10) ∧ NothingStarts s t) ∧
      ((∃ q < 16, (s.port q).enabled = true) → Refuses s (.pkgIdSet m) x tag 4)) ∧
    (Asks s m x tag 0x000D (w :: ws) → w.toNat &&& 0x3FF03FF = w.toNat → n = (w.extractLsb' 16 10).toNat → 0 < n → ws.length = (n + 7) / 8 → (w.extractLsb' 0 10).toNat + n ≤ 1024 →
      (∀ i < n, (ws.flatMap fun v => leBytes 8 v.toNat).getD i 0 ≤ 15) →
      Grants s (.portTable m) x tag [] fun t => (∀ i < n, t.portOf ((w.extractLsb' 0 10).toNat + i) = ((ws.flatMap fun v => leBytes 8 v.toNat).getD i 0).toNat) ∧ NothingStarts s t) ∧
    (Asks s m x tag 0x000D [w] → w.toNat &&& 0x3FF03FF = w.toNat → w.extractLsb' 16 10 = 0 → Refuses s (.portTable m) x tag 2) ∧
    (∀ trained : BitVec 16, Asks s m x tag 0x000E [w] → w.toNat < 2 ^ 16 → s.pkgId.isSome = true → (∀ q < 16, (s.port q).stranded = false) → (∀ q < 16, (s.port q).up = true → w.getLsbD q = true) →
      Grants s (.portEnable m trained) x tag [word ((List.range 16).foldl (fun v q => if w.getLsbD q && ((s.port q).up || trained.getLsbD q) then v + 2 ^ q else v) 0)]
        fun t => (∀ q < 16, t.port q = { s.port q with enabled := w.getLsbD q, up := w.getLsbD q && ((s.port q).up || trained.getLsbD q) }) ∧ NothingStarts s t) ∧
    (Asks s m x tag 0x000F [w, a, b] → w.toNat < 2 → Grants s (.tickConfig m) x tag [] fun t => (∃ l, t.ts.config = some (w.getLsbD 0, l) ∧
      ∀ q < 16, l[q]? = some ((if q < 8 then a else b).extractLsb' (8 * (q % 8)) 8).toNat) ∧ t.ts.eligible = s.ts.eligible ∧ t.ports = s.ports ∧ NothingStarts s t) ∧
    (w.toNat &&& 0x3FFF3FFF = w.toNat → n = (w.extractLsb' 16 14).toNat → 0 < n → ((w.extractLsb' 0 14).toNat + n) * leaseUnit ≤ 0x861C468000 →
      (Asks s m x tag 0x0010 [w] → s.partOverlap ((w.extractLsb' 0 14).toNat * leaseUnit) (n * leaseUnit) = false →
        Grants s (.lendMark m) x tag [] fun t => (∀ u, Lendable t u ↔ Lendable s u ∨ (w.extractLsb' 0 14).toNat ≤ u ∧ u < (w.extractLsb' 0 14).toNat + n) ∧ NothingStarts s t) ∧
      (Asks s m x tag 0x0011 [w] → s.lentSpans = [] →
        Grants s (.lendUnmark m) x tag [] fun t => (∀ u, Lendable t u ↔ Lendable s u ∧ ¬ ((w.extractLsb' 0 14).toNat ≤ u ∧ u < (w.extractLsb' 0 14).toNat + n)) ∧ NothingStarts s t)) ∧
    (∀ (i : Nat) (l : Lease), Asks s m x tag 0x0012 [w, a] → w.toNat < 2 ^ 42 → s.leases = [(i, l)] → l.v = true → l.lent = true → l.st = 1 → l.lid = (w.extractLsb' 0 32).toNat → l.peer = (w.extractLsb' 32 10).toNat →
      Grants s (.revoke m) x tag [] fun t => LeaseIs t i (fun y => y.v = true ∧ y.st = 2 ∧ y.deadline = s.tick + word (max 1000000 a.toNat)) ∧ NothingStarts s t) ∧
    (∀ (stack pch bank : Nat), Asks s m x tag 0x0013 [word (stack + pch * 2 ^ 8 + bank * 2 ^ 16)] → stack < 12 → pch < 64 → bank < 15 → s.entryErrors = [] → s.testRefused stack pch = false →
      Grants s (.bistStart m) x tag [] fun t => NothingStarts s t ∧ ∃ y ∈ t.bists, y.stack = stack ∧ y.pch = pch ∧ y.bank = bank ∧ y.st = 0 ∧
        (stack, y.index, remapEntry true pch bank 0 0 0) ∈ t.remap) ∧
    (Asks s m x tag 0x0014 [w, a] → 0 < a.toNat → a.toNat ≤ 7984 → w.toNat + a.toNat ≤ lifetimeLen →
      Grants s (.lifetimeRead m) x tag (bytesToWords ((s.life.bytes.drop w.toNat).take a.toNat)) (NothingStarts s)) ∧
    (Asks s m x tag 0x0015 [w] → w.toNat ≤ 10000 → Grants s (.telemetryCfg m) x tag [] fun t => t.telemetry = w.toNat ∧ NothingStarts s t) ∧
    (∀ e ∈ s.asids, Asks s m x tag 0x0016 [w, a, b, c] → w.toNat &&& 0xFFFF003F = w.toNat → part = (w.extractLsb' 0 6).toNat → s.part? part = some p → p.closing = false → (s.systemTask part fun k => !k.translator) = false →
      s.asid? (w.extractLsb' 16 16) = some e → e.part = part → b.getLsbD 0 = false → c.getLsbD 0 = false → (s.asids.map (·.asid)).Nodup →
      Grants s (.supvStart m) x tag [] fun t => t.asid? e.asid = some { e with valid := true, root := (a.extractLsb' 12 40).toNat * 4096 } ∧ (t.part? part).map (·.xvec) = some c ∧
        t.t = s.t ∧ t.mem = s.mem ∧ ∃ k, t.pending = s.pending ++ [Pending.fresh k] ∧ k.part = part ∧ k.asid = e.asid ∧ k.entry = b ∧ k.supervisor = true ∧ k.launch = none) ∧
    (∀ i < 8, 4 < i → Asks s m x tag 0x0017 (word i :: ws) → ws.length = 6 →
      Grants s (.measure m) x tag [] fun t => vget t.meas i 0 = sha384 (digestBytes (vget s.meas i 0) ++ ws.flatMap fun v => leBytes 8 v.toNat) ∧ (∀ j, j ≠ i → vget t.meas j 0 = vget s.meas j 0) ∧ NothingStarts s t) ∧
    (Asks s m x tag 0x0018 (w :: a :: ws) → w.toNat < 64 → part = w.toNat → s.part? part = some p →
      (33554432 ≤ a.toNat → a.toNat + 8 * ws.length ≤ p.memBytes → memWf s.mem = true →
        Grants s (.pmemWrite m) x tag [] fun t => memReadN t.mem (p.memPa + a.toNat) (8 * ws.length) = (ws.flatMap fun v => leBytes 8 v.toNat) ∧
          SameMemoryBut (p.memPa + a.toNat) (8 * ws.length) s t ∧ t.t = s.t) ∧
      (a.toNat < 33554432 → Refuses s (.pmemWrite m) x tag 4))

/-- RDMA requests on a live queue pair in their turn: a WRITE to a region that allows it stores all its bytes and is acknowledged, a READ returns the bytes, or is refused when one is poisoned, a SEND is acknowledged, and each moves the PSN by its packets; outside a region that allows it a request is refused and stores nothing; an invalid request is refused and puts the pair in the error state, and counts. -/
def Obligations.QueuePairRequestsAreServed : Prop :=
  ∀ (s s1 : State) (q : Qp) (rkey : BitVec 32) (va : Word) (data : List Byte) (n : Nat) (ps : List Place), s.liveQp q.qpn = some q →
    (s.rdmaPlaces q.part rkey true va data.length = (s1, some ps) → memWf s.mem = true → (ps.map keyOf).Nodup →
      ∃ t, exec (.rdmaWrite q.qpn q.recvPsn rkey va data) s = .next t ∧ (ps.map fun p => memRead t.mem (keyOf p)) = data ∧ (∀ z, z ∉ ps.map keyOf → memRead t.mem z = memRead s.mem z) ∧
        (t.liveQp q.qpn).map (·.recvPsn) = some (q.recvPsn + BitVec.ofNat 24 (max 1 ((data.length + 256 * 2 ^ (q.mtu - 1) - 1) / (256 * 2 ^ (q.mtu - 1))))) ∧
        t.out = .rdmaAck q.qpn (q.recvPsn + BitVec.ofNat 24 (q.packets data.length - 1)) :: s.out ∧ t.t = s.t) ∧
    (s.rdmaPlaces q.part rkey true va data.length = (s1, none) →
      ∃ t, exec (.rdmaWrite q.qpn q.recvPsn rkey va data) s = .next t ∧ t.out = .rdmaNak q.qpn q.recvPsn 2 :: s.out ∧ t.t = s.t ∧ t.mem = s.mem) ∧
    (∀ s2, s.rdmaPlaces q.part rkey false va n = (s1, some ps) → s2 = touchFor q.part ps none s1 →
      ((∀ p ∈ ps, s2.poisonAt p = false) →
        ∃ t, exec (.rdmaRead q.qpn q.recvPsn rkey va n) s = .next t ∧ t.out = .rdmaData q.qpn q.recvPsn (ps.map s2.byteAt) :: s.out ∧
          (t.liveQp q.qpn).map (·.recvPsn) = some (q.recvPsn + BitVec.ofNat 24 (q.packets n)) ∧ t.t = s.t ∧ t.mem = s.mem) ∧
      ((∃ p ∈ ps, s2.poisonAt p = true) →
        ∃ t, exec (.rdmaRead q.qpn q.recvPsn rkey va n) s = .next t ∧ t.out = .rdmaNak q.qpn q.recvPsn 3 :: s.out ∧ t.t = s.t ∧ t.mem = s.mem)) ∧
    (∃ t, exec (.rdmaSend q.qpn q.recvPsn data) s = .next t ∧ t.out = .rdmaAck q.qpn (q.recvPsn + BitVec.ofNat 24 (q.packets data.length - 1)) :: s.out ∧
      (t.liveQp q.qpn).map (·.recvPsn) = some (q.recvPsn + BitVec.ofNat 24 (q.packets data.length)) ∧ t.t = s.t ∧ t.mem = s.mem) ∧
    (∀ p, s.part? q.part = some p →
      ∃ t, exec (.rdmaInvalidRequest q.qpn q.recvPsn) s = .next t ∧ t.out = .rdmaNak q.qpn q.recvPsn 1 :: s.out ∧ (∀ y ∈ t.qps, y.qpn = q.qpn → y.error = true) ∧
        (t.part? q.part).map (fun y => vget y.counters 36 0) = some (vget p.counters 36 0 + 1) ∧ t.t = s.t ∧ t.mem = s.mem)

/-! ## Boot, power, sensors, tests -/

/-- The boot of a package whose flash names no image takes the shipped ones: partition 0 holds every hall pair and the range of the configuration record, M0 to M4 hold their measurements. -/
def Sys2Proof.Claims.BootedShipped (t : State) : Prop :=
  t.recovery = false ∧ t.parts = [bootPartition (Config.shippedImage 4)] ∧
    ∀ i < 5, vget t.meas i 0 = sha384 (digestBytes 0 ++ digestBytes (sha384 (Config.shippedImage i)))

/-- COLD_BOOT and WARM_RESET leave no task, no partition but partition 0, no session and no table of the host, and memory as after power-on; with no image in flash the shipped ones, when they verify, are measured and run, and with a stage of boot that no slot gives the device is in recovery. Tests under way are abandoned. The lifetime record goes to flash with one generation
before it kept, at ORDERLY_SHUTDOWN and at each LIFETIME_FLUSH; POWER_LOSS leaves flash, and then nothing but COLD_BOOT happens. -/
def Obligations.BootResetAndPowerLoss : Prop :=
  ∀ (s : State) (i : Instr),
    (i = .coldBoot ∨ i = .warmReset → ∃ t, exec i s = .next t ∧ t.powered = true ∧ t.t = Thread.reset ∧ t.parked = [] ∧ t.cores = [] ∧ t.mem = [] ∧ t.launches = [] ∧ t.pending = [] ∧
      t.sessions = [] ∧ t.queues = [] ∧ t.qps = [] ∧ t.asids = [] ∧ t.leases = [] ∧ t.pkgId = none ∧ t.bists = [] ∧ t.inbox = s.inbox ∧ t.flashA = s.flashA ∧ t.flashB = s.flashB ∧
      (∀ k < 12, ∃ v, alookup k t.training = some v) ∧
      (s.flashA = [] → s.flashB = [] → (∀ k < 5, accepted (Config.shippedImage k) = true) → BootedShipped t) ∧
      (∀ k < 4, s.wiped.bootImage k = none → t.recovery = true ∧ t.parts = [])) ∧
    exec .orderlyShutdown s = .next { s with lifeFlash := (s.life :: s.lifeFlash).take 2 } ∧
    exec .lifetimeFlush s = .next { s with lifeFlash := (s.life :: s.lifeFlash).take 2 } ∧
    (∃ t, exec .powerLoss s = .next t ∧ t.powered = false ∧ t.flashA = s.flashA ∧ t.flashB = s.flashB ∧ t.lifeFlash = s.lifeFlash ∧ t.remapFlash = s.remapFlash ∧ t.mem = [] ∧
      t.t = Thread.reset ∧ t.inbox = s.inbox) ∧
    (s.powered = false → s.inbox.head? ≠ some .coldBoot → Machine.step s = .fault .noPower)

/-- The bank tests of Table 1.3, while the remap table holds no error: a scheduled test that may start is PARKING with its swap entry, its copy makes it PARKED, a pass makes it RETURNING and the copy back clears the entry; failing rows for which there are spare rows and entries are remapped first, and else the bank stays swapped in flash (which entries and spare rows, and what the log takes, is log 82). MC_SAMPLE keeps the samples, of which telemetry reports the latest, records the errors that have come into HBM until a read meets them, stops placement on a
die at 105.0 degrees and lets it go on at 100.0; a lane at its limit that still fails is marked, and a free unit with marked lanes maps 16 good lanes, or 8, or none; write-assist follows its two thresholds. -/
def Obligations.SensorsLanesAndBankTests : Prop :=
  ∀ (s : State) (c unit lane stack pch bank i : Nat) (x : Sample) (b : Bist) (u : VUnit) (r : TestResult) (tail : List Nat),
    (stack < 12 → pch < 64 → bank < 15 → s.entryErrors = [] → s.testRefused stack pch = false → s.groupFree stack pch = i :: tail →
      ∃ t, exec (.bistScheduled stack pch bank) s = .next t ∧ t.bists = s.bists ++ [{ stack := stack, pch := pch, bank := bank, index := i, st := 0, added := [] }] ∧
        (stack, i, remapEntry true pch bank 0 0 0) ∈ t.remap ∧ t.t = s.t ∧ t.mem = s.mem) ∧
    (s.bists = [b] → b.stack = stack → s.entryErrors = [] →
      (b.st = 0 → s.latent = [] → ∃ t, exec (.bistParkComplete stack) s = .next t ∧ t.bists = [{ b with st := 1, added := [] }] ∧ (stack, b.index, remapEntry true b.pch b.bank 1 0 0) ∈ t.remap ∧ t.t = s.t ∧ t.mem = s.mem) ∧
      (b.st = 1 → r.failing = [] → ∃ t, exec (.bistTestComplete stack r) s = .next t ∧ t.bists = [{ b with st := 2, added := [] }] ∧ (stack, b.index, remapEntry true b.pch b.bank 2 0 0) ∈ t.remap ∧ t.t = s.t ∧ t.mem = s.mem) ∧
      (∀ row spare more moreI, b.st = 1 → r.failing = [row] → s.sparesFree b = spare :: more → s.groupFree stack b.pch = i :: moreI → i ≠ b.index →
        ∃ t, exec (.bistTestComplete stack r) s = .next t ∧ t.bists = [{ b with st := 2, added := [i] }] ∧ (stack, i, remapEntry false b.pch b.bank 0 row spare) ∈ t.remap ∧
          (stack, i, remapEntry false b.pch b.bank 0 row spare) ∈ t.remapFlash ∧ t.remapOld = s.remapFlash ∧ t.t = s.t ∧ t.mem = s.mem) ∧
      (b.st = 1 → r.failing.Nodup → (s.sparesFree b).length < r.failing.length ∨ (s.groupFree stack b.pch).length < r.failing.length → ∃ t, exec (.bistTestComplete stack r) s = .next t ∧ t.bists = [] ∧ (stack, b.index, remapEntry true b.pch b.bank 3 0 0) ∈ t.remap ∧
        (stack, b.index, remapEntry true b.pch b.bank 3 0 0) ∈ t.remapFlash ∧ t.t = s.t ∧ t.mem = s.mem) ∧
      (b.st = 2 → ∃ t, exec (.bistReturnComplete stack) s = .next t ∧ t.bists = [] ∧ (∀ y ∈ t.remap, ¬ (y.1 = stack ∧ y.2.1 = b.index)) ∧ t.t = s.t ∧ t.mem = s.mem)) ∧
    (∃ t, exec (.mcSample x) s = .next t ∧ t.power = x.power ∧ t.current = x.current ∧ t.syncedSeen = s.synced ∧ t.levelSeen = s.level ∧ t.t.regs = s.t.regs ∧ t.mem = s.mem ∧
      (x.errors = [] → t.t = s.t ∧ t.poison = s.poison ∧ t.latent = s.latent) ∧
      (∀ n site ue, x.errors = [.burst n site ue] → t.t = s.t ∧ t.latent = s.latent ++ [{ burst := n, site := site, ue := ue }]) ∧
      ∀ d < 9, ∀ temps, temps = vget x.temps d (Vector.replicate 16 0) →
        (t.getDie d).temps = temps ∧ (t.getDie d).vdd = vget x.vdd d 0 ∧ (t.getDie d).idd = vget x.idd d 0 ∧ (t.getDie d).level = (s.getDie d).level ∧
        (t.getDie d).levelSeen = (s.getDie d).level ∧
        (t.getDie d).stop = if temps.any (fun v => decide (1050 ≤ v)) then true else if temps.all (fun v => decide (v ≤ 1000)) then false else (s.getDie d).stop) ∧
    (u = (s.getCore c).vunit unit → unit < 2 →
      (lane < 18 → lane ∉ u.marked → lane ∉ u.retired → ∃ t, exec (.regulatorTrim c unit lane true true) s = .next t ∧ (t.getCore c).vunit unit = { u with marked := u.marked ++ [lane] } ∧ t.t = s.t ∧ t.mem = s.mem) ∧
      (u.holder = none → u.marked ≠ [] → ∀ good, good = (List.range 18).filter (fun l => !(u.retired ++ u.marked).contains l) →
        ∃ t, exec (.laneMapRewrite c unit) s = .next t ∧ (t.getCore c).vunit unit = { u with
          retired := u.retired ++ u.marked, marked := [], laneMap := if 16 ≤ good.length then good.take 16 else if 8 ≤ good.length then good.take 8 else [] } ∧ t.t = s.t ∧ t.mem = s.mem)) ∧
    (∃ t, exec (.writeAssistEnter c) s = .next t ∧ t.getCore c = { s.getCore c with wa := true } ∧ t.t = s.t ∧ t.mem = s.mem) ∧
    (∃ t, exec (.writeAssistExit c) s = .next t ∧ t.getCore c = { s.getCore c with wa := false, waOff := if (s.getCore c).wa then some s.now else (s.getCore c).waOff } ∧ t.t = s.t ∧ t.mem = s.mem)

/-! ## Memory -/

/-- Memory in canonical form stays in it under a write of one byte; the byte written is what a read finds, and a read of any other address finds what it found before; two memories in canonical form that read the same are equal. -/
def Obligations.MemoryIsCanonical : Prop :=
  (∀ (m : List Host.Cell) (a x : Nat) (b : Byte), memWf m = true → memWf (memWrite m a b) = true ∧ memRead (memWrite m a b) x = if x = a then b else memRead m x) ∧
  (∀ m n : List Host.Cell, memWf m = true → memWf n = true → (∀ a, memRead m a = memRead n a) → m = n) ∧
  memWf State.reset.mem = true

/-- Every step of the package that ends in a next state keeps memory in its canonical form: addresses strictly rising, and no cell that reads as an unlisted address does. -/
def Obligations.EveryStepKeepsMemoryCanonical : Prop :=
  ∀ s t : State, memWf s.mem = true → Machine.step s = .next t → memWf t.mem = true
end

