-- ==== Sys2Proof/Laws/Encoding.lean ====
section
/-! SUPPORT. The encoder and the decoder meet at a major, A and the tail fields: the bits that a code lays out are the bits that the decoder
takes apart again. -/

namespace Sys2Proof

/-! ## Fields of joined bit vectors -/

theorem extract_append_hi {n m : Nat} (a : BitVec n) (b : BitVec m) (k l : Nat) (h : m ≤ k) :
    (a ++ b).extractLsb' k l = a.extractLsb' (k - m) l := by
  ext i hi
  simp only [BitVec.getElem_extractLsb', BitVec.getLsbD_append]
  rw [if_neg (by omega), show k + i - m = k - m + i by omega]

theorem extract_append_lo {n m : Nat} (a : BitVec n) (b : BitVec m) (k l : Nat) (h : k + l ≤ m) :
    (a ++ b).extractLsb' k l = b.extractLsb' k l := by
  ext i hi
  simp only [BitVec.getElem_extractLsb', BitVec.getLsbD_append]
  rw [if_pos (by omega)]

@[simp] theorem extract_whole {n : Nat} (a : BitVec n) : a.extractLsb' 0 n = a := by
  ext i hi
  simp

theorem bit_append_hi {n m : Nat} (a : BitVec n) (b : BitVec m) (k : Nat) (h : m ≤ k) :
    (a ++ b).getLsbD k = a.getLsbD (k - m) := by
  rw [BitVec.getLsbD_append, if_neg (by omega)]

theorem bit_append_lo {n m : Nat} (a : BitVec n) (b : BitVec m) (k : Nat) (h : k < m) : (a ++ b).getLsbD k = b.getLsbD k := by
  rw [BitVec.getLsbD_append, if_pos h]

@[simp] theorem bit_ofBool (x : Bool) : (BitVec.ofBool x).getLsbD 0 = x := by cases x <;> rfl

theorem ofBool_beq_one (x : Bool) : (BitVec.ofBool x == 1#1) = x := by cases x <;> rfl

/-! ## Operand fields -/

@[simp] theorem vsrc_field (x : VSrc) : vsrc x.field = x := by
  rcases x with ⟨r, c⟩
  simp (disch := omega) only [vsrc, VSrc.field, extract_append_lo, extract_whole, bit_append_hi, Nat.sub_self, bit_ofBool]

@[simp] theorem vdst_field (x : VDst) : vdst x.field = x := by
  rcases x with ⟨r, c⟩
  simp (disch := omega) only [vdst, VDst.field, extract_append_lo, extract_whole, bit_append_hi, Nat.sub_self, bit_ofBool]

@[simp] theorem vfield_reg (r : BitVec 5) : (vfield r).extractLsb' 0 5 = r := by
  simp (disch := omega) only [vfield, extract_append_lo, extract_whole]

@[simp] theorem vfield_noZ (r : BitVec 5) : noZ (vfield r) = true := by
  simp (disch := omega) only [vfield, noZ, bit_append_hi]
  rfl

@[simp] theorem qfield_lo (r : BitVec 3) : lo3 (qfield r) = r := by
  simp (disch := omega) only [qfield, lo3, extract_append_lo, extract_whole]

@[simp] theorem qfield_hi (r : BitVec 3) : hi3 (qfield r) = 0 := by
  simp (disch := omega) only [qfield, hi3, extract_append_hi]
  rfl

theorem qfield_dst (r : BitVec 3) (h : (r != 0) = true) : dst3 (qfield r) = true := by
  simp only [dst3, qfield_hi, qfield_lo, h, beq_self_eq_true, Bool.and_self]

@[simp] theorem sfield9_lo (r : BitVec 6) : s9 (sfield9 r) = r := by
  simp (disch := omega) only [sfield9, s9, extract_append_lo, extract_whole]

@[simp] theorem sfield9_ok (r : BitVec 6) : s9ok (sfield9 r) = true := by
  simp (disch := omega) only [sfield9, s9ok, extract_append_hi]
  rfl

@[simp] theorem gfield9_lo (r : BitVec 3) : g9 (gfield9 r) = r := by
  simp (disch := omega) only [gfield9, g9, extract_append_lo, extract_whole]

@[simp] theorem gfield9_ok (r : BitVec 3) : g9ok (gfield9 r) = true := by
  simp (disch := omega) only [gfield9, g9ok, extract_append_hi]
  rfl

@[simp] theorem v9_field (x : VSrc) : v9 (sfield9 x.field) = x := by rw [v9, sfield9_lo, vsrc_field]

@[simp] theorem msrc_parts (m : MSrc) : msrc m.reg (BitVec.ofBool m.last) = m := by
  cases m
  exact congrArg (MSrc.mk _) (ofBool_beq_one _)

@[simp] theorem mhi_mlo (d : MReg) : mhi d ++ mlo d = d := by
  apply BitVec.eq_of_getLsbD_eq
  intro i hi
  rw [BitVec.getLsbD_append]
  simp only [mhi, mlo, BitVec.getLsbD_extractLsb']
  split
  · simp [*]
  · rw [decide_eq_true (by omega : i - 6 < 3), Bool.true_and, show 6 + (i - 6) = i by omega]

@[simp] theorem ysel_fields (y : YSel) : ysel y.fields.1 y.fields.2.1 y.fields.2.2 = some y := by
  cases y <;> simp [ysel, YSel.fields, vsrc_field]

@[simp] theorem csel_fields (y : CSel) : csel y.fields.1 y.fields.2.1 y.fields.2.2 = some y := by
  cases y <;> simp [csel, CSel.fields, vsrc_field]

@[simp] theorem fsel_fields (y : FSel) : fsel y.fields.1 y.fields.2 = some y := by
  cases y <;> simp [fsel, FSel.fields, vsrc_field]

@[simp] theorem nsel_fields (y : NSel) : nsel y.fields.1 y.fields.2.1 y.fields.2.2 = some y := by
  cases y
  · simp [nsel, NSel.fields]
  · simp (disch := omega) only [nsel, NSel.fields, extract_append_hi, extract_append_lo, extract_whole]
    simp

@[simp] theorem bsel_fields (y : BSel) : bsel y.fields.1 y.fields.2.1 y.fields.2.2 = some y := by
  cases y <;> simp [bsel, BSel.fields]

@[simp] theorem gateSel_fields (g : GateSel) : gateSel g.fields.1 g.fields.2 g.seg = some g := by
  rcases g with ⟨_ | g, seg⟩ <;> simp [gateSel, GateSel.fields]

@[simp] theorem rowSel_fields (r : RowSel) : rowSel r.fields.1 r.fields.2 = some r := by
  cases r
  · simp [rowSel, RowSel.fields, sfield9_lo, sfield9_ok]
  · simp (disch := omega) only [rowSel, RowSel.fields, extract_append_hi, extract_append_lo, extract_whole, bit_append_hi]
    simp

@[simp] theorem scopeOf_code (sc : Scope) : scopeOf sc.code = some sc := by cases sc <;> rfl

@[simp] theorem amoSize_wide (w : Bool) : (amoSize w)[0] = w := by cases w <;> rfl

@[simp] theorem amoSize_four (w : Bool) : (amoSize w)[1] = true := by cases w <;> rfl

/-! ## Codes -/

/-- The form of a tail. -/
def Tail.form : Tail → Form
  | .h => .h
  | .sr _ _ _ => .sr
  | .si _ _ => .si
  | .mv _ _ _ _ _ _ _ => .mv
  | .mx _ _ _ _ _ _ _ _ _ => .mx
  | .mb _ _ _ _ _ => .mb
  | .w _ _ _ _ _ _ _ _ => .w

/-- The function value of a tail. -/
def Tail.fn : Tail → Nat
  | .sr _ _ fn => fn.toNat
  | .mv _ _ _ _ fn _ _ => fn.toNat
  | .mx _ _ _ _ _ _ _ fn _ => fn.toNat
  | .w _ _ _ _ _ fn _ _ => fn.toNat
  | .h | .si _ _ | .mb _ _ _ _ _ => 0

/-- A code whose major, form and function value Tables 13.1 to 13.3 list. -/
def Code.listed (c : Code) : Bool :=
  c.major != 0 && majorForm c.major.toNat == some c.tail.form && decide (c.tail.fn < majorFns c.major.toNat) &&
    !(c.major == 0x40 && c.tail.fn == 2)

theorem majorOf_join (m : BitVec 7) (a : BitVec 6) (t : Tail) : majorOf (joinTail m a t) = m.toNat := by
  cases t <;> simp (disch := omega) only [majorOf, joinTail, extract_append_hi, extract_append_lo] <;>
    simp only [Nat.sub_self, extract_whole]

theorem a_join (m : BitVec 7) (a : BitVec 6) (t : Tail) : (joinTail m a t).extractLsb' 0 6 = a := by
  cases t <;> simp (disch := omega) only [joinTail, extract_append_lo, extract_whole]

theorem lcode_join (m : BitVec 7) (a : BitVec 6) (t : Tail) : (joinTail m a t).extractLsb' 14 2 = t.form.lcode := by
  cases t <;> simp (disch := omega) only [joinTail, extract_append_hi, extract_append_lo, Tail.form, Form.lcode] <;> rfl

theorem split_join (m : BitVec 7) (a : BitVec 6) (t : Tail) : splitTail t.form (joinTail m a t) = t := by
  cases t <;> simp (disch := omega) only [splitTail, Tail.form, joinTail, extract_append_hi, extract_append_lo] <;>
    simp only [Nat.reduceAdd, Nat.reduceSub, extract_whole]

theorem fn_join (m : BitVec 7) (a : BitVec 6) (t : Tail) : fnOf t.form (joinTail m a t) = t.fn := by
  cases t <;> simp (disch := omega) only [fnOf, Tail.form, Tail.fn, joinTail, extract_append_hi, extract_append_lo] <;>
    simp only [Nat.reduceAdd, Nat.reduceSub, extract_whole]

theorem fn_lt (t : Tail) : t.fn < 256 := by
  cases t <;> simp only [Tail.fn] <;> omega

/-- A listed code decodes to what its fields parse as (Table 13.4, steps 4 to 8). -/
theorem decode_join (c : Code) (h : c.listed = true) :
    decode shippedAct (joinTail c.major c.a c.tail) = match parse c.major.toNat c.a c.tail with
      | some i => .instr i
      | none => .illegal := by
  simp only [Code.listed, Bool.and_eq_true, bne_iff_ne, beq_iff_eq, decide_eq_true_eq, Bool.not_eq_true', Bool.and_eq_false_iff] at h
  obtain ⟨⟨⟨h0, hf⟩, hn⟩, hv⟩ := h
  have hm0 : c.major.toNat ≠ 0 := fun e => h0 (BitVec.eq_of_toNat_eq e)
  have hv' : (c.major.toNat == 0x40 && c.tail.fn == 2) = false := by
    rcases hv with hv | hv
    · rw [Bool.and_eq_false_iff]
      refine Or.inl (beq_eq_false_iff_ne.mpr fun e => ?_)
      exact beq_eq_false_iff_ne.mp hv (BitVec.eq_of_toNat_eq e)
    · rw [Bool.and_eq_false_iff]
      exact Or.inr hv
  have hidx : tableIndex (joinTail c.major c.a c.tail) = c.major.toNat * 256 + c.tail.fn := by
    simp only [tableIndex, majorOf_join, hf, fn_join]
  have hlt := fn_lt c.tail
  have hact : shippedAct (c.major.toNat * 256 + c.tail.fn) = 0 := by
    have e1 : (c.major.toNat * 256 + c.tail.fn) / 256 = c.major.toNat := by omega
    have e2 : (c.major.toNat * 256 + c.tail.fn) % 256 = c.tail.fn := by omega
    simp only [shippedAct, e1, e2, hf, Option.isSome_some, hn, decide_true, Bool.true_and, hv', Bool.not_false, if_true]
  simp only [decode, majorOf_join, beq_eq_false_iff_ne.mpr hm0, hidx, hact, hf, lcode_join, a_join, split_join,
    bne_self_eq_false, Bool.false_eq_true, if_false]
  rfl

end Sys2Proof
end

