-- ==== Sys2Proof/Laws/Memory.lean ====
section
/-! SUPPORT. Memory as a list of cells: what a read finds after a write, and that every write keeps the canonical form. -/

namespace Sys2Proof.Machine

/-- Every listed address lies above `a`. -/
def memAbove (a : Nat) (m : List Host.Cell) : Prop := ∀ p ∈ m, a < p.1

theorem memWf_cons (k : Nat) (c : Byte) (m : List Host.Cell) :
    memWf ((k, c) :: m) = true ↔ c ≠ unlisted ∧ memAbove k m ∧ memWf m = true := by
  induction m generalizing k c with
  | nil => simp [memWf, memAbove]
  | cons p rest ih =>
    obtain ⟨k', c'⟩ := p
    simp only [memWf, Bool.and_eq_true, bne_iff_ne, decide_eq_true_eq]
    constructor
    · rintro ⟨⟨h1, h2⟩, h3⟩
      refine ⟨h1, ?_, h3⟩
      have h4 := (ih k' c').1 h3
      intro p hp
      rcases List.mem_cons.1 hp with rfl | hp
      · exact h2
      · exact Nat.lt_trans h2 (h4.2.1 p hp)
    · rintro ⟨h1, h2, h3⟩
      exact ⟨⟨h1, h2 (k', c') (by simp)⟩, h3⟩

theorem memRead_above (m : List Host.Cell) (a : Nat) (h : memAbove a m) : memRead m a = unlisted := by
  cases m with
  | nil => rfl
  | cons p rest =>
    obtain ⟨k, c⟩ := p
    have hk : a < k := h (k, c) (by simp)
    simp only [memRead]
    rw [if_neg (by omega), if_pos hk]

theorem memAbove_write (m : List Host.Cell) (k a : Nat) (b : Byte) (h : memAbove k m) (hk : k < a) : memAbove k (memWrite m a b) := by
  induction m with
  | nil =>
    simp only [memWrite]
    split
    · exact h
    · intro p hp
      simp only [List.mem_singleton] at hp
      subst hp
      exact hk
  | cons q rest ih =>
    obtain ⟨k', c'⟩ := q
    have hq : k < k' := h (k', c') (by simp)
    have hr : memAbove k rest := fun p hp => h p (by simp [hp])
    simp only [memWrite]
    split
    · split
      · exact h
      · intro p hp
        rcases List.mem_cons.1 hp with rfl | hp
        · exact hk
        · exact h p hp
    · split
      · split
        · exact hr
        · intro p hp
          rcases List.mem_cons.1 hp with rfl | hp
          · exact hk
          · exact hr p hp
      · intro p hp
        rcases List.mem_cons.1 hp with rfl | hp
        · exact hq
        · exact ih hr p hp

/-- A write of one byte keeps the canonical form. -/
theorem memWf_write (m : List Host.Cell) (a : Nat) (b : Byte) (h : memWf m = true) : memWf (memWrite m a b) = true := by
  induction m with
  | nil =>
    simp only [memWrite]
    split
    · rfl
    · simpa [memWf] using ‹b ≠ unlisted›
  | cons p rest ih =>
    obtain ⟨k, c⟩ := p
    obtain ⟨h1, h2, h3⟩ := (memWf_cons k c rest).1 h
    simp only [memWrite]
    split
    · split
      · exact h
      · refine (memWf_cons _ _ _).2 ⟨by assumption, ?_, h⟩
        intro p hp
        rcases List.mem_cons.1 hp with rfl | hp
        · assumption
        · exact Nat.lt_trans ‹a < k› (h2 p hp)
    · split
      · rename_i h5
        subst h5
        split
        · exact h3
        · exact (memWf_cons _ _ _).2 ⟨by assumption, h2, h3⟩
      · exact (memWf_cons _ _ _).2 ⟨h1, memAbove_write rest k a b h2 (by omega), ih h3⟩

/-- A read of the byte just written gives it. -/
theorem memRead_write_self (m : List Host.Cell) (a : Nat) (b : Byte) (h : memWf m = true) : memRead (memWrite m a b) a = b := by
  induction m with
  | nil =>
    simp only [memWrite]
    split
    · simp [memRead, *]
    · simp [memRead]
  | cons p rest ih =>
    obtain ⟨k, c⟩ := p
    obtain ⟨h1, h2, h3⟩ := (memWf_cons k c rest).1 h
    simp only [memWrite]
    split
    · split
      · simp only [memRead]
        rw [if_neg (by omega), if_pos (by assumption)]
        exact (‹b = unlisted›).symm
      · simp [memRead]
    · split
      · rename_i h5
        subst h5
        split
        · rw [memRead_above rest a h2]
          exact (‹b = unlisted›).symm
        · simp [memRead]
      · simp only [memRead]
        rw [if_neg (by omega), if_neg (by omega)]
        exact ih h3

/-- A write of one byte leaves every other byte. -/
theorem memRead_write_other (m : List Host.Cell) (a x : Nat) (b : Byte) (h : memWf m = true) (hx : x ≠ a) :
    memRead (memWrite m a b) x = memRead m x := by
  induction m with
  | nil =>
    simp only [memWrite]
    split
    · rfl
    · simp only [memRead]
      rw [if_neg (by omega)]
      split <;> rfl
  | cons p rest ih =>
    obtain ⟨k, c⟩ := p
    obtain ⟨h1, h2, h3⟩ := (memWf_cons k c rest).1 h
    simp only [memWrite]
    split
    · split
      · rfl
      · rename_i h4 h5
        simp only [memRead]
        rw [if_neg (by omega)]
        split
        · rw [if_neg (by omega), if_pos (by omega)]
        · rfl
    · split
      · rename_i h5
        subst h5
        split
        · simp only [memRead]
          rw [if_neg (by omega)]
          split
          · exact memRead_above rest x (fun p hp => Nat.lt_trans ‹x < a› (h2 p hp))
          · rfl
        · have h6 : ¬a = x := fun e => hx e.symm
          simp only [memRead, if_neg h6]
      · simp only [memRead]
        rw [ih h3]

/-- Removing cells keeps the canonical form. -/
theorem memWf_filter (m : List Host.Cell) (f : Host.Cell → Bool) (h : memWf m = true) : memWf (m.filter f) = true := by
  induction m with
  | nil => rfl
  | cons p rest ih =>
    obtain ⟨k, c⟩ := p
    obtain ⟨h1, h2, h3⟩ := (memWf_cons k c rest).1 h
    simp only [List.filter_cons]
    split
    · exact (memWf_cons _ _ _).2 ⟨h1, fun q hq => h2 q (List.mem_filter.1 hq).1, ih h3⟩
    · exact ih h3

/-- A write of several bytes keeps the canonical form. -/
theorem memWf_writeN (m : List Host.Cell) (a : Nat) (l : List Byte) (h : memWf m = true) : memWf (memWriteN m a l) = true := by
  induction l generalizing m a with
  | nil => exact h
  | cons b rest ih => exact ih _ _ (memWf_write m a b h)

/-- A write of several bytes leaves every byte outside them. -/
theorem memRead_writeN_other (m : List Host.Cell) (a x : Nat) (l : List Byte) (h : memWf m = true) (hx : x < a ∨ a + l.length ≤ x) :
    memRead (memWriteN m a l) x = memRead m x := by
  induction l generalizing m a with
  | nil => rfl
  | cons b rest ih =>
    simp only [List.length_cons] at hx
    have h1 : x < a + 1 ∨ a + 1 + rest.length ≤ x := by omega
    rw [memWriteN, ih _ _ (memWf_write m a b h) h1, memRead_write_other m a x b h (by omega)]

/-- A read among the bytes just written gives the byte written there. -/
theorem memRead_writeN_at (m : List Host.Cell) (a i : Nat) (l : List Byte) (h : memWf m = true) (hi : i < l.length) :
    memRead (memWriteN m a l) (a + i) = l[i] := by
  induction l generalizing m a i with
  | nil => simp at hi
  | cons b rest ih =>
    cases i with
    | zero =>
      rw [memWriteN, memRead_writeN_other _ _ _ _ (memWf_write m a b h) (by omega), Nat.add_zero, memRead_write_self m a b h]
      rfl
    | succ n =>
      have hn : n < rest.length := by simpa using hi
      have := ih (memWrite m a b) (a + 1) n (memWf_write m a b h) hn
      rw [memWriteN, show a + (n + 1) = a + 1 + n by omega, this]
      rfl

/-- The bytes of a number, read back, are the number modulo their range. -/
theorem leNat_leBytes (n v : Nat) : leNat (leBytes n v) = v % 2 ^ (8 * n) := by
  induction n generalizing v with
  | zero => simp [leBytes, leNat, Nat.mod_one]
  | succ n ih =>
    simp only [leBytes, leNat, ih, BitVec.toNat_ofNat]
    rw [show 8 * (n + 1) = 8 + 8 * n by omega, Nat.pow_add, show (2 : Nat) ^ 8 = 256 by rfl, Nat.mod_mul]

@[simp] theorem leBytes_length (n v : Nat) : (leBytes n v).length = n := by
  induction n generalizing v with
  | zero => rfl
  | succ n ih => simp [leBytes, ih]

/-- Nothing is listed at reset, which is the canonical form. -/
theorem reset_memWf : memWf State.reset.mem = true := rfl

end Sys2Proof.Machine
end

