-- ==== Sys2Proof/Laws/PerInstr.lean ====
section
/-! SUPPORT. What holds of every instruction, one lemma per constructor: the round trip of the encoding (R279, R280, Tables 11.7, 11.8). -/

namespace Sys2Proof.Laws

namespace RoundTrip

/-- The code of a well-formed instruction is listed, and its fields parse as the instruction; a step or an input has no code. -/
def Statement (i : Instr) : Prop :=
  i.wf = true → match code i with
    | some c => c.listed = true ∧ parse c.major.toNat c.a c.tail = some i
    | none => True


theorem add (a : SReg) (b : SReg) (c : SReg) : Statement (.add a b c) := fun _ => ⟨rfl, rfl⟩

theorem sub (a : SReg) (b : SReg) (c : SReg) : Statement (.sub a b c) := fun _ => ⟨rfl, rfl⟩

theorem and (a : SReg) (b : SReg) (c : SReg) : Statement (.and a b c) := fun _ => ⟨rfl, rfl⟩

theorem or (a : SReg) (b : SReg) (c : SReg) : Statement (.or a b c) := fun _ => ⟨rfl, rfl⟩

theorem xor (a : SReg) (b : SReg) (c : SReg) : Statement (.xor a b c) := fun _ => ⟨rfl, rfl⟩

theorem sll (a : SReg) (b : SReg) (c : SReg) : Statement (.sll a b c) := fun _ => ⟨rfl, rfl⟩

theorem srl (a : SReg) (b : SReg) (c : SReg) : Statement (.srl a b c) := fun _ => ⟨rfl, rfl⟩

theorem sra (a : SReg) (b : SReg) (c : SReg) : Statement (.sra a b c) := fun _ => ⟨rfl, rfl⟩

theorem slt (a : SReg) (b : SReg) (c : SReg) : Statement (.slt a b c) := fun _ => ⟨rfl, rfl⟩

theorem sltu (a : SReg) (b : SReg) (c : SReg) : Statement (.sltu a b c) := fun _ => ⟨rfl, rfl⟩

theorem min (a : SReg) (b : SReg) (c : SReg) : Statement (.min a b c) := fun _ => ⟨rfl, rfl⟩

theorem max (a : SReg) (b : SReg) (c : SReg) : Statement (.max a b c) := fun _ => ⟨rfl, rfl⟩

theorem minu (a : SReg) (b : SReg) (c : SReg) : Statement (.minu a b c) := fun _ => ⟨rfl, rfl⟩

theorem maxu (a : SReg) (b : SReg) (c : SReg) : Statement (.maxu a b c) := fun _ => ⟨rfl, rfl⟩

theorem mul (a : SReg) (b : SReg) (c : SReg) : Statement (.mul a b c) := fun _ => ⟨rfl, rfl⟩

theorem mulh (a : SReg) (b : SReg) (c : SReg) : Statement (.mulh a b c) := fun _ => ⟨rfl, rfl⟩

theorem mulhu (a : SReg) (b : SReg) (c : SReg) : Statement (.mulhu a b c) := fun _ => ⟨rfl, rfl⟩

theorem div (a : SReg) (b : SReg) (c : SReg) : Statement (.div a b c) := fun _ => ⟨rfl, rfl⟩

theorem divu (a : SReg) (b : SReg) (c : SReg) : Statement (.divu a b c) := fun _ => ⟨rfl, rfl⟩

theorem rem (a : SReg) (b : SReg) (c : SReg) : Statement (.rem a b c) := fun _ => ⟨rfl, rfl⟩

theorem remu (a : SReg) (b : SReg) (c : SReg) : Statement (.remu a b c) := fun _ => ⟨rfl, rfl⟩

theorem addi (a : SReg) (b : SReg) (imm : BitVec 10) : Statement (.addi a b imm) := fun _ => ⟨rfl, rfl⟩

theorem andi (a : SReg) (b : SReg) (imm : BitVec 10) : Statement (.andi a b imm) := fun _ => ⟨rfl, rfl⟩

theorem ori (a : SReg) (b : SReg) (imm : BitVec 10) : Statement (.ori a b imm) := fun _ => ⟨rfl, rfl⟩

theorem xori (a : SReg) (b : SReg) (imm : BitVec 10) : Statement (.xori a b imm) := fun _ => ⟨rfl, rfl⟩

theorem slli (a : SReg) (b : SReg) (sh : BitVec 6) : Statement (.slli a b sh) := by
  intro _
  refine ⟨rfl, ?_⟩
  show parse 7 _ _ = _
  simp (disch := omega) only [parse, parseSI, need, extract_append_hi, extract_append_lo]
  simp

theorem srli (a : SReg) (b : SReg) (sh : BitVec 6) : Statement (.srli a b sh) := by
  intro _
  refine ⟨rfl, ?_⟩
  show parse 8 _ _ = _
  simp (disch := omega) only [parse, parseSI, need, extract_append_hi, extract_append_lo]
  simp

theorem srai (a : SReg) (b : SReg) (sh : BitVec 6) : Statement (.srai a b sh) := by
  intro _
  refine ⟨rfl, ?_⟩
  show parse 9 _ _ = _
  simp (disch := omega) only [parse, parseSI, need, extract_append_hi, extract_append_lo]
  simp

theorem slti (a : SReg) (b : SReg) (imm : BitVec 10) : Statement (.slti a b imm) := fun _ => ⟨rfl, rfl⟩

theorem sltiu (a : SReg) (b : SReg) (imm : BitVec 10) : Statement (.sltiu a b imm) := fun _ => ⟨rfl, rfl⟩

theorem clz (a : SReg) (b : SReg) : Statement (.clz a b) := fun _ => ⟨rfl, rfl⟩

theorem ctz (a : SReg) (b : SReg) : Statement (.ctz a b) := fun _ => ⟨rfl, rfl⟩

theorem popc (a : SReg) (b : SReg) : Statement (.popc a b) := fun _ => ⟨rfl, rfl⟩

theorem addw (a : SReg) (b : SReg) (c : SReg) : Statement (.addw a b c) := fun _ => ⟨rfl, rfl⟩

theorem li (a : SReg) (lit : BitVec 32) : Statement (.li a lit) := fun _ => ⟨rfl, rfl⟩

theorem lih (a : SReg) (b : SReg) (lit : BitVec 32) : Statement (.lih a b lit) := fun _ => ⟨rfl, rfl⟩

theorem fadd (a : SReg) (b : SReg) (c : SReg) : Statement (.fadd a b c) := fun _ => ⟨rfl, rfl⟩

theorem fsub (a : SReg) (b : SReg) (c : SReg) : Statement (.fsub a b c) := fun _ => ⟨rfl, rfl⟩

theorem fmul (a : SReg) (b : SReg) (c : SReg) : Statement (.fmul a b c) := fun _ => ⟨rfl, rfl⟩

theorem fma (a : SReg) (b : SReg) (c : SReg) (d : SReg) : Statement (.fma a b c d) := fun _ => ⟨rfl, rfl⟩

theorem fdiv (a : SReg) (b : SReg) (c : SReg) : Statement (.fdiv a b c) := fun _ => ⟨rfl, rfl⟩

theorem fsqrt (a : SReg) (b : SReg) : Statement (.fsqrt a b) := fun _ => ⟨rfl, rfl⟩

theorem fcvt (a : SReg) (b : SReg) (dst : BitVec 4) (src : BitVec 4) : Statement (.fcvt a b dst src) := by
  intro _
  refine ⟨rfl, ?_⟩
  show parse 14 _ _ = _
  simp (disch := omega) only [parse, parseMV, parseScalarMV, need, extract_append_hi, extract_append_lo]
  simp

theorem fcmp (a : SReg) (b : SReg) (c : SReg) (pred : BitVec 2) : Statement (.fcmp a b c pred) := by
  intro _
  refine ⟨rfl, ?_⟩
  show parse 14 _ _ = _
  simp (disch := omega) only [parse, parseMV, parseScalarMV, need, extract_append_hi, extract_append_lo]
  simp

theorem beq (b : SReg) (c : SReg) (loff : BitVec 27) (hidx : BitVec 5) : Statement (.beq b c loff hidx) := fun _ => ⟨rfl, rfl⟩

theorem bne (b : SReg) (c : SReg) (loff : BitVec 27) (hidx : BitVec 5) : Statement (.bne b c loff hidx) := fun _ => ⟨rfl, rfl⟩

theorem blt (b : SReg) (c : SReg) (loff : BitVec 27) (hidx : BitVec 5) : Statement (.blt b c loff hidx) := fun _ => ⟨rfl, rfl⟩

theorem bge (b : SReg) (c : SReg) (loff : BitVec 27) (hidx : BitVec 5) : Statement (.bge b c loff hidx) := fun _ => ⟨rfl, rfl⟩

theorem bltu (b : SReg) (c : SReg) (loff : BitVec 27) (hidx : BitVec 5) : Statement (.bltu b c loff hidx) := fun _ => ⟨rfl, rfl⟩

theorem bgeu (b : SReg) (c : SReg) (loff : BitVec 27) (hidx : BitVec 5) : Statement (.bgeu b c loff hidx) := fun _ => ⟨rfl, rfl⟩

theorem jal (a : SReg) (loff : BitVec 27) (hidx : BitVec 5) : Statement (.jal a loff hidx) := fun _ => ⟨rfl, rfl⟩

theorem jalr (a : SReg) (b : SReg) (imm : BitVec 10) : Statement (.jalr a b imm) := fun _ => ⟨rfl, rfl⟩

theorem csrr (a : SReg) (csr : BitVec 12) : Statement (.csrr a csr) := by
  intro h
  refine ⟨rfl, ?_⟩
  show parse 35 _ _ = _
  simp (disch := omega) only [parse, parseMV, parseScalarMV, need, extract_append_hi, extract_append_lo]
  simp [Instr.wf] at h ⊢ <;> simp [h]

theorem csrw (b : SReg) (csr : BitVec 12) : Statement (.csrw b csr) := by
  intro h
  refine ⟨rfl, ?_⟩
  show parse 35 _ _ = _
  simp (disch := omega) only [parse, parseMV, parseScalarMV, need, extract_append_hi, extract_append_lo]
  simp [Instr.wf] at h ⊢ <;> simp [h]

theorem csrs (b : SReg) (csr : BitVec 12) : Statement (.csrs b csr) := by
  intro h
  refine ⟨rfl, ?_⟩
  show parse 35 _ _ = _
  simp (disch := omega) only [parse, parseMV, parseScalarMV, need, extract_append_hi, extract_append_lo]
  simp [Instr.wf] at h ⊢ <;> simp [h]

theorem csrc (b : SReg) (csr : BitVec 12) : Statement (.csrc b csr) := by
  intro h
  refine ⟨rfl, ?_⟩
  show parse 35 _ _ = _
  simp (disch := omega) only [parse, parseMV, parseScalarMV, need, extract_append_hi, extract_append_lo]
  simp [Instr.wf] at h ⊢ <;> simp [h]

theorem ecall (code : BitVec 6) : Statement (.ecall code) := fun _ => ⟨rfl, rfl⟩

theorem brk (code : BitVec 6) : Statement (.brk code) := fun _ => ⟨rfl, rfl⟩

theorem eret : Statement .eret := fun _ => ⟨rfl, rfl⟩

theorem sleep (a : SReg) : Statement (.sleep a) := fun _ => ⟨rfl, rfl⟩

theorem halt : Statement .halt := fun _ => ⟨rfl, rfl⟩

theorem tmsw (b : SReg) (e : Bool) : Statement (.tmsw b e) := by
  intro _
  refine ⟨rfl, ?_⟩
  show parse 41 _ _ = _
  simp (disch := omega) only [parse, parseSI, need, extract_append_hi, bit_append_lo]
  simp

theorem ldb (a : SReg) (b : SReg) (imm : BitVec 10) : Statement (.ldb a b imm) := fun _ => ⟨rfl, rfl⟩

theorem ldbu (a : SReg) (b : SReg) (imm : BitVec 10) : Statement (.ldbu a b imm) := fun _ => ⟨rfl, rfl⟩

theorem ldh (a : SReg) (b : SReg) (imm : BitVec 10) : Statement (.ldh a b imm) := fun _ => ⟨rfl, rfl⟩

theorem ldhu (a : SReg) (b : SReg) (imm : BitVec 10) : Statement (.ldhu a b imm) := fun _ => ⟨rfl, rfl⟩

theorem ldw (a : SReg) (b : SReg) (imm : BitVec 10) : Statement (.ldw a b imm) := fun _ => ⟨rfl, rfl⟩

theorem ldwu (a : SReg) (b : SReg) (imm : BitVec 10) : Statement (.ldwu a b imm) := fun _ => ⟨rfl, rfl⟩

theorem ldd (a : SReg) (b : SReg) (imm : BitVec 10) : Statement (.ldd a b imm) := fun _ => ⟨rfl, rfl⟩

theorem stb (a : SReg) (b : SReg) (imm : BitVec 10) : Statement (.stb a b imm) := fun _ => ⟨rfl, rfl⟩

theorem sth (a : SReg) (b : SReg) (imm : BitVec 10) : Statement (.sth a b imm) := fun _ => ⟨rfl, rfl⟩

theorem stw (a : SReg) (b : SReg) (imm : BitVec 10) : Statement (.stw a b imm) := fun _ => ⟨rfl, rfl⟩

theorem std (a : SReg) (b : SReg) (imm : BitVec 10) : Statement (.std a b imm) := fun _ => ⟨rfl, rfl⟩

theorem amoAdd (a : SReg) (b : SReg) (c : SReg) (scope : Scope) (wide : Bool) (off : BitVec 14) : Statement (.amoAdd a b c scope wide off) := by
  intro _
  refine ⟨rfl, ?_⟩
  show parse 59 _ _ = _
  simp (disch := omega) only [parse, parseMV, parseAmo, codeAmo, need, extract_append_hi, extract_append_lo]
  simp

theorem amoAnd (a : SReg) (b : SReg) (c : SReg) (scope : Scope) (wide : Bool) (off : BitVec 14) : Statement (.amoAnd a b c scope wide off) := by
  intro _
  refine ⟨rfl, ?_⟩
  show parse 59 _ _ = _
  simp (disch := omega) only [parse, parseMV, parseAmo, codeAmo, need, extract_append_hi, extract_append_lo]
  simp

theorem amoOr (a : SReg) (b : SReg) (c : SReg) (scope : Scope) (wide : Bool) (off : BitVec 14) : Statement (.amoOr a b c scope wide off) := by
  intro _
  refine ⟨rfl, ?_⟩
  show parse 59 _ _ = _
  simp (disch := omega) only [parse, parseMV, parseAmo, codeAmo, need, extract_append_hi, extract_append_lo]
  simp

theorem amoXor (a : SReg) (b : SReg) (c : SReg) (scope : Scope) (wide : Bool) (off : BitVec 14) : Statement (.amoXor a b c scope wide off) := by
  intro _
  refine ⟨rfl, ?_⟩
  show parse 59 _ _ = _
  simp (disch := omega) only [parse, parseMV, parseAmo, codeAmo, need, extract_append_hi, extract_append_lo]
  simp

theorem amoMin (a : SReg) (b : SReg) (c : SReg) (scope : Scope) (wide : Bool) (off : BitVec 14) : Statement (.amoMin a b c scope wide off) := by
  intro _
  refine ⟨rfl, ?_⟩
  show parse 59 _ _ = _
  simp (disch := omega) only [parse, parseMV, parseAmo, codeAmo, need, extract_append_hi, extract_append_lo]
  simp

theorem amoMax (a : SReg) (b : SReg) (c : SReg) (scope : Scope) (wide : Bool) (off : BitVec 14) : Statement (.amoMax a b c scope wide off) := by
  intro _
  refine ⟨rfl, ?_⟩
  show parse 59 _ _ = _
  simp (disch := omega) only [parse, parseMV, parseAmo, codeAmo, need, extract_append_hi, extract_append_lo]
  simp

theorem amoMinu (a : SReg) (b : SReg) (c : SReg) (scope : Scope) (wide : Bool) (off : BitVec 14) : Statement (.amoMinu a b c scope wide off) := by
  intro _
  refine ⟨rfl, ?_⟩
  show parse 59 _ _ = _
  simp (disch := omega) only [parse, parseMV, parseAmo, codeAmo, need, extract_append_hi, extract_append_lo]
  simp

theorem amoMaxu (a : SReg) (b : SReg) (c : SReg) (scope : Scope) (wide : Bool) (off : BitVec 14) : Statement (.amoMaxu a b c scope wide off) := by
  intro _
  refine ⟨rfl, ?_⟩
  show parse 59 _ _ = _
  simp (disch := omega) only [parse, parseMV, parseAmo, codeAmo, need, extract_append_hi, extract_append_lo]
  simp

theorem amoSwap (a : SReg) (b : SReg) (c : SReg) (scope : Scope) (wide : Bool) (off : BitVec 14) : Statement (.amoSwap a b c scope wide off) := by
  intro _
  refine ⟨rfl, ?_⟩
  show parse 59 _ _ = _
  simp (disch := omega) only [parse, parseMV, parseAmo, codeAmo, need, extract_append_hi, extract_append_lo]
  simp

theorem amoCas (a : SReg) (b : SReg) (c : SReg) (d : SReg) (scope : Scope) (wide : Bool) (off : BitVec 14) : Statement (.amoCas a b c d scope wide off) := by
  intro _
  refine ⟨rfl, ?_⟩
  show parse 59 _ _ = _
  simp (disch := omega) only [parse, parseMV, parseAmo, codeAmo, need, extract_append_hi, extract_append_lo]
  simp

theorem ldAcq (a : SReg) (b : SReg) (scope : Scope) (size : BitVec 2) (off : BitVec 14) : Statement (.ldAcq a b scope size off) := by
  intro _
  refine ⟨rfl, ?_⟩
  show parse 59 _ _ = _
  simp (disch := omega) only [parse, parseMV, parseAmo, codeAmo, need, extract_append_hi, extract_append_lo]
  simp

theorem stRel (b : SReg) (c : SReg) (scope : Scope) (size : BitVec 2) (off : BitVec 14) : Statement (.stRel b c scope size off) := by
  intro _
  refine ⟨rfl, ?_⟩
  show parse 59 _ _ = _
  simp (disch := omega) only [parse, parseMV, parseAmo, codeAmo, need, extract_append_hi, extract_append_lo]
  simp

theorem fence (scope : Scope) : Statement (.fence scope) := by
  intro _
  refine ⟨rfl, ?_⟩
  show parse 60 _ _ = _
  simp (disch := omega) only [parse, parseMV, parseScalarMV, need]
  simp

theorem bar (n : BitVec 3) : Statement (.bar n) := by
  intro _
  refine ⟨rfl, ?_⟩
  show parse 60 _ _ = _
  simp (disch := omega) only [parse, parseMV, parseScalarMV, need, extract_append_hi, extract_append_lo]
  simp

theorem wait (a : SReg) (b : SReg) (c : SReg) (imm : BitVec 16) : Statement (.wait a b c imm) := fun _ => ⟨rfl, rfl⟩

theorem wake (b : SReg) (imm : BitVec 16) : Statement (.wake b imm) := fun _ => ⟨rfl, rfl⟩

theorem ipf (b : SReg) (nm1 : BitVec 3) (imm : BitVec 16) : Statement (.ipf b nm1 imm) := fun _ => ⟨rfl, rfl⟩

theorem dpf (b : SReg) (nm1 : BitVec 3) (imm : BitVec 16) : Statement (.dpf b nm1 imm) := fun _ => ⟨rfl, rfl⟩

theorem cflush (b : SReg) (block : Bool) (imm : BitVec 16) : Statement (.cflush b block imm) := by
  intro _
  refine ⟨rfl, ?_⟩
  show parse 116 _ _ = _
  simp (disch := omega) only [parse, parseMV, parseScalarMV, need, extract_append_hi, bit_append_lo]
  simp

theorem cinv (b : SReg) (block : Bool) (imm : BitVec 16) : Statement (.cinv b block imm) := by
  intro _
  refine ⟨rfl, ?_⟩
  show parse 116 _ _ = _
  simp (disch := omega) only [parse, parseMV, parseScalarMV, need, extract_append_hi, bit_append_lo]
  simp

theorem tlbinv (kind : BitVec 2) (b : SReg) (c : SReg) : Statement (.tlbinv kind b c) := by
  intro h
  refine ⟨rfl, ?_⟩
  show parse 116 _ _ = _
  simp (disch := omega) only [parse, parseMV, parseScalarMV, need, extract_append_lo, extract_whole]
  rcases (by decide : ∀ k : BitVec 2, k = 0 ∨ k = 1 ∨ k = 2 ∨ k = 3) kind with rfl | rfl | rfl | rfl <;>
    simp [Instr.wf] at h ⊢ <;> simp [h]

theorem setvl (a : SReg) (b : SReg) (ty : TypeCode) : Statement (.setvl a b ty) := by
  intro _
  refine ⟨rfl, ?_⟩
  show parse 64 _ _ = _
  simp (disch := omega) only [parse, parseMV, parseVecMem, need, extract_append_hi, extract_append_lo]
  simp

theorem setvl2 (a : SReg) (b : SReg) (c : SReg) (ty : TypeCode) : Statement (.setvl2 a b c ty) := by
  intro _
  refine ⟨rfl, ?_⟩
  show parse 64 _ _ = _
  simp (disch := omega) only [parse, parseMV, parseVecMem, need, extract_append_hi, extract_append_lo]
  simp

theorem vrel : Statement .vrel := fun _ => ⟨rfl, rfl⟩

theorem stripm (a : SReg) (b : SReg) (c : SReg) (d : SReg) (sizes : BitVec 12) (ty : TypeCode) (p3 : SReg) (p4 : SReg) : Statement (.stripm a b c d sizes ty p3 p4) := by
  intro h
  refine ⟨rfl, ?_⟩
  show parse 65 _ _ = _
  simp (disch := omega) only [parse, parseW, need, extract_append_hi, extract_append_lo]
  simp [Instr.wf] at h ⊢ <;> simp [h]

theorem vld (a : VDst) (b : SReg) (k : QReg) (bit : BitVec 3) (imm : BitVec 16) : Statement (.vld a b k bit imm) := by
  intro _
  refine ⟨rfl, ?_⟩
  show parse 66 _ _ = _
  simp (disch := omega) only [parse, parseMV, parseVecMem, need]
  simp

theorem vst (b : SReg) (c : VSrc) (k : QReg) (bit : BitVec 3) (imm : BitVec 16) : Statement (.vst b c k bit imm) := by
  intro _
  refine ⟨rfl, ?_⟩
  show parse 66 _ _ = _
  simp (disch := omega) only [parse, parseMV, parseVecMem, need]
  simp

theorem vlds (a : VDst) (b : SReg) (c : SReg) (k : QReg) (imm : BitVec 16) : Statement (.vlds a b c k imm) := by
  intro _
  refine ⟨rfl, ?_⟩
  show parse 66 _ _ = _
  simp (disch := omega) only [parse, parseMV, parseVecMem, need]
  simp

theorem vsts (b : SReg) (c : VSrc) (d : SReg) (k : QReg) (imm : BitVec 16) : Statement (.vsts b c d k imm) := by
  intro _
  refine ⟨rfl, ?_⟩
  show parse 66 _ _ = _
  simp (disch := omega) only [parse, parseMV, parseVecMem, need]
  simp

theorem vldx (a : VDst) (b : SReg) (c : VSrc) (k : QReg) (scale : BitVec 3) (imm : BitVec 16) : Statement (.vldx a b c k scale imm) := by
  intro _
  refine ⟨rfl, ?_⟩
  show parse 66 _ _ = _
  simp (disch := omega) only [parse, parseMV, parseVecMem, need]
  simp

theorem vstx (b : SReg) (c : VSrc) (d : VSrc) (k : QReg) (scale : BitVec 3) (imm : BitVec 16) : Statement (.vstx b c d k scale imm) := by
  intro _
  refine ⟨rfl, ?_⟩
  show parse 66 _ _ = _
  simp (disch := omega) only [parse, parseMV, parseVecMem, need]
  simp

theorem vadd (a : VDst) (b : VSrc) (y : YSel) (k : QReg) : Statement (.vadd a b y k) := by
  intro _
  refine ⟨rfl, ?_⟩
  show parse 67 _ _ = _
  simp (disch := omega) only [parse, parseMV, parseVecInt, codeInt]
  simp

theorem vsub (a : VDst) (b : VSrc) (y : YSel) (k : QReg) : Statement (.vsub a b y k) := by
  intro _
  refine ⟨rfl, ?_⟩
  show parse 67 _ _ = _
  simp (disch := omega) only [parse, parseMV, parseVecInt, codeInt]
  simp

theorem vmul (a : VDst) (b : VSrc) (y : YSel) (k : QReg) : Statement (.vmul a b y k) := by
  intro _
  refine ⟨rfl, ?_⟩
  show parse 67 _ _ = _
  simp (disch := omega) only [parse, parseMV, parseVecInt, codeInt]
  simp

theorem vmulh (a : VDst) (b : VSrc) (y : YSel) (k : QReg) : Statement (.vmulh a b y k) := by
  intro _
  refine ⟨rfl, ?_⟩
  show parse 67 _ _ = _
  simp (disch := omega) only [parse, parseMV, parseVecInt, codeInt]
  simp

theorem vand (a : VDst) (b : VSrc) (y : YSel) (k : QReg) : Statement (.vand a b y k) := by
  intro _
  refine ⟨rfl, ?_⟩
  show parse 67 _ _ = _
  simp (disch := omega) only [parse, parseMV, parseVecInt, codeInt]
  simp

theorem vor (a : VDst) (b : VSrc) (y : YSel) (k : QReg) : Statement (.vor a b y k) := by
  intro _
  refine ⟨rfl, ?_⟩
  show parse 67 _ _ = _
  simp (disch := omega) only [parse, parseMV, parseVecInt, codeInt]
  simp

theorem vxor (a : VDst) (b : VSrc) (y : YSel) (k : QReg) : Statement (.vxor a b y k) := by
  intro _
  refine ⟨rfl, ?_⟩
  show parse 67 _ _ = _
  simp (disch := omega) only [parse, parseMV, parseVecInt, codeInt]
  simp

theorem vsll (a : VDst) (b : VSrc) (y : YSel) (k : QReg) : Statement (.vsll a b y k) := by
  intro _
  refine ⟨rfl, ?_⟩
  show parse 67 _ _ = _
  simp (disch := omega) only [parse, parseMV, parseVecInt, codeInt]
  simp

theorem vsrl (a : VDst) (b : VSrc) (y : YSel) (k : QReg) : Statement (.vsrl a b y k) := by
  intro _
  refine ⟨rfl, ?_⟩
  show parse 67 _ _ = _
  simp (disch := omega) only [parse, parseMV, parseVecInt, codeInt]
  simp

theorem vsra (a : VDst) (b : VSrc) (y : YSel) (k : QReg) : Statement (.vsra a b y k) := by
  intro _
  refine ⟨rfl, ?_⟩
  show parse 67 _ _ = _
  simp (disch := omega) only [parse, parseMV, parseVecInt, codeInt]
  simp

theorem vmin (a : VDst) (b : VSrc) (y : YSel) (k : QReg) : Statement (.vmin a b y k) := by
  intro _
  refine ⟨rfl, ?_⟩
  show parse 67 _ _ = _
  simp (disch := omega) only [parse, parseMV, parseVecInt, codeInt]
  simp

theorem vmax (a : VDst) (b : VSrc) (y : YSel) (k : QReg) : Statement (.vmax a b y k) := by
  intro _
  refine ⟨rfl, ?_⟩
  show parse 67 _ _ = _
  simp (disch := omega) only [parse, parseMV, parseVecInt, codeInt]
  simp

theorem vminu (a : VDst) (b : VSrc) (y : YSel) (k : QReg) : Statement (.vminu a b y k) := by
  intro _
  refine ⟨rfl, ?_⟩
  show parse 67 _ _ = _
  simp (disch := omega) only [parse, parseMV, parseVecInt, codeInt]
  simp

theorem vmaxu (a : VDst) (b : VSrc) (y : YSel) (k : QReg) : Statement (.vmaxu a b y k) := by
  intro _
  refine ⟨rfl, ?_⟩
  show parse 67 _ _ = _
  simp (disch := omega) only [parse, parseMV, parseVecInt, codeInt]
  simp

theorem vsadd (a : VDst) (b : VSrc) (y : YSel) (k : QReg) : Statement (.vsadd a b y k) := by
  intro _
  refine ⟨rfl, ?_⟩
  show parse 67 _ _ = _
  simp (disch := omega) only [parse, parseMV, parseVecInt, codeInt]
  simp

theorem vssub (a : VDst) (b : VSrc) (y : YSel) (k : QReg) : Statement (.vssub a b y k) := by
  intro _
  refine ⟨rfl, ?_⟩
  show parse 67 _ _ = _
  simp (disch := omega) only [parse, parseMV, parseVecInt, codeInt]
  simp

theorem vcmp (a : QReg) (b : VSrc) (y : CSel) (k : QReg) (pred : BitVec 3) : Statement (.vcmp a b y k pred) := by
  intro h
  refine ⟨rfl, ?_⟩
  show parse 68 _ _ = _
  simp (disch := omega) only [parse, parseMV, parseVecCmp, extract_append_hi, extract_append_lo, qfield_dst _ h]
  simp

theorem vfcmp (a : QReg) (b : VSrc) (y : FSel) (k : QReg) (pred : BitVec 3) : Statement (.vfcmp a b y k pred) := by
  intro h
  refine ⟨rfl, ?_⟩
  show parse 68 _ _ = _
  simp (disch := omega) only [parse, parseMV, parseVecCmp, extract_append_hi, extract_append_lo, qfield_dst _ h]
  simp

theorem vsel (a : BitVec 5) (b : VSrc) (y : YSel) (k : QReg) : Statement (.vsel a b y k) := by
  intro _
  refine ⟨rfl, ?_⟩
  show parse 68 _ _ = _
  simp (disch := omega) only [parse, parseMV, parseVecCmp]
  simp

theorem vfadd (a : VDst) (b : VSrc) (y : FSel) (k : QReg) : Statement (.vfadd a b y k) := by
  intro _
  refine ⟨rfl, ?_⟩
  show parse 69 _ _ = _
  simp (disch := omega) only [parse, parseMV, parseVecFp, codeFp2, need]
  simp

theorem vfsub (a : VDst) (b : VSrc) (y : FSel) (k : QReg) : Statement (.vfsub a b y k) := by
  intro _
  refine ⟨rfl, ?_⟩
  show parse 69 _ _ = _
  simp (disch := omega) only [parse, parseMV, parseVecFp, codeFp2, need]
  simp

theorem vfmul (a : VDst) (b : VSrc) (y : FSel) (k : QReg) : Statement (.vfmul a b y k) := by
  intro _
  refine ⟨rfl, ?_⟩
  show parse 69 _ _ = _
  simp (disch := omega) only [parse, parseMV, parseVecFp, codeFp2, need]
  simp

theorem vfma (a : VDst) (b : VSrc) (y : FSel) (d : VSrc) (k : QReg) : Statement (.vfma a b y d k) := by
  intro _
  refine ⟨rfl, ?_⟩
  show parse 69 _ _ = _
  simp (disch := omega) only [parse, parseMV, parseVecFp, codeFp2, need]
  simp

theorem vfnma (a : VDst) (b : VSrc) (y : FSel) (d : VSrc) (k : QReg) : Statement (.vfnma a b y d k) := by
  intro _
  refine ⟨rfl, ?_⟩
  show parse 69 _ _ = _
  simp (disch := omega) only [parse, parseMV, parseVecFp, codeFp2, need]
  simp

theorem vfdiv (a : VDst) (b : VSrc) (y : FSel) (k : QReg) : Statement (.vfdiv a b y k) := by
  intro _
  refine ⟨rfl, ?_⟩
  show parse 69 _ _ = _
  simp (disch := omega) only [parse, parseMV, parseVecFp, codeFp2, need]
  simp

theorem vfsqrt (a : VDst) (b : VSrc) (k : QReg) : Statement (.vfsqrt a b k) := by
  intro _
  refine ⟨rfl, ?_⟩
  show parse 69 _ _ = _
  simp (disch := omega) only [parse, parseMV, parseVecFp, codeFp1, need]
  simp

theorem vfmin (a : VDst) (b : VSrc) (y : FSel) (k : QReg) : Statement (.vfmin a b y k) := by
  intro _
  refine ⟨rfl, ?_⟩
  show parse 69 _ _ = _
  simp (disch := omega) only [parse, parseMV, parseVecFp, codeFp2, need]
  simp

theorem vfmax (a : VDst) (b : VSrc) (y : FSel) (k : QReg) : Statement (.vfmax a b y k) := by
  intro _
  refine ⟨rfl, ?_⟩
  show parse 69 _ _ = _
  simp (disch := omega) only [parse, parseMV, parseVecFp, codeFp2, need]
  simp

theorem vfexp2 (a : VDst) (b : VSrc) (k : QReg) : Statement (.vfexp2 a b k) := by
  intro _
  refine ⟨rfl, ?_⟩
  show parse 69 _ _ = _
  simp (disch := omega) only [parse, parseMV, parseVecFp, codeFp1, need]
  simp

theorem vflog2 (a : VDst) (b : VSrc) (k : QReg) : Statement (.vflog2 a b k) := by
  intro _
  refine ⟨rfl, ?_⟩
  show parse 69 _ _ = _
  simp (disch := omega) only [parse, parseMV, parseVecFp, codeFp1, need]
  simp

theorem vfrcp (a : VDst) (b : VSrc) (k : QReg) : Statement (.vfrcp a b k) := by
  intro _
  refine ⟨rfl, ?_⟩
  show parse 69 _ _ = _
  simp (disch := omega) only [parse, parseMV, parseVecFp, codeFp1, need]
  simp

theorem vfrsq (a : VDst) (b : VSrc) (k : QReg) : Statement (.vfrsq a b k) := by
  intro _
  refine ⟨rfl, ?_⟩
  show parse 69 _ _ = _
  simp (disch := omega) only [parse, parseMV, parseVecFp, codeFp1, need]
  simp

theorem vftanh (a : VDst) (b : VSrc) (k : QReg) : Statement (.vftanh a b k) := by
  intro _
  refine ⟨rfl, ?_⟩
  show parse 69 _ _ = _
  simp (disch := omega) only [parse, parseMV, parseVecFp, codeFp1, need]
  simp

theorem vcvt (a : VDst) (b : VSrc) (k : QReg) (src : TypeCode) : Statement (.vcvt a b k src) := by
  intro _
  refine ⟨rfl, ?_⟩
  show parse 69 _ _ = _
  simp (disch := omega) only [parse, parseMV, parseVecFp, codeFp1, need, extract_append_hi, extract_append_lo]
  simp

theorem vslideup (a : VDst) (b : VSrc) (n : NSel) (d : SReg) (k : QReg) : Statement (.vslideup a b n d k) := by
  intro _
  refine ⟨rfl, ?_⟩
  show parse 70 _ _ = _
  simp (disch := omega) only [parse, parseMV, parseCross, need]
  simp

theorem vslidedn (a : VDst) (b : VSrc) (n : NSel) (k : QReg) : Statement (.vslidedn a b n k) := by
  intro _
  refine ⟨rfl, ?_⟩
  show parse 70 _ _ = _
  simp (disch := omega) only [parse, parseMV, parseCross, need]
  simp

theorem vperm (a : VDst) (b : VSrc) (c : VSrc) (k : QReg) : Statement (.vperm a b c k) := by
  intro _
  refine ⟨rfl, ?_⟩
  show parse 70 _ _ = _
  simp (disch := omega) only [parse, parseMV, parseCross, need]
  simp

theorem vcompress (a : VDst) (b : VSrc) (k : QReg) : Statement (.vcompress a b k) := by
  intro _
  refine ⟨rfl, ?_⟩
  show parse 70 _ _ = _
  simp (disch := omega) only [parse, parseMV, parseCross, need]
  simp

theorem vexpand (a : VDst) (b : VSrc) (k : QReg) : Statement (.vexpand a b k) := by
  intro _
  refine ⟨rfl, ?_⟩
  show parse 70 _ _ = _
  simp (disch := omega) only [parse, parseMV, parseCross, need]
  simp

theorem vbcast (a : VDst) (y : BSel) (k : QReg) : Statement (.vbcast a y k) := by
  intro _
  refine ⟨rfl, ?_⟩
  show parse 70 _ _ = _
  simp (disch := omega) only [parse, parseMV, parseCross, need]
  simp

theorem vmvx (a : SReg) (b : VSrc) (i : NSel) : Statement (.vmvx a b i) := by
  intro _
  refine ⟨rfl, ?_⟩
  show parse 70 _ _ = _
  simp (disch := omega) only [parse, parseMV, parseCross, need]
  simp

theorem vmvs (a : BitVec 5) (c : SReg) (i : NSel) : Statement (.vmvs a c i) := by
  intro _
  refine ⟨rfl, ?_⟩
  show parse 70 _ _ = _
  simp (disch := omega) only [parse, parseMV, parseCross, need]
  simp

theorem viota (a : VDst) (c : QReg) (k : QReg) : Statement (.viota a c k) := by
  intro _
  refine ⟨rfl, ?_⟩
  show parse 70 _ _ = _
  simp (disch := omega) only [parse, parseMV, parseCross, need]
  simp

theorem vconflict (a : QReg) (b : VSrc) (k : QReg) : Statement (.vconflict a b k) := by
  intro h
  refine ⟨rfl, ?_⟩
  show parse 70 _ _ = _
  simp (disch := omega) only [parse, parseMV, parseCross, need, qfield_dst _ h]
  simp

theorem vredsum (a : SReg) (b : VSrc) (k : QReg) : Statement (.vredsum a b k) := by
  intro _
  refine ⟨rfl, ?_⟩
  show parse 71 _ _ = _
  simp (disch := omega) only [parse, parseMV, parseRedMask, need]
  simp

theorem vredmax (a : SReg) (b : VSrc) (k : QReg) : Statement (.vredmax a b k) := by
  intro _
  refine ⟨rfl, ?_⟩
  show parse 71 _ _ = _
  simp (disch := omega) only [parse, parseMV, parseRedMask, need]
  simp

theorem vredmin (a : SReg) (b : VSrc) (k : QReg) : Statement (.vredmin a b k) := by
  intro _
  refine ⟨rfl, ?_⟩
  show parse 71 _ _ = _
  simp (disch := omega) only [parse, parseMV, parseRedMask, need]
  simp

theorem vfredsum (a : SReg) (b : VSrc) (k : QReg) : Statement (.vfredsum a b k) := by
  intro _
  refine ⟨rfl, ?_⟩
  show parse 71 _ _ = _
  simp (disch := omega) only [parse, parseMV, parseRedMask, need]
  simp

theorem vfredmax (a : SReg) (b : VSrc) (k : QReg) : Statement (.vfredmax a b k) := by
  intro _
  refine ⟨rfl, ?_⟩
  show parse 71 _ _ = _
  simp (disch := omega) only [parse, parseMV, parseRedMask, need]
  simp

theorem vfredmin (a : SReg) (b : VSrc) (k : QReg) : Statement (.vfredmin a b k) := by
  intro _
  refine ⟨rfl, ?_⟩
  show parse 71 _ _ = _
  simp (disch := omega) only [parse, parseMV, parseRedMask, need]
  simp

theorem vtopk (a : VDst) (b : VSrc) (n : NSel) (k : QReg) : Statement (.vtopk a b n k) := by
  intro _
  refine ⟨rfl, ?_⟩
  show parse 71 _ _ = _
  simp (disch := omega) only [parse, parseMV, parseRedMask, need]
  simp

theorem qand (a : QReg) (b : QReg) (c : QReg) : Statement (.qand a b c) := by
  intro h
  refine ⟨rfl, ?_⟩
  show parse 72 _ _ = _
  simp (disch := omega) only [parse, parseMV, parseRedMask, need, qfield_dst _ h]
  simp

theorem qor (a : QReg) (b : QReg) (c : QReg) : Statement (.qor a b c) := by
  intro h
  refine ⟨rfl, ?_⟩
  show parse 72 _ _ = _
  simp (disch := omega) only [parse, parseMV, parseRedMask, need, qfield_dst _ h]
  simp

theorem qxor (a : QReg) (b : QReg) (c : QReg) : Statement (.qxor a b c) := by
  intro h
  refine ⟨rfl, ?_⟩
  show parse 72 _ _ = _
  simp (disch := omega) only [parse, parseMV, parseRedMask, need, qfield_dst _ h]
  simp

theorem qnot (a : QReg) (b : QReg) : Statement (.qnot a b) := by
  intro h
  refine ⟨rfl, ?_⟩
  show parse 72 _ _ = _
  simp (disch := omega) only [parse, parseMV, parseRedMask, need, qfield_dst _ h]
  simp

theorem qpopc (a : SReg) (b : QReg) : Statement (.qpopc a b) := by
  intro _
  refine ⟨rfl, ?_⟩
  show parse 72 _ _ = _
  simp (disch := omega) only [parse, parseMV, parseRedMask, need]
  simp

theorem qfirst (a : SReg) (b : QReg) : Statement (.qfirst a b) := by
  intro _
  refine ⟨rfl, ?_⟩
  show parse 72 _ _ = _
  simp (disch := omega) only [parse, parseMV, parseRedMask, need]
  simp

theorem qmov (m : QMov) : Statement (.qmov m) := by
  intro h
  cases m <;> refine ⟨rfl, ?_⟩
  all_goals show parse 72 _ _ = _
  all_goals simp (disch := omega) only [parse, parseMV, parseRedMask, need]
  all_goals simp [dst3, Instr.wf] at h ⊢ <;> simp [h]

theorem setts (a : SReg) (b : SReg) (c : SReg) (d : SReg) : Statement (.setts a b c d) := fun _ => ⟨rfl, rfl⟩

theorem mld (d : MReg) (base : SReg) (stride : SReg) (ty : TypeCode) : Statement (.mld d base stride ty) := by
  intro _
  refine ⟨rfl, ?_⟩
  show parse 97 _ _ = _
  simp (disch := omega) only [parse, parseMat, codeMX, need, extract_append_hi, extract_append_lo, bit_append_hi, bit_append_lo]
  simp

theorem mst (src : MSrc) (base : SReg) (stride : SReg) : Statement (.mst src base stride) := by
  intro _
  refine ⟨rfl, ?_⟩
  show parse 97 _ _ = _
  simp (disch := omega) only [parse, parseMat, codeMX, need, extract_append_hi, extract_append_lo, bit_append_hi, bit_append_lo]
  simp

theorem mzero (d : MReg) (ty : TypeCode) : Statement (.mzero d ty) := by
  intro _
  refine ⟨rfl, ?_⟩
  show parse 97 _ _ = _
  simp (disch := omega) only [parse, parseMat, codeMX, need, extract_append_hi, extract_append_lo, bit_append_hi, bit_append_lo]
  simp

theorem mmul (d : MReg) (ma : MSrc) (mb : MSrc) (g : GateSel) (walk : BitVec 2) (tb : Bool) (acc : Bool) (nm1 : BitVec 8) : Statement (.mmul d ma mb g walk tb acc nm1) := by
  intro _
  refine ⟨rfl, ?_⟩
  show parse 97 _ _ = _
  simp (disch := omega) only [parse, parseMat, need, extract_append_hi, extract_append_lo, bit_append_hi, bit_append_lo]
  simp

theorem mcvt (d : MReg) (src : MSrc) (ty : TypeCode) : Statement (.mcvt d src ty) := by
  intro _
  refine ⟨rfl, ?_⟩
  show parse 97 _ _ = _
  simp (disch := omega) only [parse, parseMat, codeMX, need, extract_append_hi, extract_append_lo, bit_append_hi, bit_append_lo]
  simp

theorem mtr (d : MReg) (src : MSrc) : Statement (.mtr d src) := by
  intro _
  refine ⟨rfl, ?_⟩
  show parse 97 _ _ = _
  simp (disch := omega) only [parse, parseMat, codeMX, need]
  simp

theorem mmov (d : MReg) (src : MSrc) : Statement (.mmov d src) := by
  intro _
  refine ⟨rfl, ?_⟩
  show parse 97 _ _ = _
  simp (disch := omega) only [parse, parseMat, codeMX, need]
  simp

theorem mscale (d : MReg) (src : MSrc) (v : VSrc) (cols : Bool) : Statement (.mscale d src v cols) := by
  intro _
  refine ⟨rfl, ?_⟩
  show parse 97 _ _ = _
  simp (disch := omega) only [parse, parseMat, codeMX, need, extract_append_hi, bit_append_hi, bit_append_lo]
  simp

theorem mrow (a : BitVec 5) (src : MSrc) (row : RowSel) : Statement (.mrow a src row) := by
  intro _
  refine ⟨rfl, ?_⟩
  show parse 97 _ _ = _
  simp (disch := omega) only [parse, parseMat, need]
  simp

theorem mput (d : MReg) (v : VSrc) (row : RowSel) : Statement (.mput d v row) := by
  intro _
  refine ⟨rfl, ?_⟩
  show parse 97 _ _ = _
  simp (disch := omega) only [parse, parseMat, codeMX, need]
  simp

theorem mrel (d : MReg) (nm1 : BitVec 8) : Statement (.mrel d nm1) := by
  intro _
  refine ⟨rfl, ?_⟩
  show parse 97 _ _ = _
  simp (disch := omega) only [parse, parseMat, codeMX, need, extract_append_hi, extract_append_lo, bit_append_hi, bit_append_lo]
  simp

theorem mpf (d : MReg) (g : GateSel) (nm1 : BitVec 8) : Statement (.mpf d g nm1) := by
  intro _
  refine ⟨rfl, ?_⟩
  show parse 97 _ _ = _
  simp (disch := omega) only [parse, parseMat, need, extract_append_hi, extract_append_lo, bit_append_hi, bit_append_lo]
  simp

theorem mcb (cb : BitVec 2) (base : SReg) : Statement (.mcb cb base) := by
  intro _
  refine ⟨rfl, ?_⟩
  show parse 97 _ _ = _
  simp (disch := omega) only [parse, parseMat, codeMX, need, extract_append_hi, extract_append_lo, bit_append_hi, bit_append_lo]
  simp

theorem mrmax (a : BitVec 5) (src : MSrc) : Statement (.mrmax a src) := by
  intro _
  refine ⟨rfl, ?_⟩
  show parse 97 _ _ = _
  simp (disch := omega) only [parse, parseMat, need]
  simp

theorem mrsum (a : BitVec 5) (src : MSrc) : Statement (.mrsum a src) := by
  intro _
  refine ⟨rfl, ?_⟩
  show parse 97 _ _ = _
  simp (disch := omega) only [parse, parseMat, need]
  simp

theorem scout (a : BitVec 5) (query : MSrc) (key : MSrc) (g : GateSel) (nm1 : BitVec 7) : Statement (.scout a query key g nm1) := by
  intro _
  refine ⟨rfl, ?_⟩
  show parse 98 _ _ = _
  simp (disch := omega) only [parse, parseGate, need, extract_append_hi, extract_append_lo, bit_append_hi, bit_append_lo]
  simp

theorem gthr (a : GReg) (v : VSrc) (t : SReg) (seg : BitVec 4) (nm1 : BitVec 7) : Statement (.gthr a v t seg nm1) := by
  intro h
  refine ⟨rfl, ?_⟩
  show parse 98 _ _ = _
  simp (disch := omega) only [parse, parseGate, need, extract_append_hi, extract_append_lo, bit_append_hi, bit_append_lo, qfield_dst _ h]
  simp

theorem gtopk (a : GReg) (v : VSrc) (n : SReg) (seg : BitVec 4) (nm1 : BitVec 7) : Statement (.gtopk a v n seg nm1) := by
  intro h
  refine ⟨rfl, ?_⟩
  show parse 98 _ _ = _
  simp (disch := omega) only [parse, parseGate, need, extract_append_hi, extract_append_lo, bit_append_hi, bit_append_lo, qfield_dst _ h]
  simp

theorem gand (a : GReg) (b : GReg) (c : GReg) : Statement (.gand a b c) := by
  intro h
  refine ⟨rfl, ?_⟩
  show parse 98 _ _ = _
  simp (disch := omega) only [parse, parseGate, need, qfield_dst _ h]
  simp

theorem gor (a : GReg) (b : GReg) (c : GReg) : Statement (.gor a b c) := by
  intro h
  refine ⟨rfl, ?_⟩
  show parse 98 _ _ = _
  simp (disch := omega) only [parse, parseGate, need, qfield_dst _ h]
  simp

theorem gnot (a : GReg) (b : GReg) : Statement (.gnot a b) := by
  intro h
  refine ⟨rfl, ?_⟩
  show parse 98 _ _ = _
  simp (disch := omega) only [parse, parseGate, need, qfield_dst _ h]
  simp

theorem gpop (a : SReg) (b : GReg) (seg : BitVec 4) (nm1 : BitVec 8) : Statement (.gpop a b seg nm1) := by
  intro _
  refine ⟨rfl, ?_⟩
  show parse 98 _ _ = _
  simp (disch := omega) only [parse, parseGate, need, extract_append_hi, extract_append_lo, bit_append_lo]
  simp

theorem gnext (a : SReg) (b : GReg) (start : SReg) : Statement (.gnext a b start) := by
  intro _
  refine ⟨rfl, ?_⟩
  show parse 98 _ _ = _
  simp (disch := omega) only [parse, parseGate, need]
  simp

theorem gld (a : GReg) (base : SReg) : Statement (.gld a base) := by
  intro h
  refine ⟨rfl, ?_⟩
  show parse 98 _ _ = _
  simp (disch := omega) only [parse, parseGate, need, qfield_dst _ h]
  simp

theorem gst (b : GReg) (base : SReg) : Statement (.gst b base) := by
  intro _
  refine ⟨rfl, ?_⟩
  show parse 98 _ _ = _
  simp (disch := omega) only [parse, parseGate, need]
  simp

theorem sacc (base : SReg) (w : MSrc) (g : GateSel) (nm1 : BitVec 8) : Statement (.sacc base w g nm1) := by
  intro _
  refine ⟨rfl, ?_⟩
  show parse 98 _ _ = _
  simp (disch := omega) only [parse, parseGate, need, extract_append_hi, extract_append_lo, bit_append_lo]
  simp

theorem cpgo (a : SReg) : Statement (.cpgo a) := by
  intro _
  refine ⟨rfl, ?_⟩
  show parse 112 _ _ = _
  simp (disch := omega) only [parse, parseMV, parseEngine, need]
  simp

theorem rinit (ring : BitVec 2) (b : SReg) (c : SReg) : Statement (.rinit ring b c) := by
  intro _
  refine ⟨rfl, ?_⟩
  show parse 112 _ _ = _
  simp (disch := omega) only [parse, parseMV, parseEngine, need, extract_append_hi, extract_append_lo]
  simp

theorem rwait (b : SReg) : Statement (.rwait b) := by
  intro _
  refine ⟨rfl, ?_⟩
  show parse 112 _ _ = _
  simp (disch := omega) only [parse, parseMV, parseEngine, need]
  simp

theorem rrel (ring : BitVec 2) (b : SReg) : Statement (.rrel ring b) := by
  intro _
  refine ⟨rfl, ?_⟩
  show parse 112 _ _ = _
  simp (disch := omega) only [parse, parseMV, parseEngine, need, extract_append_hi, extract_append_lo]
  simp

theorem rpoll (a : SReg) (b : SReg) : Statement (.rpoll a b) := by
  intro _
  refine ⟨rfl, ?_⟩
  show parse 112 _ _ = _
  simp (disch := omega) only [parse, parseMV, parseEngine, need]
  simp

theorem sbind (a : BitVec 5) (b : SReg) : Statement (.sbind a b) := by
  intro _
  refine ⟨rfl, ?_⟩
  show parse 113 _ _ = _
  simp (disch := omega) only [parse, parseMV, parseEngine, need]
  simp

theorem sfree (a : BitVec 5) : Statement (.sfree a) := by
  intro _
  refine ⟨rfl, ?_⟩
  show parse 113 _ _ = _
  simp (disch := omega) only [parse, parseMV, parseEngine, need]
  simp

theorem capp (a : SReg) (src : CappSrc) (c : SReg) (k : QReg) (landing : BitVec 3) : Statement (.capp a src c k landing) := by
  intro _
  cases src <;> refine ⟨rfl, ?_⟩
  all_goals show parse 114 _ _ = _
  all_goals simp (disch := omega) only [parse, parseMV, parseEngine, need, extract_append_hi, extract_append_lo]
  all_goals simp []

theorem qpop (a : SReg) (b : SReg) (d : BitVec 5) : Statement (.qpop a b d) := by
  intro _
  refine ⟨rfl, ?_⟩
  show parse 114 _ _ = _
  simp (disch := omega) only [parse, parseMV, parseEngine, need]
  simp

theorem flpop (a : QReg) (b : SReg) (c : SReg) (k : QReg) (imm : BitVec 16) : Statement (.flpop a b c k imm) := by
  intro h
  refine ⟨rfl, ?_⟩
  show parse 114 _ _ = _
  simp (disch := omega) only [parse, parseMV, parseEngine, need, qfield_dst _ h]
  simp

theorem flpush (a : QReg) (b : SReg) (c : SReg) (k : QReg) (imm : BitVec 16) : Statement (.flpush a b c k imm) := by
  intro h
  refine ⟨rfl, ?_⟩
  show parse 114 _ _ = _
  simp (disch := omega) only [parse, parseMV, parseEngine, need, qfield_dst _ h]
  simp

theorem msend (src : MSrc) (dest : SReg) : Statement (.msend src dest) := by
  intro _
  refine ⟨rfl, ?_⟩
  show parse 115 _ _ = _
  simp (disch := omega) only [parse, parseRemote, need]
  simp

theorem mwait (d : MReg) : Statement (.mwait d) := by
  intro _
  refine ⟨rfl, ?_⟩
  show parse 115 _ _ = _
  simp (disch := omega) only [parse, parseRemote, need]
  simp

theorem csrrCpgo (a : SReg) : Statement (.csrrCpgo a) := by
  intro _
  refine ⟨rfl, ?_⟩
  show parse 35 _ _ = _
  simp (disch := omega) only [parse, parseMV, parseScalarMV, need]
  simp

theorem tmaprxWrite (op : CsrOp) (b : SReg) : Statement (.tmaprxWrite op b) := by
  intro _
  cases op <;> refine ⟨rfl, ?_⟩
  all_goals show parse 35 _ _ = _
  all_goals simp (disch := omega) only [parse, parseMV, parseScalarMV, need]
  all_goals simp []

theorem tile (m : LinkMsg) : Statement (.tile m) := fun _ => trivial

theorem tack (m : LinkMsg) : Statement (.tack m) := fun _ => trivial

theorem tnak (m : LinkMsg) : Statement (.tnak m) := fun _ => trivial

theorem controlPageWrite (part : Nat) (off : Nat) (v : Word) : Statement (.controlPageWrite part off v) := fun _ => trivial

theorem asidRootWordWrite (part : Nat) (v : Word) : Statement (.asidRootWordWrite part v) := fun _ => trivial

theorem leaseEntryWrite (part : Nat) (v : Word) : Statement (.leaseEntryWrite part v) := fun _ => trivial

theorem translationRequest (part : Nat) (v : Word) : Statement (.translationRequest part v) := fun _ => trivial

theorem counterClear (part : Nat) (v : Word) : Statement (.counterClear part v) := fun _ => trivial

theorem convoyIssue (tid : Nat) : Statement (.convoyIssue tid) := fun _ => trivial

theorem tileEngineStart (tid : Nat) : Statement (.tileEngineStart tid) := fun _ => trivial

theorem tileEngineDone (tid : Nat) : Statement (.tileEngineDone tid) := fun _ => trivial

theorem tileFaultTaken (tid : Nat) : Statement (.tileFaultTaken tid) := fun _ => trivial

theorem mapCacheFill (tid : Nat) (reg : MReg) : Statement (.mapCacheFill tid reg) := fun _ => trivial

theorem fillComplete (tid : Nat) (reg : MReg) : Statement (.fillComplete tid reg) := fun _ => trivial

theorem spillComplete (tid : Nat) (reg : MReg) : Statement (.spillComplete tid reg) := fun _ => trivial

theorem tlbWalkComplete (die : Nat) : Statement (.tlbWalkComplete die) := fun _ => trivial

theorem icacheFillComplete (core : Nat) (line : Nat) : Statement (.icacheFillComplete core line) := fun _ => trivial

theorem l1LineExpiry (core : Nat) (line : Nat) : Statement (.l1LineExpiry core line) := fun _ => trivial

theorem streamRunaheadLoad (tid : Nat) (reg : BitVec 5) : Statement (.streamRunaheadLoad tid reg) := fun _ => trivial

theorem gxuRequest (tid : Nat) (dst : BitVec 5) (size : Nat) (idx : List (Nat × Nat)) : Statement (.gxuRequest tid dst size idx) := fun _ => trivial

theorem gxuForeignRequest (req : Nat) (stack : Nat) : Statement (.gxuForeignRequest req stack) := fun _ => trivial

theorem gxuGroupReturn (req : Nat) (group : Nat) : Statement (.gxuGroupReturn req group) := fun _ => trivial

theorem cpeTransferComplete (tid : Nat) (id : Nat) : Statement (.cpeTransferComplete tid id) := fun _ => trivial

theorem asyncDelivery (tid : Nat) : Statement (.asyncDelivery tid) := fun _ => trivial

theorem barrierComplete (tid : Nat) : Statement (.barrierComplete tid) := fun _ => trivial

theorem waitResume (tid : Nat) : Statement (.waitResume tid) := fun _ => trivial

theorem waitTimeout (tid : Nat) : Statement (.waitTimeout tid) := fun _ => trivial

theorem sleepEnd (tid : Nat) : Statement (.sleepEnd tid) := fun _ => trivial

theorem mwaitDone (tid : Nat) : Statement (.mwaitDone tid) := fun _ => trivial

theorem cappRoom (tid : Nat) : Statement (.cappRoom tid) := fun _ => trivial

theorem qpopReady (tid : Nat) : Statement (.qpopReady tid) := fun _ => trivial

theorem rwaitDone (tid : Nat) : Statement (.rwaitDone tid) := fun _ => trivial

theorem haltDrained (tid : Nat) : Statement (.haltDrained tid) := fun _ => trivial

theorem msendWindowOpen (tid : Nat) : Statement (.msendWindowOpen tid) := fun _ => trivial

theorem fenceDone (tid : Nat) : Statement (.fenceDone tid) := fun _ => trivial

theorem cflushDone (tid : Nat) : Statement (.cflushDone tid) := fun _ => trivial

theorem cinvDone (tid : Nat) : Statement (.cinvDone tid) := fun _ => trivial

theorem tlbinvDone (tid : Nat) : Statement (.tlbinvDone tid) := fun _ => trivial

theorem translationDone (part : Nat) (image : List Byte) (entryOff : Nat) (at_ : Nat) : Statement (.translationDone part image entryOff at_) := fun _ => trivial

theorem vectorUnitGrant (tid : Nat) : Statement (.vectorUnitGrant tid) := fun _ => trivial

theorem vectorUnitStarvation (tid : Nat) : Statement (.vectorUnitStarvation tid) := fun _ => trivial

theorem vectorStateRestore (tid : Nat) : Statement (.vectorStateRestore tid) := fun _ => trivial

theorem preemption (tid : Nat) : Statement (.preemption tid) := fun _ => trivial

theorem taskPlace : Statement .taskPlace := fun _ => trivial

theorem quarterDrain (core : Nat) (quarter : Nat) : Statement (.quarterDrain core quarter) := fun _ => trivial

theorem quarterLend (core : Nat) (quarter : Nat) : Statement (.quarterLend core quarter) := fun _ => trivial

theorem quarterScrub (core : Nat) (quarter : Nat) : Statement (.quarterScrub core quarter) := fun _ => trivial

theorem quarterFree (core : Nat) (quarter : Nat) : Statement (.quarterFree core quarter) := fun _ => trivial

theorem gangStart (launch : Nat) : Statement (.gangStart launch) := fun _ => trivial

theorem launchComplete (launch : Nat) : Statement (.launchComplete launch) := fun _ => trivial

theorem dstEpoch (die : Nat) : Statement (.dstEpoch die) := fun _ => trivial

theorem currentGovernor (core : Nat) : Statement (.currentGovernor core) := fun _ => trivial

theorem pcSample (core : Nat) : Statement (.pcSample core) := fun _ => trivial

theorem hello (m : DkcpMsg) : Statement (.hello m) := fun _ => trivial

theorem ack (m : DkcpMsg) : Statement (.ack m) := fun _ => trivial

theorem bye (m : DkcpMsg) : Statement (.bye m) := fun _ => trivial

theorem dkcpRetransmit (session : BitVec 32) (seq : BitVec 32) : Statement (.dkcpRetransmit session seq) := fun _ => trivial

theorem dkcpSessionIdle (session : BitVec 32) : Statement (.dkcpSessionIdle session) := fun _ => trivial

theorem launch (m : DkcpMsg) : Statement (.launch m) := fun _ => trivial

theorem launchFenceResolved (n : Nat) : Statement (.launchFenceResolved n) := fun _ => trivial

theorem fenceTimeout (n : Nat) : Statement (.fenceTimeout n) := fun _ => trivial

theorem abort (m : DkcpMsg) : Statement (.abort m) := fun _ => trivial

theorem attestReq (m : DkcpMsg) : Statement (.attestReq m) := fun _ => trivial

theorem fwLoad (m : DkcpMsg) : Statement (.fwLoad m) := fun _ => trivial

theorem status (m : DkcpMsg) : Statement (.status m) := fun _ => trivial

theorem partCreate (m : DkcpMsg) : Statement (.partCreate m) := fun _ => trivial

theorem partDestroy (m : DkcpMsg) : Statement (.partDestroy m) := fun _ => trivial

theorem asidAssign (m : DkcpMsg) : Statement (.asidAssign m) := fun _ => trivial

theorem asidRelease (m : DkcpMsg) : Statement (.asidRelease m) := fun _ => trivial

theorem mrRegister (m : DkcpMsg) : Statement (.mrRegister m) := fun _ => trivial

theorem mrDeregister (m : DkcpMsg) : Statement (.mrDeregister m) := fun _ => trivial

theorem queueCreate (m : DkcpMsg) : Statement (.queueCreate m) := fun _ => trivial

theorem queueDestroy (m : DkcpMsg) : Statement (.queueDestroy m) := fun _ => trivial

theorem qpCreate (m : DkcpMsg) : Statement (.qpCreate m) := fun _ => trivial

theorem qpDestroy (m : DkcpMsg) : Statement (.qpDestroy m) := fun _ => trivial

theorem pkgIdSet (m : DkcpMsg) : Statement (.pkgIdSet m) := fun _ => trivial

theorem portTable (m : DkcpMsg) : Statement (.portTable m) := fun _ => trivial

theorem portEnable (m : DkcpMsg) (trained : BitVec 16) : Statement (.portEnable m trained) := fun _ => trivial

theorem tickConfig (m : DkcpMsg) : Statement (.tickConfig m) := fun _ => trivial

theorem lendMark (m : DkcpMsg) : Statement (.lendMark m) := fun _ => trivial

theorem lendUnmark (m : DkcpMsg) : Statement (.lendUnmark m) := fun _ => trivial

theorem revoke (m : DkcpMsg) : Statement (.revoke m) := fun _ => trivial

theorem bistStart (m : DkcpMsg) : Statement (.bistStart m) := fun _ => trivial

theorem lifetimeRead (m : DkcpMsg) : Statement (.lifetimeRead m) := fun _ => trivial

theorem telemetryCfg (m : DkcpMsg) : Statement (.telemetryCfg m) := fun _ => trivial

theorem supvStart (m : DkcpMsg) : Statement (.supvStart m) := fun _ => trivial

theorem measure (m : DkcpMsg) : Statement (.measure m) := fun _ => trivial

theorem pmemWrite (m : DkcpMsg) : Statement (.pmemWrite m) := fun _ => trivial

theorem telemetryPeriod : Statement .telemetryPeriod := fun _ => trivial

theorem rdmaWrite (qpn : Nat) (psn : BitVec 24) (rkey : BitVec 32) (va : Word) (data : List Byte) : Statement (.rdmaWrite qpn psn rkey va data) := fun _ => trivial

theorem rdmaRead (qpn : Nat) (psn : BitVec 24) (rkey : BitVec 32) (va : Word) (bytes : Nat) : Statement (.rdmaRead qpn psn rkey va bytes) := fun _ => trivial

theorem rdmaSend (qpn : Nat) (psn : BitVec 24) (data : List Byte) : Statement (.rdmaSend qpn psn data) := fun _ => trivial

theorem rdmaInvalidRequest (qpn : Nat) (psn : BitVec 24) : Statement (.rdmaInvalidRequest qpn psn) := fun _ => trivial

theorem tileResendTimeout (dest : Nat) : Statement (.tileResendTimeout dest) := fun _ => trivial

theorem busyBackoffExpiry (dest : Nat) : Statement (.busyBackoffExpiry dest) := fun _ => trivial

theorem fabricError (dest : Nat) : Statement (.fabricError dest) := fun _ => trivial

theorem tsyncPeriod : Statement .tsyncPeriod := fun _ => trivial

theorem tsync (m : LinkMsg) (port : Nat) : Statement (.tsync m port) := fun _ => trivial

theorem tsyncr (m : LinkMsg) : Statement (.tsyncr m) := fun _ => trivial

theorem tsyncLossTimeout : Statement .tsyncLossTimeout := fun _ => trivial

theorem syncedClear : Statement .syncedClear := fun _ => trivial

theorem lreq (m : LinkMsg) : Statement (.lreq m) := fun _ => trivial

theorem lgrant (m : LinkMsg) : Statement (.lgrant m) := fun _ => trivial

theorem ldeny (m : LinkMsg) : Statement (.ldeny m) := fun _ => trivial

theorem lrevoke (m : LinkMsg) : Statement (.lrevoke m) := fun _ => trivial

theorem leaseRelease (idx : Nat) : Statement (.leaseRelease idx) := fun _ => trivial

theorem leaseBorrowerDeadline (idx : Nat) : Statement (.leaseBorrowerDeadline idx) := fun _ => trivial

theorem leaseDrainComplete (idx : Nat) : Statement (.leaseDrainComplete idx) := fun _ => trivial

theorem lreleased (m : LinkMsg) : Statement (.lreleased m) := fun _ => trivial

theorem leaseLenderDeadline (idx : Nat) : Statement (.leaseLenderDeadline idx) := fun _ => trivial

theorem ualinkRequest (src : Nat) (offset : Nat) (r : LinkReq) : Statement (.ualinkRequest src offset r) := fun _ => trivial

theorem portDown (port : Nat) : Statement (.portDown port) := fun _ => trivial

theorem coldBoot : Statement .coldBoot := fun _ => trivial

theorem warmReset : Statement .warmReset := fun _ => trivial

theorem orderlyShutdown : Statement .orderlyShutdown := fun _ => trivial

theorem mcSample (x : Sample) : Statement (.mcSample x) := fun _ => trivial

theorem lifetimeFlush : Statement .lifetimeFlush := fun _ => trivial

theorem regulatorTrim (core : Nat) (unit : Nat) (lane : Nat) (atLimit : Bool) (failing : Bool) : Statement (.regulatorTrim core unit lane atLimit failing) := fun _ => trivial

theorem laneMapRewrite (core : Nat) (unit : Nat) : Statement (.laneMapRewrite core unit) := fun _ => trivial

theorem writeAssistEnter (core : Nat) : Statement (.writeAssistEnter core) := fun _ => trivial

theorem writeAssistExit (core : Nat) : Statement (.writeAssistExit core) := fun _ => trivial

theorem bistScheduled (stack : Nat) (pch : Nat) (bank : Nat) : Statement (.bistScheduled stack pch bank) := fun _ => trivial

theorem bistParkComplete (stack : Nat) : Statement (.bistParkComplete stack) := fun _ => trivial

theorem bistTestComplete (stack : Nat) (r : TestResult) : Statement (.bistTestComplete stack r) := fun _ => trivial

theorem bistReturnComplete (stack : Nat) : Statement (.bistReturnComplete stack) := fun _ => trivial

theorem ualinkCompletion (tid : Nat) (error : Bool) (data : List Byte) : Statement (.ualinkCompletion tid error data) := fun _ => trivial

theorem syncedSet : Statement .syncedSet := fun _ => trivial

theorem portUp (port : Nat) : Statement (.portUp port) := fun _ => trivial

theorem ualinkLaneFailure (port : Nat) : Statement (.ualinkLaneFailure port) := fun _ => trivial

theorem powerLoss : Statement .powerLoss := fun _ => trivial

end RoundTrip

end Sys2Proof.Laws
end

