-- ==== Sys2Proof/Laws/State.lean ====
section
/-! SUPPORT. What the updates of the state leave alone: one lemma for each field that an update does not touch, and one for what it
sets, so that no proof unfolds a record update. -/

namespace Sys2Proof.Machine

/-! ## Registers of a thread -/

@[simp] theorem Thread.reg_zero (t : Thread) : t.reg 0 = 0 := rfl
@[simp] theorem Thread.setReg_zero (t : Thread) (v : Word) : t.setReg 0 v = t := rfl
@[simp] theorem Thread.qreg_zero (t : Thread) : t.qreg 0 = BitVec.allOnes 128 := rfl
@[simp] theorem Thread.setQ_zero (t : Thread) (v : BitVec 128) : t.setQ 0 v = t := rfl
@[simp] theorem Thread.greg_zero (t : Thread) : t.greg 0 = BitVec.allOnes 4096 := rfl
@[simp] theorem Thread.setG_zero (t : Thread) (v : BitVec 4096) : t.setG 0 v = t := rfl

theorem Thread.reg_setReg_self (t : Thread) (a : SReg) (v : Word) (h : a ≠ 0) : (t.setReg a v).reg a = v := by
  unfold Thread.setReg Thread.reg; rw [if_neg h, if_neg h]; simp

theorem Thread.reg_setReg_other (t : Thread) (a b : SReg) (v : Word) (h : b ≠ a) : (t.setReg a v).reg b = t.reg b := by
  have hn : a.toNat ≠ b.toNat := fun e => h (BitVec.eq_of_toNat_eq e.symm)
  unfold Thread.setReg Thread.reg
  by_cases ha : a = 0
  · rw [if_pos ha]
  · rw [if_neg ha]; simp [hn]

theorem Thread.qreg_setQ_self (t : Thread) (a : QReg) (v : BitVec 128) (h : a ≠ 0) : (t.setQ a v).qreg a = v := by
  unfold Thread.setQ Thread.qreg; rw [if_neg h, if_neg h]; simp

theorem Thread.qreg_setQ_other (t : Thread) (a b : QReg) (v : BitVec 128) (h : b ≠ a) : (t.setQ a v).qreg b = t.qreg b := by
  have hn : a.toNat ≠ b.toNat := fun e => h (BitVec.eq_of_toNat_eq e.symm)
  unfold Thread.setQ Thread.qreg
  by_cases ha : a = 0
  · rw [if_pos ha]
  · rw [if_neg ha]; simp [hn]

theorem Thread.greg_setG_self (t : Thread) (a : GReg) (v : BitVec 4096) (h : a ≠ 0) : (t.setG a v).greg a = v := by
  unfold Thread.setG Thread.greg; rw [if_neg h, if_neg h]; simp

theorem Thread.greg_setG_other (t : Thread) (a b : GReg) (v : BitVec 4096) (h : b ≠ a) : (t.setG a v).greg b = t.greg b := by
  have hn : a.toNat ≠ b.toNat := fun e => h (BitVec.eq_of_toNat_eq e.symm)
  unfold Thread.setG Thread.greg
  by_cases ha : a = 0
  · rw [if_pos ha]
  · rw [if_neg ha]; simp [hn]

theorem Thread.vreg_setV_self (t : Thread) (a : BitVec 5) (x : Vector (BitVec 32) 128) : (t.setV a x).vreg a = x := by
  simp [Thread.setV, Thread.vreg]

theorem Thread.vreg_setV_other (t : Thread) (a b : BitVec 5) (x : Vector (BitVec 32) 128) (h : b ≠ a) :
    (t.setV a x).vreg b = t.vreg b := by
  have hn : a.toNat ≠ b.toNat := fun e => h (BitVec.eq_of_toNat_eq e.symm)
  simp_all [Thread.setV, Thread.vreg]

/-! ### `Thread.setReg` -/

@[simp] theorem Thread.setReg_pc (t : Thread) (a : SReg) (v : Word) : (t.setReg a v).pc = t.pc := by unfold Thread.setReg; split <;> rfl
@[simp] theorem Thread.setReg_member (t : Thread) (a : SReg) (v : Word) : (t.setReg a v).member = t.member := by unfold Thread.setReg; split <;> rfl
@[simp] theorem Thread.setReg_convoyLen (t : Thread) (a : SReg) (v : Word) : (t.setReg a v).convoyLen = t.convoyLen := by unfold Thread.setReg; split <;> rfl
@[simp] theorem Thread.setReg_nextPc (t : Thread) (a : SReg) (v : Word) : (t.setReg a v).nextPc = t.nextPc := by unfold Thread.setReg; split <;> rfl
@[simp] theorem Thread.setReg_ir (t : Thread) (a : SReg) (v : Word) : (t.setReg a v).ir = t.ir := by unfold Thread.setReg; split <;> rfl
@[simp] theorem Thread.setReg_lineBuf (t : Thread) (a : SReg) (v : Word) : (t.setReg a v).lineBuf = t.lineBuf := by unfold Thread.setReg; split <;> rfl
@[simp] theorem Thread.setReg_nextLine (t : Thread) (a : SReg) (v : Word) : (t.setReg a v).nextLine = t.nextLine := by unfold Thread.setReg; split <;> rfl
@[simp] theorem Thread.setReg_v (t : Thread) (a : SReg) (v : Word) : (t.setReg a v).v = t.v := by unfold Thread.setReg; split <;> rfl
@[simp] theorem Thread.setReg_q (t : Thread) (a : SReg) (v : Word) : (t.setReg a v).q = t.q := by unfold Thread.setReg; split <;> rfl
@[simp] theorem Thread.setReg_g (t : Thread) (a : SReg) (v : Word) : (t.setReg a v).g = t.g := by unfold Thread.setReg; split <;> rfl
@[simp] theorem Thread.setReg_cb (t : Thread) (a : SReg) (v : Word) : (t.setReg a v).cb = t.cb := by unfold Thread.setReg; split <;> rfl
@[simp] theorem Thread.setReg_fcsr (t : Thread) (a : SReg) (v : Word) : (t.setReg a v).fcsr = t.fcsr := by unfold Thread.setReg; split <;> rfl
@[simp] theorem Thread.setReg_vl (t : Thread) (a : SReg) (v : Word) : (t.setReg a v).vl = t.vl := by unfold Thread.setReg; split <;> rfl
@[simp] theorem Thread.setReg_vlr (t : Thread) (a : SReg) (v : Word) : (t.setReg a v).vlr = t.vlr := by unfold Thread.setReg; split <;> rfl
@[simp] theorem Thread.setReg_vtype (t : Thread) (a : SReg) (v : Word) : (t.setReg a v).vtype = t.vtype := by unfold Thread.setReg; split <;> rfl
@[simp] theorem Thread.setReg_vstart (t : Thread) (a : SReg) (v : Word) : (t.setReg a v).vstart = t.vstart := by unfold Thread.setReg; split <;> rfl
@[simp] theorem Thread.setReg_tshape (t : Thread) (a : SReg) (v : Word) : (t.setReg a v).tshape = t.tshape := by unfold Thread.setReg; split <;> rfl
@[simp] theorem Thread.setReg_tmapbase (t : Thread) (a : SReg) (v : Word) : (t.setReg a v).tmapbase = t.tmapbase := by unfold Thread.setReg; split <;> rfl
@[simp] theorem Thread.setReg_tmaprx (t : Thread) (a : SReg) (v : Word) : (t.setReg a v).tmaprx = t.tmaprx := by unfold Thread.setReg; split <;> rfl
@[simp] theorem Thread.setReg_cpsrc (t : Thread) (a : SReg) (v : Word) : (t.setReg a v).cpsrc = t.cpsrc := by unfold Thread.setReg; split <;> rfl
@[simp] theorem Thread.setReg_cpdst (t : Thread) (a : SReg) (v : Word) : (t.setReg a v).cpdst = t.cpdst := by unfold Thread.setReg; split <;> rfl
@[simp] theorem Thread.setReg_cpndim (t : Thread) (a : SReg) (v : Word) : (t.setReg a v).cpndim = t.cpndim := by unfold Thread.setReg; split <;> rfl
@[simp] theorem Thread.setReg_cpring (t : Thread) (a : SReg) (v : Word) : (t.setReg a v).cpring = t.cpring := by unfold Thread.setReg; split <;> rfl
@[simp] theorem Thread.setReg_cpext (t : Thread) (a : SReg) (v : Word) : (t.setReg a v).cpext = t.cpext := by unfold Thread.setReg; split <;> rfl
@[simp] theorem Thread.setReg_cpsst (t : Thread) (a : SReg) (v : Word) : (t.setReg a v).cpsst = t.cpsst := by unfold Thread.setReg; split <;> rfl
@[simp] theorem Thread.setReg_cpdstS (t : Thread) (a : SReg) (v : Word) : (t.setReg a v).cpdstS = t.cpdstS := by unfold Thread.setReg; split <;> rfl
@[simp] theorem Thread.setReg_xcause (t : Thread) (a : SReg) (v : Word) : (t.setReg a v).xcause = t.xcause := by unfold Thread.setReg; split <;> rfl
@[simp] theorem Thread.setReg_xepc (t : Thread) (a : SReg) (v : Word) : (t.setReg a v).xepc = t.xepc := by unfold Thread.setReg; split <;> rfl
@[simp] theorem Thread.setReg_xconvoy (t : Thread) (a : SReg) (v : Word) : (t.setReg a v).xconvoy = t.xconvoy := by unfold Thread.setReg; split <;> rfl
@[simp] theorem Thread.setReg_xelem (t : Thread) (a : SReg) (v : Word) : (t.setReg a v).xelem = t.xelem := by unfold Thread.setReg; split <;> rfl
@[simp] theorem Thread.setReg_xaddr (t : Thread) (a : SReg) (v : Word) : (t.setReg a v).xaddr = t.xaddr := by unfold Thread.setReg; split <;> rfl
@[simp] theorem Thread.setReg_xmask (t : Thread) (a : SReg) (v : Word) : (t.setReg a v).xmask = t.xmask := by unfold Thread.setReg; split <;> rfl
@[simp] theorem Thread.setReg_sup (t : Thread) (a : SReg) (v : Word) : (t.setReg a v).sup = t.sup := by unfold Thread.setReg; split <;> rfl
@[simp] theorem Thread.setReg_psup (t : Thread) (a : SReg) (v : Word) : (t.setReg a v).psup = t.psup := by unfold Thread.setReg; split <;> rfl
@[simp] theorem Thread.setReg_inh (t : Thread) (a : SReg) (v : Word) : (t.setReg a v).inh = t.inh := by unfold Thread.setReg; split <;> rfl
@[simp] theorem Thread.setReg_skipBit (t : Thread) (a : SReg) (v : Word) : (t.setReg a v).skipBit = t.skipBit := by unfold Thread.setReg; split <;> rfl
@[simp] theorem Thread.setReg_ntf (t : Thread) (a : SReg) (v : Word) : (t.setReg a v).ntf = t.ntf := by unfold Thread.setReg; split <;> rfl
@[simp] theorem Thread.setReg_xvec (t : Thread) (a : SReg) (v : Word) : (t.setReg a v).xvec = t.xvec := by unfold Thread.setReg; split <;> rfl
@[simp] theorem Thread.setReg_xscratch (t : Thread) (a : SReg) (v : Word) : (t.setReg a v).xscratch = t.xscratch := by unfold Thread.setReg; split <;> rfl
@[simp] theorem Thread.setReg_pend (t : Thread) (a : SReg) (v : Word) : (t.setReg a v).pend = t.pend := by unfold Thread.setReg; split <;> rfl
@[simp] theorem Thread.setReg_skip (t : Thread) (a : SReg) (v : Word) : (t.setReg a v).skip = t.skip := by unfold Thread.setReg; split <;> rfl
@[simp] theorem Thread.setReg_resumed (t : Thread) (a : SReg) (v : Word) : (t.setReg a v).resumed = t.resumed := by unfold Thread.setReg; split <;> rfl
@[simp] theorem Thread.setReg_unit (t : Thread) (a : SReg) (v : Word) : (t.setReg a v).unit = t.unit := by unfold Thread.setReg; split <;> rfl
@[simp] theorem Thread.setReg_vlive (t : Thread) (a : SReg) (v : Word) : (t.setReg a v).vlive = t.vlive := by unfold Thread.setReg; split <;> rfl
@[simp] theorem Thread.setReg_vhigh (t : Thread) (a : SReg) (v : Word) : (t.setReg a v).vhigh = t.vhigh := by unfold Thread.setReg; split <;> rfl
@[simp] theorem Thread.setReg_streams (t : Thread) (a : SReg) (v : Word) : (t.setReg a v).streams = t.streams := by unfold Thread.setReg; split <;> rfl
@[simp] theorem Thread.setReg_rings (t : Thread) (a : SReg) (v : Word) : (t.setReg a v).rings = t.rings := by unfold Thread.setReg; split <;> rfl
@[simp] theorem Thread.setReg_transfers (t : Thread) (a : SReg) (v : Word) : (t.setReg a v).transfers = t.transfers := by unfold Thread.setReg; split <;> rfl
@[simp] theorem Thread.setReg_nextId (t : Thread) (a : SReg) (v : Word) : (t.setReg a v).nextId = t.nextId := by unfold Thread.setReg; split <;> rfl
@[simp] theorem Thread.setReg_mapCache (t : Thread) (a : SReg) (v : Word) : (t.setReg a v).mapCache = t.mapCache := by unfold Thread.setReg; split <;> rfl
@[simp] theorem Thread.setReg_stall (t : Thread) (a : SReg) (v : Word) : (t.setReg a v).stall = t.stall := by unfold Thread.setReg; split <;> rfl
@[simp] theorem Thread.setReg_ending (t : Thread) (a : SReg) (v : Word) : (t.setReg a v).ending = t.ending := by unfold Thread.setReg; split <;> rfl
@[simp] theorem Thread.setReg_preempt (t : Thread) (a : SReg) (v : Word) : (t.setReg a v).preempt = t.preempt := by unfold Thread.setReg; split <;> rfl
@[simp] theorem Thread.setReg_stored (t : Thread) (a : SReg) (v : Word) : (t.setReg a v).stored = t.stored := by unfold Thread.setReg; split <;> rfl
@[simp] theorem Thread.setReg_cut (t : Thread) (a : SReg) (v : Word) : (t.setReg a v).cut = t.cut := by unfold Thread.setReg; split <;> rfl
@[simp] theorem Thread.setReg_vdone (t : Thread) (a : SReg) (v : Word) : (t.setReg a v).vdone = t.vdone := by unfold Thread.setReg; split <;> rfl
@[simp] theorem Thread.setReg_walked (t : Thread) (a : SReg) (v : Word) : (t.setReg a v).walked = t.walked := by unfold Thread.setReg; split <;> rfl
@[simp] theorem Thread.setReg_checked (t : Thread) (a : SReg) (v : Word) : (t.setReg a v).checked = t.checked := by unfold Thread.setReg; split <;> rfl
@[simp] theorem Thread.setReg_held (t : Thread) (a : SReg) (v : Word) : (t.setReg a v).held = t.held := by unfold Thread.setReg; split <;> rfl
@[simp] theorem Thread.setReg_save (t : Thread) (a : SReg) (v : Word) : (t.setReg a v).save = t.save := by unfold Thread.setReg; split <;> rfl
@[simp] theorem Thread.setReg_task (t : Thread) (a : SReg) (v : Word) : (t.setReg a v).task = t.task := by unfold Thread.setReg; split <;> rfl

/-! ### `Thread.setQ` -/

@[simp] theorem Thread.setQ_pc (t : Thread) (a : QReg) (v : BitVec 128) : (t.setQ a v).pc = t.pc := by unfold Thread.setQ; split <;> rfl
@[simp] theorem Thread.setQ_member (t : Thread) (a : QReg) (v : BitVec 128) : (t.setQ a v).member = t.member := by unfold Thread.setQ; split <;> rfl
@[simp] theorem Thread.setQ_convoyLen (t : Thread) (a : QReg) (v : BitVec 128) : (t.setQ a v).convoyLen = t.convoyLen := by unfold Thread.setQ; split <;> rfl
@[simp] theorem Thread.setQ_nextPc (t : Thread) (a : QReg) (v : BitVec 128) : (t.setQ a v).nextPc = t.nextPc := by unfold Thread.setQ; split <;> rfl
@[simp] theorem Thread.setQ_ir (t : Thread) (a : QReg) (v : BitVec 128) : (t.setQ a v).ir = t.ir := by unfold Thread.setQ; split <;> rfl
@[simp] theorem Thread.setQ_lineBuf (t : Thread) (a : QReg) (v : BitVec 128) : (t.setQ a v).lineBuf = t.lineBuf := by unfold Thread.setQ; split <;> rfl
@[simp] theorem Thread.setQ_nextLine (t : Thread) (a : QReg) (v : BitVec 128) : (t.setQ a v).nextLine = t.nextLine := by unfold Thread.setQ; split <;> rfl
@[simp] theorem Thread.setQ_regs (t : Thread) (a : QReg) (v : BitVec 128) : (t.setQ a v).regs = t.regs := by unfold Thread.setQ; split <;> rfl
@[simp] theorem Thread.setQ_v (t : Thread) (a : QReg) (v : BitVec 128) : (t.setQ a v).v = t.v := by unfold Thread.setQ; split <;> rfl
@[simp] theorem Thread.setQ_g (t : Thread) (a : QReg) (v : BitVec 128) : (t.setQ a v).g = t.g := by unfold Thread.setQ; split <;> rfl
@[simp] theorem Thread.setQ_cb (t : Thread) (a : QReg) (v : BitVec 128) : (t.setQ a v).cb = t.cb := by unfold Thread.setQ; split <;> rfl
@[simp] theorem Thread.setQ_fcsr (t : Thread) (a : QReg) (v : BitVec 128) : (t.setQ a v).fcsr = t.fcsr := by unfold Thread.setQ; split <;> rfl
@[simp] theorem Thread.setQ_vl (t : Thread) (a : QReg) (v : BitVec 128) : (t.setQ a v).vl = t.vl := by unfold Thread.setQ; split <;> rfl
@[simp] theorem Thread.setQ_vlr (t : Thread) (a : QReg) (v : BitVec 128) : (t.setQ a v).vlr = t.vlr := by unfold Thread.setQ; split <;> rfl
@[simp] theorem Thread.setQ_vtype (t : Thread) (a : QReg) (v : BitVec 128) : (t.setQ a v).vtype = t.vtype := by unfold Thread.setQ; split <;> rfl
@[simp] theorem Thread.setQ_vstart (t : Thread) (a : QReg) (v : BitVec 128) : (t.setQ a v).vstart = t.vstart := by unfold Thread.setQ; split <;> rfl
@[simp] theorem Thread.setQ_tshape (t : Thread) (a : QReg) (v : BitVec 128) : (t.setQ a v).tshape = t.tshape := by unfold Thread.setQ; split <;> rfl
@[simp] theorem Thread.setQ_tmapbase (t : Thread) (a : QReg) (v : BitVec 128) : (t.setQ a v).tmapbase = t.tmapbase := by unfold Thread.setQ; split <;> rfl
@[simp] theorem Thread.setQ_tmaprx (t : Thread) (a : QReg) (v : BitVec 128) : (t.setQ a v).tmaprx = t.tmaprx := by unfold Thread.setQ; split <;> rfl
@[simp] theorem Thread.setQ_cpsrc (t : Thread) (a : QReg) (v : BitVec 128) : (t.setQ a v).cpsrc = t.cpsrc := by unfold Thread.setQ; split <;> rfl
@[simp] theorem Thread.setQ_cpdst (t : Thread) (a : QReg) (v : BitVec 128) : (t.setQ a v).cpdst = t.cpdst := by unfold Thread.setQ; split <;> rfl
@[simp] theorem Thread.setQ_cpndim (t : Thread) (a : QReg) (v : BitVec 128) : (t.setQ a v).cpndim = t.cpndim := by unfold Thread.setQ; split <;> rfl
@[simp] theorem Thread.setQ_cpring (t : Thread) (a : QReg) (v : BitVec 128) : (t.setQ a v).cpring = t.cpring := by unfold Thread.setQ; split <;> rfl
@[simp] theorem Thread.setQ_cpext (t : Thread) (a : QReg) (v : BitVec 128) : (t.setQ a v).cpext = t.cpext := by unfold Thread.setQ; split <;> rfl
@[simp] theorem Thread.setQ_cpsst (t : Thread) (a : QReg) (v : BitVec 128) : (t.setQ a v).cpsst = t.cpsst := by unfold Thread.setQ; split <;> rfl
@[simp] theorem Thread.setQ_cpdstS (t : Thread) (a : QReg) (v : BitVec 128) : (t.setQ a v).cpdstS = t.cpdstS := by unfold Thread.setQ; split <;> rfl
@[simp] theorem Thread.setQ_xcause (t : Thread) (a : QReg) (v : BitVec 128) : (t.setQ a v).xcause = t.xcause := by unfold Thread.setQ; split <;> rfl
@[simp] theorem Thread.setQ_xepc (t : Thread) (a : QReg) (v : BitVec 128) : (t.setQ a v).xepc = t.xepc := by unfold Thread.setQ; split <;> rfl
@[simp] theorem Thread.setQ_xconvoy (t : Thread) (a : QReg) (v : BitVec 128) : (t.setQ a v).xconvoy = t.xconvoy := by unfold Thread.setQ; split <;> rfl
@[simp] theorem Thread.setQ_xelem (t : Thread) (a : QReg) (v : BitVec 128) : (t.setQ a v).xelem = t.xelem := by unfold Thread.setQ; split <;> rfl
@[simp] theorem Thread.setQ_xaddr (t : Thread) (a : QReg) (v : BitVec 128) : (t.setQ a v).xaddr = t.xaddr := by unfold Thread.setQ; split <;> rfl
@[simp] theorem Thread.setQ_xmask (t : Thread) (a : QReg) (v : BitVec 128) : (t.setQ a v).xmask = t.xmask := by unfold Thread.setQ; split <;> rfl
@[simp] theorem Thread.setQ_sup (t : Thread) (a : QReg) (v : BitVec 128) : (t.setQ a v).sup = t.sup := by unfold Thread.setQ; split <;> rfl
@[simp] theorem Thread.setQ_psup (t : Thread) (a : QReg) (v : BitVec 128) : (t.setQ a v).psup = t.psup := by unfold Thread.setQ; split <;> rfl
@[simp] theorem Thread.setQ_inh (t : Thread) (a : QReg) (v : BitVec 128) : (t.setQ a v).inh = t.inh := by unfold Thread.setQ; split <;> rfl
@[simp] theorem Thread.setQ_skipBit (t : Thread) (a : QReg) (v : BitVec 128) : (t.setQ a v).skipBit = t.skipBit := by unfold Thread.setQ; split <;> rfl
@[simp] theorem Thread.setQ_ntf (t : Thread) (a : QReg) (v : BitVec 128) : (t.setQ a v).ntf = t.ntf := by unfold Thread.setQ; split <;> rfl
@[simp] theorem Thread.setQ_xvec (t : Thread) (a : QReg) (v : BitVec 128) : (t.setQ a v).xvec = t.xvec := by unfold Thread.setQ; split <;> rfl
@[simp] theorem Thread.setQ_xscratch (t : Thread) (a : QReg) (v : BitVec 128) : (t.setQ a v).xscratch = t.xscratch := by unfold Thread.setQ; split <;> rfl
@[simp] theorem Thread.setQ_pend (t : Thread) (a : QReg) (v : BitVec 128) : (t.setQ a v).pend = t.pend := by unfold Thread.setQ; split <;> rfl
@[simp] theorem Thread.setQ_skip (t : Thread) (a : QReg) (v : BitVec 128) : (t.setQ a v).skip = t.skip := by unfold Thread.setQ; split <;> rfl
@[simp] theorem Thread.setQ_resumed (t : Thread) (a : QReg) (v : BitVec 128) : (t.setQ a v).resumed = t.resumed := by unfold Thread.setQ; split <;> rfl
@[simp] theorem Thread.setQ_unit (t : Thread) (a : QReg) (v : BitVec 128) : (t.setQ a v).unit = t.unit := by unfold Thread.setQ; split <;> rfl
@[simp] theorem Thread.setQ_vlive (t : Thread) (a : QReg) (v : BitVec 128) : (t.setQ a v).vlive = t.vlive := by unfold Thread.setQ; split <;> rfl
@[simp] theorem Thread.setQ_vhigh (t : Thread) (a : QReg) (v : BitVec 128) : (t.setQ a v).vhigh = t.vhigh := by unfold Thread.setQ; split <;> rfl
@[simp] theorem Thread.setQ_streams (t : Thread) (a : QReg) (v : BitVec 128) : (t.setQ a v).streams = t.streams := by unfold Thread.setQ; split <;> rfl
@[simp] theorem Thread.setQ_rings (t : Thread) (a : QReg) (v : BitVec 128) : (t.setQ a v).rings = t.rings := by unfold Thread.setQ; split <;> rfl
@[simp] theorem Thread.setQ_transfers (t : Thread) (a : QReg) (v : BitVec 128) : (t.setQ a v).transfers = t.transfers := by unfold Thread.setQ; split <;> rfl
@[simp] theorem Thread.setQ_nextId (t : Thread) (a : QReg) (v : BitVec 128) : (t.setQ a v).nextId = t.nextId := by unfold Thread.setQ; split <;> rfl
@[simp] theorem Thread.setQ_mapCache (t : Thread) (a : QReg) (v : BitVec 128) : (t.setQ a v).mapCache = t.mapCache := by unfold Thread.setQ; split <;> rfl
@[simp] theorem Thread.setQ_stall (t : Thread) (a : QReg) (v : BitVec 128) : (t.setQ a v).stall = t.stall := by unfold Thread.setQ; split <;> rfl
@[simp] theorem Thread.setQ_ending (t : Thread) (a : QReg) (v : BitVec 128) : (t.setQ a v).ending = t.ending := by unfold Thread.setQ; split <;> rfl
@[simp] theorem Thread.setQ_preempt (t : Thread) (a : QReg) (v : BitVec 128) : (t.setQ a v).preempt = t.preempt := by unfold Thread.setQ; split <;> rfl
@[simp] theorem Thread.setQ_stored (t : Thread) (a : QReg) (v : BitVec 128) : (t.setQ a v).stored = t.stored := by unfold Thread.setQ; split <;> rfl
@[simp] theorem Thread.setQ_cut (t : Thread) (a : QReg) (v : BitVec 128) : (t.setQ a v).cut = t.cut := by unfold Thread.setQ; split <;> rfl
@[simp] theorem Thread.setQ_vdone (t : Thread) (a : QReg) (v : BitVec 128) : (t.setQ a v).vdone = t.vdone := by unfold Thread.setQ; split <;> rfl
@[simp] theorem Thread.setQ_walked (t : Thread) (a : QReg) (v : BitVec 128) : (t.setQ a v).walked = t.walked := by unfold Thread.setQ; split <;> rfl
@[simp] theorem Thread.setQ_checked (t : Thread) (a : QReg) (v : BitVec 128) : (t.setQ a v).checked = t.checked := by unfold Thread.setQ; split <;> rfl
@[simp] theorem Thread.setQ_held (t : Thread) (a : QReg) (v : BitVec 128) : (t.setQ a v).held = t.held := by unfold Thread.setQ; split <;> rfl
@[simp] theorem Thread.setQ_save (t : Thread) (a : QReg) (v : BitVec 128) : (t.setQ a v).save = t.save := by unfold Thread.setQ; split <;> rfl
@[simp] theorem Thread.setQ_task (t : Thread) (a : QReg) (v : BitVec 128) : (t.setQ a v).task = t.task := by unfold Thread.setQ; split <;> rfl

/-! ### `Thread.setG` -/

@[simp] theorem Thread.setG_pc (t : Thread) (a : GReg) (v : BitVec 4096) : (t.setG a v).pc = t.pc := by unfold Thread.setG; split <;> rfl
@[simp] theorem Thread.setG_member (t : Thread) (a : GReg) (v : BitVec 4096) : (t.setG a v).member = t.member := by unfold Thread.setG; split <;> rfl
@[simp] theorem Thread.setG_convoyLen (t : Thread) (a : GReg) (v : BitVec 4096) : (t.setG a v).convoyLen = t.convoyLen := by unfold Thread.setG; split <;> rfl
@[simp] theorem Thread.setG_nextPc (t : Thread) (a : GReg) (v : BitVec 4096) : (t.setG a v).nextPc = t.nextPc := by unfold Thread.setG; split <;> rfl
@[simp] theorem Thread.setG_ir (t : Thread) (a : GReg) (v : BitVec 4096) : (t.setG a v).ir = t.ir := by unfold Thread.setG; split <;> rfl
@[simp] theorem Thread.setG_lineBuf (t : Thread) (a : GReg) (v : BitVec 4096) : (t.setG a v).lineBuf = t.lineBuf := by unfold Thread.setG; split <;> rfl
@[simp] theorem Thread.setG_nextLine (t : Thread) (a : GReg) (v : BitVec 4096) : (t.setG a v).nextLine = t.nextLine := by unfold Thread.setG; split <;> rfl
@[simp] theorem Thread.setG_regs (t : Thread) (a : GReg) (v : BitVec 4096) : (t.setG a v).regs = t.regs := by unfold Thread.setG; split <;> rfl
@[simp] theorem Thread.setG_v (t : Thread) (a : GReg) (v : BitVec 4096) : (t.setG a v).v = t.v := by unfold Thread.setG; split <;> rfl
@[simp] theorem Thread.setG_q (t : Thread) (a : GReg) (v : BitVec 4096) : (t.setG a v).q = t.q := by unfold Thread.setG; split <;> rfl
@[simp] theorem Thread.setG_cb (t : Thread) (a : GReg) (v : BitVec 4096) : (t.setG a v).cb = t.cb := by unfold Thread.setG; split <;> rfl
@[simp] theorem Thread.setG_fcsr (t : Thread) (a : GReg) (v : BitVec 4096) : (t.setG a v).fcsr = t.fcsr := by unfold Thread.setG; split <;> rfl
@[simp] theorem Thread.setG_vl (t : Thread) (a : GReg) (v : BitVec 4096) : (t.setG a v).vl = t.vl := by unfold Thread.setG; split <;> rfl
@[simp] theorem Thread.setG_vlr (t : Thread) (a : GReg) (v : BitVec 4096) : (t.setG a v).vlr = t.vlr := by unfold Thread.setG; split <;> rfl
@[simp] theorem Thread.setG_vtype (t : Thread) (a : GReg) (v : BitVec 4096) : (t.setG a v).vtype = t.vtype := by unfold Thread.setG; split <;> rfl
@[simp] theorem Thread.setG_vstart (t : Thread) (a : GReg) (v : BitVec 4096) : (t.setG a v).vstart = t.vstart := by unfold Thread.setG; split <;> rfl
@[simp] theorem Thread.setG_tshape (t : Thread) (a : GReg) (v : BitVec 4096) : (t.setG a v).tshape = t.tshape := by unfold Thread.setG; split <;> rfl
@[simp] theorem Thread.setG_tmapbase (t : Thread) (a : GReg) (v : BitVec 4096) : (t.setG a v).tmapbase = t.tmapbase := by unfold Thread.setG; split <;> rfl
@[simp] theorem Thread.setG_tmaprx (t : Thread) (a : GReg) (v : BitVec 4096) : (t.setG a v).tmaprx = t.tmaprx := by unfold Thread.setG; split <;> rfl
@[simp] theorem Thread.setG_cpsrc (t : Thread) (a : GReg) (v : BitVec 4096) : (t.setG a v).cpsrc = t.cpsrc := by unfold Thread.setG; split <;> rfl
@[simp] theorem Thread.setG_cpdst (t : Thread) (a : GReg) (v : BitVec 4096) : (t.setG a v).cpdst = t.cpdst := by unfold Thread.setG; split <;> rfl
@[simp] theorem Thread.setG_cpndim (t : Thread) (a : GReg) (v : BitVec 4096) : (t.setG a v).cpndim = t.cpndim := by unfold Thread.setG; split <;> rfl
@[simp] theorem Thread.setG_cpring (t : Thread) (a : GReg) (v : BitVec 4096) : (t.setG a v).cpring = t.cpring := by unfold Thread.setG; split <;> rfl
@[simp] theorem Thread.setG_cpext (t : Thread) (a : GReg) (v : BitVec 4096) : (t.setG a v).cpext = t.cpext := by unfold Thread.setG; split <;> rfl
@[simp] theorem Thread.setG_cpsst (t : Thread) (a : GReg) (v : BitVec 4096) : (t.setG a v).cpsst = t.cpsst := by unfold Thread.setG; split <;> rfl
@[simp] theorem Thread.setG_cpdstS (t : Thread) (a : GReg) (v : BitVec 4096) : (t.setG a v).cpdstS = t.cpdstS := by unfold Thread.setG; split <;> rfl
@[simp] theorem Thread.setG_xcause (t : Thread) (a : GReg) (v : BitVec 4096) : (t.setG a v).xcause = t.xcause := by unfold Thread.setG; split <;> rfl
@[simp] theorem Thread.setG_xepc (t : Thread) (a : GReg) (v : BitVec 4096) : (t.setG a v).xepc = t.xepc := by unfold Thread.setG; split <;> rfl
@[simp] theorem Thread.setG_xconvoy (t : Thread) (a : GReg) (v : BitVec 4096) : (t.setG a v).xconvoy = t.xconvoy := by unfold Thread.setG; split <;> rfl
@[simp] theorem Thread.setG_xelem (t : Thread) (a : GReg) (v : BitVec 4096) : (t.setG a v).xelem = t.xelem := by unfold Thread.setG; split <;> rfl
@[simp] theorem Thread.setG_xaddr (t : Thread) (a : GReg) (v : BitVec 4096) : (t.setG a v).xaddr = t.xaddr := by unfold Thread.setG; split <;> rfl
@[simp] theorem Thread.setG_xmask (t : Thread) (a : GReg) (v : BitVec 4096) : (t.setG a v).xmask = t.xmask := by unfold Thread.setG; split <;> rfl
@[simp] theorem Thread.setG_sup (t : Thread) (a : GReg) (v : BitVec 4096) : (t.setG a v).sup = t.sup := by unfold Thread.setG; split <;> rfl
@[simp] theorem Thread.setG_psup (t : Thread) (a : GReg) (v : BitVec 4096) : (t.setG a v).psup = t.psup := by unfold Thread.setG; split <;> rfl
@[simp] theorem Thread.setG_inh (t : Thread) (a : GReg) (v : BitVec 4096) : (t.setG a v).inh = t.inh := by unfold Thread.setG; split <;> rfl
@[simp] theorem Thread.setG_skipBit (t : Thread) (a : GReg) (v : BitVec 4096) : (t.setG a v).skipBit = t.skipBit := by unfold Thread.setG; split <;> rfl
@[simp] theorem Thread.setG_ntf (t : Thread) (a : GReg) (v : BitVec 4096) : (t.setG a v).ntf = t.ntf := by unfold Thread.setG; split <;> rfl
@[simp] theorem Thread.setG_xvec (t : Thread) (a : GReg) (v : BitVec 4096) : (t.setG a v).xvec = t.xvec := by unfold Thread.setG; split <;> rfl
@[simp] theorem Thread.setG_xscratch (t : Thread) (a : GReg) (v : BitVec 4096) : (t.setG a v).xscratch = t.xscratch := by unfold Thread.setG; split <;> rfl
@[simp] theorem Thread.setG_pend (t : Thread) (a : GReg) (v : BitVec 4096) : (t.setG a v).pend = t.pend := by unfold Thread.setG; split <;> rfl
@[simp] theorem Thread.setG_skip (t : Thread) (a : GReg) (v : BitVec 4096) : (t.setG a v).skip = t.skip := by unfold Thread.setG; split <;> rfl
@[simp] theorem Thread.setG_resumed (t : Thread) (a : GReg) (v : BitVec 4096) : (t.setG a v).resumed = t.resumed := by unfold Thread.setG; split <;> rfl
@[simp] theorem Thread.setG_unit (t : Thread) (a : GReg) (v : BitVec 4096) : (t.setG a v).unit = t.unit := by unfold Thread.setG; split <;> rfl
@[simp] theorem Thread.setG_vlive (t : Thread) (a : GReg) (v : BitVec 4096) : (t.setG a v).vlive = t.vlive := by unfold Thread.setG; split <;> rfl
@[simp] theorem Thread.setG_vhigh (t : Thread) (a : GReg) (v : BitVec 4096) : (t.setG a v).vhigh = t.vhigh := by unfold Thread.setG; split <;> rfl
@[simp] theorem Thread.setG_streams (t : Thread) (a : GReg) (v : BitVec 4096) : (t.setG a v).streams = t.streams := by unfold Thread.setG; split <;> rfl
@[simp] theorem Thread.setG_rings (t : Thread) (a : GReg) (v : BitVec 4096) : (t.setG a v).rings = t.rings := by unfold Thread.setG; split <;> rfl
@[simp] theorem Thread.setG_transfers (t : Thread) (a : GReg) (v : BitVec 4096) : (t.setG a v).transfers = t.transfers := by unfold Thread.setG; split <;> rfl
@[simp] theorem Thread.setG_nextId (t : Thread) (a : GReg) (v : BitVec 4096) : (t.setG a v).nextId = t.nextId := by unfold Thread.setG; split <;> rfl
@[simp] theorem Thread.setG_mapCache (t : Thread) (a : GReg) (v : BitVec 4096) : (t.setG a v).mapCache = t.mapCache := by unfold Thread.setG; split <;> rfl
@[simp] theorem Thread.setG_stall (t : Thread) (a : GReg) (v : BitVec 4096) : (t.setG a v).stall = t.stall := by unfold Thread.setG; split <;> rfl
@[simp] theorem Thread.setG_ending (t : Thread) (a : GReg) (v : BitVec 4096) : (t.setG a v).ending = t.ending := by unfold Thread.setG; split <;> rfl
@[simp] theorem Thread.setG_preempt (t : Thread) (a : GReg) (v : BitVec 4096) : (t.setG a v).preempt = t.preempt := by unfold Thread.setG; split <;> rfl
@[simp] theorem Thread.setG_stored (t : Thread) (a : GReg) (v : BitVec 4096) : (t.setG a v).stored = t.stored := by unfold Thread.setG; split <;> rfl
@[simp] theorem Thread.setG_cut (t : Thread) (a : GReg) (v : BitVec 4096) : (t.setG a v).cut = t.cut := by unfold Thread.setG; split <;> rfl
@[simp] theorem Thread.setG_vdone (t : Thread) (a : GReg) (v : BitVec 4096) : (t.setG a v).vdone = t.vdone := by unfold Thread.setG; split <;> rfl
@[simp] theorem Thread.setG_walked (t : Thread) (a : GReg) (v : BitVec 4096) : (t.setG a v).walked = t.walked := by unfold Thread.setG; split <;> rfl
@[simp] theorem Thread.setG_checked (t : Thread) (a : GReg) (v : BitVec 4096) : (t.setG a v).checked = t.checked := by unfold Thread.setG; split <;> rfl
@[simp] theorem Thread.setG_held (t : Thread) (a : GReg) (v : BitVec 4096) : (t.setG a v).held = t.held := by unfold Thread.setG; split <;> rfl
@[simp] theorem Thread.setG_save (t : Thread) (a : GReg) (v : BitVec 4096) : (t.setG a v).save = t.save := by unfold Thread.setG; split <;> rfl
@[simp] theorem Thread.setG_task (t : Thread) (a : GReg) (v : BitVec 4096) : (t.setG a v).task = t.task := by unfold Thread.setG; split <;> rfl

/-! ### `Thread.setV` -/

@[simp] theorem Thread.setV_pc (t : Thread) (a : BitVec 5) (x : Vector (BitVec 32) 128) : (t.setV a x).pc = t.pc := rfl
@[simp] theorem Thread.setV_member (t : Thread) (a : BitVec 5) (x : Vector (BitVec 32) 128) : (t.setV a x).member = t.member := rfl
@[simp] theorem Thread.setV_convoyLen (t : Thread) (a : BitVec 5) (x : Vector (BitVec 32) 128) : (t.setV a x).convoyLen = t.convoyLen := rfl
@[simp] theorem Thread.setV_nextPc (t : Thread) (a : BitVec 5) (x : Vector (BitVec 32) 128) : (t.setV a x).nextPc = t.nextPc := rfl
@[simp] theorem Thread.setV_ir (t : Thread) (a : BitVec 5) (x : Vector (BitVec 32) 128) : (t.setV a x).ir = t.ir := rfl
@[simp] theorem Thread.setV_lineBuf (t : Thread) (a : BitVec 5) (x : Vector (BitVec 32) 128) : (t.setV a x).lineBuf = t.lineBuf := rfl
@[simp] theorem Thread.setV_nextLine (t : Thread) (a : BitVec 5) (x : Vector (BitVec 32) 128) : (t.setV a x).nextLine = t.nextLine := rfl
@[simp] theorem Thread.setV_regs (t : Thread) (a : BitVec 5) (x : Vector (BitVec 32) 128) : (t.setV a x).regs = t.regs := rfl
@[simp] theorem Thread.setV_q (t : Thread) (a : BitVec 5) (x : Vector (BitVec 32) 128) : (t.setV a x).q = t.q := rfl
@[simp] theorem Thread.setV_g (t : Thread) (a : BitVec 5) (x : Vector (BitVec 32) 128) : (t.setV a x).g = t.g := rfl
@[simp] theorem Thread.setV_cb (t : Thread) (a : BitVec 5) (x : Vector (BitVec 32) 128) : (t.setV a x).cb = t.cb := rfl
@[simp] theorem Thread.setV_fcsr (t : Thread) (a : BitVec 5) (x : Vector (BitVec 32) 128) : (t.setV a x).fcsr = t.fcsr := rfl
@[simp] theorem Thread.setV_vl (t : Thread) (a : BitVec 5) (x : Vector (BitVec 32) 128) : (t.setV a x).vl = t.vl := rfl
@[simp] theorem Thread.setV_vlr (t : Thread) (a : BitVec 5) (x : Vector (BitVec 32) 128) : (t.setV a x).vlr = t.vlr := rfl
@[simp] theorem Thread.setV_vtype (t : Thread) (a : BitVec 5) (x : Vector (BitVec 32) 128) : (t.setV a x).vtype = t.vtype := rfl
@[simp] theorem Thread.setV_vstart (t : Thread) (a : BitVec 5) (x : Vector (BitVec 32) 128) : (t.setV a x).vstart = t.vstart := rfl
@[simp] theorem Thread.setV_tshape (t : Thread) (a : BitVec 5) (x : Vector (BitVec 32) 128) : (t.setV a x).tshape = t.tshape := rfl
@[simp] theorem Thread.setV_tmapbase (t : Thread) (a : BitVec 5) (x : Vector (BitVec 32) 128) : (t.setV a x).tmapbase = t.tmapbase := rfl
@[simp] theorem Thread.setV_tmaprx (t : Thread) (a : BitVec 5) (x : Vector (BitVec 32) 128) : (t.setV a x).tmaprx = t.tmaprx := rfl
@[simp] theorem Thread.setV_cpsrc (t : Thread) (a : BitVec 5) (x : Vector (BitVec 32) 128) : (t.setV a x).cpsrc = t.cpsrc := rfl
@[simp] theorem Thread.setV_cpdst (t : Thread) (a : BitVec 5) (x : Vector (BitVec 32) 128) : (t.setV a x).cpdst = t.cpdst := rfl
@[simp] theorem Thread.setV_cpndim (t : Thread) (a : BitVec 5) (x : Vector (BitVec 32) 128) : (t.setV a x).cpndim = t.cpndim := rfl
@[simp] theorem Thread.setV_cpring (t : Thread) (a : BitVec 5) (x : Vector (BitVec 32) 128) : (t.setV a x).cpring = t.cpring := rfl
@[simp] theorem Thread.setV_cpext (t : Thread) (a : BitVec 5) (x : Vector (BitVec 32) 128) : (t.setV a x).cpext = t.cpext := rfl
@[simp] theorem Thread.setV_cpsst (t : Thread) (a : BitVec 5) (x : Vector (BitVec 32) 128) : (t.setV a x).cpsst = t.cpsst := rfl
@[simp] theorem Thread.setV_cpdstS (t : Thread) (a : BitVec 5) (x : Vector (BitVec 32) 128) : (t.setV a x).cpdstS = t.cpdstS := rfl
@[simp] theorem Thread.setV_xcause (t : Thread) (a : BitVec 5) (x : Vector (BitVec 32) 128) : (t.setV a x).xcause = t.xcause := rfl
@[simp] theorem Thread.setV_xepc (t : Thread) (a : BitVec 5) (x : Vector (BitVec 32) 128) : (t.setV a x).xepc = t.xepc := rfl
@[simp] theorem Thread.setV_xconvoy (t : Thread) (a : BitVec 5) (x : Vector (BitVec 32) 128) : (t.setV a x).xconvoy = t.xconvoy := rfl
@[simp] theorem Thread.setV_xelem (t : Thread) (a : BitVec 5) (x : Vector (BitVec 32) 128) : (t.setV a x).xelem = t.xelem := rfl
@[simp] theorem Thread.setV_xaddr (t : Thread) (a : BitVec 5) (x : Vector (BitVec 32) 128) : (t.setV a x).xaddr = t.xaddr := rfl
@[simp] theorem Thread.setV_xmask (t : Thread) (a : BitVec 5) (x : Vector (BitVec 32) 128) : (t.setV a x).xmask = t.xmask := rfl
@[simp] theorem Thread.setV_sup (t : Thread) (a : BitVec 5) (x : Vector (BitVec 32) 128) : (t.setV a x).sup = t.sup := rfl
@[simp] theorem Thread.setV_psup (t : Thread) (a : BitVec 5) (x : Vector (BitVec 32) 128) : (t.setV a x).psup = t.psup := rfl
@[simp] theorem Thread.setV_inh (t : Thread) (a : BitVec 5) (x : Vector (BitVec 32) 128) : (t.setV a x).inh = t.inh := rfl
@[simp] theorem Thread.setV_skipBit (t : Thread) (a : BitVec 5) (x : Vector (BitVec 32) 128) : (t.setV a x).skipBit = t.skipBit := rfl
@[simp] theorem Thread.setV_ntf (t : Thread) (a : BitVec 5) (x : Vector (BitVec 32) 128) : (t.setV a x).ntf = t.ntf := rfl
@[simp] theorem Thread.setV_xvec (t : Thread) (a : BitVec 5) (x : Vector (BitVec 32) 128) : (t.setV a x).xvec = t.xvec := rfl
@[simp] theorem Thread.setV_xscratch (t : Thread) (a : BitVec 5) (x : Vector (BitVec 32) 128) : (t.setV a x).xscratch = t.xscratch := rfl
@[simp] theorem Thread.setV_pend (t : Thread) (a : BitVec 5) (x : Vector (BitVec 32) 128) : (t.setV a x).pend = t.pend := rfl
@[simp] theorem Thread.setV_skip (t : Thread) (a : BitVec 5) (x : Vector (BitVec 32) 128) : (t.setV a x).skip = t.skip := rfl
@[simp] theorem Thread.setV_resumed (t : Thread) (a : BitVec 5) (x : Vector (BitVec 32) 128) : (t.setV a x).resumed = t.resumed := rfl
@[simp] theorem Thread.setV_unit (t : Thread) (a : BitVec 5) (x : Vector (BitVec 32) 128) : (t.setV a x).unit = t.unit := rfl
@[simp] theorem Thread.setV_vlive (t : Thread) (a : BitVec 5) (x : Vector (BitVec 32) 128) : (t.setV a x).vlive = t.vlive := rfl
@[simp] theorem Thread.setV_vhigh (t : Thread) (a : BitVec 5) (x : Vector (BitVec 32) 128) : (t.setV a x).vhigh = t.vhigh := rfl
@[simp] theorem Thread.setV_streams (t : Thread) (a : BitVec 5) (x : Vector (BitVec 32) 128) : (t.setV a x).streams = t.streams := rfl
@[simp] theorem Thread.setV_rings (t : Thread) (a : BitVec 5) (x : Vector (BitVec 32) 128) : (t.setV a x).rings = t.rings := rfl
@[simp] theorem Thread.setV_transfers (t : Thread) (a : BitVec 5) (x : Vector (BitVec 32) 128) : (t.setV a x).transfers = t.transfers := rfl
@[simp] theorem Thread.setV_nextId (t : Thread) (a : BitVec 5) (x : Vector (BitVec 32) 128) : (t.setV a x).nextId = t.nextId := rfl
@[simp] theorem Thread.setV_mapCache (t : Thread) (a : BitVec 5) (x : Vector (BitVec 32) 128) : (t.setV a x).mapCache = t.mapCache := rfl
@[simp] theorem Thread.setV_stall (t : Thread) (a : BitVec 5) (x : Vector (BitVec 32) 128) : (t.setV a x).stall = t.stall := rfl
@[simp] theorem Thread.setV_ending (t : Thread) (a : BitVec 5) (x : Vector (BitVec 32) 128) : (t.setV a x).ending = t.ending := rfl
@[simp] theorem Thread.setV_preempt (t : Thread) (a : BitVec 5) (x : Vector (BitVec 32) 128) : (t.setV a x).preempt = t.preempt := rfl
@[simp] theorem Thread.setV_stored (t : Thread) (a : BitVec 5) (x : Vector (BitVec 32) 128) : (t.setV a x).stored = t.stored := rfl
@[simp] theorem Thread.setV_cut (t : Thread) (a : BitVec 5) (x : Vector (BitVec 32) 128) : (t.setV a x).cut = t.cut := rfl
@[simp] theorem Thread.setV_vdone (t : Thread) (a : BitVec 5) (x : Vector (BitVec 32) 128) : (t.setV a x).vdone = t.vdone := rfl
@[simp] theorem Thread.setV_walked (t : Thread) (a : BitVec 5) (x : Vector (BitVec 32) 128) : (t.setV a x).walked = t.walked := rfl
@[simp] theorem Thread.setV_checked (t : Thread) (a : BitVec 5) (x : Vector (BitVec 32) 128) : (t.setV a x).checked = t.checked := rfl
@[simp] theorem Thread.setV_held (t : Thread) (a : BitVec 5) (x : Vector (BitVec 32) 128) : (t.setV a x).held = t.held := rfl
@[simp] theorem Thread.setV_save (t : Thread) (a : BitVec 5) (x : Vector (BitVec 32) 128) : (t.setV a x).save = t.save := rfl
@[simp] theorem Thread.setV_task (t : Thread) (a : BitVec 5) (x : Vector (BitVec 32) 128) : (t.setV a x).task = t.task := rfl

/-! ### `Thread.accrue` -/

@[simp] theorem Thread.accrue_pc (t : Thread) (fl : Word) : (t.accrue fl).pc = t.pc := rfl
@[simp] theorem Thread.accrue_member (t : Thread) (fl : Word) : (t.accrue fl).member = t.member := rfl
@[simp] theorem Thread.accrue_convoyLen (t : Thread) (fl : Word) : (t.accrue fl).convoyLen = t.convoyLen := rfl
@[simp] theorem Thread.accrue_nextPc (t : Thread) (fl : Word) : (t.accrue fl).nextPc = t.nextPc := rfl
@[simp] theorem Thread.accrue_ir (t : Thread) (fl : Word) : (t.accrue fl).ir = t.ir := rfl
@[simp] theorem Thread.accrue_lineBuf (t : Thread) (fl : Word) : (t.accrue fl).lineBuf = t.lineBuf := rfl
@[simp] theorem Thread.accrue_nextLine (t : Thread) (fl : Word) : (t.accrue fl).nextLine = t.nextLine := rfl
@[simp] theorem Thread.accrue_regs (t : Thread) (fl : Word) : (t.accrue fl).regs = t.regs := rfl
@[simp] theorem Thread.accrue_v (t : Thread) (fl : Word) : (t.accrue fl).v = t.v := rfl
@[simp] theorem Thread.accrue_q (t : Thread) (fl : Word) : (t.accrue fl).q = t.q := rfl
@[simp] theorem Thread.accrue_g (t : Thread) (fl : Word) : (t.accrue fl).g = t.g := rfl
@[simp] theorem Thread.accrue_cb (t : Thread) (fl : Word) : (t.accrue fl).cb = t.cb := rfl
@[simp] theorem Thread.accrue_vl (t : Thread) (fl : Word) : (t.accrue fl).vl = t.vl := rfl
@[simp] theorem Thread.accrue_vlr (t : Thread) (fl : Word) : (t.accrue fl).vlr = t.vlr := rfl
@[simp] theorem Thread.accrue_vtype (t : Thread) (fl : Word) : (t.accrue fl).vtype = t.vtype := rfl
@[simp] theorem Thread.accrue_vstart (t : Thread) (fl : Word) : (t.accrue fl).vstart = t.vstart := rfl
@[simp] theorem Thread.accrue_tshape (t : Thread) (fl : Word) : (t.accrue fl).tshape = t.tshape := rfl
@[simp] theorem Thread.accrue_tmapbase (t : Thread) (fl : Word) : (t.accrue fl).tmapbase = t.tmapbase := rfl
@[simp] theorem Thread.accrue_tmaprx (t : Thread) (fl : Word) : (t.accrue fl).tmaprx = t.tmaprx := rfl
@[simp] theorem Thread.accrue_cpsrc (t : Thread) (fl : Word) : (t.accrue fl).cpsrc = t.cpsrc := rfl
@[simp] theorem Thread.accrue_cpdst (t : Thread) (fl : Word) : (t.accrue fl).cpdst = t.cpdst := rfl
@[simp] theorem Thread.accrue_cpndim (t : Thread) (fl : Word) : (t.accrue fl).cpndim = t.cpndim := rfl
@[simp] theorem Thread.accrue_cpring (t : Thread) (fl : Word) : (t.accrue fl).cpring = t.cpring := rfl
@[simp] theorem Thread.accrue_cpext (t : Thread) (fl : Word) : (t.accrue fl).cpext = t.cpext := rfl
@[simp] theorem Thread.accrue_cpsst (t : Thread) (fl : Word) : (t.accrue fl).cpsst = t.cpsst := rfl
@[simp] theorem Thread.accrue_cpdstS (t : Thread) (fl : Word) : (t.accrue fl).cpdstS = t.cpdstS := rfl
@[simp] theorem Thread.accrue_xcause (t : Thread) (fl : Word) : (t.accrue fl).xcause = t.xcause := rfl
@[simp] theorem Thread.accrue_xepc (t : Thread) (fl : Word) : (t.accrue fl).xepc = t.xepc := rfl
@[simp] theorem Thread.accrue_xconvoy (t : Thread) (fl : Word) : (t.accrue fl).xconvoy = t.xconvoy := rfl
@[simp] theorem Thread.accrue_xelem (t : Thread) (fl : Word) : (t.accrue fl).xelem = t.xelem := rfl
@[simp] theorem Thread.accrue_xaddr (t : Thread) (fl : Word) : (t.accrue fl).xaddr = t.xaddr := rfl
@[simp] theorem Thread.accrue_xmask (t : Thread) (fl : Word) : (t.accrue fl).xmask = t.xmask := rfl
@[simp] theorem Thread.accrue_sup (t : Thread) (fl : Word) : (t.accrue fl).sup = t.sup := rfl
@[simp] theorem Thread.accrue_psup (t : Thread) (fl : Word) : (t.accrue fl).psup = t.psup := rfl
@[simp] theorem Thread.accrue_inh (t : Thread) (fl : Word) : (t.accrue fl).inh = t.inh := rfl
@[simp] theorem Thread.accrue_skipBit (t : Thread) (fl : Word) : (t.accrue fl).skipBit = t.skipBit := rfl
@[simp] theorem Thread.accrue_ntf (t : Thread) (fl : Word) : (t.accrue fl).ntf = t.ntf := rfl
@[simp] theorem Thread.accrue_xvec (t : Thread) (fl : Word) : (t.accrue fl).xvec = t.xvec := rfl
@[simp] theorem Thread.accrue_xscratch (t : Thread) (fl : Word) : (t.accrue fl).xscratch = t.xscratch := rfl
@[simp] theorem Thread.accrue_pend (t : Thread) (fl : Word) : (t.accrue fl).pend = t.pend := rfl
@[simp] theorem Thread.accrue_skip (t : Thread) (fl : Word) : (t.accrue fl).skip = t.skip := rfl
@[simp] theorem Thread.accrue_resumed (t : Thread) (fl : Word) : (t.accrue fl).resumed = t.resumed := rfl
@[simp] theorem Thread.accrue_unit (t : Thread) (fl : Word) : (t.accrue fl).unit = t.unit := rfl
@[simp] theorem Thread.accrue_vlive (t : Thread) (fl : Word) : (t.accrue fl).vlive = t.vlive := rfl
@[simp] theorem Thread.accrue_vhigh (t : Thread) (fl : Word) : (t.accrue fl).vhigh = t.vhigh := rfl
@[simp] theorem Thread.accrue_streams (t : Thread) (fl : Word) : (t.accrue fl).streams = t.streams := rfl
@[simp] theorem Thread.accrue_rings (t : Thread) (fl : Word) : (t.accrue fl).rings = t.rings := rfl
@[simp] theorem Thread.accrue_transfers (t : Thread) (fl : Word) : (t.accrue fl).transfers = t.transfers := rfl
@[simp] theorem Thread.accrue_nextId (t : Thread) (fl : Word) : (t.accrue fl).nextId = t.nextId := rfl
@[simp] theorem Thread.accrue_mapCache (t : Thread) (fl : Word) : (t.accrue fl).mapCache = t.mapCache := rfl
@[simp] theorem Thread.accrue_stall (t : Thread) (fl : Word) : (t.accrue fl).stall = t.stall := rfl
@[simp] theorem Thread.accrue_ending (t : Thread) (fl : Word) : (t.accrue fl).ending = t.ending := rfl
@[simp] theorem Thread.accrue_preempt (t : Thread) (fl : Word) : (t.accrue fl).preempt = t.preempt := rfl
@[simp] theorem Thread.accrue_stored (t : Thread) (fl : Word) : (t.accrue fl).stored = t.stored := rfl
@[simp] theorem Thread.accrue_cut (t : Thread) (fl : Word) : (t.accrue fl).cut = t.cut := rfl
@[simp] theorem Thread.accrue_vdone (t : Thread) (fl : Word) : (t.accrue fl).vdone = t.vdone := rfl
@[simp] theorem Thread.accrue_walked (t : Thread) (fl : Word) : (t.accrue fl).walked = t.walked := rfl
@[simp] theorem Thread.accrue_checked (t : Thread) (fl : Word) : (t.accrue fl).checked = t.checked := rfl
@[simp] theorem Thread.accrue_held (t : Thread) (fl : Word) : (t.accrue fl).held = t.held := rfl
@[simp] theorem Thread.accrue_save (t : Thread) (fl : Word) : (t.accrue fl).save = t.save := rfl
@[simp] theorem Thread.accrue_task (t : Thread) (fl : Word) : (t.accrue fl).task = t.task := rfl

/-! ### `Thread.jump` -/

@[simp] theorem Thread.jump_pc (t : Thread) (a : Word) : (t.jump a).pc = t.pc := rfl
@[simp] theorem Thread.jump_member (t : Thread) (a : Word) : (t.jump a).member = t.member := rfl
@[simp] theorem Thread.jump_convoyLen (t : Thread) (a : Word) : (t.jump a).convoyLen = t.convoyLen := rfl
@[simp] theorem Thread.jump_ir (t : Thread) (a : Word) : (t.jump a).ir = t.ir := rfl
@[simp] theorem Thread.jump_nextLine (t : Thread) (a : Word) : (t.jump a).nextLine = t.nextLine := rfl
@[simp] theorem Thread.jump_regs (t : Thread) (a : Word) : (t.jump a).regs = t.regs := rfl
@[simp] theorem Thread.jump_v (t : Thread) (a : Word) : (t.jump a).v = t.v := rfl
@[simp] theorem Thread.jump_q (t : Thread) (a : Word) : (t.jump a).q = t.q := rfl
@[simp] theorem Thread.jump_g (t : Thread) (a : Word) : (t.jump a).g = t.g := rfl
@[simp] theorem Thread.jump_cb (t : Thread) (a : Word) : (t.jump a).cb = t.cb := rfl
@[simp] theorem Thread.jump_fcsr (t : Thread) (a : Word) : (t.jump a).fcsr = t.fcsr := rfl
@[simp] theorem Thread.jump_vl (t : Thread) (a : Word) : (t.jump a).vl = t.vl := rfl
@[simp] theorem Thread.jump_vlr (t : Thread) (a : Word) : (t.jump a).vlr = t.vlr := rfl
@[simp] theorem Thread.jump_vtype (t : Thread) (a : Word) : (t.jump a).vtype = t.vtype := rfl
@[simp] theorem Thread.jump_vstart (t : Thread) (a : Word) : (t.jump a).vstart = t.vstart := rfl
@[simp] theorem Thread.jump_tshape (t : Thread) (a : Word) : (t.jump a).tshape = t.tshape := rfl
@[simp] theorem Thread.jump_tmapbase (t : Thread) (a : Word) : (t.jump a).tmapbase = t.tmapbase := rfl
@[simp] theorem Thread.jump_tmaprx (t : Thread) (a : Word) : (t.jump a).tmaprx = t.tmaprx := rfl
@[simp] theorem Thread.jump_cpsrc (t : Thread) (a : Word) : (t.jump a).cpsrc = t.cpsrc := rfl
@[simp] theorem Thread.jump_cpdst (t : Thread) (a : Word) : (t.jump a).cpdst = t.cpdst := rfl
@[simp] theorem Thread.jump_cpndim (t : Thread) (a : Word) : (t.jump a).cpndim = t.cpndim := rfl
@[simp] theorem Thread.jump_cpring (t : Thread) (a : Word) : (t.jump a).cpring = t.cpring := rfl
@[simp] theorem Thread.jump_cpext (t : Thread) (a : Word) : (t.jump a).cpext = t.cpext := rfl
@[simp] theorem Thread.jump_cpsst (t : Thread) (a : Word) : (t.jump a).cpsst = t.cpsst := rfl
@[simp] theorem Thread.jump_cpdstS (t : Thread) (a : Word) : (t.jump a).cpdstS = t.cpdstS := rfl
@[simp] theorem Thread.jump_xcause (t : Thread) (a : Word) : (t.jump a).xcause = t.xcause := rfl
@[simp] theorem Thread.jump_xepc (t : Thread) (a : Word) : (t.jump a).xepc = t.xepc := rfl
@[simp] theorem Thread.jump_xconvoy (t : Thread) (a : Word) : (t.jump a).xconvoy = t.xconvoy := rfl
@[simp] theorem Thread.jump_xelem (t : Thread) (a : Word) : (t.jump a).xelem = t.xelem := rfl
@[simp] theorem Thread.jump_xaddr (t : Thread) (a : Word) : (t.jump a).xaddr = t.xaddr := rfl
@[simp] theorem Thread.jump_xmask (t : Thread) (a : Word) : (t.jump a).xmask = t.xmask := rfl
@[simp] theorem Thread.jump_sup (t : Thread) (a : Word) : (t.jump a).sup = t.sup := rfl
@[simp] theorem Thread.jump_psup (t : Thread) (a : Word) : (t.jump a).psup = t.psup := rfl
@[simp] theorem Thread.jump_inh (t : Thread) (a : Word) : (t.jump a).inh = t.inh := rfl
@[simp] theorem Thread.jump_skipBit (t : Thread) (a : Word) : (t.jump a).skipBit = t.skipBit := rfl
@[simp] theorem Thread.jump_ntf (t : Thread) (a : Word) : (t.jump a).ntf = t.ntf := rfl
@[simp] theorem Thread.jump_xvec (t : Thread) (a : Word) : (t.jump a).xvec = t.xvec := rfl
@[simp] theorem Thread.jump_xscratch (t : Thread) (a : Word) : (t.jump a).xscratch = t.xscratch := rfl
@[simp] theorem Thread.jump_pend (t : Thread) (a : Word) : (t.jump a).pend = t.pend := rfl
@[simp] theorem Thread.jump_skip (t : Thread) (a : Word) : (t.jump a).skip = t.skip := rfl
@[simp] theorem Thread.jump_resumed (t : Thread) (a : Word) : (t.jump a).resumed = t.resumed := rfl
@[simp] theorem Thread.jump_unit (t : Thread) (a : Word) : (t.jump a).unit = t.unit := rfl
@[simp] theorem Thread.jump_vlive (t : Thread) (a : Word) : (t.jump a).vlive = t.vlive := rfl
@[simp] theorem Thread.jump_vhigh (t : Thread) (a : Word) : (t.jump a).vhigh = t.vhigh := rfl
@[simp] theorem Thread.jump_streams (t : Thread) (a : Word) : (t.jump a).streams = t.streams := rfl
@[simp] theorem Thread.jump_rings (t : Thread) (a : Word) : (t.jump a).rings = t.rings := rfl
@[simp] theorem Thread.jump_transfers (t : Thread) (a : Word) : (t.jump a).transfers = t.transfers := rfl
@[simp] theorem Thread.jump_nextId (t : Thread) (a : Word) : (t.jump a).nextId = t.nextId := rfl
@[simp] theorem Thread.jump_mapCache (t : Thread) (a : Word) : (t.jump a).mapCache = t.mapCache := rfl
@[simp] theorem Thread.jump_stall (t : Thread) (a : Word) : (t.jump a).stall = t.stall := rfl
@[simp] theorem Thread.jump_ending (t : Thread) (a : Word) : (t.jump a).ending = t.ending := rfl
@[simp] theorem Thread.jump_preempt (t : Thread) (a : Word) : (t.jump a).preempt = t.preempt := rfl
@[simp] theorem Thread.jump_stored (t : Thread) (a : Word) : (t.jump a).stored = t.stored := rfl
@[simp] theorem Thread.jump_cut (t : Thread) (a : Word) : (t.jump a).cut = t.cut := rfl
@[simp] theorem Thread.jump_vdone (t : Thread) (a : Word) : (t.jump a).vdone = t.vdone := rfl
@[simp] theorem Thread.jump_walked (t : Thread) (a : Word) : (t.jump a).walked = t.walked := rfl
@[simp] theorem Thread.jump_checked (t : Thread) (a : Word) : (t.jump a).checked = t.checked := rfl
@[simp] theorem Thread.jump_held (t : Thread) (a : Word) : (t.jump a).held = t.held := rfl
@[simp] theorem Thread.jump_save (t : Thread) (a : Word) : (t.jump a).save = t.save := rfl
@[simp] theorem Thread.jump_task (t : Thread) (a : Word) : (t.jump a).task = t.task := rfl

/-! ### Retiring -/

@[simp] theorem Thread.retire_nextPc (t : Thread) : t.retire.nextPc = t.nextPc := by unfold Thread.retire; dsimp only; split <;> rfl
@[simp] theorem Thread.retire_ir (t : Thread) : t.retire.ir = t.ir := by unfold Thread.retire; dsimp only; split <;> rfl
@[simp] theorem Thread.retire_lineBuf (t : Thread) : t.retire.lineBuf = t.lineBuf := by unfold Thread.retire; dsimp only; split <;> rfl
@[simp] theorem Thread.retire_nextLine (t : Thread) : t.retire.nextLine = t.nextLine := by unfold Thread.retire; dsimp only; split <;> rfl
@[simp] theorem Thread.retire_regs (t : Thread) : t.retire.regs = t.regs := by unfold Thread.retire; dsimp only; split <;> rfl
@[simp] theorem Thread.retire_v (t : Thread) : t.retire.v = t.v := by unfold Thread.retire; dsimp only; split <;> rfl
@[simp] theorem Thread.retire_q (t : Thread) : t.retire.q = t.q := by unfold Thread.retire; dsimp only; split <;> rfl
@[simp] theorem Thread.retire_g (t : Thread) : t.retire.g = t.g := by unfold Thread.retire; dsimp only; split <;> rfl
@[simp] theorem Thread.retire_cb (t : Thread) : t.retire.cb = t.cb := by unfold Thread.retire; dsimp only; split <;> rfl
@[simp] theorem Thread.retire_fcsr (t : Thread) : t.retire.fcsr = t.fcsr := by unfold Thread.retire; dsimp only; split <;> rfl
@[simp] theorem Thread.retire_vl (t : Thread) : t.retire.vl = t.vl := by unfold Thread.retire; dsimp only; split <;> rfl
@[simp] theorem Thread.retire_vlr (t : Thread) : t.retire.vlr = t.vlr := by unfold Thread.retire; dsimp only; split <;> rfl
@[simp] theorem Thread.retire_vtype (t : Thread) : t.retire.vtype = t.vtype := by unfold Thread.retire; dsimp only; split <;> rfl
@[simp] theorem Thread.retire_tshape (t : Thread) : t.retire.tshape = t.tshape := by unfold Thread.retire; dsimp only; split <;> rfl
@[simp] theorem Thread.retire_tmapbase (t : Thread) : t.retire.tmapbase = t.tmapbase := by unfold Thread.retire; dsimp only; split <;> rfl
@[simp] theorem Thread.retire_tmaprx (t : Thread) : t.retire.tmaprx = t.tmaprx := by unfold Thread.retire; dsimp only; split <;> rfl
@[simp] theorem Thread.retire_cpsrc (t : Thread) : t.retire.cpsrc = t.cpsrc := by unfold Thread.retire; dsimp only; split <;> rfl
@[simp] theorem Thread.retire_cpdst (t : Thread) : t.retire.cpdst = t.cpdst := by unfold Thread.retire; dsimp only; split <;> rfl
@[simp] theorem Thread.retire_cpndim (t : Thread) : t.retire.cpndim = t.cpndim := by unfold Thread.retire; dsimp only; split <;> rfl
@[simp] theorem Thread.retire_cpring (t : Thread) : t.retire.cpring = t.cpring := by unfold Thread.retire; dsimp only; split <;> rfl
@[simp] theorem Thread.retire_cpext (t : Thread) : t.retire.cpext = t.cpext := by unfold Thread.retire; dsimp only; split <;> rfl
@[simp] theorem Thread.retire_cpsst (t : Thread) : t.retire.cpsst = t.cpsst := by unfold Thread.retire; dsimp only; split <;> rfl
@[simp] theorem Thread.retire_cpdstS (t : Thread) : t.retire.cpdstS = t.cpdstS := by unfold Thread.retire; dsimp only; split <;> rfl
@[simp] theorem Thread.retire_xcause (t : Thread) : t.retire.xcause = t.xcause := by unfold Thread.retire; dsimp only; split <;> rfl
@[simp] theorem Thread.retire_xepc (t : Thread) : t.retire.xepc = t.xepc := by unfold Thread.retire; dsimp only; split <;> rfl
@[simp] theorem Thread.retire_xconvoy (t : Thread) : t.retire.xconvoy = t.xconvoy := by unfold Thread.retire; dsimp only; split <;> rfl
@[simp] theorem Thread.retire_xelem (t : Thread) : t.retire.xelem = t.xelem := by unfold Thread.retire; dsimp only; split <;> rfl
@[simp] theorem Thread.retire_xaddr (t : Thread) : t.retire.xaddr = t.xaddr := by unfold Thread.retire; dsimp only; split <;> rfl
@[simp] theorem Thread.retire_xmask (t : Thread) : t.retire.xmask = t.xmask := by unfold Thread.retire; dsimp only; split <;> rfl
@[simp] theorem Thread.retire_sup (t : Thread) : t.retire.sup = t.sup := by unfold Thread.retire; dsimp only; split <;> rfl
@[simp] theorem Thread.retire_psup (t : Thread) : t.retire.psup = t.psup := by unfold Thread.retire; dsimp only; split <;> rfl
@[simp] theorem Thread.retire_inh (t : Thread) : t.retire.inh = t.inh := by unfold Thread.retire; dsimp only; split <;> rfl
@[simp] theorem Thread.retire_skipBit (t : Thread) : t.retire.skipBit = t.skipBit := by unfold Thread.retire; dsimp only; split <;> rfl
@[simp] theorem Thread.retire_ntf (t : Thread) : t.retire.ntf = t.ntf := by unfold Thread.retire; dsimp only; split <;> rfl
@[simp] theorem Thread.retire_xvec (t : Thread) : t.retire.xvec = t.xvec := by unfold Thread.retire; dsimp only; split <;> rfl
@[simp] theorem Thread.retire_xscratch (t : Thread) : t.retire.xscratch = t.xscratch := by unfold Thread.retire; dsimp only; split <;> rfl
@[simp] theorem Thread.retire_pend (t : Thread) : t.retire.pend = t.pend := by unfold Thread.retire; dsimp only; split <;> rfl
@[simp] theorem Thread.retire_unit (t : Thread) : t.retire.unit = t.unit := by unfold Thread.retire; dsimp only; split <;> rfl
@[simp] theorem Thread.retire_vlive (t : Thread) : t.retire.vlive = t.vlive := by unfold Thread.retire; dsimp only; split <;> rfl
@[simp] theorem Thread.retire_vhigh (t : Thread) : t.retire.vhigh = t.vhigh := by unfold Thread.retire; dsimp only; split <;> rfl
@[simp] theorem Thread.retire_streams (t : Thread) : t.retire.streams = t.streams := by unfold Thread.retire; dsimp only; split <;> rfl
@[simp] theorem Thread.retire_rings (t : Thread) : t.retire.rings = t.rings := by unfold Thread.retire; dsimp only; split <;> rfl
@[simp] theorem Thread.retire_transfers (t : Thread) : t.retire.transfers = t.transfers := by unfold Thread.retire; dsimp only; split <;> rfl
@[simp] theorem Thread.retire_nextId (t : Thread) : t.retire.nextId = t.nextId := by unfold Thread.retire; dsimp only; split <;> rfl
@[simp] theorem Thread.retire_mapCache (t : Thread) : t.retire.mapCache = t.mapCache := by unfold Thread.retire; dsimp only; split <;> rfl
@[simp] theorem Thread.retire_ending (t : Thread) : t.retire.ending = t.ending := by unfold Thread.retire; dsimp only; split <;> rfl
@[simp] theorem Thread.retire_preempt (t : Thread) : t.retire.preempt = t.preempt := by unfold Thread.retire; dsimp only; split <;> rfl
@[simp] theorem Thread.retire_stored (t : Thread) : t.retire.stored = t.stored := by unfold Thread.retire; dsimp only; split <;> rfl
@[simp] theorem Thread.retire_cut (t : Thread) : t.retire.cut = t.cut := by unfold Thread.retire; dsimp only; split <;> rfl
@[simp] theorem Thread.retire_save (t : Thread) : t.retire.save = t.save := by unfold Thread.retire; dsimp only; split <;> rfl
@[simp] theorem Thread.retire_task (t : Thread) : t.retire.task = t.task := by unfold Thread.retire; dsimp only; split <;> rfl
@[simp] theorem Thread.retire_vstart (t : Thread) : t.retire.vstart = if t.inh then t.vstart else 0 := by
  unfold Thread.retire; dsimp only; split <;> rfl
@[simp] theorem Thread.retire_skip (t : Thread) : t.retire.skip = none := by
  unfold Thread.retire; dsimp only; split <;> rfl
@[simp] theorem Thread.retire_stall (t : Thread) : t.retire.stall = .none := by
  unfold Thread.retire; dsimp only; split <;> rfl
@[simp] theorem Thread.retire_held (t : Thread) : t.retire.held = [] := by
  unfold Thread.retire; dsimp only; split <;> rfl
@[simp] theorem Thread.retire_walked (t : Thread) : t.retire.walked = [] := by
  unfold Thread.retire; dsimp only; split <;> rfl
@[simp] theorem Thread.retire_vdone (t : Thread) : t.retire.vdone = 0 := by
  unfold Thread.retire; dsimp only; split <;> rfl
@[simp] theorem Thread.retire_checked (t : Thread) : t.retire.checked = none := by
  unfold Thread.retire; dsimp only; split <;> rfl
@[simp] theorem Thread.retire_resumed (t : Thread) : t.retire.resumed = false := by
  unfold Thread.retire; dsimp only; split <;> rfl
@[simp] theorem Thread.retire_reg (t : Thread) (a : SReg) : t.retire.reg a = t.reg a := by simp [Thread.reg]
@[simp] theorem Thread.retire_qreg (t : Thread) (a : QReg) : t.retire.qreg a = t.qreg a := by simp [Thread.qreg]
@[simp] theorem Thread.retire_greg (t : Thread) (a : GReg) : t.retire.greg a = t.greg a := by simp [Thread.greg]
@[simp] theorem Thread.retire_vreg (t : Thread) (a : BitVec 5) : t.retire.vreg a = t.vreg a := by simp [Thread.vreg]

/-! ## Updates of the whole state -/

/-! ### `State.modT` -/

@[simp] theorem State.modT_inbox (s : State) (f : Thread → Thread) : (s.modT f).inbox = s.inbox := rfl
@[simp] theorem State.modT_turn (s : State) (f : Thread → Thread) : (s.modT f).turn = s.turn := rfl
@[simp] theorem State.modT_steps (s : State) (f : Thread → Thread) : (s.modT f).steps = s.steps := rfl
@[simp] theorem State.modT_free (s : State) (f : Thread → Thread) : (s.modT f).free = s.free := rfl
@[simp] theorem State.modT_powered (s : State) (f : Thread → Thread) : (s.modT f).powered = s.powered := rfl
@[simp] theorem State.modT_recovery (s : State) (f : Thread → Thread) : (s.modT f).recovery = s.recovery := rfl
@[simp] theorem State.modT_now (s : State) (f : Thread → Thread) : (s.modT f).now = s.now := rfl
@[simp] theorem State.modT_tick (s : State) (f : Thread → Thread) : (s.modT f).tick = s.tick := rfl
@[simp] theorem State.modT_tickRem (s : State) (f : Thread → Thread) : (s.modT f).tickRem = s.tickRem := rfl
@[simp] theorem State.modT_mem (s : State) (f : Thread → Thread) : (s.modT f).mem = s.mem := rfl
@[simp] theorem State.modT_poison (s : State) (f : Thread → Thread) : (s.modT f).poison = s.poison := rfl
@[simp] theorem State.modT_fenced (s : State) (f : Thread → Thread) : (s.modT f).fenced = s.fenced := rfl
@[simp] theorem State.modT_latent (s : State) (f : Thread → Thread) : (s.modT f).latent = s.latent := rfl
@[simp] theorem State.modT_entryErrors (s : State) (f : Thread → Thread) : (s.modT f).entryErrors = s.entryErrors := rfl
@[simp] theorem State.modT_fenceNews (s : State) (f : Thread → Thread) : (s.modT f).fenceNews = s.fenceNews := rfl
@[simp] theorem State.modT_cur (s : State) (f : Thread → Thread) : (s.modT f).cur = s.cur := rfl
@[simp] theorem State.modT_parked (s : State) (f : Thread → Thread) : (s.modT f).parked = s.parked := rfl
@[simp] theorem State.modT_cores (s : State) (f : Thread → Thread) : (s.modT f).cores = s.cores := rfl
@[simp] theorem State.modT_dies (s : State) (f : Thread → Thread) : (s.modT f).dies = s.dies := rfl
@[simp] theorem State.modT_level (s : State) (f : Thread → Thread) : (s.modT f).level = s.level := rfl
@[simp] theorem State.modT_calm (s : State) (f : Thread → Thread) : (s.modT f).calm = s.calm := rfl
@[simp] theorem State.modT_power (s : State) (f : Thread → Thread) : (s.modT f).power = s.power := rfl
@[simp] theorem State.modT_current (s : State) (f : Thread → Thread) : (s.modT f).current = s.current := rfl
@[simp] theorem State.modT_decay (s : State) (f : Thread → Thread) : (s.modT f).decay = s.decay := rfl
@[simp] theorem State.modT_parts (s : State) (f : Thread → Thread) : (s.modT f).parts = s.parts := rfl
@[simp] theorem State.modT_asids (s : State) (f : Thread → Thread) : (s.modT f).asids = s.asids := rfl
@[simp] theorem State.modT_launches (s : State) (f : Thread → Thread) : (s.modT f).launches = s.launches := rfl
@[simp] theorem State.modT_nextLaunch (s : State) (f : Thread → Thread) : (s.modT f).nextLaunch = s.nextLaunch := rfl
@[simp] theorem State.modT_queues (s : State) (f : Thread → Thread) : (s.modT f).queues = s.queues := rfl
@[simp] theorem State.modT_fences (s : State) (f : Thread → Thread) : (s.modT f).fences = s.fences := rfl
@[simp] theorem State.modT_nextFence (s : State) (f : Thread → Thread) : (s.modT f).nextFence = s.nextFence := rfl
@[simp] theorem State.modT_pending (s : State) (f : Thread → Thread) : (s.modT f).pending = s.pending := rfl
@[simp] theorem State.modT_nextUid (s : State) (f : Thread → Thread) : (s.modT f).nextUid = s.nextUid := rfl
@[simp] theorem State.modT_sessions (s : State) (f : Thread → Thread) : (s.modT f).sessions = s.sessions := rfl
@[simp] theorem State.modT_nextSession (s : State) (f : Thread → Thread) : (s.modT f).nextSession = s.nextSession := rfl
@[simp] theorem State.modT_discarded (s : State) (f : Thread → Thread) : (s.modT f).discarded = s.discarded := rfl
@[simp] theorem State.modT_nextKey (s : State) (f : Thread → Thread) : (s.modT f).nextKey = s.nextKey := rfl
@[simp] theorem State.modT_qps (s : State) (f : Thread → Thread) : (s.modT f).qps = s.qps := rfl
@[simp] theorem State.modT_nextQpn (s : State) (f : Thread → Thread) : (s.modT f).nextQpn = s.nextQpn := rfl
@[simp] theorem State.modT_out (s : State) (f : Thread → Thread) : (s.modT f).out = s.out := rfl
@[simp] theorem State.modT_pkgId (s : State) (f : Thread → Thread) : (s.modT f).pkgId = s.pkgId := rfl
@[simp] theorem State.modT_ports (s : State) (f : Thread → Thread) : (s.modT f).ports = s.ports := rfl
@[simp] theorem State.modT_portMap (s : State) (f : Thread → Thread) : (s.modT f).portMap = s.portMap := rfl
@[simp] theorem State.modT_tx (s : State) (f : Thread → Thread) : (s.modT f).tx = s.tx := rfl
@[simp] theorem State.modT_rx (s : State) (f : Thread → Thread) : (s.modT f).rx = s.rx := rfl
@[simp] theorem State.modT_rxRegs (s : State) (f : Thread → Thread) : (s.modT f).rxRegs = s.rxRegs := rfl
@[simp] theorem State.modT_rxHeld (s : State) (f : Thread → Thread) : (s.modT f).rxHeld = s.rxHeld := rfl
@[simp] theorem State.modT_nextSend (s : State) (f : Thread → Thread) : (s.modT f).nextSend = s.nextSend := rfl
@[simp] theorem State.modT_leases (s : State) (f : Thread → Thread) : (s.modT f).leases = s.leases := rfl
@[simp] theorem State.modT_lendable (s : State) (f : Thread → Thread) : (s.modT f).lendable = s.lendable := rfl
@[simp] theorem State.modT_asks (s : State) (f : Thread → Thread) : (s.modT f).asks = s.asks := rfl
@[simp] theorem State.modT_nextTag (s : State) (f : Thread → Thread) : (s.modT f).nextTag = s.nextTag := rfl
@[simp] theorem State.modT_agent (s : State) (f : Thread → Thread) : (s.modT f).agent = s.agent := rfl
@[simp] theorem State.modT_linkWait (s : State) (f : Thread → Thread) : (s.modT f).linkWait = s.linkWait := rfl
@[simp] theorem State.modT_nextJob (s : State) (f : Thread → Thread) : (s.modT f).nextJob = s.nextJob := rfl
@[simp] theorem State.modT_linkDiscarded (s : State) (f : Thread → Thread) : (s.modT f).linkDiscarded = s.linkDiscarded := rfl
@[simp] theorem State.modT_tileEarly (s : State) (f : Thread → Thread) : (s.modT f).tileEarly = s.tileEarly := rfl
@[simp] theorem State.modT_fabricErrors (s : State) (f : Thread → Thread) : (s.modT f).fabricErrors = s.fabricErrors := rfl
@[simp] theorem State.modT_leaseBad (s : State) (f : Thread → Thread) : (s.modT f).leaseBad = s.leaseBad := rfl
@[simp] theorem State.modT_writebackErrors (s : State) (f : Thread → Thread) : (s.modT f).writebackErrors = s.writebackErrors := rfl
@[simp] theorem State.modT_ts (s : State) (f : Thread → Thread) : (s.modT f).ts = s.ts := rfl
@[simp] theorem State.modT_synced (s : State) (f : Thread → Thread) : (s.modT f).synced = s.synced := rfl
@[simp] theorem State.modT_gathers (s : State) (f : Thread → Thread) : (s.modT f).gathers = s.gathers := rfl
@[simp] theorem State.modT_nextGather (s : State) (f : Thread → Thread) : (s.modT f).nextGather = s.nextGather := rfl
@[simp] theorem State.modT_meas (s : State) (f : Thread → Thread) : (s.modT f).meas = s.meas := rfl
@[simp] theorem State.modT_flashA (s : State) (f : Thread → Thread) : (s.modT f).flashA = s.flashA := rfl
@[simp] theorem State.modT_flashB (s : State) (f : Thread → Thread) : (s.modT f).flashB = s.flashB := rfl
@[simp] theorem State.modT_activeB (s : State) (f : Thread → Thread) : (s.modT f).activeB = s.activeB := rfl
@[simp] theorem State.modT_staged (s : State) (f : Thread → Thread) : (s.modT f).staged = s.staged := rfl
@[simp] theorem State.modT_fwLoads (s : State) (f : Thread → Thread) : (s.modT f).fwLoads = s.fwLoads := rfl
@[simp] theorem State.modT_decodeOver (s : State) (f : Thread → Thread) : (s.modT f).decodeOver = s.decodeOver := rfl
@[simp] theorem State.modT_gen (s : State) (f : Thread → Thread) : (s.modT f).gen = s.gen := rfl
@[simp] theorem State.modT_typeDescs (s : State) (f : Thread → Thread) : (s.modT f).typeDescs = s.typeDescs := rfl
@[simp] theorem State.modT_remap (s : State) (f : Thread → Thread) : (s.modT f).remap = s.remap := rfl
@[simp] theorem State.modT_remapCopy (s : State) (f : Thread → Thread) : (s.modT f).remapCopy = s.remapCopy := rfl
@[simp] theorem State.modT_bankTags (s : State) (f : Thread → Thread) : (s.modT f).bankTags = s.bankTags := rfl
@[simp] theorem State.modT_remapFlash (s : State) (f : Thread → Thread) : (s.modT f).remapFlash = s.remapFlash := rfl
@[simp] theorem State.modT_remapOld (s : State) (f : Thread → Thread) : (s.modT f).remapOld = s.remapOld := rfl
@[simp] theorem State.modT_retiring (s : State) (f : Thread → Thread) : (s.modT f).retiring = s.retiring := rfl
@[simp] theorem State.modT_bists (s : State) (f : Thread → Thread) : (s.modT f).bists = s.bists := rfl
@[simp] theorem State.modT_training (s : State) (f : Thread → Thread) : (s.modT f).training = s.training := rfl
@[simp] theorem State.modT_rates (s : State) (f : Thread → Thread) : (s.modT f).rates = s.rates := rfl
@[simp] theorem State.modT_mcLog (s : State) (f : Thread → Thread) : (s.modT f).mcLog = s.mcLog := rfl
@[simp] theorem State.modT_life (s : State) (f : Thread → Thread) : (s.modT f).life = s.life := rfl
@[simp] theorem State.modT_lifeFlash (s : State) (f : Thread → Thread) : (s.modT f).lifeFlash = s.lifeFlash := rfl
@[simp] theorem State.modT_telemetry (s : State) (f : Thread → Thread) : (s.modT f).telemetry = s.telemetry := rfl
@[simp] theorem State.modT_syncedSeen (s : State) (f : Thread → Thread) : (s.modT f).syncedSeen = s.syncedSeen := rfl
@[simp] theorem State.modT_levelSeen (s : State) (f : Thread → Thread) : (s.modT f).levelSeen = s.levelSeen := rfl

@[simp] theorem State.modT_t (s : State) (f : Thread → Thread) : (s.modT f).t = f s.t := rfl

/-! ### `State.retire` -/

@[simp] theorem State.retire_inbox (s : State) : (s.retire).inbox = s.inbox := rfl
@[simp] theorem State.retire_steps (s : State) : (s.retire).steps = s.steps := rfl
@[simp] theorem State.retire_free (s : State) : (s.retire).free = s.free := rfl
@[simp] theorem State.retire_powered (s : State) : (s.retire).powered = s.powered := rfl
@[simp] theorem State.retire_recovery (s : State) : (s.retire).recovery = s.recovery := rfl
@[simp] theorem State.retire_now (s : State) : (s.retire).now = s.now := rfl
@[simp] theorem State.retire_tick (s : State) : (s.retire).tick = s.tick := rfl
@[simp] theorem State.retire_tickRem (s : State) : (s.retire).tickRem = s.tickRem := rfl
@[simp] theorem State.retire_mem (s : State) : (s.retire).mem = s.mem := rfl
@[simp] theorem State.retire_poison (s : State) : (s.retire).poison = s.poison := rfl
@[simp] theorem State.retire_fenced (s : State) : (s.retire).fenced = s.fenced := rfl
@[simp] theorem State.retire_latent (s : State) : (s.retire).latent = s.latent := rfl
@[simp] theorem State.retire_entryErrors (s : State) : (s.retire).entryErrors = s.entryErrors := rfl
@[simp] theorem State.retire_fenceNews (s : State) : (s.retire).fenceNews = s.fenceNews := rfl
@[simp] theorem State.retire_cur (s : State) : (s.retire).cur = s.cur := rfl
@[simp] theorem State.retire_parked (s : State) : (s.retire).parked = s.parked := rfl
@[simp] theorem State.retire_cores (s : State) : (s.retire).cores = s.cores := rfl
@[simp] theorem State.retire_dies (s : State) : (s.retire).dies = s.dies := rfl
@[simp] theorem State.retire_level (s : State) : (s.retire).level = s.level := rfl
@[simp] theorem State.retire_calm (s : State) : (s.retire).calm = s.calm := rfl
@[simp] theorem State.retire_power (s : State) : (s.retire).power = s.power := rfl
@[simp] theorem State.retire_current (s : State) : (s.retire).current = s.current := rfl
@[simp] theorem State.retire_decay (s : State) : (s.retire).decay = s.decay := rfl
@[simp] theorem State.retire_parts (s : State) : (s.retire).parts = s.parts := rfl
@[simp] theorem State.retire_asids (s : State) : (s.retire).asids = s.asids := rfl
@[simp] theorem State.retire_launches (s : State) : (s.retire).launches = s.launches := rfl
@[simp] theorem State.retire_nextLaunch (s : State) : (s.retire).nextLaunch = s.nextLaunch := rfl
@[simp] theorem State.retire_queues (s : State) : (s.retire).queues = s.queues := rfl
@[simp] theorem State.retire_fences (s : State) : (s.retire).fences = s.fences := rfl
@[simp] theorem State.retire_nextFence (s : State) : (s.retire).nextFence = s.nextFence := rfl
@[simp] theorem State.retire_pending (s : State) : (s.retire).pending = s.pending := rfl
@[simp] theorem State.retire_nextUid (s : State) : (s.retire).nextUid = s.nextUid := rfl
@[simp] theorem State.retire_sessions (s : State) : (s.retire).sessions = s.sessions := rfl
@[simp] theorem State.retire_nextSession (s : State) : (s.retire).nextSession = s.nextSession := rfl
@[simp] theorem State.retire_discarded (s : State) : (s.retire).discarded = s.discarded := rfl
@[simp] theorem State.retire_nextKey (s : State) : (s.retire).nextKey = s.nextKey := rfl
@[simp] theorem State.retire_qps (s : State) : (s.retire).qps = s.qps := rfl
@[simp] theorem State.retire_nextQpn (s : State) : (s.retire).nextQpn = s.nextQpn := rfl
@[simp] theorem State.retire_out (s : State) : (s.retire).out = s.out := rfl
@[simp] theorem State.retire_pkgId (s : State) : (s.retire).pkgId = s.pkgId := rfl
@[simp] theorem State.retire_ports (s : State) : (s.retire).ports = s.ports := rfl
@[simp] theorem State.retire_portMap (s : State) : (s.retire).portMap = s.portMap := rfl
@[simp] theorem State.retire_tx (s : State) : (s.retire).tx = s.tx := rfl
@[simp] theorem State.retire_rx (s : State) : (s.retire).rx = s.rx := rfl
@[simp] theorem State.retire_rxRegs (s : State) : (s.retire).rxRegs = s.rxRegs := rfl
@[simp] theorem State.retire_rxHeld (s : State) : (s.retire).rxHeld = s.rxHeld := rfl
@[simp] theorem State.retire_nextSend (s : State) : (s.retire).nextSend = s.nextSend := rfl
@[simp] theorem State.retire_leases (s : State) : (s.retire).leases = s.leases := rfl
@[simp] theorem State.retire_lendable (s : State) : (s.retire).lendable = s.lendable := rfl
@[simp] theorem State.retire_nextTag (s : State) : (s.retire).nextTag = s.nextTag := rfl
@[simp] theorem State.retire_agent (s : State) : (s.retire).agent = s.agent := rfl
@[simp] theorem State.retire_linkWait (s : State) : (s.retire).linkWait = s.linkWait := rfl
@[simp] theorem State.retire_nextJob (s : State) : (s.retire).nextJob = s.nextJob := rfl
@[simp] theorem State.retire_linkDiscarded (s : State) : (s.retire).linkDiscarded = s.linkDiscarded := rfl
@[simp] theorem State.retire_tileEarly (s : State) : (s.retire).tileEarly = s.tileEarly := rfl
@[simp] theorem State.retire_fabricErrors (s : State) : (s.retire).fabricErrors = s.fabricErrors := rfl
@[simp] theorem State.retire_leaseBad (s : State) : (s.retire).leaseBad = s.leaseBad := rfl
@[simp] theorem State.retire_writebackErrors (s : State) : (s.retire).writebackErrors = s.writebackErrors := rfl
@[simp] theorem State.retire_ts (s : State) : (s.retire).ts = s.ts := rfl
@[simp] theorem State.retire_synced (s : State) : (s.retire).synced = s.synced := rfl
@[simp] theorem State.retire_gathers (s : State) : (s.retire).gathers = s.gathers := rfl
@[simp] theorem State.retire_nextGather (s : State) : (s.retire).nextGather = s.nextGather := rfl
@[simp] theorem State.retire_meas (s : State) : (s.retire).meas = s.meas := rfl
@[simp] theorem State.retire_flashA (s : State) : (s.retire).flashA = s.flashA := rfl
@[simp] theorem State.retire_flashB (s : State) : (s.retire).flashB = s.flashB := rfl
@[simp] theorem State.retire_activeB (s : State) : (s.retire).activeB = s.activeB := rfl
@[simp] theorem State.retire_staged (s : State) : (s.retire).staged = s.staged := rfl
@[simp] theorem State.retire_fwLoads (s : State) : (s.retire).fwLoads = s.fwLoads := rfl
@[simp] theorem State.retire_decodeOver (s : State) : (s.retire).decodeOver = s.decodeOver := rfl
@[simp] theorem State.retire_gen (s : State) : (s.retire).gen = s.gen := rfl
@[simp] theorem State.retire_typeDescs (s : State) : (s.retire).typeDescs = s.typeDescs := rfl
@[simp] theorem State.retire_remap (s : State) : (s.retire).remap = s.remap := rfl
@[simp] theorem State.retire_remapCopy (s : State) : (s.retire).remapCopy = s.remapCopy := rfl
@[simp] theorem State.retire_bankTags (s : State) : (s.retire).bankTags = s.bankTags := rfl
@[simp] theorem State.retire_remapFlash (s : State) : (s.retire).remapFlash = s.remapFlash := rfl
@[simp] theorem State.retire_remapOld (s : State) : (s.retire).remapOld = s.remapOld := rfl
@[simp] theorem State.retire_retiring (s : State) : (s.retire).retiring = s.retiring := rfl
@[simp] theorem State.retire_bists (s : State) : (s.retire).bists = s.bists := rfl
@[simp] theorem State.retire_training (s : State) : (s.retire).training = s.training := rfl
@[simp] theorem State.retire_rates (s : State) : (s.retire).rates = s.rates := rfl
@[simp] theorem State.retire_mcLog (s : State) : (s.retire).mcLog = s.mcLog := rfl
@[simp] theorem State.retire_life (s : State) : (s.retire).life = s.life := rfl
@[simp] theorem State.retire_lifeFlash (s : State) : (s.retire).lifeFlash = s.lifeFlash := rfl
@[simp] theorem State.retire_telemetry (s : State) : (s.retire).telemetry = s.telemetry := rfl
@[simp] theorem State.retire_syncedSeen (s : State) : (s.retire).syncedSeen = s.syncedSeen := rfl
@[simp] theorem State.retire_levelSeen (s : State) : (s.retire).levelSeen = s.levelSeen := rfl

@[simp] theorem State.retire_t (s : State) : s.retire.t = s.t.retire := rfl

/-! ### `State.setCore` -/

@[simp] theorem State.setCore_inbox (s : State) (c : Nat) (k : Core) : (s.setCore c k).inbox = s.inbox := rfl
@[simp] theorem State.setCore_turn (s : State) (c : Nat) (k : Core) : (s.setCore c k).turn = s.turn := rfl
@[simp] theorem State.setCore_steps (s : State) (c : Nat) (k : Core) : (s.setCore c k).steps = s.steps := rfl
@[simp] theorem State.setCore_free (s : State) (c : Nat) (k : Core) : (s.setCore c k).free = s.free := rfl
@[simp] theorem State.setCore_powered (s : State) (c : Nat) (k : Core) : (s.setCore c k).powered = s.powered := rfl
@[simp] theorem State.setCore_recovery (s : State) (c : Nat) (k : Core) : (s.setCore c k).recovery = s.recovery := rfl
@[simp] theorem State.setCore_now (s : State) (c : Nat) (k : Core) : (s.setCore c k).now = s.now := rfl
@[simp] theorem State.setCore_tick (s : State) (c : Nat) (k : Core) : (s.setCore c k).tick = s.tick := rfl
@[simp] theorem State.setCore_tickRem (s : State) (c : Nat) (k : Core) : (s.setCore c k).tickRem = s.tickRem := rfl
@[simp] theorem State.setCore_mem (s : State) (c : Nat) (k : Core) : (s.setCore c k).mem = s.mem := rfl
@[simp] theorem State.setCore_poison (s : State) (c : Nat) (k : Core) : (s.setCore c k).poison = s.poison := rfl
@[simp] theorem State.setCore_fenced (s : State) (c : Nat) (k : Core) : (s.setCore c k).fenced = s.fenced := rfl
@[simp] theorem State.setCore_latent (s : State) (c : Nat) (k : Core) : (s.setCore c k).latent = s.latent := rfl
@[simp] theorem State.setCore_entryErrors (s : State) (c : Nat) (k : Core) : (s.setCore c k).entryErrors = s.entryErrors := rfl
@[simp] theorem State.setCore_fenceNews (s : State) (c : Nat) (k : Core) : (s.setCore c k).fenceNews = s.fenceNews := rfl
@[simp] theorem State.setCore_cur (s : State) (c : Nat) (k : Core) : (s.setCore c k).cur = s.cur := rfl
@[simp] theorem State.setCore_t (s : State) (c : Nat) (k : Core) : (s.setCore c k).t = s.t := rfl
@[simp] theorem State.setCore_parked (s : State) (c : Nat) (k : Core) : (s.setCore c k).parked = s.parked := rfl
@[simp] theorem State.setCore_dies (s : State) (c : Nat) (k : Core) : (s.setCore c k).dies = s.dies := rfl
@[simp] theorem State.setCore_level (s : State) (c : Nat) (k : Core) : (s.setCore c k).level = s.level := rfl
@[simp] theorem State.setCore_calm (s : State) (c : Nat) (k : Core) : (s.setCore c k).calm = s.calm := rfl
@[simp] theorem State.setCore_power (s : State) (c : Nat) (k : Core) : (s.setCore c k).power = s.power := rfl
@[simp] theorem State.setCore_current (s : State) (c : Nat) (k : Core) : (s.setCore c k).current = s.current := rfl
@[simp] theorem State.setCore_decay (s : State) (c : Nat) (k : Core) : (s.setCore c k).decay = s.decay := rfl
@[simp] theorem State.setCore_parts (s : State) (c : Nat) (k : Core) : (s.setCore c k).parts = s.parts := rfl
@[simp] theorem State.setCore_asids (s : State) (c : Nat) (k : Core) : (s.setCore c k).asids = s.asids := rfl
@[simp] theorem State.setCore_launches (s : State) (c : Nat) (k : Core) : (s.setCore c k).launches = s.launches := rfl
@[simp] theorem State.setCore_nextLaunch (s : State) (c : Nat) (k : Core) : (s.setCore c k).nextLaunch = s.nextLaunch := rfl
@[simp] theorem State.setCore_queues (s : State) (c : Nat) (k : Core) : (s.setCore c k).queues = s.queues := rfl
@[simp] theorem State.setCore_fences (s : State) (c : Nat) (k : Core) : (s.setCore c k).fences = s.fences := rfl
@[simp] theorem State.setCore_nextFence (s : State) (c : Nat) (k : Core) : (s.setCore c k).nextFence = s.nextFence := rfl
@[simp] theorem State.setCore_pending (s : State) (c : Nat) (k : Core) : (s.setCore c k).pending = s.pending := rfl
@[simp] theorem State.setCore_nextUid (s : State) (c : Nat) (k : Core) : (s.setCore c k).nextUid = s.nextUid := rfl
@[simp] theorem State.setCore_sessions (s : State) (c : Nat) (k : Core) : (s.setCore c k).sessions = s.sessions := rfl
@[simp] theorem State.setCore_nextSession (s : State) (c : Nat) (k : Core) : (s.setCore c k).nextSession = s.nextSession := rfl
@[simp] theorem State.setCore_discarded (s : State) (c : Nat) (k : Core) : (s.setCore c k).discarded = s.discarded := rfl
@[simp] theorem State.setCore_nextKey (s : State) (c : Nat) (k : Core) : (s.setCore c k).nextKey = s.nextKey := rfl
@[simp] theorem State.setCore_qps (s : State) (c : Nat) (k : Core) : (s.setCore c k).qps = s.qps := rfl
@[simp] theorem State.setCore_nextQpn (s : State) (c : Nat) (k : Core) : (s.setCore c k).nextQpn = s.nextQpn := rfl
@[simp] theorem State.setCore_out (s : State) (c : Nat) (k : Core) : (s.setCore c k).out = s.out := rfl
@[simp] theorem State.setCore_pkgId (s : State) (c : Nat) (k : Core) : (s.setCore c k).pkgId = s.pkgId := rfl
@[simp] theorem State.setCore_ports (s : State) (c : Nat) (k : Core) : (s.setCore c k).ports = s.ports := rfl
@[simp] theorem State.setCore_portMap (s : State) (c : Nat) (k : Core) : (s.setCore c k).portMap = s.portMap := rfl
@[simp] theorem State.setCore_tx (s : State) (c : Nat) (k : Core) : (s.setCore c k).tx = s.tx := rfl
@[simp] theorem State.setCore_rx (s : State) (c : Nat) (k : Core) : (s.setCore c k).rx = s.rx := rfl
@[simp] theorem State.setCore_rxRegs (s : State) (c : Nat) (k : Core) : (s.setCore c k).rxRegs = s.rxRegs := rfl
@[simp] theorem State.setCore_rxHeld (s : State) (c : Nat) (k : Core) : (s.setCore c k).rxHeld = s.rxHeld := rfl
@[simp] theorem State.setCore_nextSend (s : State) (c : Nat) (k : Core) : (s.setCore c k).nextSend = s.nextSend := rfl
@[simp] theorem State.setCore_leases (s : State) (c : Nat) (k : Core) : (s.setCore c k).leases = s.leases := rfl
@[simp] theorem State.setCore_lendable (s : State) (c : Nat) (k : Core) : (s.setCore c k).lendable = s.lendable := rfl
@[simp] theorem State.setCore_asks (s : State) (c : Nat) (k : Core) : (s.setCore c k).asks = s.asks := rfl
@[simp] theorem State.setCore_nextTag (s : State) (c : Nat) (k : Core) : (s.setCore c k).nextTag = s.nextTag := rfl
@[simp] theorem State.setCore_agent (s : State) (c : Nat) (k : Core) : (s.setCore c k).agent = s.agent := rfl
@[simp] theorem State.setCore_linkWait (s : State) (c : Nat) (k : Core) : (s.setCore c k).linkWait = s.linkWait := rfl
@[simp] theorem State.setCore_nextJob (s : State) (c : Nat) (k : Core) : (s.setCore c k).nextJob = s.nextJob := rfl
@[simp] theorem State.setCore_linkDiscarded (s : State) (c : Nat) (k : Core) : (s.setCore c k).linkDiscarded = s.linkDiscarded := rfl
@[simp] theorem State.setCore_tileEarly (s : State) (c : Nat) (k : Core) : (s.setCore c k).tileEarly = s.tileEarly := rfl
@[simp] theorem State.setCore_fabricErrors (s : State) (c : Nat) (k : Core) : (s.setCore c k).fabricErrors = s.fabricErrors := rfl
@[simp] theorem State.setCore_leaseBad (s : State) (c : Nat) (k : Core) : (s.setCore c k).leaseBad = s.leaseBad := rfl
@[simp] theorem State.setCore_writebackErrors (s : State) (c : Nat) (k : Core) : (s.setCore c k).writebackErrors = s.writebackErrors := rfl
@[simp] theorem State.setCore_ts (s : State) (c : Nat) (k : Core) : (s.setCore c k).ts = s.ts := rfl
@[simp] theorem State.setCore_synced (s : State) (c : Nat) (k : Core) : (s.setCore c k).synced = s.synced := rfl
@[simp] theorem State.setCore_gathers (s : State) (c : Nat) (k : Core) : (s.setCore c k).gathers = s.gathers := rfl
@[simp] theorem State.setCore_nextGather (s : State) (c : Nat) (k : Core) : (s.setCore c k).nextGather = s.nextGather := rfl
@[simp] theorem State.setCore_meas (s : State) (c : Nat) (k : Core) : (s.setCore c k).meas = s.meas := rfl
@[simp] theorem State.setCore_flashA (s : State) (c : Nat) (k : Core) : (s.setCore c k).flashA = s.flashA := rfl
@[simp] theorem State.setCore_flashB (s : State) (c : Nat) (k : Core) : (s.setCore c k).flashB = s.flashB := rfl
@[simp] theorem State.setCore_activeB (s : State) (c : Nat) (k : Core) : (s.setCore c k).activeB = s.activeB := rfl
@[simp] theorem State.setCore_staged (s : State) (c : Nat) (k : Core) : (s.setCore c k).staged = s.staged := rfl
@[simp] theorem State.setCore_fwLoads (s : State) (c : Nat) (k : Core) : (s.setCore c k).fwLoads = s.fwLoads := rfl
@[simp] theorem State.setCore_decodeOver (s : State) (c : Nat) (k : Core) : (s.setCore c k).decodeOver = s.decodeOver := rfl
@[simp] theorem State.setCore_gen (s : State) (c : Nat) (k : Core) : (s.setCore c k).gen = s.gen := rfl
@[simp] theorem State.setCore_typeDescs (s : State) (c : Nat) (k : Core) : (s.setCore c k).typeDescs = s.typeDescs := rfl
@[simp] theorem State.setCore_remap (s : State) (c : Nat) (k : Core) : (s.setCore c k).remap = s.remap := rfl
@[simp] theorem State.setCore_remapCopy (s : State) (c : Nat) (k : Core) : (s.setCore c k).remapCopy = s.remapCopy := rfl
@[simp] theorem State.setCore_bankTags (s : State) (c : Nat) (k : Core) : (s.setCore c k).bankTags = s.bankTags := rfl
@[simp] theorem State.setCore_remapFlash (s : State) (c : Nat) (k : Core) : (s.setCore c k).remapFlash = s.remapFlash := rfl
@[simp] theorem State.setCore_remapOld (s : State) (c : Nat) (k : Core) : (s.setCore c k).remapOld = s.remapOld := rfl
@[simp] theorem State.setCore_retiring (s : State) (c : Nat) (k : Core) : (s.setCore c k).retiring = s.retiring := rfl
@[simp] theorem State.setCore_bists (s : State) (c : Nat) (k : Core) : (s.setCore c k).bists = s.bists := rfl
@[simp] theorem State.setCore_training (s : State) (c : Nat) (k : Core) : (s.setCore c k).training = s.training := rfl
@[simp] theorem State.setCore_rates (s : State) (c : Nat) (k : Core) : (s.setCore c k).rates = s.rates := rfl
@[simp] theorem State.setCore_mcLog (s : State) (c : Nat) (k : Core) : (s.setCore c k).mcLog = s.mcLog := rfl
@[simp] theorem State.setCore_life (s : State) (c : Nat) (k : Core) : (s.setCore c k).life = s.life := rfl
@[simp] theorem State.setCore_lifeFlash (s : State) (c : Nat) (k : Core) : (s.setCore c k).lifeFlash = s.lifeFlash := rfl
@[simp] theorem State.setCore_telemetry (s : State) (c : Nat) (k : Core) : (s.setCore c k).telemetry = s.telemetry := rfl
@[simp] theorem State.setCore_syncedSeen (s : State) (c : Nat) (k : Core) : (s.setCore c k).syncedSeen = s.syncedSeen := rfl
@[simp] theorem State.setCore_levelSeen (s : State) (c : Nat) (k : Core) : (s.setCore c k).levelSeen = s.levelSeen := rfl

/-! ### `State.modCore` -/

@[simp] theorem State.modCore_inbox (s : State) (c : Nat) (f : Core → Core) : (s.modCore c f).inbox = s.inbox := rfl
@[simp] theorem State.modCore_turn (s : State) (c : Nat) (f : Core → Core) : (s.modCore c f).turn = s.turn := rfl
@[simp] theorem State.modCore_steps (s : State) (c : Nat) (f : Core → Core) : (s.modCore c f).steps = s.steps := rfl
@[simp] theorem State.modCore_free (s : State) (c : Nat) (f : Core → Core) : (s.modCore c f).free = s.free := rfl
@[simp] theorem State.modCore_powered (s : State) (c : Nat) (f : Core → Core) : (s.modCore c f).powered = s.powered := rfl
@[simp] theorem State.modCore_recovery (s : State) (c : Nat) (f : Core → Core) : (s.modCore c f).recovery = s.recovery := rfl
@[simp] theorem State.modCore_now (s : State) (c : Nat) (f : Core → Core) : (s.modCore c f).now = s.now := rfl
@[simp] theorem State.modCore_tick (s : State) (c : Nat) (f : Core → Core) : (s.modCore c f).tick = s.tick := rfl
@[simp] theorem State.modCore_tickRem (s : State) (c : Nat) (f : Core → Core) : (s.modCore c f).tickRem = s.tickRem := rfl
@[simp] theorem State.modCore_mem (s : State) (c : Nat) (f : Core → Core) : (s.modCore c f).mem = s.mem := rfl
@[simp] theorem State.modCore_poison (s : State) (c : Nat) (f : Core → Core) : (s.modCore c f).poison = s.poison := rfl
@[simp] theorem State.modCore_fenced (s : State) (c : Nat) (f : Core → Core) : (s.modCore c f).fenced = s.fenced := rfl
@[simp] theorem State.modCore_latent (s : State) (c : Nat) (f : Core → Core) : (s.modCore c f).latent = s.latent := rfl
@[simp] theorem State.modCore_entryErrors (s : State) (c : Nat) (f : Core → Core) : (s.modCore c f).entryErrors = s.entryErrors := rfl
@[simp] theorem State.modCore_fenceNews (s : State) (c : Nat) (f : Core → Core) : (s.modCore c f).fenceNews = s.fenceNews := rfl
@[simp] theorem State.modCore_cur (s : State) (c : Nat) (f : Core → Core) : (s.modCore c f).cur = s.cur := rfl
@[simp] theorem State.modCore_t (s : State) (c : Nat) (f : Core → Core) : (s.modCore c f).t = s.t := rfl
@[simp] theorem State.modCore_parked (s : State) (c : Nat) (f : Core → Core) : (s.modCore c f).parked = s.parked := rfl
@[simp] theorem State.modCore_dies (s : State) (c : Nat) (f : Core → Core) : (s.modCore c f).dies = s.dies := rfl
@[simp] theorem State.modCore_level (s : State) (c : Nat) (f : Core → Core) : (s.modCore c f).level = s.level := rfl
@[simp] theorem State.modCore_calm (s : State) (c : Nat) (f : Core → Core) : (s.modCore c f).calm = s.calm := rfl
@[simp] theorem State.modCore_power (s : State) (c : Nat) (f : Core → Core) : (s.modCore c f).power = s.power := rfl
@[simp] theorem State.modCore_current (s : State) (c : Nat) (f : Core → Core) : (s.modCore c f).current = s.current := rfl
@[simp] theorem State.modCore_decay (s : State) (c : Nat) (f : Core → Core) : (s.modCore c f).decay = s.decay := rfl
@[simp] theorem State.modCore_parts (s : State) (c : Nat) (f : Core → Core) : (s.modCore c f).parts = s.parts := rfl
@[simp] theorem State.modCore_asids (s : State) (c : Nat) (f : Core → Core) : (s.modCore c f).asids = s.asids := rfl
@[simp] theorem State.modCore_launches (s : State) (c : Nat) (f : Core → Core) : (s.modCore c f).launches = s.launches := rfl
@[simp] theorem State.modCore_nextLaunch (s : State) (c : Nat) (f : Core → Core) : (s.modCore c f).nextLaunch = s.nextLaunch := rfl
@[simp] theorem State.modCore_queues (s : State) (c : Nat) (f : Core → Core) : (s.modCore c f).queues = s.queues := rfl
@[simp] theorem State.modCore_fences (s : State) (c : Nat) (f : Core → Core) : (s.modCore c f).fences = s.fences := rfl
@[simp] theorem State.modCore_nextFence (s : State) (c : Nat) (f : Core → Core) : (s.modCore c f).nextFence = s.nextFence := rfl
@[simp] theorem State.modCore_pending (s : State) (c : Nat) (f : Core → Core) : (s.modCore c f).pending = s.pending := rfl
@[simp] theorem State.modCore_nextUid (s : State) (c : Nat) (f : Core → Core) : (s.modCore c f).nextUid = s.nextUid := rfl
@[simp] theorem State.modCore_sessions (s : State) (c : Nat) (f : Core → Core) : (s.modCore c f).sessions = s.sessions := rfl
@[simp] theorem State.modCore_nextSession (s : State) (c : Nat) (f : Core → Core) : (s.modCore c f).nextSession = s.nextSession := rfl
@[simp] theorem State.modCore_discarded (s : State) (c : Nat) (f : Core → Core) : (s.modCore c f).discarded = s.discarded := rfl
@[simp] theorem State.modCore_nextKey (s : State) (c : Nat) (f : Core → Core) : (s.modCore c f).nextKey = s.nextKey := rfl
@[simp] theorem State.modCore_qps (s : State) (c : Nat) (f : Core → Core) : (s.modCore c f).qps = s.qps := rfl
@[simp] theorem State.modCore_nextQpn (s : State) (c : Nat) (f : Core → Core) : (s.modCore c f).nextQpn = s.nextQpn := rfl
@[simp] theorem State.modCore_out (s : State) (c : Nat) (f : Core → Core) : (s.modCore c f).out = s.out := rfl
@[simp] theorem State.modCore_pkgId (s : State) (c : Nat) (f : Core → Core) : (s.modCore c f).pkgId = s.pkgId := rfl
@[simp] theorem State.modCore_ports (s : State) (c : Nat) (f : Core → Core) : (s.modCore c f).ports = s.ports := rfl
@[simp] theorem State.modCore_portMap (s : State) (c : Nat) (f : Core → Core) : (s.modCore c f).portMap = s.portMap := rfl
@[simp] theorem State.modCore_tx (s : State) (c : Nat) (f : Core → Core) : (s.modCore c f).tx = s.tx := rfl
@[simp] theorem State.modCore_rx (s : State) (c : Nat) (f : Core → Core) : (s.modCore c f).rx = s.rx := rfl
@[simp] theorem State.modCore_rxRegs (s : State) (c : Nat) (f : Core → Core) : (s.modCore c f).rxRegs = s.rxRegs := rfl
@[simp] theorem State.modCore_rxHeld (s : State) (c : Nat) (f : Core → Core) : (s.modCore c f).rxHeld = s.rxHeld := rfl
@[simp] theorem State.modCore_nextSend (s : State) (c : Nat) (f : Core → Core) : (s.modCore c f).nextSend = s.nextSend := rfl
@[simp] theorem State.modCore_leases (s : State) (c : Nat) (f : Core → Core) : (s.modCore c f).leases = s.leases := rfl
@[simp] theorem State.modCore_lendable (s : State) (c : Nat) (f : Core → Core) : (s.modCore c f).lendable = s.lendable := rfl
@[simp] theorem State.modCore_asks (s : State) (c : Nat) (f : Core → Core) : (s.modCore c f).asks = s.asks := rfl
@[simp] theorem State.modCore_nextTag (s : State) (c : Nat) (f : Core → Core) : (s.modCore c f).nextTag = s.nextTag := rfl
@[simp] theorem State.modCore_agent (s : State) (c : Nat) (f : Core → Core) : (s.modCore c f).agent = s.agent := rfl
@[simp] theorem State.modCore_linkWait (s : State) (c : Nat) (f : Core → Core) : (s.modCore c f).linkWait = s.linkWait := rfl
@[simp] theorem State.modCore_nextJob (s : State) (c : Nat) (f : Core → Core) : (s.modCore c f).nextJob = s.nextJob := rfl
@[simp] theorem State.modCore_linkDiscarded (s : State) (c : Nat) (f : Core → Core) : (s.modCore c f).linkDiscarded = s.linkDiscarded := rfl
@[simp] theorem State.modCore_tileEarly (s : State) (c : Nat) (f : Core → Core) : (s.modCore c f).tileEarly = s.tileEarly := rfl
@[simp] theorem State.modCore_fabricErrors (s : State) (c : Nat) (f : Core → Core) : (s.modCore c f).fabricErrors = s.fabricErrors := rfl
@[simp] theorem State.modCore_leaseBad (s : State) (c : Nat) (f : Core → Core) : (s.modCore c f).leaseBad = s.leaseBad := rfl
@[simp] theorem State.modCore_writebackErrors (s : State) (c : Nat) (f : Core → Core) : (s.modCore c f).writebackErrors = s.writebackErrors := rfl
@[simp] theorem State.modCore_ts (s : State) (c : Nat) (f : Core → Core) : (s.modCore c f).ts = s.ts := rfl
@[simp] theorem State.modCore_synced (s : State) (c : Nat) (f : Core → Core) : (s.modCore c f).synced = s.synced := rfl
@[simp] theorem State.modCore_gathers (s : State) (c : Nat) (f : Core → Core) : (s.modCore c f).gathers = s.gathers := rfl
@[simp] theorem State.modCore_nextGather (s : State) (c : Nat) (f : Core → Core) : (s.modCore c f).nextGather = s.nextGather := rfl
@[simp] theorem State.modCore_meas (s : State) (c : Nat) (f : Core → Core) : (s.modCore c f).meas = s.meas := rfl
@[simp] theorem State.modCore_flashA (s : State) (c : Nat) (f : Core → Core) : (s.modCore c f).flashA = s.flashA := rfl
@[simp] theorem State.modCore_flashB (s : State) (c : Nat) (f : Core → Core) : (s.modCore c f).flashB = s.flashB := rfl
@[simp] theorem State.modCore_activeB (s : State) (c : Nat) (f : Core → Core) : (s.modCore c f).activeB = s.activeB := rfl
@[simp] theorem State.modCore_staged (s : State) (c : Nat) (f : Core → Core) : (s.modCore c f).staged = s.staged := rfl
@[simp] theorem State.modCore_fwLoads (s : State) (c : Nat) (f : Core → Core) : (s.modCore c f).fwLoads = s.fwLoads := rfl
@[simp] theorem State.modCore_decodeOver (s : State) (c : Nat) (f : Core → Core) : (s.modCore c f).decodeOver = s.decodeOver := rfl
@[simp] theorem State.modCore_gen (s : State) (c : Nat) (f : Core → Core) : (s.modCore c f).gen = s.gen := rfl
@[simp] theorem State.modCore_typeDescs (s : State) (c : Nat) (f : Core → Core) : (s.modCore c f).typeDescs = s.typeDescs := rfl
@[simp] theorem State.modCore_remap (s : State) (c : Nat) (f : Core → Core) : (s.modCore c f).remap = s.remap := rfl
@[simp] theorem State.modCore_remapCopy (s : State) (c : Nat) (f : Core → Core) : (s.modCore c f).remapCopy = s.remapCopy := rfl
@[simp] theorem State.modCore_bankTags (s : State) (c : Nat) (f : Core → Core) : (s.modCore c f).bankTags = s.bankTags := rfl
@[simp] theorem State.modCore_remapFlash (s : State) (c : Nat) (f : Core → Core) : (s.modCore c f).remapFlash = s.remapFlash := rfl
@[simp] theorem State.modCore_remapOld (s : State) (c : Nat) (f : Core → Core) : (s.modCore c f).remapOld = s.remapOld := rfl
@[simp] theorem State.modCore_retiring (s : State) (c : Nat) (f : Core → Core) : (s.modCore c f).retiring = s.retiring := rfl
@[simp] theorem State.modCore_bists (s : State) (c : Nat) (f : Core → Core) : (s.modCore c f).bists = s.bists := rfl
@[simp] theorem State.modCore_training (s : State) (c : Nat) (f : Core → Core) : (s.modCore c f).training = s.training := rfl
@[simp] theorem State.modCore_rates (s : State) (c : Nat) (f : Core → Core) : (s.modCore c f).rates = s.rates := rfl
@[simp] theorem State.modCore_mcLog (s : State) (c : Nat) (f : Core → Core) : (s.modCore c f).mcLog = s.mcLog := rfl
@[simp] theorem State.modCore_life (s : State) (c : Nat) (f : Core → Core) : (s.modCore c f).life = s.life := rfl
@[simp] theorem State.modCore_lifeFlash (s : State) (c : Nat) (f : Core → Core) : (s.modCore c f).lifeFlash = s.lifeFlash := rfl
@[simp] theorem State.modCore_telemetry (s : State) (c : Nat) (f : Core → Core) : (s.modCore c f).telemetry = s.telemetry := rfl
@[simp] theorem State.modCore_syncedSeen (s : State) (c : Nat) (f : Core → Core) : (s.modCore c f).syncedSeen = s.syncedSeen := rfl
@[simp] theorem State.modCore_levelSeen (s : State) (c : Nat) (f : Core → Core) : (s.modCore c f).levelSeen = s.levelSeen := rfl

/-! ### `State.modDie` -/

@[simp] theorem State.modDie_inbox (s : State) (d : Nat) (f : Die → Die) : (s.modDie d f).inbox = s.inbox := rfl
@[simp] theorem State.modDie_turn (s : State) (d : Nat) (f : Die → Die) : (s.modDie d f).turn = s.turn := rfl
@[simp] theorem State.modDie_steps (s : State) (d : Nat) (f : Die → Die) : (s.modDie d f).steps = s.steps := rfl
@[simp] theorem State.modDie_free (s : State) (d : Nat) (f : Die → Die) : (s.modDie d f).free = s.free := rfl
@[simp] theorem State.modDie_powered (s : State) (d : Nat) (f : Die → Die) : (s.modDie d f).powered = s.powered := rfl
@[simp] theorem State.modDie_recovery (s : State) (d : Nat) (f : Die → Die) : (s.modDie d f).recovery = s.recovery := rfl
@[simp] theorem State.modDie_now (s : State) (d : Nat) (f : Die → Die) : (s.modDie d f).now = s.now := rfl
@[simp] theorem State.modDie_tick (s : State) (d : Nat) (f : Die → Die) : (s.modDie d f).tick = s.tick := rfl
@[simp] theorem State.modDie_tickRem (s : State) (d : Nat) (f : Die → Die) : (s.modDie d f).tickRem = s.tickRem := rfl
@[simp] theorem State.modDie_mem (s : State) (d : Nat) (f : Die → Die) : (s.modDie d f).mem = s.mem := rfl
@[simp] theorem State.modDie_poison (s : State) (d : Nat) (f : Die → Die) : (s.modDie d f).poison = s.poison := rfl
@[simp] theorem State.modDie_fenced (s : State) (d : Nat) (f : Die → Die) : (s.modDie d f).fenced = s.fenced := rfl
@[simp] theorem State.modDie_latent (s : State) (d : Nat) (f : Die → Die) : (s.modDie d f).latent = s.latent := rfl
@[simp] theorem State.modDie_entryErrors (s : State) (d : Nat) (f : Die → Die) : (s.modDie d f).entryErrors = s.entryErrors := rfl
@[simp] theorem State.modDie_fenceNews (s : State) (d : Nat) (f : Die → Die) : (s.modDie d f).fenceNews = s.fenceNews := rfl
@[simp] theorem State.modDie_cur (s : State) (d : Nat) (f : Die → Die) : (s.modDie d f).cur = s.cur := rfl
@[simp] theorem State.modDie_t (s : State) (d : Nat) (f : Die → Die) : (s.modDie d f).t = s.t := rfl
@[simp] theorem State.modDie_parked (s : State) (d : Nat) (f : Die → Die) : (s.modDie d f).parked = s.parked := rfl
@[simp] theorem State.modDie_cores (s : State) (d : Nat) (f : Die → Die) : (s.modDie d f).cores = s.cores := rfl
@[simp] theorem State.modDie_level (s : State) (d : Nat) (f : Die → Die) : (s.modDie d f).level = s.level := rfl
@[simp] theorem State.modDie_calm (s : State) (d : Nat) (f : Die → Die) : (s.modDie d f).calm = s.calm := rfl
@[simp] theorem State.modDie_power (s : State) (d : Nat) (f : Die → Die) : (s.modDie d f).power = s.power := rfl
@[simp] theorem State.modDie_current (s : State) (d : Nat) (f : Die → Die) : (s.modDie d f).current = s.current := rfl
@[simp] theorem State.modDie_decay (s : State) (d : Nat) (f : Die → Die) : (s.modDie d f).decay = s.decay := rfl
@[simp] theorem State.modDie_parts (s : State) (d : Nat) (f : Die → Die) : (s.modDie d f).parts = s.parts := rfl
@[simp] theorem State.modDie_asids (s : State) (d : Nat) (f : Die → Die) : (s.modDie d f).asids = s.asids := rfl
@[simp] theorem State.modDie_launches (s : State) (d : Nat) (f : Die → Die) : (s.modDie d f).launches = s.launches := rfl
@[simp] theorem State.modDie_nextLaunch (s : State) (d : Nat) (f : Die → Die) : (s.modDie d f).nextLaunch = s.nextLaunch := rfl
@[simp] theorem State.modDie_queues (s : State) (d : Nat) (f : Die → Die) : (s.modDie d f).queues = s.queues := rfl
@[simp] theorem State.modDie_fences (s : State) (d : Nat) (f : Die → Die) : (s.modDie d f).fences = s.fences := rfl
@[simp] theorem State.modDie_nextFence (s : State) (d : Nat) (f : Die → Die) : (s.modDie d f).nextFence = s.nextFence := rfl
@[simp] theorem State.modDie_pending (s : State) (d : Nat) (f : Die → Die) : (s.modDie d f).pending = s.pending := rfl
@[simp] theorem State.modDie_nextUid (s : State) (d : Nat) (f : Die → Die) : (s.modDie d f).nextUid = s.nextUid := rfl
@[simp] theorem State.modDie_sessions (s : State) (d : Nat) (f : Die → Die) : (s.modDie d f).sessions = s.sessions := rfl
@[simp] theorem State.modDie_nextSession (s : State) (d : Nat) (f : Die → Die) : (s.modDie d f).nextSession = s.nextSession := rfl
@[simp] theorem State.modDie_discarded (s : State) (d : Nat) (f : Die → Die) : (s.modDie d f).discarded = s.discarded := rfl
@[simp] theorem State.modDie_nextKey (s : State) (d : Nat) (f : Die → Die) : (s.modDie d f).nextKey = s.nextKey := rfl
@[simp] theorem State.modDie_qps (s : State) (d : Nat) (f : Die → Die) : (s.modDie d f).qps = s.qps := rfl
@[simp] theorem State.modDie_nextQpn (s : State) (d : Nat) (f : Die → Die) : (s.modDie d f).nextQpn = s.nextQpn := rfl
@[simp] theorem State.modDie_out (s : State) (d : Nat) (f : Die → Die) : (s.modDie d f).out = s.out := rfl
@[simp] theorem State.modDie_pkgId (s : State) (d : Nat) (f : Die → Die) : (s.modDie d f).pkgId = s.pkgId := rfl
@[simp] theorem State.modDie_ports (s : State) (d : Nat) (f : Die → Die) : (s.modDie d f).ports = s.ports := rfl
@[simp] theorem State.modDie_portMap (s : State) (d : Nat) (f : Die → Die) : (s.modDie d f).portMap = s.portMap := rfl
@[simp] theorem State.modDie_tx (s : State) (d : Nat) (f : Die → Die) : (s.modDie d f).tx = s.tx := rfl
@[simp] theorem State.modDie_rx (s : State) (d : Nat) (f : Die → Die) : (s.modDie d f).rx = s.rx := rfl
@[simp] theorem State.modDie_rxRegs (s : State) (d : Nat) (f : Die → Die) : (s.modDie d f).rxRegs = s.rxRegs := rfl
@[simp] theorem State.modDie_rxHeld (s : State) (d : Nat) (f : Die → Die) : (s.modDie d f).rxHeld = s.rxHeld := rfl
@[simp] theorem State.modDie_nextSend (s : State) (d : Nat) (f : Die → Die) : (s.modDie d f).nextSend = s.nextSend := rfl
@[simp] theorem State.modDie_leases (s : State) (d : Nat) (f : Die → Die) : (s.modDie d f).leases = s.leases := rfl
@[simp] theorem State.modDie_lendable (s : State) (d : Nat) (f : Die → Die) : (s.modDie d f).lendable = s.lendable := rfl
@[simp] theorem State.modDie_asks (s : State) (d : Nat) (f : Die → Die) : (s.modDie d f).asks = s.asks := rfl
@[simp] theorem State.modDie_nextTag (s : State) (d : Nat) (f : Die → Die) : (s.modDie d f).nextTag = s.nextTag := rfl
@[simp] theorem State.modDie_agent (s : State) (d : Nat) (f : Die → Die) : (s.modDie d f).agent = s.agent := rfl
@[simp] theorem State.modDie_linkWait (s : State) (d : Nat) (f : Die → Die) : (s.modDie d f).linkWait = s.linkWait := rfl
@[simp] theorem State.modDie_nextJob (s : State) (d : Nat) (f : Die → Die) : (s.modDie d f).nextJob = s.nextJob := rfl
@[simp] theorem State.modDie_linkDiscarded (s : State) (d : Nat) (f : Die → Die) : (s.modDie d f).linkDiscarded = s.linkDiscarded := rfl
@[simp] theorem State.modDie_tileEarly (s : State) (d : Nat) (f : Die → Die) : (s.modDie d f).tileEarly = s.tileEarly := rfl
@[simp] theorem State.modDie_fabricErrors (s : State) (d : Nat) (f : Die → Die) : (s.modDie d f).fabricErrors = s.fabricErrors := rfl
@[simp] theorem State.modDie_leaseBad (s : State) (d : Nat) (f : Die → Die) : (s.modDie d f).leaseBad = s.leaseBad := rfl
@[simp] theorem State.modDie_writebackErrors (s : State) (d : Nat) (f : Die → Die) : (s.modDie d f).writebackErrors = s.writebackErrors := rfl
@[simp] theorem State.modDie_ts (s : State) (d : Nat) (f : Die → Die) : (s.modDie d f).ts = s.ts := rfl
@[simp] theorem State.modDie_synced (s : State) (d : Nat) (f : Die → Die) : (s.modDie d f).synced = s.synced := rfl
@[simp] theorem State.modDie_gathers (s : State) (d : Nat) (f : Die → Die) : (s.modDie d f).gathers = s.gathers := rfl
@[simp] theorem State.modDie_nextGather (s : State) (d : Nat) (f : Die → Die) : (s.modDie d f).nextGather = s.nextGather := rfl
@[simp] theorem State.modDie_meas (s : State) (d : Nat) (f : Die → Die) : (s.modDie d f).meas = s.meas := rfl
@[simp] theorem State.modDie_flashA (s : State) (d : Nat) (f : Die → Die) : (s.modDie d f).flashA = s.flashA := rfl
@[simp] theorem State.modDie_flashB (s : State) (d : Nat) (f : Die → Die) : (s.modDie d f).flashB = s.flashB := rfl
@[simp] theorem State.modDie_activeB (s : State) (d : Nat) (f : Die → Die) : (s.modDie d f).activeB = s.activeB := rfl
@[simp] theorem State.modDie_staged (s : State) (d : Nat) (f : Die → Die) : (s.modDie d f).staged = s.staged := rfl
@[simp] theorem State.modDie_fwLoads (s : State) (d : Nat) (f : Die → Die) : (s.modDie d f).fwLoads = s.fwLoads := rfl
@[simp] theorem State.modDie_decodeOver (s : State) (d : Nat) (f : Die → Die) : (s.modDie d f).decodeOver = s.decodeOver := rfl
@[simp] theorem State.modDie_gen (s : State) (d : Nat) (f : Die → Die) : (s.modDie d f).gen = s.gen := rfl
@[simp] theorem State.modDie_typeDescs (s : State) (d : Nat) (f : Die → Die) : (s.modDie d f).typeDescs = s.typeDescs := rfl
@[simp] theorem State.modDie_remap (s : State) (d : Nat) (f : Die → Die) : (s.modDie d f).remap = s.remap := rfl
@[simp] theorem State.modDie_remapCopy (s : State) (d : Nat) (f : Die → Die) : (s.modDie d f).remapCopy = s.remapCopy := rfl
@[simp] theorem State.modDie_bankTags (s : State) (d : Nat) (f : Die → Die) : (s.modDie d f).bankTags = s.bankTags := rfl
@[simp] theorem State.modDie_remapFlash (s : State) (d : Nat) (f : Die → Die) : (s.modDie d f).remapFlash = s.remapFlash := rfl
@[simp] theorem State.modDie_remapOld (s : State) (d : Nat) (f : Die → Die) : (s.modDie d f).remapOld = s.remapOld := rfl
@[simp] theorem State.modDie_retiring (s : State) (d : Nat) (f : Die → Die) : (s.modDie d f).retiring = s.retiring := rfl
@[simp] theorem State.modDie_bists (s : State) (d : Nat) (f : Die → Die) : (s.modDie d f).bists = s.bists := rfl
@[simp] theorem State.modDie_training (s : State) (d : Nat) (f : Die → Die) : (s.modDie d f).training = s.training := rfl
@[simp] theorem State.modDie_rates (s : State) (d : Nat) (f : Die → Die) : (s.modDie d f).rates = s.rates := rfl
@[simp] theorem State.modDie_mcLog (s : State) (d : Nat) (f : Die → Die) : (s.modDie d f).mcLog = s.mcLog := rfl
@[simp] theorem State.modDie_life (s : State) (d : Nat) (f : Die → Die) : (s.modDie d f).life = s.life := rfl
@[simp] theorem State.modDie_lifeFlash (s : State) (d : Nat) (f : Die → Die) : (s.modDie d f).lifeFlash = s.lifeFlash := rfl
@[simp] theorem State.modDie_telemetry (s : State) (d : Nat) (f : Die → Die) : (s.modDie d f).telemetry = s.telemetry := rfl
@[simp] theorem State.modDie_syncedSeen (s : State) (d : Nat) (f : Die → Die) : (s.modDie d f).syncedSeen = s.syncedSeen := rfl
@[simp] theorem State.modDie_levelSeen (s : State) (d : Nat) (f : Die → Die) : (s.modDie d f).levelSeen = s.levelSeen := rfl

/-! ### `State.modPart` -/

@[simp] theorem State.modPart_inbox (s : State) (p : Nat) (f : Partition → Partition) : (s.modPart p f).inbox = s.inbox := rfl
@[simp] theorem State.modPart_turn (s : State) (p : Nat) (f : Partition → Partition) : (s.modPart p f).turn = s.turn := rfl
@[simp] theorem State.modPart_steps (s : State) (p : Nat) (f : Partition → Partition) : (s.modPart p f).steps = s.steps := rfl
@[simp] theorem State.modPart_free (s : State) (p : Nat) (f : Partition → Partition) : (s.modPart p f).free = s.free := rfl
@[simp] theorem State.modPart_powered (s : State) (p : Nat) (f : Partition → Partition) : (s.modPart p f).powered = s.powered := rfl
@[simp] theorem State.modPart_recovery (s : State) (p : Nat) (f : Partition → Partition) : (s.modPart p f).recovery = s.recovery := rfl
@[simp] theorem State.modPart_now (s : State) (p : Nat) (f : Partition → Partition) : (s.modPart p f).now = s.now := rfl
@[simp] theorem State.modPart_tick (s : State) (p : Nat) (f : Partition → Partition) : (s.modPart p f).tick = s.tick := rfl
@[simp] theorem State.modPart_tickRem (s : State) (p : Nat) (f : Partition → Partition) : (s.modPart p f).tickRem = s.tickRem := rfl
@[simp] theorem State.modPart_mem (s : State) (p : Nat) (f : Partition → Partition) : (s.modPart p f).mem = s.mem := rfl
@[simp] theorem State.modPart_poison (s : State) (p : Nat) (f : Partition → Partition) : (s.modPart p f).poison = s.poison := rfl
@[simp] theorem State.modPart_fenced (s : State) (p : Nat) (f : Partition → Partition) : (s.modPart p f).fenced = s.fenced := rfl
@[simp] theorem State.modPart_latent (s : State) (p : Nat) (f : Partition → Partition) : (s.modPart p f).latent = s.latent := rfl
@[simp] theorem State.modPart_entryErrors (s : State) (p : Nat) (f : Partition → Partition) : (s.modPart p f).entryErrors = s.entryErrors := rfl
@[simp] theorem State.modPart_fenceNews (s : State) (p : Nat) (f : Partition → Partition) : (s.modPart p f).fenceNews = s.fenceNews := rfl
@[simp] theorem State.modPart_cur (s : State) (p : Nat) (f : Partition → Partition) : (s.modPart p f).cur = s.cur := rfl
@[simp] theorem State.modPart_t (s : State) (p : Nat) (f : Partition → Partition) : (s.modPart p f).t = s.t := rfl
@[simp] theorem State.modPart_parked (s : State) (p : Nat) (f : Partition → Partition) : (s.modPart p f).parked = s.parked := rfl
@[simp] theorem State.modPart_cores (s : State) (p : Nat) (f : Partition → Partition) : (s.modPart p f).cores = s.cores := rfl
@[simp] theorem State.modPart_dies (s : State) (p : Nat) (f : Partition → Partition) : (s.modPart p f).dies = s.dies := rfl
@[simp] theorem State.modPart_level (s : State) (p : Nat) (f : Partition → Partition) : (s.modPart p f).level = s.level := rfl
@[simp] theorem State.modPart_calm (s : State) (p : Nat) (f : Partition → Partition) : (s.modPart p f).calm = s.calm := rfl
@[simp] theorem State.modPart_power (s : State) (p : Nat) (f : Partition → Partition) : (s.modPart p f).power = s.power := rfl
@[simp] theorem State.modPart_current (s : State) (p : Nat) (f : Partition → Partition) : (s.modPart p f).current = s.current := rfl
@[simp] theorem State.modPart_decay (s : State) (p : Nat) (f : Partition → Partition) : (s.modPart p f).decay = s.decay := rfl
@[simp] theorem State.modPart_asids (s : State) (p : Nat) (f : Partition → Partition) : (s.modPart p f).asids = s.asids := rfl
@[simp] theorem State.modPart_launches (s : State) (p : Nat) (f : Partition → Partition) : (s.modPart p f).launches = s.launches := rfl
@[simp] theorem State.modPart_nextLaunch (s : State) (p : Nat) (f : Partition → Partition) : (s.modPart p f).nextLaunch = s.nextLaunch := rfl
@[simp] theorem State.modPart_queues (s : State) (p : Nat) (f : Partition → Partition) : (s.modPart p f).queues = s.queues := rfl
@[simp] theorem State.modPart_fences (s : State) (p : Nat) (f : Partition → Partition) : (s.modPart p f).fences = s.fences := rfl
@[simp] theorem State.modPart_nextFence (s : State) (p : Nat) (f : Partition → Partition) : (s.modPart p f).nextFence = s.nextFence := rfl
@[simp] theorem State.modPart_pending (s : State) (p : Nat) (f : Partition → Partition) : (s.modPart p f).pending = s.pending := rfl
@[simp] theorem State.modPart_nextUid (s : State) (p : Nat) (f : Partition → Partition) : (s.modPart p f).nextUid = s.nextUid := rfl
@[simp] theorem State.modPart_sessions (s : State) (p : Nat) (f : Partition → Partition) : (s.modPart p f).sessions = s.sessions := rfl
@[simp] theorem State.modPart_nextSession (s : State) (p : Nat) (f : Partition → Partition) : (s.modPart p f).nextSession = s.nextSession := rfl
@[simp] theorem State.modPart_discarded (s : State) (p : Nat) (f : Partition → Partition) : (s.modPart p f).discarded = s.discarded := rfl
@[simp] theorem State.modPart_nextKey (s : State) (p : Nat) (f : Partition → Partition) : (s.modPart p f).nextKey = s.nextKey := rfl
@[simp] theorem State.modPart_qps (s : State) (p : Nat) (f : Partition → Partition) : (s.modPart p f).qps = s.qps := rfl
@[simp] theorem State.modPart_nextQpn (s : State) (p : Nat) (f : Partition → Partition) : (s.modPart p f).nextQpn = s.nextQpn := rfl
@[simp] theorem State.modPart_out (s : State) (p : Nat) (f : Partition → Partition) : (s.modPart p f).out = s.out := rfl
@[simp] theorem State.modPart_pkgId (s : State) (p : Nat) (f : Partition → Partition) : (s.modPart p f).pkgId = s.pkgId := rfl
@[simp] theorem State.modPart_ports (s : State) (p : Nat) (f : Partition → Partition) : (s.modPart p f).ports = s.ports := rfl
@[simp] theorem State.modPart_portMap (s : State) (p : Nat) (f : Partition → Partition) : (s.modPart p f).portMap = s.portMap := rfl
@[simp] theorem State.modPart_tx (s : State) (p : Nat) (f : Partition → Partition) : (s.modPart p f).tx = s.tx := rfl
@[simp] theorem State.modPart_rx (s : State) (p : Nat) (f : Partition → Partition) : (s.modPart p f).rx = s.rx := rfl
@[simp] theorem State.modPart_rxRegs (s : State) (p : Nat) (f : Partition → Partition) : (s.modPart p f).rxRegs = s.rxRegs := rfl
@[simp] theorem State.modPart_rxHeld (s : State) (p : Nat) (f : Partition → Partition) : (s.modPart p f).rxHeld = s.rxHeld := rfl
@[simp] theorem State.modPart_nextSend (s : State) (p : Nat) (f : Partition → Partition) : (s.modPart p f).nextSend = s.nextSend := rfl
@[simp] theorem State.modPart_leases (s : State) (p : Nat) (f : Partition → Partition) : (s.modPart p f).leases = s.leases := rfl
@[simp] theorem State.modPart_lendable (s : State) (p : Nat) (f : Partition → Partition) : (s.modPart p f).lendable = s.lendable := rfl
@[simp] theorem State.modPart_asks (s : State) (p : Nat) (f : Partition → Partition) : (s.modPart p f).asks = s.asks := rfl
@[simp] theorem State.modPart_nextTag (s : State) (p : Nat) (f : Partition → Partition) : (s.modPart p f).nextTag = s.nextTag := rfl
@[simp] theorem State.modPart_agent (s : State) (p : Nat) (f : Partition → Partition) : (s.modPart p f).agent = s.agent := rfl
@[simp] theorem State.modPart_linkWait (s : State) (p : Nat) (f : Partition → Partition) : (s.modPart p f).linkWait = s.linkWait := rfl
@[simp] theorem State.modPart_nextJob (s : State) (p : Nat) (f : Partition → Partition) : (s.modPart p f).nextJob = s.nextJob := rfl
@[simp] theorem State.modPart_linkDiscarded (s : State) (p : Nat) (f : Partition → Partition) : (s.modPart p f).linkDiscarded = s.linkDiscarded := rfl
@[simp] theorem State.modPart_tileEarly (s : State) (p : Nat) (f : Partition → Partition) : (s.modPart p f).tileEarly = s.tileEarly := rfl
@[simp] theorem State.modPart_fabricErrors (s : State) (p : Nat) (f : Partition → Partition) : (s.modPart p f).fabricErrors = s.fabricErrors := rfl
@[simp] theorem State.modPart_leaseBad (s : State) (p : Nat) (f : Partition → Partition) : (s.modPart p f).leaseBad = s.leaseBad := rfl
@[simp] theorem State.modPart_writebackErrors (s : State) (p : Nat) (f : Partition → Partition) : (s.modPart p f).writebackErrors = s.writebackErrors := rfl
@[simp] theorem State.modPart_ts (s : State) (p : Nat) (f : Partition → Partition) : (s.modPart p f).ts = s.ts := rfl
@[simp] theorem State.modPart_synced (s : State) (p : Nat) (f : Partition → Partition) : (s.modPart p f).synced = s.synced := rfl
@[simp] theorem State.modPart_gathers (s : State) (p : Nat) (f : Partition → Partition) : (s.modPart p f).gathers = s.gathers := rfl
@[simp] theorem State.modPart_nextGather (s : State) (p : Nat) (f : Partition → Partition) : (s.modPart p f).nextGather = s.nextGather := rfl
@[simp] theorem State.modPart_meas (s : State) (p : Nat) (f : Partition → Partition) : (s.modPart p f).meas = s.meas := rfl
@[simp] theorem State.modPart_flashA (s : State) (p : Nat) (f : Partition → Partition) : (s.modPart p f).flashA = s.flashA := rfl
@[simp] theorem State.modPart_flashB (s : State) (p : Nat) (f : Partition → Partition) : (s.modPart p f).flashB = s.flashB := rfl
@[simp] theorem State.modPart_activeB (s : State) (p : Nat) (f : Partition → Partition) : (s.modPart p f).activeB = s.activeB := rfl
@[simp] theorem State.modPart_staged (s : State) (p : Nat) (f : Partition → Partition) : (s.modPart p f).staged = s.staged := rfl
@[simp] theorem State.modPart_fwLoads (s : State) (p : Nat) (f : Partition → Partition) : (s.modPart p f).fwLoads = s.fwLoads := rfl
@[simp] theorem State.modPart_decodeOver (s : State) (p : Nat) (f : Partition → Partition) : (s.modPart p f).decodeOver = s.decodeOver := rfl
@[simp] theorem State.modPart_gen (s : State) (p : Nat) (f : Partition → Partition) : (s.modPart p f).gen = s.gen := rfl
@[simp] theorem State.modPart_typeDescs (s : State) (p : Nat) (f : Partition → Partition) : (s.modPart p f).typeDescs = s.typeDescs := rfl
@[simp] theorem State.modPart_remap (s : State) (p : Nat) (f : Partition → Partition) : (s.modPart p f).remap = s.remap := rfl
@[simp] theorem State.modPart_remapCopy (s : State) (p : Nat) (f : Partition → Partition) : (s.modPart p f).remapCopy = s.remapCopy := rfl
@[simp] theorem State.modPart_bankTags (s : State) (p : Nat) (f : Partition → Partition) : (s.modPart p f).bankTags = s.bankTags := rfl
@[simp] theorem State.modPart_remapFlash (s : State) (p : Nat) (f : Partition → Partition) : (s.modPart p f).remapFlash = s.remapFlash := rfl
@[simp] theorem State.modPart_remapOld (s : State) (p : Nat) (f : Partition → Partition) : (s.modPart p f).remapOld = s.remapOld := rfl
@[simp] theorem State.modPart_retiring (s : State) (p : Nat) (f : Partition → Partition) : (s.modPart p f).retiring = s.retiring := rfl
@[simp] theorem State.modPart_bists (s : State) (p : Nat) (f : Partition → Partition) : (s.modPart p f).bists = s.bists := rfl
@[simp] theorem State.modPart_training (s : State) (p : Nat) (f : Partition → Partition) : (s.modPart p f).training = s.training := rfl
@[simp] theorem State.modPart_rates (s : State) (p : Nat) (f : Partition → Partition) : (s.modPart p f).rates = s.rates := rfl
@[simp] theorem State.modPart_mcLog (s : State) (p : Nat) (f : Partition → Partition) : (s.modPart p f).mcLog = s.mcLog := rfl
@[simp] theorem State.modPart_life (s : State) (p : Nat) (f : Partition → Partition) : (s.modPart p f).life = s.life := rfl
@[simp] theorem State.modPart_lifeFlash (s : State) (p : Nat) (f : Partition → Partition) : (s.modPart p f).lifeFlash = s.lifeFlash := rfl
@[simp] theorem State.modPart_telemetry (s : State) (p : Nat) (f : Partition → Partition) : (s.modPart p f).telemetry = s.telemetry := rfl
@[simp] theorem State.modPart_syncedSeen (s : State) (p : Nat) (f : Partition → Partition) : (s.modPart p f).syncedSeen = s.syncedSeen := rfl
@[simp] theorem State.modPart_levelSeen (s : State) (p : Nat) (f : Partition → Partition) : (s.modPart p f).levelSeen = s.levelSeen := rfl

/-! ### `State.count` -/

@[simp] theorem State.count_inbox (s : State) (p idx n : Nat) : (s.count p idx n).inbox = s.inbox := rfl
@[simp] theorem State.count_turn (s : State) (p idx n : Nat) : (s.count p idx n).turn = s.turn := rfl
@[simp] theorem State.count_steps (s : State) (p idx n : Nat) : (s.count p idx n).steps = s.steps := rfl
@[simp] theorem State.count_free (s : State) (p idx n : Nat) : (s.count p idx n).free = s.free := rfl
@[simp] theorem State.count_powered (s : State) (p idx n : Nat) : (s.count p idx n).powered = s.powered := rfl
@[simp] theorem State.count_recovery (s : State) (p idx n : Nat) : (s.count p idx n).recovery = s.recovery := rfl
@[simp] theorem State.count_now (s : State) (p idx n : Nat) : (s.count p idx n).now = s.now := rfl
@[simp] theorem State.count_tick (s : State) (p idx n : Nat) : (s.count p idx n).tick = s.tick := rfl
@[simp] theorem State.count_tickRem (s : State) (p idx n : Nat) : (s.count p idx n).tickRem = s.tickRem := rfl
@[simp] theorem State.count_mem (s : State) (p idx n : Nat) : (s.count p idx n).mem = s.mem := rfl
@[simp] theorem State.count_poison (s : State) (p idx n : Nat) : (s.count p idx n).poison = s.poison := rfl
@[simp] theorem State.count_fenced (s : State) (p idx n : Nat) : (s.count p idx n).fenced = s.fenced := rfl
@[simp] theorem State.count_latent (s : State) (p idx n : Nat) : (s.count p idx n).latent = s.latent := rfl
@[simp] theorem State.count_entryErrors (s : State) (p idx n : Nat) : (s.count p idx n).entryErrors = s.entryErrors := rfl
@[simp] theorem State.count_fenceNews (s : State) (p idx n : Nat) : (s.count p idx n).fenceNews = s.fenceNews := rfl
@[simp] theorem State.count_cur (s : State) (p idx n : Nat) : (s.count p idx n).cur = s.cur := rfl
@[simp] theorem State.count_t (s : State) (p idx n : Nat) : (s.count p idx n).t = s.t := rfl
@[simp] theorem State.count_parked (s : State) (p idx n : Nat) : (s.count p idx n).parked = s.parked := rfl
@[simp] theorem State.count_cores (s : State) (p idx n : Nat) : (s.count p idx n).cores = s.cores := rfl
@[simp] theorem State.count_dies (s : State) (p idx n : Nat) : (s.count p idx n).dies = s.dies := rfl
@[simp] theorem State.count_level (s : State) (p idx n : Nat) : (s.count p idx n).level = s.level := rfl
@[simp] theorem State.count_calm (s : State) (p idx n : Nat) : (s.count p idx n).calm = s.calm := rfl
@[simp] theorem State.count_power (s : State) (p idx n : Nat) : (s.count p idx n).power = s.power := rfl
@[simp] theorem State.count_current (s : State) (p idx n : Nat) : (s.count p idx n).current = s.current := rfl
@[simp] theorem State.count_decay (s : State) (p idx n : Nat) : (s.count p idx n).decay = s.decay := rfl
@[simp] theorem State.count_asids (s : State) (p idx n : Nat) : (s.count p idx n).asids = s.asids := rfl
@[simp] theorem State.count_launches (s : State) (p idx n : Nat) : (s.count p idx n).launches = s.launches := rfl
@[simp] theorem State.count_nextLaunch (s : State) (p idx n : Nat) : (s.count p idx n).nextLaunch = s.nextLaunch := rfl
@[simp] theorem State.count_queues (s : State) (p idx n : Nat) : (s.count p idx n).queues = s.queues := rfl
@[simp] theorem State.count_fences (s : State) (p idx n : Nat) : (s.count p idx n).fences = s.fences := rfl
@[simp] theorem State.count_nextFence (s : State) (p idx n : Nat) : (s.count p idx n).nextFence = s.nextFence := rfl
@[simp] theorem State.count_pending (s : State) (p idx n : Nat) : (s.count p idx n).pending = s.pending := rfl
@[simp] theorem State.count_nextUid (s : State) (p idx n : Nat) : (s.count p idx n).nextUid = s.nextUid := rfl
@[simp] theorem State.count_sessions (s : State) (p idx n : Nat) : (s.count p idx n).sessions = s.sessions := rfl
@[simp] theorem State.count_nextSession (s : State) (p idx n : Nat) : (s.count p idx n).nextSession = s.nextSession := rfl
@[simp] theorem State.count_discarded (s : State) (p idx n : Nat) : (s.count p idx n).discarded = s.discarded := rfl
@[simp] theorem State.count_nextKey (s : State) (p idx n : Nat) : (s.count p idx n).nextKey = s.nextKey := rfl
@[simp] theorem State.count_qps (s : State) (p idx n : Nat) : (s.count p idx n).qps = s.qps := rfl
@[simp] theorem State.count_nextQpn (s : State) (p idx n : Nat) : (s.count p idx n).nextQpn = s.nextQpn := rfl
@[simp] theorem State.count_out (s : State) (p idx n : Nat) : (s.count p idx n).out = s.out := rfl
@[simp] theorem State.count_pkgId (s : State) (p idx n : Nat) : (s.count p idx n).pkgId = s.pkgId := rfl
@[simp] theorem State.count_ports (s : State) (p idx n : Nat) : (s.count p idx n).ports = s.ports := rfl
@[simp] theorem State.count_portMap (s : State) (p idx n : Nat) : (s.count p idx n).portMap = s.portMap := rfl
@[simp] theorem State.count_tx (s : State) (p idx n : Nat) : (s.count p idx n).tx = s.tx := rfl
@[simp] theorem State.count_rx (s : State) (p idx n : Nat) : (s.count p idx n).rx = s.rx := rfl
@[simp] theorem State.count_rxRegs (s : State) (p idx n : Nat) : (s.count p idx n).rxRegs = s.rxRegs := rfl
@[simp] theorem State.count_rxHeld (s : State) (p idx n : Nat) : (s.count p idx n).rxHeld = s.rxHeld := rfl
@[simp] theorem State.count_nextSend (s : State) (p idx n : Nat) : (s.count p idx n).nextSend = s.nextSend := rfl
@[simp] theorem State.count_leases (s : State) (p idx n : Nat) : (s.count p idx n).leases = s.leases := rfl
@[simp] theorem State.count_lendable (s : State) (p idx n : Nat) : (s.count p idx n).lendable = s.lendable := rfl
@[simp] theorem State.count_asks (s : State) (p idx n : Nat) : (s.count p idx n).asks = s.asks := rfl
@[simp] theorem State.count_nextTag (s : State) (p idx n : Nat) : (s.count p idx n).nextTag = s.nextTag := rfl
@[simp] theorem State.count_agent (s : State) (p idx n : Nat) : (s.count p idx n).agent = s.agent := rfl
@[simp] theorem State.count_linkWait (s : State) (p idx n : Nat) : (s.count p idx n).linkWait = s.linkWait := rfl
@[simp] theorem State.count_nextJob (s : State) (p idx n : Nat) : (s.count p idx n).nextJob = s.nextJob := rfl
@[simp] theorem State.count_linkDiscarded (s : State) (p idx n : Nat) : (s.count p idx n).linkDiscarded = s.linkDiscarded := rfl
@[simp] theorem State.count_tileEarly (s : State) (p idx n : Nat) : (s.count p idx n).tileEarly = s.tileEarly := rfl
@[simp] theorem State.count_fabricErrors (s : State) (p idx n : Nat) : (s.count p idx n).fabricErrors = s.fabricErrors := rfl
@[simp] theorem State.count_leaseBad (s : State) (p idx n : Nat) : (s.count p idx n).leaseBad = s.leaseBad := rfl
@[simp] theorem State.count_writebackErrors (s : State) (p idx n : Nat) : (s.count p idx n).writebackErrors = s.writebackErrors := rfl
@[simp] theorem State.count_ts (s : State) (p idx n : Nat) : (s.count p idx n).ts = s.ts := rfl
@[simp] theorem State.count_synced (s : State) (p idx n : Nat) : (s.count p idx n).synced = s.synced := rfl
@[simp] theorem State.count_gathers (s : State) (p idx n : Nat) : (s.count p idx n).gathers = s.gathers := rfl
@[simp] theorem State.count_nextGather (s : State) (p idx n : Nat) : (s.count p idx n).nextGather = s.nextGather := rfl
@[simp] theorem State.count_meas (s : State) (p idx n : Nat) : (s.count p idx n).meas = s.meas := rfl
@[simp] theorem State.count_flashA (s : State) (p idx n : Nat) : (s.count p idx n).flashA = s.flashA := rfl
@[simp] theorem State.count_flashB (s : State) (p idx n : Nat) : (s.count p idx n).flashB = s.flashB := rfl
@[simp] theorem State.count_activeB (s : State) (p idx n : Nat) : (s.count p idx n).activeB = s.activeB := rfl
@[simp] theorem State.count_staged (s : State) (p idx n : Nat) : (s.count p idx n).staged = s.staged := rfl
@[simp] theorem State.count_fwLoads (s : State) (p idx n : Nat) : (s.count p idx n).fwLoads = s.fwLoads := rfl
@[simp] theorem State.count_decodeOver (s : State) (p idx n : Nat) : (s.count p idx n).decodeOver = s.decodeOver := rfl
@[simp] theorem State.count_gen (s : State) (p idx n : Nat) : (s.count p idx n).gen = s.gen := rfl
@[simp] theorem State.count_typeDescs (s : State) (p idx n : Nat) : (s.count p idx n).typeDescs = s.typeDescs := rfl
@[simp] theorem State.count_remap (s : State) (p idx n : Nat) : (s.count p idx n).remap = s.remap := rfl
@[simp] theorem State.count_remapCopy (s : State) (p idx n : Nat) : (s.count p idx n).remapCopy = s.remapCopy := rfl
@[simp] theorem State.count_bankTags (s : State) (p idx n : Nat) : (s.count p idx n).bankTags = s.bankTags := rfl
@[simp] theorem State.count_remapFlash (s : State) (p idx n : Nat) : (s.count p idx n).remapFlash = s.remapFlash := rfl
@[simp] theorem State.count_remapOld (s : State) (p idx n : Nat) : (s.count p idx n).remapOld = s.remapOld := rfl
@[simp] theorem State.count_retiring (s : State) (p idx n : Nat) : (s.count p idx n).retiring = s.retiring := rfl
@[simp] theorem State.count_bists (s : State) (p idx n : Nat) : (s.count p idx n).bists = s.bists := rfl
@[simp] theorem State.count_training (s : State) (p idx n : Nat) : (s.count p idx n).training = s.training := rfl
@[simp] theorem State.count_rates (s : State) (p idx n : Nat) : (s.count p idx n).rates = s.rates := rfl
@[simp] theorem State.count_mcLog (s : State) (p idx n : Nat) : (s.count p idx n).mcLog = s.mcLog := rfl
@[simp] theorem State.count_life (s : State) (p idx n : Nat) : (s.count p idx n).life = s.life := rfl
@[simp] theorem State.count_lifeFlash (s : State) (p idx n : Nat) : (s.count p idx n).lifeFlash = s.lifeFlash := rfl
@[simp] theorem State.count_telemetry (s : State) (p idx n : Nat) : (s.count p idx n).telemetry = s.telemetry := rfl
@[simp] theorem State.count_syncedSeen (s : State) (p idx n : Nat) : (s.count p idx n).syncedSeen = s.syncedSeen := rfl
@[simp] theorem State.count_levelSeen (s : State) (p idx n : Nat) : (s.count p idx n).levelSeen = s.levelSeen := rfl

/-! ### `State.advance` -/

@[simp] theorem State.advance_inbox (s : State) (n : Nat) : (s.advance n).inbox = s.inbox := rfl
@[simp] theorem State.advance_turn (s : State) (n : Nat) : (s.advance n).turn = s.turn := rfl
@[simp] theorem State.advance_steps (s : State) (n : Nat) : (s.advance n).steps = s.steps := rfl
@[simp] theorem State.advance_free (s : State) (n : Nat) : (s.advance n).free = s.free := rfl
@[simp] theorem State.advance_powered (s : State) (n : Nat) : (s.advance n).powered = s.powered := rfl
@[simp] theorem State.advance_recovery (s : State) (n : Nat) : (s.advance n).recovery = s.recovery := rfl
@[simp] theorem State.advance_mem (s : State) (n : Nat) : (s.advance n).mem = s.mem := rfl
@[simp] theorem State.advance_poison (s : State) (n : Nat) : (s.advance n).poison = s.poison := rfl
@[simp] theorem State.advance_fenced (s : State) (n : Nat) : (s.advance n).fenced = s.fenced := rfl
@[simp] theorem State.advance_latent (s : State) (n : Nat) : (s.advance n).latent = s.latent := rfl
@[simp] theorem State.advance_entryErrors (s : State) (n : Nat) : (s.advance n).entryErrors = s.entryErrors := rfl
@[simp] theorem State.advance_fenceNews (s : State) (n : Nat) : (s.advance n).fenceNews = s.fenceNews := rfl
@[simp] theorem State.advance_cur (s : State) (n : Nat) : (s.advance n).cur = s.cur := rfl
@[simp] theorem State.advance_t (s : State) (n : Nat) : (s.advance n).t = s.t := rfl
@[simp] theorem State.advance_parked (s : State) (n : Nat) : (s.advance n).parked = s.parked := rfl
@[simp] theorem State.advance_cores (s : State) (n : Nat) : (s.advance n).cores = s.cores := rfl
@[simp] theorem State.advance_dies (s : State) (n : Nat) : (s.advance n).dies = s.dies := rfl
@[simp] theorem State.advance_level (s : State) (n : Nat) : (s.advance n).level = s.level := rfl
@[simp] theorem State.advance_calm (s : State) (n : Nat) : (s.advance n).calm = s.calm := rfl
@[simp] theorem State.advance_power (s : State) (n : Nat) : (s.advance n).power = s.power := rfl
@[simp] theorem State.advance_current (s : State) (n : Nat) : (s.advance n).current = s.current := rfl
@[simp] theorem State.advance_decay (s : State) (n : Nat) : (s.advance n).decay = s.decay := rfl
@[simp] theorem State.advance_parts (s : State) (n : Nat) : (s.advance n).parts = s.parts := rfl
@[simp] theorem State.advance_asids (s : State) (n : Nat) : (s.advance n).asids = s.asids := rfl
@[simp] theorem State.advance_launches (s : State) (n : Nat) : (s.advance n).launches = s.launches := rfl
@[simp] theorem State.advance_nextLaunch (s : State) (n : Nat) : (s.advance n).nextLaunch = s.nextLaunch := rfl
@[simp] theorem State.advance_queues (s : State) (n : Nat) : (s.advance n).queues = s.queues := rfl
@[simp] theorem State.advance_fences (s : State) (n : Nat) : (s.advance n).fences = s.fences := rfl
@[simp] theorem State.advance_nextFence (s : State) (n : Nat) : (s.advance n).nextFence = s.nextFence := rfl
@[simp] theorem State.advance_pending (s : State) (n : Nat) : (s.advance n).pending = s.pending := rfl
@[simp] theorem State.advance_nextUid (s : State) (n : Nat) : (s.advance n).nextUid = s.nextUid := rfl
@[simp] theorem State.advance_sessions (s : State) (n : Nat) : (s.advance n).sessions = s.sessions := rfl
@[simp] theorem State.advance_nextSession (s : State) (n : Nat) : (s.advance n).nextSession = s.nextSession := rfl
@[simp] theorem State.advance_discarded (s : State) (n : Nat) : (s.advance n).discarded = s.discarded := rfl
@[simp] theorem State.advance_nextKey (s : State) (n : Nat) : (s.advance n).nextKey = s.nextKey := rfl
@[simp] theorem State.advance_qps (s : State) (n : Nat) : (s.advance n).qps = s.qps := rfl
@[simp] theorem State.advance_nextQpn (s : State) (n : Nat) : (s.advance n).nextQpn = s.nextQpn := rfl
@[simp] theorem State.advance_out (s : State) (n : Nat) : (s.advance n).out = s.out := rfl
@[simp] theorem State.advance_pkgId (s : State) (n : Nat) : (s.advance n).pkgId = s.pkgId := rfl
@[simp] theorem State.advance_ports (s : State) (n : Nat) : (s.advance n).ports = s.ports := rfl
@[simp] theorem State.advance_portMap (s : State) (n : Nat) : (s.advance n).portMap = s.portMap := rfl
@[simp] theorem State.advance_tx (s : State) (n : Nat) : (s.advance n).tx = s.tx := rfl
@[simp] theorem State.advance_rx (s : State) (n : Nat) : (s.advance n).rx = s.rx := rfl
@[simp] theorem State.advance_rxRegs (s : State) (n : Nat) : (s.advance n).rxRegs = s.rxRegs := rfl
@[simp] theorem State.advance_rxHeld (s : State) (n : Nat) : (s.advance n).rxHeld = s.rxHeld := rfl
@[simp] theorem State.advance_nextSend (s : State) (n : Nat) : (s.advance n).nextSend = s.nextSend := rfl
@[simp] theorem State.advance_leases (s : State) (n : Nat) : (s.advance n).leases = s.leases := rfl
@[simp] theorem State.advance_lendable (s : State) (n : Nat) : (s.advance n).lendable = s.lendable := rfl
@[simp] theorem State.advance_asks (s : State) (n : Nat) : (s.advance n).asks = s.asks := rfl
@[simp] theorem State.advance_nextTag (s : State) (n : Nat) : (s.advance n).nextTag = s.nextTag := rfl
@[simp] theorem State.advance_agent (s : State) (n : Nat) : (s.advance n).agent = s.agent := rfl
@[simp] theorem State.advance_linkWait (s : State) (n : Nat) : (s.advance n).linkWait = s.linkWait := rfl
@[simp] theorem State.advance_nextJob (s : State) (n : Nat) : (s.advance n).nextJob = s.nextJob := rfl
@[simp] theorem State.advance_linkDiscarded (s : State) (n : Nat) : (s.advance n).linkDiscarded = s.linkDiscarded := rfl
@[simp] theorem State.advance_tileEarly (s : State) (n : Nat) : (s.advance n).tileEarly = s.tileEarly := rfl
@[simp] theorem State.advance_fabricErrors (s : State) (n : Nat) : (s.advance n).fabricErrors = s.fabricErrors := rfl
@[simp] theorem State.advance_leaseBad (s : State) (n : Nat) : (s.advance n).leaseBad = s.leaseBad := rfl
@[simp] theorem State.advance_writebackErrors (s : State) (n : Nat) : (s.advance n).writebackErrors = s.writebackErrors := rfl
@[simp] theorem State.advance_gathers (s : State) (n : Nat) : (s.advance n).gathers = s.gathers := rfl
@[simp] theorem State.advance_nextGather (s : State) (n : Nat) : (s.advance n).nextGather = s.nextGather := rfl
@[simp] theorem State.advance_meas (s : State) (n : Nat) : (s.advance n).meas = s.meas := rfl
@[simp] theorem State.advance_flashA (s : State) (n : Nat) : (s.advance n).flashA = s.flashA := rfl
@[simp] theorem State.advance_flashB (s : State) (n : Nat) : (s.advance n).flashB = s.flashB := rfl
@[simp] theorem State.advance_activeB (s : State) (n : Nat) : (s.advance n).activeB = s.activeB := rfl
@[simp] theorem State.advance_staged (s : State) (n : Nat) : (s.advance n).staged = s.staged := rfl
@[simp] theorem State.advance_fwLoads (s : State) (n : Nat) : (s.advance n).fwLoads = s.fwLoads := rfl
@[simp] theorem State.advance_decodeOver (s : State) (n : Nat) : (s.advance n).decodeOver = s.decodeOver := rfl
@[simp] theorem State.advance_gen (s : State) (n : Nat) : (s.advance n).gen = s.gen := rfl
@[simp] theorem State.advance_typeDescs (s : State) (n : Nat) : (s.advance n).typeDescs = s.typeDescs := rfl
@[simp] theorem State.advance_remap (s : State) (n : Nat) : (s.advance n).remap = s.remap := rfl
@[simp] theorem State.advance_remapCopy (s : State) (n : Nat) : (s.advance n).remapCopy = s.remapCopy := rfl
@[simp] theorem State.advance_bankTags (s : State) (n : Nat) : (s.advance n).bankTags = s.bankTags := rfl
@[simp] theorem State.advance_remapFlash (s : State) (n : Nat) : (s.advance n).remapFlash = s.remapFlash := rfl
@[simp] theorem State.advance_remapOld (s : State) (n : Nat) : (s.advance n).remapOld = s.remapOld := rfl
@[simp] theorem State.advance_retiring (s : State) (n : Nat) : (s.advance n).retiring = s.retiring := rfl
@[simp] theorem State.advance_bists (s : State) (n : Nat) : (s.advance n).bists = s.bists := rfl
@[simp] theorem State.advance_training (s : State) (n : Nat) : (s.advance n).training = s.training := rfl
@[simp] theorem State.advance_rates (s : State) (n : Nat) : (s.advance n).rates = s.rates := rfl
@[simp] theorem State.advance_mcLog (s : State) (n : Nat) : (s.advance n).mcLog = s.mcLog := rfl
@[simp] theorem State.advance_life (s : State) (n : Nat) : (s.advance n).life = s.life := rfl
@[simp] theorem State.advance_lifeFlash (s : State) (n : Nat) : (s.advance n).lifeFlash = s.lifeFlash := rfl
@[simp] theorem State.advance_telemetry (s : State) (n : Nat) : (s.advance n).telemetry = s.telemetry := rfl
@[simp] theorem State.advance_syncedSeen (s : State) (n : Nat) : (s.advance n).syncedSeen = s.syncedSeen := rfl
@[simp] theorem State.advance_levelSeen (s : State) (n : Nat) : (s.advance n).levelSeen = s.levelSeen := rfl

end Sys2Proof.Machine
end

