-- ==== Sys2Proof/Laws/Run.lean ====
section
/-! SUPPORT. How computations that may trap or wait run: one lemma for each way to build one, and for what the end of a member does with its
result, so that no proof unfolds the monad. -/

namespace Sys2Proof.Machine

@[simp] theorem exec_pure {α : Type} (a : α) (s : State) : M.exec (pure a : M α) s = (.ok a, s) := rfl

/-- A computation followed by another. -/
theorem exec_bind {α β : Type} (m : M α) (f : α → M β) (s : State) :
    M.exec (m >>= f) s = match M.exec m s with
      | (.ok a, s') => M.exec (f a) s'
      | (.error e, s') => (.error e, s') := by
  simp only [M.exec]
  rw [show ExceptT.run (m >>= f) = ExceptT.bindCont (fun a => f a) <$> ExceptT.run m >>= id from by
    simp only [Bind.bind, ExceptT.bind, ExceptT.mk, ExceptT.run]; rfl]
  simp only [StateT.run, bind, StateT.bind, Functor.map, StateT.map]
  show _ = match (ExceptT.run m) s with | (.ok a, s') => _ | (.error e, s') => _
  rcases h : (ExceptT.run m) s with ⟨r, s'⟩
  cases r <;> simp [ExceptT.bindCont] <;> rfl

@[simp] theorem exec_get (s : State) : M.exec (get : M State) s = (.ok s, s) := rfl
@[simp] theorem exec_set (s t : State) : M.exec (set t : M PUnit) s = (.ok ⟨⟩, t) := rfl
@[simp] theorem exec_modify (f : State → State) (s : State) : M.exec (modify f : M PUnit) s = (.ok ⟨⟩, f s) := rfl
@[simp] theorem exec_modT (f : Thread → Thread) (s : State) : M.exec (modT f) s = (.ok (), s.modT f) := rfl
@[simp] theorem exec_countM (idx n : Nat) (s : State) : M.exec (countM idx n) s = (.ok (), s.count s.t.part idx n) := rfl
@[simp] theorem exec_throw {α : Type} (e : Stop) (s : State) : M.exec (throw e : M α) s = (.error e, s) := rfl
@[simp] theorem exec_raise {α : Type} (c : Cause) (x : Word) (e m : Nat) (v : Option Nat) (s : State) :
    M.exec (raise c x e m v : M α) s = (.error (.trap { cause := c, xaddr := x, xelem := word e, xmask := word m, vstart := v.map word }), s) := rfl
@[simp] theorem exec_illegal {α : Type} (s : State) :
    M.exec (illegal : M α) s = (.error (.trap { cause := .illegal, xaddr := s.raw, xelem := word s.rawHigh, xmask := 0, vstart := none }), s) := rfl
@[simp] theorem exec_vtypeIllegal {α : Type} (s : State) :
    M.exec (vtypeIllegal : M α) s = (.error (.trap { cause := .vtypeIllegal, xaddr := s.raw, xelem := word s.rawHigh, xmask := 0, vstart := none }), s) := rfl
/-- A computation that cannot stop. -/
@[simp] theorem exec_lift {α : Type} (m : StateM State α) (s : State) : M.exec (liftM m : M α) s = (.ok (m.run s).1, (m.run s).2) := rfl

theorem exec_ite {α : Type} (c : Prop) [Decidable c] (x y : M α) (s : State) :
    M.exec (if c then x else y) s = if c then M.exec x s else M.exec y s := by
  split <;> rfl

/-! ## The end of a member -/

theorem finish_ok {m : M Unit} {s s' : State} (h : M.exec m s = (.ok (), s')) : finish m s = s'.retire := by
  unfold finish finishBy; rw [h]

theorem finish_trap {m : M Unit} {s s' : State} {r : TrapRec} (h : M.exec m s = (.error (.trap r), s')) : finish m s = s'.trap r false := by
  unfold finish finishBy; rw [h]

theorem finish_stall {m : M Unit} {s s' : State} {x : Stall} (h : M.exec m s = (.error (.stall x), s')) : finish m s = s.hold s' x := by
  unfold finish finishBy; rw [h]

theorem finish_lease {m : M Unit} {s s' : State} {part : Nat} {q : LeaseReq} (h : M.exec m s = (.error (.lease part q), s')) :
    finish m s = s.leaseOn part q := by
  unfold finish finishBy; rw [h]

theorem finish_leaseKept {m : M Unit} {s s' : State} {part : Nat} {q : LeaseReq} (h : M.exec m s = (.error (.leaseKept part q), s')) :
    finish m s = s'.leaseOn part q := by
  unfold finish finishBy; rw [h]

theorem finish_join {m : M Unit} {s s' : State} {tag : Nat} (h : M.exec m s = (.error (.join tag), s')) : finish m s = s.joinOn tag := by
  unfold finish finishBy; rw [h]

theorem finishMoved_ok {m : M Unit} {s s' : State} (h : M.exec m s = (.ok (), s')) : finishMoved m s = s' := by
  unfold finishMoved finishBy; rw [h]; rfl

end Sys2Proof.Machine
end

