-- ==== Sys2Proof/Tests/Slice0.lean ====
section
/-! SUPPORT. Tests: ill-formed terms that WellFormed refuses, words that the spec writes out or whose bits are laid out from its tables, single steps whose
results come from the spec's tables and examples, and for each statement with hypotheses a state that meets them. -/

namespace Sys2Proof.Tests

set_option Elab.async false

open Sys2Proof Sys2Proof.Machine Sys2Proof.Claims

/-! ## Ill-formed terms: one for each check of WellFormed -/

theorem test_wf_csrr_cpgo : (Instr.csrr 1 0x084).wf = false := by decide
theorem test_wf_csrw_tmaprx : (Instr.csrw 1 0x041).wf = false := by decide
theorem test_wf_tlbinv_kind : (Instr.tlbinv 3 0 0).wf = false := by decide
theorem test_wf_tlbinv_all : (Instr.tlbinv 2 1 0).wf = false := by decide
theorem test_wf_stripm_pointer : (Instr.stripm 4 11 10 0 0 0x12 0 0).wf = false := by decide
theorem test_wf_stripm_high_pointer : (Instr.stripm 4 11 0 0 0 0x12 0 7).wf = false := by decide
theorem test_wf_mask_destination : (Instr.vcmp 0 ⟨5, false⟩ (.imm 7) 0 2).wf = false := by decide
theorem test_wf_qmov_destination : (Instr.qmov (.scalarToHigh 0 3)).wf = false := by decide
theorem test_wf_gate_destination : (Instr.gand 0 1 2).wf = false := by decide
theorem test_wf_slot : (Instr.convoyIssue 2304).wf = false := by decide
theorem test_wf_slot_of_fill : (Instr.fillComplete 2304 0).wf = false := by decide
theorem test_wf_slot_of_copy : (Instr.cpeTransferComplete 2304 1).wf = false := by decide
theorem test_wf_slot_of_completion : (Instr.ualinkCompletion 2305 false []).wf = false := by decide
theorem test_wf_core : (Instr.pcSample 576).wf = false := by decide
theorem test_wf_die : (Instr.dstEpoch 9).wf = false := by decide
theorem test_wf_add : (Instr.add 4 5 6).wf = true := by decide

/-! ## Words: the spec's own, then words laid out bit by bit from Tables 11.8 and 13.1 to 13.3 -/

theorem test_word_add : decodeTableWord 32 0x14604044 = some (.add 4 5 6) := by decide
theorem test_word_xor : decodeTableWord 32 0x38C4404E = some (.xor 14 14 12) := by decide
theorem test_word_addi_joined : decodeTableWord 32 0x840160E1 = some (.addi 33 33 1) := by decide
theorem test_word_ldd : decodeTableWord 32 0x08104D84 = some (.ldd 4 2 16) := by decide
theorem test_word_tmsw : decodeTableWord 32 0xF8004A40 = some (.tmsw 62 false) := by decide
theorem test_word_ecall : decodeTableWord 16 0x0903 = some (.ecall 3) := by decide
theorem test_word_cpgo : decodeTableWord 16 0x9C0D = some (.cpgo 13) := by decide
theorem test_word_li : decodeTableWord 96 0x12345678000000000000C344 = some (.li 4 0x12345678) := by decide
theorem test_word_stripm : decodeTableWord 96 0x000000122CA30000001BD044 = some (.stripm 4 11 10 12 0x1B 0x12 0 0) := by decide
theorem test_word_bne : decodeTableWord 64 0x2C01FFFFFFC08800 = some (.bne 11 0 (-2) 0) := by decide
theorem test_word_amo : decodeTableWord 64 0x1850000480088EC4 = some (.amoAdd 4 6 5 .p false 8) := by decide
theorem test_word_vadd : decodeTableWord 64 0x84300000000090C2 = some (.vadd ⟨2, false⟩ ⟨1, true⟩ (.vec ⟨3, false⟩) 0) := by decide
theorem test_word_vcmp : decodeTableWord 64 0x1400000240079102 = some (.vcmp 2 ⟨5, false⟩ (.imm 7) 0 2) := by decide
theorem test_word_setts : decodeTableWord 64 0x1461C00000009804 = some (.setts 4 5 6 7) := by decide
theorem test_word_mmul : decodeTableWord 64 0x2012028360079850 = some (.mmul 80 ⟨1, false⟩ ⟨64, false⟩ ⟨some 2, 0⟩ 1 true false 7) := by decide
theorem test_word_msend : decodeTableWord 64 0x0080600000009CC0 = some (.msend ⟨8, false⟩ 12) := by decide
theorem test_word_mwait : decodeTableWord 64 0x8000000100009CEC = some (.mwait 300) := by decide
theorem test_word_rwait : decodeTableWord 64 0x3400001000009C00 = some (.rwait 13) := by decide
theorem test_word_ipf : decodeTableWord 64 0x5400000200009D00 = some (.ipf 21 2 0) := by decide
theorem test_word_clz : decodeTableWord 32 0x08004307 = some (.clz 7 2) := by decide
theorem test_word_fma : decodeTableWord 64 0x0831001800008381 = some (.fma 1 2 3 4) := by decide
theorem test_word_csrw_xvec : decodeTableWord 64 0x14000008010788C0 = some (.csrw 5 0x107) := by decide
theorem test_word_vld_masked : decodeTableWord 64 0x14001800004090A2 = some (.vld ⟨2, true⟩ 5 3 0 64) := by decide
theorem test_word_vfadd : decodeTableWord 64 0x0430000000009142 = some (.vfadd ⟨2, false⟩ ⟨1, false⟩ (.vec ⟨3, false⟩) 0) := by decide
theorem test_word_vredsum : decodeTableWord 64 0x18000800000091C9 = some (.vredsum 9 ⟨6, false⟩ 1) := by decide
theorem test_word_qand : decodeTableWord 64 0x0830000000009201 = some (.qand 1 2 3) := by decide
theorem test_word_gand : decodeTableWord 64 0x0020180300009881 = some (.gand 1 2 3) := by decide
theorem test_word_reserved_major : decodeTableWord 32 0x00004780 = none := by decide
theorem test_word_s0_mask_destination : decodeTableWord 64 0x1400000240079100 = none := by decide

/-! ## States: a bound slot at a member that ends its convoy -/

/-- The thread of a user task of one member, changed by `f`, in hand of the machine at reset. -/
def bound (f : Thread → Thread) : State := { State.reset with t := f { Thread.reset with task := some placedTask, pc := 0x4000, nextPc := 0x4002 } }
/-- The same in supervisor mode. -/
def boundSup (f : Thread → Thread) : State := bound fun t => f { t with sup := true }
/-- Scalar registers 1, 2 and 3 with values. -/
def regs3 (a b c : Word) (t : Thread) : Thread := ((t.setReg 1 a).setReg 2 b).setReg 3 c
/-- An address in the thread's own window. -/
def win (off : Nat) : Word := 0xFF00000000000000 + word off
/-- The state after an instruction that gives one. -/
def after (i : Instr) (s : State) : State := match exec i s with
  | .next t => t
  | _ => s
/-- A scalar register after an instruction on a bound thread. -/
def resultOf (i : Instr) (f : Thread → Thread) (r : SReg) : Word := (after i (bound f)).t.reg r

/-! ## Reset, stepping, traps: witnesses -/

/-- A line that holds a `halt` and nothing else. -/
def haltLine : BitVec 512 := 0x0A00
/-- A slot in issue whose line is in the line buffer. -/
def inIssue : State := { bound (fun t => { t with lineBuf := some (0x4000, haltLine) }) with turn := .slot 0 }

/-- The values of its line, its convoy and its member. -/
def haltValues : List (BitVec 96) := (lineValues haltLine).getD []
def haltConvoy : List (BitVec 96) := (convoyOf (haltValues.drop 0)).getD []

theorem witness_decode_inverts_encode : (Instr.add 4 5 6).wf = true ∧ (encode (.add 4 5 6)).isSome = true := by decide
theorem witness_parse : parse 0x01 4 (.sr 5 6 0) = some (.add 4 5 6) := by decide
theorem witness_step_runs : ∃ (k : Task) (d : BitVec 512) (vs ms : List (BitVec 96)) (v : BitVec 96) (i : Instr),
    inIssue.powered = true ∧ inIssue.turn = .slot inIssue.cur ∧ inIssue.t.task = some k ∧ k.translator = false ∧ inIssue.t.ending = false ∧
    inIssue.t.preempt = false ∧ inIssue.t.pend = [] ∧ inIssue.t.stall = .none ∧ inIssue.t.skip = none ∧
    inIssue.t.lineBuf = some (lineAddr inIssue.t.pc, d) ∧ lineValues d = some vs ∧ (inIssue.t.pc.extractLsb' 1 5).toNat < vs.length ∧
    convoyBad inIssue.act vs (inIssue.t.pc.extractLsb' 1 5).toNat = none ∧
    convoyOf (vs.drop (inIssue.t.pc.extractLsb' 1 5).toNat) = some ms ∧ ms[inIssue.t.member]? = some v ∧ decode inIssue.act v = .instr i :=
  ⟨placedTask, haltLine, haltValues, haltConvoy, haltConvoy.headD 0, .halt, rfl, rfl, rfl, rfl, rfl, rfl, rfl, rfl, rfl, rfl, by decide +kernel, by decide +kernel, by decide +kernel,
    by decide +kernel, by decide +kernel, by decide +kernel⟩
/-- The convoy of `halt` needs nothing; one with a vector member needs its core's issue not to be withheld. -/
theorem witness_ready : Ready { inIssue with turn := .arbiter } haltConvoy ∧ haltConvoy.any vectorMember = false ∧ haltConvoy.any acquiringMember = false ∧
    inIssue.t.freshIssue = true := by unfold Ready; decide +kernel

/-- A placed `addi s1, s0, 5` is what the next step runs (Table 14.3). -/
theorem test_placed_word_runs : (match Machine.step (State.reset.withFetchWord 32 (5 * 2 ^ 16 + 2 ^ 14 + 3 * 2 ^ 6 + 1)) with
    | .next t => t.t.reg 1
    | _ => 0) = 5 := by decide +kernel

/-- Retirement: outside a handler, inside one, before another member, at the end of a convoy. -/
theorem witness_retirement : (bound id).t.inh = false ∧ (boundSup fun t => { t with inh := true }).t.inh = true ∧
    (bound fun t => { t with convoyLen := 2 }).t.member + 1 < (bound fun t => { t with convoyLen := 2 }).t.convoyLen ∧
    (bound id).t.convoyLen ≤ (bound id).t.member + 1 := by decide
theorem witness_trap : (bound fun t => { t with xvec := 0x8000 }).t.inh = false ∧ (bound fun t => { t with xvec := 0x8000 }).t.xvec ≠ 0 ∧
    (boundSup fun t => { t with inh := true }).t.inh = true ∧ (bound id).t.xvec = 0 := by decide
theorem witness_ecall : (∃ code, (Instr.ecall 3 = .ecall code ∧ Cause.ecall = .ecall) ∨ (Instr.ecall 3 = .brk code ∧ Cause.ecall = .brk)) :=
  ⟨3, .inl ⟨rfl, rfl⟩⟩
theorem witness_brk : (∃ code, (Instr.brk 63 = .ecall code ∧ Cause.brk = .ecall) ∨ (Instr.brk 63 = .brk code ∧ Cause.brk = .brk)) :=
  ⟨63, .inr ⟨rfl, rfl⟩⟩
/-- A handler whose cause honours SKIP, and one that stands at the last member of a convoy. -/
theorem witness_eret : (boundSup fun t => { t with inh := true, xcause := Cause.pageFault.code.setWidth 64, skipBit := true }).t.sup = true ∧
    (boundSup fun t => { t with inh := true, xcause := Cause.pageFault.code.setWidth 64 }).t.xcause = Cause.pageFault.code.setWidth 64 ∧
    (bound fun t => { t with xvec := 0x8000, member := 3, convoyLen := 4 }).t.member < 4 := by decide
/-- The second member of a convoy calls: `xepc` is the convoy's PC and `xconvoy` 1 (R236, R240). -/
theorem test_ecall_saves : (fun t : State => (t.t.xcause, t.t.xepc, t.t.xconvoy, t.t.pc, t.t.sup, t.t.psup, t.t.inh))
    (after (.ecall 3) (bound fun t => { t with xvec := 0x8000, member := 1, convoyLen := 2 })) = (6, 0x4000, 1, 0x8000, true, false, true) := by
  decide
theorem test_eret_resumes : (fun t : State => (t.t.pc, t.t.member, t.t.sup, t.t.inh))
    (after .eret (boundSup fun t => { t with inh := true, xepc := 0x4440, xconvoy := 2 })) = (0x4440, 2, false, false) := by decide
/-- A trap in a handler ends the task (R240). -/
theorem test_trap_in_handler_ends_the_task : (after (.brk 0) (boundSup fun t => { t with inh := true, xvec := 0x8000 })).t.task = none := by decide

/-! ## Scalar instructions: corner values of Tables 14.3 and 14.4 -/

theorem test_add_wraps : resultOf (.add 1 2 3) (regs3 0 0xFFFFFFFFFFFFFFFF 2) 1 = 1 := by decide
theorem test_sub_order : resultOf (.sub 1 2 3) (regs3 0 5 7) 1 = 0xFFFFFFFFFFFFFFFE := by decide
theorem test_sra_by_67 : resultOf (.sra 1 2 3) (regs3 0 0x8000000000000000 67) 1 = 0xF000000000000000 := by decide
theorem test_slt_signed : resultOf (.slt 1 2 3) (regs3 0 0xFFFFFFFFFFFFFFFF 0) 1 = 1 := by decide
theorem test_sltu_unsigned : resultOf (.sltu 1 2 3) (regs3 0 0xFFFFFFFFFFFFFFFF 0) 1 = 0 := by decide
theorem test_mulh_signs : resultOf (.mulh 1 2 3) (regs3 0 0xFFFFFFFFFFFFFFFF 2) 1 = 0xFFFFFFFFFFFFFFFF := by decide
theorem test_mulhu : resultOf (.mulhu 1 2 3) (regs3 0 0xFFFFFFFFFFFFFFFF 2) 1 = 1 := by decide
theorem test_div_by_zero : resultOf (.div 1 2 3) (regs3 0 5 0) 1 = 0xFFFFFFFFFFFFFFFF := by decide
theorem test_div_overflow : resultOf (.div 1 2 3) (regs3 0 0x8000000000000000 0xFFFFFFFFFFFFFFFF) 1 = 0x8000000000000000 := by decide
theorem test_rem_overflow : resultOf (.rem 1 2 3) (regs3 0 0x8000000000000000 0xFFFFFFFFFFFFFFFF) 1 = 0 := by decide
theorem test_rem_sign : resultOf (.rem 1 2 3) (regs3 0 0xFFFFFFFFFFFFFFF9 2) 1 = 0xFFFFFFFFFFFFFFFF := by decide
theorem test_remu_by_zero : resultOf (.remu 1 2 3) (regs3 0 5 0) 1 = 5 := by decide
theorem test_sltiu_sign_extends : resultOf (.sltiu 1 2 (-1)) (regs3 0 5 0) 1 = 1 := by decide
theorem test_clz_of_zero : resultOf (.clz 1 2) (regs3 0 0 0) 1 = 64 := by decide
theorem test_ctz : resultOf (.ctz 1 2) (regs3 0 0x50 0) 1 = 4 := by decide
theorem test_addw_sign_extends : resultOf (.addw 1 2 3) (regs3 0 0x7FFFFFFF 1) 1 = 0xFFFFFFFF80000000 := by decide
theorem test_li_sign_extends : resultOf (.li 1 0x80000000) id 1 = 0xFFFFFFFF80000000 := by decide
theorem test_lih_keeps_low : resultOf (.lih 1 2 0x12345678) (regs3 0 0xAAAAAAAA9ABCDEF0 0) 1 = 0x123456789ABCDEF0 := by decide
theorem test_write_to_s0_is_discarded : resultOf (.add 0 2 3) (regs3 0 5 7) 0 = 0 := by decide
theorem test_fadd : resultOf (.fadd 1 2 3) (regs3 0 0x3F800000 0x40000000) 1 = 0x40400000 := by decide
theorem test_fcmp_le : resultOf (.fcmp 1 2 3 2) (regs3 0 0x3F800000 0x40000000) 1 = 1 := by decide

theorem witness_scalar : scalarResult (bound (regs3 1 2 3)).t.reg (.add 1 2 3) = some (1, 5) := by decide
theorem witness_scalar_fp : (∃ r fl, scalarFpResult (bound (regs3 0 0x3F800000 0x40000000)).t (.fadd 1 2 3) = some (1, r, fl)) ∧
    ∃ r fl, scalarFpResult (bound (regs3 0 0x40200000 0)).t (.fcvt 1 2 3 0) = some (1, r, fl) := ⟨⟨_, _, rfl⟩, _, _, rfl⟩
/-- `fcvt` from one integer code to another is ILLEGAL (R325). -/
theorem test_fcvt_integers : (after (.fcvt 1 2 3 4) (bound fun t => { t with xvec := 0x8000 })).t.xcause = Cause.illegal.code.setWidth 64 := by decide
theorem witness_branch : branchTaken (bound (regs3 1 1 2)).t.reg (.beq 1 2 (-1) 31) = some (true, -1, 31) ∧
    branchTaken (bound (regs3 1 1 2)).t.reg (.bltu 2 1 0 0) = some (false, 0, 0) ∧ (bound id).t.convoyLen ≤ (bound id).t.member + 1 := by decide
/-- The worked example of R283: from 0x40_01C6, LOFF -3 and HIDX 5 reach 0x40_010A. -/
theorem test_branch_example : (after (.beq 1 2 (-3) 5) (bound fun t => { t with pc := 0x4001C6 })).t.pc = 0x40010A := by decide
theorem test_jalr_reads_base_first : (fun t : State => (t.t.pc, t.t.reg 1)) (after (.jalr 1 1 1) (bound (regs3 0x8000 0 0))) = (0x8000, 0x4002) := by
  decide

/-! ## CSRs, modes, sleep, halt, map switch -/

theorem witness_csr_read : mayRead false 0x0B9 = true ∧ mayRead true 0x108 = true := by decide
theorem witness_csr_write : csrWriteOf (bound (regs3 7 0 0)) (.csrw 1 0x001) = some (0x001, 7) ∧ mayWrite false 0x001 = true ∧
    csrWriteOf (boundSup (regs3 7 0 0)) (.csrs 1 0x106) = some (0x106, 7 ||| (boundSup (regs3 7 0 0)).csr 0x106) ∧ mayWrite true 0x106 = true ∧
    (7 ||| (boundSup (regs3 7 0 0)).csr 0x106).getLsbD 6 = false := by decide
/-- Two bound threads of partition 0, the other with NTF, so that a write that sets it moves it. -/
def twoBound : State := (boundSup (regs3 0x40 0 0)).setThread 5 { Thread.reset with task := some placedTask, ntf := true }
theorem witness_ntf : twoBound.t.sup = true ∧ twoBound.t.ntf = false ∧ (twoBound.t.reg 1).getLsbD 6 = true ∧ (twoBound.parts.map (·.id)).Nodup ∧
    5 ≠ twoBound.cur ∧ (twoBound.thread 5).task.isSome = true ∧ (twoBound.thread 5).part = twoBound.t.part := by decide
theorem test_ntf_moves : (after (.csrw 1 0x106) twoBound).t.ntf = true ∧ ((after (.csrw 1 0x106) twoBound).thread 5).ntf = false := by decide
theorem witness_mode : (bound fun t => { t with xvec := 0x8000 }).t.sup = false ∧ (bound fun t => { t with xvec := 0x8000 }).t.inh = false ∧
    (Instr.eret = .eret ∨ ∃ b e, Instr.eret = .tmsw b e) := ⟨rfl, rfl, .inl rfl⟩
theorem witness_csr_not_listed : mayRead true 0x002 = false ∧ mayRead false 0x107 = false ∧
    csrWriteOf (bound (regs3 7 0 0)) (.csrw 1 0x010) = some (0x010, 7) ∧ mayWrite false 0x010 = false := by decide
theorem test_eret_in_user_mode : (after .eret (bound fun t => { t with xvec := 0x8000 })).t.xcause = 1 := by decide
theorem test_fcsr_write_keeps_subst : (after (.csrw 1 0x001) (bound fun t => { regs3 0 0 0 t with fcsr := 0x4000 })).t.fcsr = 0x4000 := by decide

theorem witness_sleep_ended : ((bound (regs3 0 0 0)).t.reg 1).toNat ≤ (bound (regs3 0 0 0)).tick.toNat := by decide
theorem witness_sleep : (bound (regs3 5 0 0)).tick.toNat < ((bound (regs3 5 0 0)).t.reg 1).toNat ∧ (bound (regs3 5 0 0)).t.pend = [] := by decide
theorem witness_sleep_end : ({ bound (fun t => { t with stall := .sleep 5 }) with tick := 5 } : State).t.stall = .sleep 5 ∧
    (5 : Word).toNat ≤ ({ bound (fun t => { t with stall := .sleep 5 }) with tick := 5 } : State).tick.toNat := by decide
theorem witness_halt : (bound id).t.pend = [] ∧ (bound id).drained (bound id).cur = true ∧
    (bound fun t => { t with stall := .halt }).t.pend = [] ∧ (bound fun t => { t with stall := .halt }).drained 0 = true ∧
    (bound fun t => { t with stall := .halt }).t.stall = .halt ∧ ∃ x ∈ (bound fun t => { t with transfers := [launched t] }).t.transfers, x.status = 0 :=
  ⟨rfl, by decide, rfl, by decide, rfl, _, .head _, rfl⟩
/-- A switch from a map with nothing to write back, and from one whose changed group lies on no page. -/
def leaving (c : List MapLine) : State := boundSup fun t => { regs3 0x2000000 0 0 t with tmapbase := 0x1000000, mapCache := c }
def leftLine : MapLine := { reg := 1, entry := mkEnt true true true 0x10 2 0 0 1, changed := true }
theorem witness_tmsw_from_a_map : (leaving []).t.tmapbase ≠ 0 ∧ ((leaving []).t.reg 1).extractLsb' 0 24 = 0 ∧ ((leaving []).getCore (leaving []).core).acc = none ∧
    (∀ x ∈ ((leaving []).getCore (leaving []).core).sets, x.ctx ≠ (leaving []).t.ctx) ∧
    (∃ s1, (writeBackFirst (leaving []).t.changedGroups).exec (leaving []) = (.ok none, s1)) ∧
    ∃ va s1, (writeBackFirst (leaving [leftLine]).t.changedGroups).exec (leaving [leftLine]) = (.ok (some va), s1) :=
  ⟨by decide, by decide, rfl, fun _ h => (nomatch h), ⟨_, rfl⟩, ⟨_, _, rfl⟩⟩
theorem witness_tmsw : (boundSup id).t.sup = true ∧ (boundSup id).t.reg 1 = 0 ∧ (boundSup id).t.tmapbase = 0 ∧
    ((boundSup (regs3 0x1000000 0 0)).t.reg 1).extractLsb' 0 24 = 0 ∧
    (∀ j < 4, 4 * (boundSup (regs3 0x1000000 0 0)).core + j ≠ (boundSup (regs3 0x1000000 0 0)).cur →
      ((boundSup (regs3 0x1000000 0 0)).thread (4 * (boundSup (regs3 0x1000000 0 0)).core + j)).task = none) ∧
    ((boundSup (regs3 0x800000 0 0)).t.reg 1).extractLsb' 0 24 ≠ 0 := by decide

/-! ## Loads, stores, atomics -/

/-- A window address in s1 and operands in s2, s3. -/
def atWin (off : Nat) (b c : Word) : State := bound (regs3 (win off) b c)

theorem test_ldb_sign_extends : (after (.ldb 4 1 0) { atWin 8 0 0 with mem := [(2 ^ 53 + 8, 0x80)] }).t.reg 4 = 0xFFFFFFFFFFFFFF80 := by decide
theorem test_ldwu_zero_extends : (after (.ldwu 4 1 (-4)) { atWin 12 0 0 with mem := [(2 ^ 53 + 11, 0x80)] }).t.reg 4 = 0x80000000 := by decide
theorem test_std_is_little_endian : (after (.std 2 1 0) (atWin 8 0x0102030405060708 0)).mem =
    [(2 ^ 53 + 8, 8), (2 ^ 53 + 9, 7), (2 ^ 53 + 10, 6), (2 ^ 53 + 11, 5), (2 ^ 53 + 12, 4), (2 ^ 53 + 13, 3), (2 ^ 53 + 14, 2), (2 ^ 53 + 15, 1)] := by
  decide
/-- A page that no task has: a window address past the allocation raises PAGE_FAULT there (R187). -/
theorem test_load_past_the_window : (fun t : State => (t.t.xcause, t.t.xaddr, t.t.xelem, t.t.xmask))
    (after (.ldd 4 1 0) (bound fun t => { regs3 (win 65532) 0 0 t with xvec := 0x8000 })) = (0x12, win 65536, 0, 1) := by decide
theorem test_amo_old_value_sign_extends : (fun t : State => (t.t.reg 4, memReadN t.mem (2 ^ 53) 4))
    (after (.amoAdd 4 1 2 .c false 0) { atWin 0 3 0 with mem := [(2 ^ 53, 0xFE), (2 ^ 53 + 1, 0xFF), (2 ^ 53 + 2, 0xFF), (2 ^ 53 + 3, 0xFF)] }) =
      (0xFFFFFFFFFFFFFFFE, [1, 0, 0, 0]) := by decide
theorem test_cas_that_fails : (after (.amoCas 4 1 2 3 .c true 0) (atWin 0 7 9)).mem = [] := by decide

theorem witness_load : loadOf (.ldd 4 1 0) = some (false, 8, 4, 1, 0) ∧ (atWin 8 0 0).t.skip = none ∧
    ∃ ps s1, Accessible (atWin 8 0 0) ((atWin 8 0 0).t.reg 1 + wi (0 : BitVec 10).toInt) 8
      (accOf accLoad ((atWin 8 0 0).t.reg 1 + wi (0 : BitVec 10).toInt) 8) ps s1 ∧ Clean ps s1 :=
  ⟨rfl, rfl, _, _, ⟨rfl, by decide⟩, by unfold Clean; decide⟩
/-- The last bytes of the window. -/
theorem witness_window_load : loadOf (.ldd 4 1 (-8)) = some (false, 8, 4, 1, -8) ∧ (atWin 65536 0 0).t.task = some placedTask ∧
    65528 + 8 ≤ placedTask.spadu * 4096 ∧ 65528 + 8 ≤ 2 ^ 56 ∧ (atWin 65536 0 0).t.reg 1 + wi (-8 : BitVec 10).toInt = 0xFF00000000000000 + word 65528 ∧
    ∀ j < 8, (atWin 65536 0 0).poison.contains ((spadKey (atWin 65536 0 0).core (placedTask.spadBase + 65528) + j) / 8) = false := by decide
theorem witness_store : storeOf (.std 2 1 0) = some (8, 2, 1, 0) ∧ (atWin 8 5 0).t.skip = none ∧ memWf (atWin 8 5 0).mem = true ∧
    ∃ ps s1, Accessible (atWin 8 5 0) ((atWin 8 5 0).t.reg 1 + wi (0 : BitVec 10).toInt) 8
      (accOf accStore ((atWin 8 5 0).t.reg 1 + wi (0 : BitVec 10).toInt) 8) ps s1 ∧ (ps.map keyOf).Nodup :=
  ⟨rfl, rfl, rfl, _, _, ⟨rfl, by decide⟩, by decide⟩
theorem witness_store_then_load : storeOf (.stb 2 1 0) = some (1, 2, 1, 0) ∧ loadOf (.ldb 3 1 0) = some (true, 1, 3, 1, 0) ∧ (3 : SReg) ≠ 0 ∧
    (atWin 65535 5 0).t.task = some placedTask ∧ 65535 + 1 ≤ placedTask.spadu * 4096 ∧ 65535 + 1 ≤ 2 ^ 56 ∧
    (atWin 65535 5 0).t.reg 1 + wi (0 : BitVec 10).toInt = 0xFF00000000000000 + word 65535 ∧ memWf (atWin 65535 5 0).mem = true ∧
    (atWin 65535 5 0).poison = [] := by decide
theorem witness_amo : amoOf (.amoCas 4 1 2 3 .p true 8) = some (4, 1, 2, .p, true, 8) ∧
    ((atWin 8 5 0).t.reg 1 + wi (8 : BitVec 14).toInt).toNat % 8 = 0 ∧
    ∃ ps s1, Accessible (atWin 8 5 0) ((atWin 8 5 0).t.reg 1 + wi (8 : BitVec 14).toInt) 8 accStore ps s1 ∧ (ps.map keyOf).Nodup ∧
      ∀ p ∈ ps, (s1.atHome (ps.head?.bind Place.line?)).homeBad p = false :=
  ⟨rfl, by decide, _, _, ⟨rfl, by decide⟩, by decide, by decide⟩
/-- A release at `.x` is done where no leased write of the thread is in flight, as one at `.p` always is. -/
theorem witness_released : (∃ s0, released (atWin 8 5 0) .x s0) ∧ released (atWin 8 5 0) .p (atWin 8 5 0) :=
  ⟨⟨_, rfl, fun _ => by decide⟩, rfl, fun h => (nomatch h)⟩
theorem witness_acquire : ((win 8).toNat % 4 = 0) ∧
    ∃ ps s1, Accessible (atWin 8 5 0) (win 8) 4 (accOf accLoad (win 8) 4) ps s1 ∧ released s1 .d s1 ∧ Clean ps (s1.acquire .d) :=
  ⟨by decide, _, _, ⟨rfl, by decide⟩, ⟨rfl, fun h => (nomatch h)⟩, by unfold Clean; decide⟩
theorem witness_release : ∃ ps s1, Accessible (atWin 8 5 0) (win 8) 4 (accOf accStore (win 8) 4) ps s1 ∧ (ps.map keyOf).Nodup :=
  ⟨_, _, ⟨rfl, by decide⟩, by decide⟩
theorem witness_refused : loadOf (.ldd 4 1 0) = some (false, 8, 4, 1, 0) ∧ ∃ s1, (places (win 65532) 8 (accOf accLoad (win 65532) 8)).run
    (atWin 65532 0 0) = (.error (4, .pageFault), s1) := ⟨rfl, _, rfl⟩
theorem witness_skip : (bound fun t => { t with skip := some { cause := .pageFault, elem := 0, mask := 1 } }).t.skips 0 = true := by decide
theorem witness_misaligned : amoOf (.amoAdd 4 1 2 .p true 4) = some (4, 1, 2, .p, true, 4) ∧
    ((atWin 0 0 0).t.reg 1 + wi (4 : BitVec 14).toInt).toNat % 8 ≠ 0 ∧ ((atWin 1 0 0).t.reg 1 + wi (0 : BitVec 14).toInt).toNat % 2 ^ (1 : BitVec 2).toNat ≠ 0 := by
  decide

/-! ## Fences, barriers, waits, hints, maintenance -/

theorem witness_fence : (Scope.t = .t ∨ Scope.t = .c ∨ (bound fun t => { t with stored := true }).t.stored = false) ∧ (bound id).t.stored = false ∧
    Scope.h ≠ .t ∧ Scope.h ≠ .c ∧ (bound fun t => { t with stored := true }).t.stored = true ∧
    (bound fun t => { t with stall := .fence .h }).t.stall = .fence .h ∧ (bound id).linksOut .x = false := by decide
/-- A leased write of the thread that has not been acknowledged. -/
def posting (s : State) : State := { s with asks := [{ tag := 1, who := .post [0] 5, part := 0, req := { dest := 2, offset := 320, req := .read 64 }, reply := none }] }
theorem witness_fence_waits : ((posting (bound id)).syncLease (posting (bound id)).t.uid .x).linksOut .x = true ∧
    ((posting (bound id)).syncLease (posting (bound id)).t.uid .p).linksOut .p = false := by decide

/-- A stage whose tasks may use flights up to 2, and a launch of it with two members in a flight-1 instance. -/
def stage2 : Stage :=
  { barf := 2, tlim := 0, spadu := 16, inv := false, inl := 0, tiles := false, demote := false, heat := 0, sarg := 0, entry := 0x4000
    created := 2, ended := 0, owed := 0, stalled := false }
def launch2 : Launch :=
  { key := 1, part := 0, qid := 0, id := 7, asid := 1, args := 0, prio := 0, split := 0, gang := false, gstart := 0, grank := 0, npkg := 1
    tmpool := 0, maps := [], flights := [⟨0, 1, 1⟩, ⟨0, 1, 2⟩, ⟨0, 2, 1⟩], stages := [stage2], landings := [], started := true, fixedDom := []
    stick := some 0, etick := none, cause := none, aborted := false }
def task2 (index : Nat) : Task := { placedTask with launch := some 1, index := index, split := some 0 }
/-- Slots 0 and 1 of core 0 hold the two tasks; the second waits for `x`. -/
def pair (x y : Stall) : State :=
  ({ bound (fun t => { t with task := some (task2 0), stall := x }) with launches := [launch2] }).setThread 1
    { Thread.reset with task := some (task2 1), stall := y }
theorem witness_bar : (pair .none .none).t.task = some (task2 0) ∧ (pair .none .none).stageHere = some stage2 ∧ stage2.barf < (3 : BitVec 3).toNat ∧
    (1 : BitVec 3) ≠ 0 ∧ (1 : BitVec 3).toNat ≤ stage2.barf ∧ (2 : BitVec 3).toNat ≤ stage2.barf ∧
    (pair .none (.bar 1)).barFull (task2 0) 1 0 = true ∧ (pair .none .none).barFull (task2 0) 1 0 = false ∧
    (pair (.bar 1) (.bar 1)).t.stall = .bar 1 ∧ (pair (.bar 1) (.bar 1)).barFull (task2 0) 1 0 = true ∧
    (pair .none .none).linksOut ((pair .none .none).barScope (task2 0) 1) = false := by decide
/-- A flight whose scope is `.x`, with a leased write of the thread not acknowledged. -/
def farPair : State := posting { pair .none .none with launches := [{ launch2 with flights := [⟨0, 1, 1⟩, ⟨0, 5, 2⟩] }] }
theorem witness_bar_waits : (farPair.syncLease farPair.t.uid (farPair.barScope (task2 0) 1)).linksOut (farPair.barScope (task2 0) 1) = true := by decide
theorem test_last_arrival_opens : (fun t : State => (t.t.stall, (t.thread 1).stall)) (after (.bar 1) (pair .none (.bar 1))) = (.none, .none) := by
  decide

theorem witness_wait : (win 8).toNat % 8 = 0 ∧ ∃ ps s1, Accessible (atWin 8 5 0) (win 8) 8 accLoad ps s1 ∧
    Clean ps ((place (win 8) accLoad).run s1).2 ∧ word (loaded ps ((place (win 8) accLoad).run s1).2) ≠ (5 : Word) ∧
    word (loaded ps ((place (win 8) accLoad).run s1).2) = (0 : Word) :=
  ⟨by decide, _, _, ⟨rfl, by decide⟩, by unfold Clean; decide, by decide, by decide⟩
/-- The states of the resumed and of the timed out `wait`. -/
theorem witness_wait_ends : ∃ u : State, u.t = { (atWin 8 5 0).t with stall := .wait 4 (win 8) 3 0 } ∧ (atWin 8 5 0).t.stall = .none ∧
    atWin 8 5 0 = { u with t := (atWin 8 5 0).t } := ⟨{ atWin 8 5 0 with t := { (atWin 8 5 0).t with stall := .wait 4 (win 8) 3 0 } }, rfl, rfl, rfl⟩
theorem witness_wait_timeout : ∃ s u : State, u.t = { s.t with stall := .wait 4 (win 8) 3 0 } ∧ s.t.stall = .none ∧
    s = { u.cycleTo (0 + 2 ^ 20) with t := s.t } :=
  let u : State := { atWin 8 5 0 with t := { (atWin 8 5 0).t with stall := .wait 4 (win 8) 3 0 } }
  ⟨{ u.cycleTo (0 + 2 ^ 20) with t := (atWin 8 5 0).t }, u, rfl, rfl, rfl⟩
/-- Slot 1 waits on the line of the window's first bytes, which a `wake` of slot 0 finds. -/
def waiting : State := (atWin 0 0 0).setThread 1 { Thread.reset with task := some placedTask, stall := .wait 4 (win 0) (2 ^ 47) 0 }
theorem witness_wake : ∃ l s1, (lineOf (waiting.t.reg 1 + wi (0 : BitVec 16).toInt) ⟨false, false, false, true⟩).run waiting = (some l, s1) ∧
    1 ∈ s1.waitersOn l ∧ (s1.thread 1).part = waiting.t.part := ⟨_, _, rfl, by decide, by decide⟩

/-- A thread at a page of HBM that the TLB of its core holds, with s1 at the page. -/
def atHbm : State :=
  ({ bound (regs3 0x400000 5 0) with asids := [{ asid := 1, part := 0, valid := true, root := 0x100000 }] }).modCore 0 fun k => { k with tlb := [placedTlb] }
def okIs (r : Except Cause Place) (p : Place) : Bool := match r with
  | .ok q => q == p
  | .error _ => false
theorem of_okIs {r : Except Cause Place} {p : Place} (h : okIs r p = true) : r = .ok p := by
  cases r <;> simp_all [okIs]
theorem of_run {r : Except Cause Place × State} {p : Place} (h : okIs r.1 p = true) : r = (.ok p, r.2) := Prod.ext (of_okIs h) rfl
/-- A computation that is not refused gives something. -/
theorem runs_of {ε α σ : Type} {r : Except ε α × σ} (h : (match r.1 with | .ok _ => true | .error _ => false) = true) : ∃ x s, r = (.ok x, s) := by
  obtain ⟨r, s⟩ := r
  cases r with
  | ok x => exact ⟨x, s, rfl⟩
  | error e => cases h

/-- The bytes of a page of HBM. -/
def hbms (a n : Nat) : List Place := (List.range n).map fun i => .hbm (a + i) .l2 false
theorem hbms_plain (a n : Nat) : (hbms a n).all plainPlace = true := by simp [hbms, plainPlace]
theorem hbms_nodup (a n : Nat) : ((hbms a n).map keyOf).Nodup := by
  rw [hbms, List.map_map]
  exact List.Pairwise.map _ (fun _ _ h => by simpa [keyOf] using h) List.nodup_range
theorem hbms_succ (a n : Nat) : hbms a (n + 1) = .hbm a .l2 false :: hbms (a + 1) n := by
  simp [hbms, List.range_succ_eq_map, Function.comp_def, Nat.add_right_comm, Nat.add_assoc]
theorem placesGo_page (pf : Word → StateM State (Except Cause Place)) (va : Word) (n k a : Nat) (s : State)
    (h : ∀ j < n, ((va + word (k + j)).extractLsb' 0 12 == 0) = false) :
    (placesGo pf va n k (some (.hbm a .l2 false))).run s = (.ok (hbms (a + 1) n), s) := by
  induction n generalizing k a with
  | zero => rfl
  | succ n ih =>
    have h0 : ((va + word k).extractLsb' 0 12 == 0) = false := h 0 (by omega)
    have hr := ih (k + 1) (a + 1) fun j hj => by rw [Nat.add_assoc, Nat.add_comm 1]; exact h (j + 1) (by omega)
    rw [hbms_succ]
    simp only [StateT.run] at hr
    simp only [placesGo, h0, StateT.run, bind, StateT.bind, pure, StateT.pure, Place.plus, hr, Except.map, Bool.false_eq_true, if_false]
theorem placesGo_from (pf : Word → StateM State (Except Cause Place)) (va : Word) (n a : Nat) (s s1 : State)
    (h1 : pf (va + word 0) s = (.ok (.hbm a .l2 false), s1)) (ha : va.toNat % 4096 = 0) (hn : n < 4096) :
    (placesGo pf va (n + 1) 0 none).run s = (.ok (hbms a (n + 1)), s1) := by
  have hr := placesGo_page pf va n 1 a s1 fun j hj => by
    rw [beq_eq_false_iff_ne]
    intro h
    have := (congrArg BitVec.toNat h).trans (show BitVec.toNat (0 : BitVec 12) = 0 from rfl)
    simp only [BitVec.extractLsb'_toNat, BitVec.toNat_add, word, BitVec.toNat_ofNat, Nat.shiftRight_zero] at this
    omega
  rw [hbms_succ]
  simp only [StateT.run] at hr
  simp only [placesGo, StateT.run, bind, StateT.bind, pure, StateT.pure, h1, hr, Except.map]
theorem of_first {r : Except Cause Place × State} {a : Nat} (h : okIs r.1 (.hbm a .l2 false) = true) : r = (.ok (.hbm a .l2 false), r.2) := of_run h
theorem witness_ipf : atHbm.inTlb atHbm.t.asid ((lineAddr (atHbm.t.reg 1 + wi (0 : BitVec 16).toInt)).extractLsb' 0 56).toNat = true ∧
    ((place (lineAddr (atHbm.t.reg 1 + wi (0 : BitVec 16).toInt)) accFetch).run atHbm).1 = .ok (.hbm 0x200000 .l1 false) ∧
    ((atHbm.getCore atHbm.core).icache.any fun l => l.num == 0x200000 / 64) = false := ⟨by decide, of_okIs (by decide +kernel), by decide⟩
theorem witness_dpf : ((place (lineAddr (atHbm.t.reg 1 + wi (0 : BitVec 16).toInt)) accLoad).run atHbm).1 = .ok (.hbm 0x200000 .l1 false) :=
  of_okIs (by decide +kernel)
theorem witness_cflush : ∃ s1, (place (atHbm.t.reg 1 + wi (0 : BitVec 16).toInt) ⟨true, false, false, true⟩).run atHbm =
    (.ok (.hbm 0x200000 .l1 false), s1) ∧ (∃ s2, s2 = s1.dropLease (fun x => inBlock (0x200000 / 64) 1 x.num) ∧ s2.dirtyIn (0x200000 / 64) 1 = false ∧
      s2.blockOut (0x200000 / 64) 1 = false) ∧ ∃ s2, s2 = s1.dropLease (fun x => inBlock (0x200000 / 4096 * 64) 64 x.num) ∧
      s2.dirtyIn (0x200000 / 4096 * 64) 64 = false ∧ s2.blockOut (0x200000 / 4096 * 64) 64 = false :=
  ⟨((place _ _).run atHbm).2, of_run (by decide +kernel), ⟨_, rfl, by decide +kernel, by decide +kernel⟩, _, rfl, by decide +kernel, by decide +kernel⟩
theorem witness_cinv : ∃ s1, (place (atHbm.t.reg 1 + wi (0 : BitVec 16).toInt) ⟨false, false, true, true⟩).run atHbm =
    (.ok (.hbm 0x200000 .l1 false), s1) ∧ s1.fillingIn (0x200000 / 64) 1 = false ∧
    (atHbm.t.reg 1 + wi (0 : BitVec 16).toInt).extractLsb' 56 8 ≠ 0xFF :=
  ⟨((place _ _).run atHbm).2, of_run (by decide +kernel), by decide +kernel, by decide +kernel⟩
theorem witness_maintenance_done : (bound fun t => { t with stall := .cflush 0 64 }).t.stall = .cflush 0 64 ∧
    (bound fun t => { t with stall := .cflush 0 64 }).blockOut 0 64 = false ∧
    (bound fun t => { t with stall := .cinv 5 1 }).t.stall = .cinv 5 1 ∧
    (bound fun t => { t with stall := .tlbinv 1 0 3 }).t.stall = .tlbinv 1 0 3 ∧ (bound fun t => { t with stall := .tlbinv 1 0 3 }).walking 1 3 = false := by decide
theorem witness_maintenance_in_window : (atWin 65535 0 0).t.task = some placedTask ∧
    ((atWin 65535 0 0).t.reg 1 + wi (0 : BitVec 16).toInt).extractLsb' 56 8 = 0xFF ∧
    (((atWin 65535 0 0).t.reg 1 + wi (0 : BitVec 16).toInt).extractLsb' 0 56).toNat < placedTask.spadu * 4096 := by decide
theorem witness_tlbinv : (boundSup (regs3 0x400000 1 0)).walking 0 1 = false ∧ (boundSup (regs3 0x400000 1 0)).t.sup = true ∧
    (boundSup (regs3 0x400000 1 0)).tlbinvForeign 0 1 = false ∧ (boundSup (regs3 0x400000 1 0)).t.stored = false ∧
    ({ boundSup (regs3 0x400000 2 0) with asids := [{ asid := 2, part := 5, valid := true, root := 0 }] } : State).tlbinvForeign 0 2 = true := by decide
/-- Hints that have their miss slots, and one whose core has sixteen walks under way. -/
def walkingHard : State := atHbm.modDie 0 fun d => { d with walks := (List.range 16).map fun i => ⟨1, 8192 + i, [⟨0, 7, 0x2000000, 0, 0, false⟩], none⟩ }
theorem witness_hints : atHbm.missSlots atHbm.core + atHbm.newMisses (atHbm.t.reg 1 + wi (0 : BitVec 16).toInt) 1 ≤ 16 ∧
    16 < walkingHard.missSlots walkingHard.core + walkingHard.newMisses (walkingHard.t.reg 1 + wi (0x7FC0 : BitVec 16).toInt) 8 := by decide +kernel
theorem witness_walk : ((bound id).modDie 8 fun d => { d with walks := [⟨0, 1, [⟨0, 7, 0x1000, 0, 0, false⟩], none⟩] }).getDie 8 =
    { Die.reset with walks := ⟨0, 1, [⟨0, 7, 0x1000, 0, 0, false⟩], none⟩ :: [] } := by decide
theorem witness_ic_fill : (((bound id).modCore 0 fun k => { k with icFills := [(5, 0, false, .l1)] }).getCore 0).icFills.take 8 |>.find? (fun f => f.1 == 5) |>.isSome := by decide

/-! ## Vector configuration and vector instructions -/

/-- A thread with a live vector unit, a type and a shape. -/
def vecAt (ty vl vlr : Nat) (f : Thread → Thread) : State :=
  bound fun t => f { t with vtype := word (0x40 + ty), vl := word vl, vlr := word vlr, vlive := true, unit := some 0 }
/-- A vector register that holds a list of elements. -/
def vecOf (xs : List (BitVec 32)) : Vector (BitVec 32) 128 := vtab 128 fun p => xs.getD p 0

theorem witness_configuration : vecType 0x12 = some .fp32 ∧ (bound id).t.vlive = false ∧
    (bound id).t.unit = none ∧ (bound id).mayTake (bound id).cur 0 = true ∧ (vecAt 0x12 128 1 id).t.unit.isSome = true ∧ (vecAt 0x12 128 1 id).t.save = none ∧ (bound id).cur < 2304 ∧
    vecType 0x13 = none := by decide
theorem witness_stripm : ((List.range 4).all fun j => decide (((0x01D : BitVec 12).extractLsb' (3 * j) 3).toNat ≤ 5)) = true ∧
    (VCfg.ok { ty := .fp32, vl := (vecAt 0x12 128 1 id).t.vl.toNat, vlr := (vecAt 0x12 128 1 id).t.vlr.toNat }) = true := by decide
/-- `setvl` of 200 FP32 elements grants the cap of 128. -/
theorem test_setvl_caps : (fun t : State => (t.t.vl, t.t.reg 4, t.t.vtype)) (after (.setvl 4 1 0x12) (bound (regs3 200 0 0))) = (128, 128, 0x52) := by
  decide

theorem witness_vec_ready : ∃ l s1, VecReady (vecAt 6 8 1 id) clsInt false (some 2) [1, 3] ⟨.n32, 8, 1⟩ l s1 ∧ (ETy.n32).int?.isSome = true :=
  ⟨[], _, ⟨fun _ => ⟨rfl, rfl⟩, rfl, rfl, rfl, rfl, by decide, by decide, fun _ _ => rfl, rfl⟩, rfl⟩
theorem witness_vec_ready_rows : ∃ l s1, VecReady (vecAt 6 8 8 id) clsAll false (some 2) [1] ⟨.n32, 8, 8⟩ l s1 :=
  ⟨[], _, ⟨fun _ => ⟨rfl, rfl⟩, rfl, rfl, rfl, rfl, by decide, by decide, fun _ _ => rfl, rfl⟩⟩
theorem witness_vec_ready_float : ∃ l s1, VecReady (vecAt 0x12 128 1 id) clsFlt true (some 2) [1, 3] ⟨.fp32, 128, 1⟩ l s1 ∧
    (ETy.fp32).fmt?.isSome = true :=
  ⟨[], _, ⟨fun _ => ⟨rfl, rfl⟩, rfl, rfl, rfl, rfl, by decide, by decide, fun _ _ => rfl, rfl⟩, rfl⟩
theorem witness_vec_ready_none : ∃ l s1, VecReady (vecAt 6 0 1 id) clsAll true none [] ⟨.n32, 0, 1⟩ l s1 ∧ Runs (vecAt 6 0 1 id) ⟨.n32, 0, 1⟩ :=
  ⟨[], _, ⟨fun _ => ⟨rfl, rfl⟩, rfl, rfl, rfl, rfl, by decide, by decide, fun _ h => (nomatch h), rfl⟩, .inl rfl⟩
theorem witness_vint : ∃ f, vintOf (.vadd ⟨2, false⟩ ⟨1, true⟩ (.vec ⟨3, false⟩) 0) = some (⟨2, false⟩, ⟨1, true⟩, .vec ⟨3, false⟩, 0, f) := ⟨_, rfl⟩
theorem witness_vfp : ∃ f, vfpOf (vecAt 0x12 128 1 id).t ⟨.fp32, 128, 1⟩ [] (.vfadd ⟨2, false⟩ ⟨1, false⟩ (.scalar 3) 0) =
    some (⟨2, false⟩, [1], 0, clsFlt, f) := ⟨_, rfl⟩
theorem witness_vcvt : ∃ f, vfpOf (vecAt 0x12 128 1 id).t ⟨.fp32, 128, 1⟩ [] (.vcvt ⟨2, false⟩ ⟨1, false⟩ 0 0x05) =
    some (⟨2, false⟩, [1], 0, clsAll, f) := ⟨_, rfl⟩
theorem witness_compare : (2 : QReg) ≠ 0 ∧ (5 : BitVec 3).toNat ≤ 5 := by decide
theorem witness_lane : ∃ f, laneOf (vecAt 6 8 1 id) ⟨.n32, 8, 1⟩ [] (.vslideup ⟨2, false⟩ ⟨1, false⟩ (.imm 3) 4 0) =
    some (⟨2, false⟩, [1], 0, clsAll, true, 0, f) := ⟨_, rfl⟩
theorem witness_runs : Runs (vecAt 6 8 1 fun t => { t with vstart := 7 }) ⟨.n32, 8, 1⟩ := .inr (by decide)
theorem witness_red : ∃ f, redOf ⟨32, false⟩ (.vredsum 4 ⟨1, false⟩ 0) = some (4, ⟨1, false⟩, 0, 0, f) := ⟨_, rfl⟩
theorem witness_fred : ∃ i f, fredOf Machine.fp32 .rne (.vfredmax 4 ⟨1, false⟩ 0) = some (4, ⟨1, false⟩, 0, i, f) := ⟨_, _, rfl⟩
theorem witness_masks : (vecAt 6 8 1 id).t.vty = some .n32 ∧ maskResult (vecAt 6 8 1 id).t (.qand 1 2 3) = some (.inl (1, 0)) ∧ (1 : QReg) ≠ 0 ∧
    maskResult (vecAt 6 8 1 id).t (.qmov (.highToScalar 4 0)) = some (.inr (4, 0xFFFFFFFFFFFFFFFF)) := by decide

theorem test_vadd_masked_zeroing : (fun t : State => (List.range 4).map fun p => vget (t.t.vreg 2) p 0)
    (after (.vadd ⟨2, true⟩ ⟨1, false⟩ (.imm 1) 1) (vecAt 6 3 1 fun t =>
      ((t.setV 1 (vecOf [0xFFFFFFFF, 20, 30, 40])).setV 2 (vecOf [7, 7, 7, 7])).setQ 1 0b1101)) = [0, 0, 31, 7] := by decide +kernel
/-- A saturated 8-bit sum clamps, is sign-extended and raises SAT (R365). -/
theorem test_vsadd_saturates : (fun t : State => (vget (t.t.vreg 2) 0 0, t.t.fcsr))
    (after (.vsadd ⟨2, false⟩ ⟨1, false⟩ (.imm (-100)) 0) (vecAt 1 1 1 fun t => t.setV 1 (vecOf [0xFFFFFF9C]))) = (0xFFFFFF80, flagSAT) := by
  decide +kernel
theorem test_vslideup : (fun t : State => (List.range 5).map fun p => vget (t.t.vreg 2) p 0)
    (after (.vslideup ⟨2, false⟩ ⟨1, false⟩ (.imm 2) 3 0) (vecAt 6 4 1 fun t => (regs3 0 0 9 t).setV 1 (vecOf [1, 2, 3, 4, 5]))) = [9, 9, 1, 2, 0] := by
  decide +kernel
theorem test_vredsum_of_active : (after (.vredsum 4 ⟨1, false⟩ 1) (vecAt 5 4 1 fun t => (t.setV 1 (vecOf [5, 0xFFFFFFFE, 7, 100])).setQ 1 0b0011)).t.reg 4 = 3 := by
  decide +kernel
theorem test_qfirst_of_none : (after (.qfirst 4 1) (vecAt 6 8 1 fun t => t.setQ 1 0x100)).t.reg 4 = 0xFFFFFFFFFFFFFFFF := by decide +kernel
theorem test_vtopk_example : (fun t : State => (List.range 3).map fun p => vget (t.t.vreg 2) p 0)
    (after (.vtopk ⟨2, false⟩ ⟨1, false⟩ (.imm 3) 0) (vecAt 6 5 1 fun t => t.setV 1 (vecOf [5, 9, 2, 9, 7]))) = [1, 3, 4] := by decide +kernel

/-! ## Vector memory -/

theorem witness_vload : vloadOf ⟨.n32, 4, 1⟩ (.vld ⟨2, false⟩ 1 0 0 0) = some (⟨2, false⟩, [], 0, clsAll) ∧
    ∃ ad l s1 vals s2, elemAddr (vecAt 6 4 1 (regs3 (win 8) 4 0)) ⟨.n32, 4, 1⟩ l (.vld ⟨2, false⟩ 1 0 0 0) = some ad ∧
      VecReady (vecAt 6 4 1 (regs3 (win 8) 4 0)) clsAll false (some 2) [] ⟨.n32, 4, 1⟩ l s1 ∧
      (loadElems 32 ad (activeFrom (vecAt 6 4 1 (regs3 (win 8) 4 0)) ⟨.n32, 4, 1⟩ 0)).exec s1 = (.ok (vals, []), s2) :=
  ⟨rfl, _, [], _, _, _, rfl, ⟨fun _ => ⟨rfl, rfl⟩, rfl, rfl, rfl, rfl, by decide, by decide, fun _ _ => rfl, rfl⟩, rfl⟩
theorem witness_gatherless_vldx : vloadOf ⟨.n32, 1, 1⟩ (.vldx ⟨2, false⟩ 1 ⟨3, false⟩ 0 3 0) = some (⟨2, false⟩, [3], 0, clsNoSub) ∧
    ∃ ad l s1, ∃ vals : List (Nat × BitVec 32), ∃ s2, elemAddr (vecAt 6 1 1 (regs3 (win 8) 4 0)) ⟨.n32, 1, 1⟩ l (.vldx ⟨2, false⟩ 1 ⟨3, false⟩ 0 3 0) = some ad ∧
      VecReady (vecAt 6 1 1 (regs3 (win 8) 4 0)) clsNoSub false (some 2) [3] ⟨.n32, 1, 1⟩ l s1 ∧
      (gatherElems 32 ad (activeFrom (vecAt 6 1 1 (regs3 (win 8) 4 0)) ⟨.n32, 1, 1⟩ 0)).exec s1 = (.ok (vals.map fun x => (x.1, Machine.Gathered.value x.2)), s2) :=
  ⟨rfl, _, [], _, [(0, 0)], _, rfl, ⟨fun _ => ⟨rfl, rfl⟩, rfl, rfl, rfl, rfl, by decide, by decide, fun _ _ => rfl, rfl⟩, rfl⟩
theorem witness_vstore : vstoreOf ⟨.n32, 2, 1⟩ (.vst 1 ⟨2, false⟩ 0 0 0) = some (⟨2, false⟩, [2], 0, clsAll) ∧
    ∃ ad l s1 cs s2, elemAddr (vecAt 6 2 1 (regs3 (win 8) 4 0)) ⟨.n32, 2, 1⟩ l (.vst 1 ⟨2, false⟩ 0 0 0) = some ad ∧
      VecReady (vecAt 6 2 1 (regs3 (win 8) 4 0)) clsAll false none [2] ⟨.n32, 2, 1⟩ l s1 ∧
      (checkStores 32 ad (fun e => (vget (srcOf l (vecAt 6 2 1 (regs3 (win 8) 4 0)).t 2) (VCfg.pos ⟨.n32, 2, 1⟩ e) 0).toNat % 2 ^ 32)
        (activeFrom (vecAt 6 2 1 (regs3 (win 8) 4 0)) ⟨.n32, 2, 1⟩ 0)).exec s1 = (.ok (cs, []), s2) ∧
      (CellsOf cs).all (fun y => plainPlace y.1) = true ∧ (CellsOf cs).Pairwise (fun y z => keyOf y.1 = keyOf z.1 → y.2.1 &&& z.2.1 = 0) :=
  ⟨rfl, _, [], _, _, _, rfl, ⟨fun _ => ⟨rfl, rfl⟩, rfl, rfl, rfl, rfl, by decide, by decide, fun _ h => (nomatch h), rfl⟩, rfl, by decide +kernel, by decide +kernel⟩
theorem test_vst_sub_byte : (after (.vst 1 ⟨2, false⟩ 0 4 0) { vecAt 0x0C 1 1 (fun t => (regs3 (win 0) 0 0 t).setV 2 (vecOf [5])) with mem := [(2 ^ 53, 0xAB)] }).mem =
    [(2 ^ 53, 0x5B)] := by decide +kernel

/-- A gather at the GXU of stack 0 in each of its stages, one index of 4 bytes in stack 5. -/
def gather0 (sent : Bool) (idx : List (Nat × Nat)) (got : List (Nat × BitVec 32 × Bool)) : Gather :=
  { req := 3, tid := 0, dst := 2, size := 4, origin := 0, elems := [(0, 0, 0x5000)], zero := [], sent := sent, idx := idx, got := got, refused := [], returned := [] }
def gathering (g : Gather) : State := { vecAt 6 1 1 (fun t => { t with stall := .gather 3 }) with gathers := [g] }
theorem witness_gather_sent : (gathering (gather0 false [(0, 0x5000)] [])).gather? 3 = some (gather0 false [(0, 0x5000)] []) ∧
    ((gathering (gather0 false [(0, 0x5000)] [])).gathers.find? fun x => x.tid == 0 && !x.sent && x.dst == 2 && x.size == 4 && x.idx == [(0, 0x5000)]) =
      some (gather0 false [(0, 0x5000)] []) := by decide
theorem witness_gather_foreign : (gathering (gather0 true [(0, 0x5000)] [])).gather? 3 = some (gather0 true [(0, 0x5000)] []) := by decide
theorem witness_gather_last : (gather0 true [] [(0, 9, false)]).complete 0 = true ∧ 0 ∈ (gather0 true [] [(0, 9, false)]).groups ∧
    (∀ x ∈ (gather0 true [] [(0, 9, false)]).got, x.2.2 = false) ∧ (∀ x ∈ (gather0 true [] [(0, 9, false)]).groups, x = 0) ∧
    (∀ x ∈ (gather0 true [] [(0, 9, false)]).groups, (gather0 true [] [(0, 9, false)]).complete x = true) ∧
    ((gathering (gather0 true [] [(0, 9, false)])).switchTo 0).t.vty = some .n32 ∧ (0 : Nat) < 2304 := by decide

/-! ## Tiles -/

/-- A tile of FP16 zeros, one of FP32 and one of the accumulator type. -/
def half : Tile := zeroTile .fp16
def single : Tile := zeroTile .fp32
def wide : Tile := zeroTile .a40
/-- A resident version of a register in the context of partition 0, address space 1 and map 0x1000000, from granule `g0` on. -/
def setOf (r : MReg) (T : Tile) (g0 : Nat) : TileSet :=
  { ctx := { part := 0, asid := 1, base := 0x1000000 }, reg := r, tile := T, dirty := true, lastUsed := false, filling := false, hinted := false
    spilling := false, blocked := none, granules := (List.range T.ety.granules).map fun i => g0 + i, job := 0 }
/-- The map-cache line of a resident register and of one that holds nothing. -/
def lineFor (r : MReg) (T : Tile) (g0 : Nat) : MapLine :=
  { reg := r, entry := mkEnt true true true T.code T.ety.granules g0 0 r.toNat, changed := true }
def emptyLine (r : MReg) : MapLine := { reg := r, entry := mkEnt false false false 0 0 0 0 r.toNat, changed := false }
/-- A thread whose map holds m1 and m2 (FP16), m3 (FP32) and m4 (the accumulator type), and knows m5 as empty. -/
def tileAt (f : Thread → Thread) : State :=
  (vecAt 0x12 8 1 fun t => f { t with
    tmapbase := 0x1000000
    mapCache := [lineFor 1 half 0, lineFor 2 half 2, lineFor 3 single 4, lineFor 4 wide 8, emptyLine 5] }).modCore 0 fun k =>
      { k with sets := [setOf 1 half 0, setOf 2 half 2, setOf 3 single 4, setOf 4 wide 8] }

theorem holds_m1 : Holds (tileAt id) 1 half :=
  ⟨_, setOf 1 half 0, ⟨⟨true, rfl⟩, by decide +kernel, fun _ _ => ⟨by decide +kernel, by decide +kernel⟩⟩, by decide +kernel, by decide +kernel, by decide +kernel, rfl, rfl, rfl⟩
theorem holds_m2 : Holds (tileAt id) 2 half :=
  ⟨_, setOf 2 half 2, ⟨⟨true, rfl⟩, by decide +kernel, fun _ _ => ⟨by decide +kernel, by decide +kernel⟩⟩, by decide +kernel, by decide +kernel, by decide +kernel, rfl, rfl, rfl⟩
theorem holds_m3 : Holds (tileAt id) 3 single :=
  ⟨_, setOf 3 single 4, ⟨⟨true, rfl⟩, by decide +kernel, fun _ _ => ⟨by decide +kernel, by decide +kernel⟩⟩, by decide +kernel, by decide +kernel, by decide +kernel, rfl, rfl, rfl⟩
theorem holds_m4 : Holds (tileAt id) 4 wide :=
  ⟨_, setOf 4 wide 8, ⟨⟨true, rfl⟩, by decide +kernel, fun _ _ => ⟨by decide +kernel, by decide +kernel⟩⟩, by decide +kernel, by decide +kernel, by decide +kernel, rfl, rfl, rfl⟩
theorem empty_m5 : HasEntry (tileAt id) 5 (emptyLine 5).entry ∧ entV (emptyLine 5).entry = false :=
  ⟨⟨⟨false, rfl⟩, by decide +kernel, fun h => absurd h (by decide +kernel)⟩, by decide +kernel⟩
theorem ready_for_5 : TileReady (tileAt id) 5 := ⟨by decide, rfl, rfl, rfl, by decide +kernel, fun _ h => nomatch h⟩
theorem ready_for_0 : TileReady (tileAt id) 0 := ⟨by decide, rfl, rfl, rfl, by decide +kernel, fun _ h => nomatch h⟩
theorem type_fp16 : TypeIs (tileAt id) 0x10 .fp16 none := .inl ⟨rfl, rfl⟩
/-- A narrow type, code 0x20, of 4 bits that a decode table of the partition widens. -/
theorem witness_narrow_type : TypeIs
    { tileAt id with typeDescs := [{ code := 0x20, bits := 4, expBits := 2, fracBits := 1, bias := 1, hasInf := false, hasNan := false }]
                     decodeOver := [(0, 0x40000000)] } 0x20 .e3m2 (some 0x20) := .inr ⟨rfl, by decide +kernel, by decide +kernel, rfl⟩
theorem vec_ready_tile : VecReady (tileAt id) isFp32 true none [6] ⟨.fp32, 8, 1⟩ [] (tileAt id) :=
  ⟨fun _ => ⟨rfl, rfl⟩, rfl, rfl, rfl, rfl, by decide, by decide, fun _ h => (nomatch h), rfl⟩
theorem vec_ready_tile_dst : VecReady (tileAt id) isFp32 true (some 7) [] ⟨.fp32, 8, 1⟩ [] (tileAt id) :=
  ⟨fun _ => ⟨rfl, rfl⟩, rfl, rfl, rfl, rfl, by decide, by decide, fun _ _ => rfl, rfl⟩

theorem witness_tile_sources : half.poison = 0 ∧ half.code ≠ 0x12 ∧ half.ety.scales = true ∧ half.ety.fmt?.isSome = true ∧ single.ety = .fp32 ∧
    single.poison = 0 ∧ (tileAt id).t.shape.ok = true ∧ (if half.ety.isCb4 then some Machine.bf16 else half.ety.fmt?).isSome = true ∧
    colsFit .fp16 (tileAt id).t.shape.cols = true ∧ (tileAt id).t.past (tileAt id).t.shape.rows = false ∧ (tileAt id).t.past 64 = false ∧ (tileAt id).t.past 8 = false ∧
    (tileAt fun t => { t with vstart := 64 }).t.past 64 = true ∧ half.narrow = none ∧ half.ety.mclass?.isSome = true ∧
    wide.ety = (half.ety.mclass?.map MClass.acc).getD .i8 := by decide +kernel
theorem witness_mput_new : (∃ ent, HasEntry (tileAt id) 5 ent ∧ entV ent = false) := ⟨_, empty_m5⟩
theorem witness_mrow : single.ety = (⟨.fp32, 8, 1⟩ : VCfg).ty ∧ VecReady (tileAt id) clsAll true (some 7) [] ⟨.fp32, 8, 1⟩ [] (tileAt id) :=
  ⟨rfl, ⟨fun _ => ⟨rfl, rfl⟩, rfl, rfl, rfl, rfl, by decide, by decide, fun _ _ => rfl, rfl⟩⟩
theorem witness_mrel : (4 : MReg).toNat + (1 : BitVec 8).toNat < 512 ∧
    ∀ r : MReg, (4 : MReg).toNat ≤ r.toNat → r.toNat ≤ (4 : MReg).toNat + (1 : BitVec 8).toNat → ∃ e, HasEntry (tileAt id) r e := by
  refine ⟨by decide, fun r h1 h2 => ?_⟩
  have hr : r = 4 ∨ r = 5 := by
    have : r.toNat = 4 ∨ r.toNat = 5 := by simp at h1 h2; omega
    exact this.imp (fun h => BitVec.eq_of_toNat_eq h) fun h => BitVec.eq_of_toNat_eq h
  rcases hr with rfl | rfl
  · obtain ⟨e, x, h, _⟩ := holds_m4; exact ⟨e, h⟩
  · exact ⟨_, empty_m5.1⟩
/-- The registers 4 and 5 need no fill; a valid register that is not resident does, and its slot, on a page that the TLB holds, can be read. -/
theorem witness_mpf : ∀ i ≤ (1 : BitVec 8).toNat, (4 : MReg).toNat + i < 512 → ∃ e, HasEntry (tileAt id) (4 + BitVec.ofNat 9 i) e ∧
    (entV e = true → (findSet ((tileAt id).getCore (tileAt id).core).sets (tileAt id).t.ctx (4 + BitVec.ofNat 9 i)).isSome = true) := by
  intro i hi _
  have : i = 0 ∨ i = 1 := by simp at hi; omega
  rcases this with rfl | rfl
  · obtain ⟨e, x, h, hv, _, _, hx, _⟩ := holds_m4; exact ⟨e, h, fun _ => by decide +kernel⟩
  · exact ⟨_, empty_m5.1, fun h => absurd (h.symm.trans empty_m5.2) (by decide)⟩
/-- A map in a page of 2 MiB at 0x1000000 whose leaf the TLB holds, with m6 valid in its slot only. -/
def unfilled : State :=
  ({ tileAt (fun t => { t with mapCache := [{ reg := 6, entry := mkEnt true false false 0x01 1 0 0 6, changed := false }] }) with
      asids := [{ asid := 1, part := 0, valid := true, root := 0x100000 }] }).modCore 0 fun k =>
    { k with tlb := [{ asid := 1, page := 8, sizeLog := 21, leaf := 0x200000000040001F }] }
theorem witness_mpf_fill : (∃ ch, unfilled.t.line? 6 = some { reg := 6, entry := mkEnt true false false 0x01 1 0 0 6, changed := ch }) ∧
    unfilled.entBad 6 (mkEnt true false false 0x01 1 0 0 6) = false ∧ entV (mkEnt true false false 0x01 1 0 0 6) = true ∧
    entRes (mkEnt true false false 0x01 1 0 0 6) = false ∧ findSet (unfilled.getCore unfilled.core).sets unfilled.t.ctx 6 = none ∧
    unfilled.tileType (entTy (mkEnt true false false 0x01 1 0 0 6)) = some .i8 ∧ ETy.i8.bytes = 4096 ∧
    TileReady unfilled 1 ∧ ∃ ps s1, (fsePlaces unfilled.t.ctx unfilled.t.sup (backAddr unfilled.t.tmapbase 6) 4096).run unfilled = (.ok ps, s1) :=
  ⟨⟨false, rfl⟩, by decide +kernel, by decide +kernel, by decide +kernel, by decide +kernel, by decide +kernel, by decide +kernel,
    ⟨by decide, rfl, rfl, rfl, by decide +kernel, fun _ h => nomatch h⟩, hbms 0x420000 4096, _,
    placesGo_from _ _ 4095 0x420000 _ _ (of_first (by decide +kernel)) (by decide +kernel) (by decide)⟩

/-- Rows of 8 FP16 columns in the window: the last row ends where the allocation does. -/
def rowsAt : State := tileAt fun t => { regs3 (win 65280) 128 0 t with tshape := 0x400802 }
theorem witness_window_rows : WindowRows rowsAt placedTask (rowsAt.t.reg 1) (rowsAt.t.reg 2) 65280 128 rowsAt.t.shape.rows (rowLen rowsAt.t.shape.cols 16) ∧
    rowsAt.t.shape.ok = true ∧ colsFit .fp16 rowsAt.t.shape.cols = true ∧ memWf rowsAt.mem = true := by
  refine ⟨⟨rfl, rfl, rfl, by decide, by decide, by decide, by decide +kernel, by decide +kernel, by decide +kernel, rfl⟩, by decide +kernel, by decide +kernel, rfl⟩
theorem witness_codebook_row : WindowRows rowsAt placedTask (rowsAt.t.reg 1) 32 65280 32 1 32 :=
  ⟨rfl, rfl, rfl, by decide, by decide, by decide, by decide, by decide, by decide, rfl⟩
theorem witness_score_rows : WindowRows rowsAt placedTask (rowsAt.t.reg 1) 256 65280 256 ((0 : BitVec 8).toNat + 1) 256 ∧
    (1 : MReg).toNat + (0 : BitVec 8).toNat < 512 ∧ rowsAt.t.kept { gate := none, seg := 0 } 1 = [0] :=
  ⟨⟨rfl, rfl, rfl, by decide, by decide, by decide, by decide, by decide, by decide, rfl⟩, by decide, by decide +kernel⟩

/-- One step of `mmul m5, m1, m2`: its destination is empty, its sources are FP16 tiles of one class. -/
theorem witness_mmul : (0 : BitVec 2).toNat ≤ 2 ∧ (tileAt id).t.vstart = 0 ∧ (tileAt id).t.stopsWalk = false ∧ (tileAt id).t.tmapbase ≠ 0 ∧
    (tileAt id).t.kept { gate := none, seg := 0 } 1 = [0] ∧ walkStep 0 5 1 2 0 = (5, 1, 2) ∧ (5 : MReg) ≠ 1 ∧ (5 : MReg) ≠ 2 ∧
    half.ety.mclass? = half.ety.mclass? ∧ half.ety.mclass?.isSome = true ∧
    ((tileAt id).freeSet (tileAt id).core (5 * 1)).isSome = true := by decide +kernel
/-- A walk that accumulates into m4 reads it. -/
theorem witness_mmul_acc : Holds (tileAt id) 4 wide ∧ wide.poison = 0 ∧ some wide.ety = half.ety.mclass?.map MClass.acc := ⟨holds_m4, rfl, by decide +kernel⟩
/-- A gate that keeps nothing. -/
theorem witness_mmul_none : (tileAt id).t.kept { gate := some 1, seg := 15 } 8 = [] ∧ ((tileAt id).t.line? 1).isSome = true := by decide +kernel

/-- Gates, scores and the last 512 bytes of the window. -/
def gateAt : State := tileAt fun t => regs3 (win 65024) 0 0 (t.setG 1 0x28)
theorem witness_gates : gateAt.t.tmapbase ≠ 0 ∧ (1 : GReg) ≠ 0 := by decide
theorem of_places {r : Except (Nat × Cause) (List Place) × State} {ps : List Place}
    (h : (match r.1 with | .ok q => q == ps | .error _ => false) = true) : r = (.ok ps, r.2) := by
  obtain ⟨r, s⟩ := r
  cases r <;> simp_all
/-- The keys of those bytes. -/
def gateKeys : List Place := (List.range 512).map fun i => .spad (2 ^ 53 + 65024 + i)
theorem touchAll_spads (f : Nat → Nat) (l : List Nat) (last : Option (Nat × Via)) (s : State) :
    touchAll (l.map fun i => Place.spad (f i)) last s = s := by
  induction l with
  | nil => rfl
  | cons a l ih => simpa [touchAll, touchFor, Place.line?] using ih
theorem witness_gate_memory : Accessible gateAt (gateAt.t.reg 1) 512 accLoad gateKeys ((places (gateAt.t.reg 1) 512 accLoad).run gateAt).2 ∧
    Clean gateKeys ((places (gateAt.t.reg 1) 512 accLoad).run gateAt).2 ∧ (gateKeys.map keyOf).Nodup := by
  refine ⟨⟨of_places (by decide +kernel), by decide +kernel⟩, fun p hp => ?_, ?_⟩
  · have h : ((places (gateAt.t.reg 1) 512 accLoad).run gateAt).2.poison = [] := by decide +kernel
    obtain ⟨i, _, rfl⟩ := List.mem_map.1 hp
    rw [show gateKeys = (List.range 512).map fun i => Place.spad (2 ^ 53 + 65024 + i) from rfl, touchAll_spads]
    show List.contains _ _ = false
    rw [h]; rfl
  · rw [gateKeys, List.map_map]
    exact List.Pairwise.map _ (fun _ _ h => by simpa [keyOf] using h) List.nodup_range
theorem witness_scout : ∀ m ∈ (1 : MReg) :: ((tileAt id).t.kept { gate := none, seg := 0 } 1).map (fun i => (2 : MReg) + BitVec.ofNat 9 i), m = 1 ∨ m = 2 := by
  decide +kernel
theorem test_gnext : (after (.gnext 4 1 2) gateAt).t.reg 4 = 3 ∧ (after (.gnext 4 2 2) gateAt).t.reg 4 = 4096 := by decide +kernel
theorem test_gpop : (after (.gpop 4 1 0 4) gateAt).t.reg 4 = 1 := by decide +kernel
theorem test_setts_caps : (after (.setts 4 1 2 3) (tileAt (regs3 100 0 32))).t.tshape = 0x402040 := by decide +kernel
/-- With no map every word of majors 0x60 to 0x77 is ILLEGAL (Table 13.4, step 9). -/
theorem test_setts_needs_a_map : (after (.setts 4 1 2 3) (bound fun t => { regs3 100 0 32 t with xvec := 0x8000 })).t.xcause = Cause.illegal.code.setWidth 64 := by
  decide +kernel

/-! ## Copies, rings, streams, landings, free lists -/

/-- A copy of 8 bytes inside the window, one dimension, with no completion entry; and one into m5 of 8 bytes. -/
def copyAt (ndim ring : Word) : State := tileAt fun t =>
  { t with cpsrc := win 0, cpdst := win 64, cpndim := ndim, cpring := ring, cpext := t.cpext.set 0 8
           rings := t.rings.set 2 (some { base := win 4096, log2 := 4, reserved := 3, written := 3, released := 3 }) }
theorem witness_cpgo : MayLaunch (copyAt 1 0x8800000000000000).t [8] := by
  refine ⟨by decide, by decide, by decide, rfl, by decide, fun _ => ⟨_, rfl, by decide⟩, fun _ h => nomatch h⟩
theorem witness_cpgo_last_ring_entry : ∃ g : Ring, g.reserved - g.released < 2 ^ g.log2 := ⟨{ base := 0, log2 := 4, reserved := 15, written := 0, released := 0 }, by decide⟩
/-- Into m5 as FP16: 8 bytes from offset 0 of its footprint. -/
def copyTile : State := (copyAt 0x00410001 0).modT fun t => { t with cpdst := 5 }
theorem witness_cpgo_tile : copyTile.t.cpndim.getLsbD 16 = true ∧ copyTile.t.tmapbase ≠ 0 ∧ copyTile.t.cpdst.extractLsb' 9 55 = 0 ∧ 0 ≤ (offsetRange copyTile.t.cpdstS [8] 0).1 ∧
    (offsetRange copyTile.t.cpdstS [8] 0).2 < copyTile.footprint (copyTile.t.cpndim.extractLsb' 18 6) ∧ etyOf (copyTile.t.cpndim.extractLsb' 18 6) = some .fp16 ∧
    (copyTile.freeSet copyTile.core 2).isSome = true ∧ copyTile.t.cpdst.extractLsb' 0 9 = 5 := by decide +kernel

/-- Transfer 1 in progress. -/
def copying : State := (copyAt 1 0).modT fun t => { t with transfers := [launched t], nextId := 2 }
theorem witness_copy : ∃ bs s1, copying.t.transfer? 1 = some (launched (copyAt 1 0).t) ∧ (launched (copyAt 1 0).t).status = 0 ∧
    (launched (copyAt 1 0).t).ndim.getLsbD 16 = false ∧ (launched (copyAt 1 0).t).ring.getLsbD 63 = false ∧ copying.awaits (.copy copying.t.uid 1) = false ∧ (launched (copyAt 1 0).t).done = [] ∧
    (launched (copyAt 1 0).t).taken = [] ∧ (launched (copyAt 1 0).t).result = none ∧ farScope (launched (copyAt 1 0).t).scope = false ∧
    (launched (copyAt 1 0).t).tainted = false ∧ memWf copying.mem = true ∧ copying.poison = [] ∧
    (copyBytes (launched (copyAt 1 0).t) copying.t.asid copying.t.part [8] 8 0).exec { copying with agent := some (.copy copying.t.uid 1) } = (.ok (bs, none), s1) ∧
    bs.all (fun b => plainPlace b.2.1 && (match b.2.2 with | .mem q => plainPlace q | .tile _ => false)) = true ∧
    (∀ b ∈ bs, (touchAll (bs.map (·.2.1)) none { s1 with free := s1.free + 1 }).poisonAt b.2.1 = false) ∧
    (bs.map fun b => (copyKeys b).2).Nodup ∧ ∀ b ∈ bs, ∀ b' ∈ bs, (copyKeys b).1 ≠ (copyKeys b').2 :=
  ⟨_, _, rfl, rfl, rfl, rfl, rfl, rfl, rfl, rfl, rfl, rfl, rfl, rfl, rfl, by decide +kernel, by decide +kernel, by decide +kernel, by decide +kernel⟩
/-- The ring of 16 entries that `rinit` sets up ends with the window's allocation. -/
def ringAt : State := bound (regs3 (win 65280) 4 0)
theorem witness_rinit : (ringAt.t.reg 2).toNat = 4 ∧ (ringAt.t.reg 1).extractLsb' 0 6 = 0 ∧
    (∀ r, vget ringAt.t.rings 0 none = some r → r.written = r.reserved) ∧ memWf ringAt.mem = true ∧
    ∃ ps : List Place, Accessible ringAt (ringAt.t.reg 1) (16 * 2 ^ 4) accStore ps ((places (ringAt.t.reg 1) (16 * 2 ^ 4) accStore).run ringAt).2 := by
  refine ⟨by decide, by decide, fun r h => (nomatch h), rfl, (List.range 256).map (fun i => .spad (2 ^ 53 + 65280 + i)), of_places (by decide +kernel), by decide +kernel⟩
theorem witness_rrel : vget (copyAt 1 0).t.rings 2 none = some { base := win 4096, log2 := 4, reserved := 3, written := 3, released := 3 } := by decide
/-- A transfer in each status. -/
def withStatus (n : Nat) (cause : BitVec 16) : State :=
  copying.modT fun t => { regs3 0 1 0 t with transfers := [{ launched t with id := 1, status := n, cause := cause }], stall := .rwait 1 }
theorem witness_rwait : ((withStatus 0 0).t.reg 2).toNat % 2 ^ 32 = 1 ∧ ((withStatus 0 0).t.transfer? 1).map (·.status) = some 0 ∧
    ((withStatus 1 0).t.transfer? 1).map (·.status) = some 1 ∧ ((withStatus 3 0).t.transfer? 1).map (·.status) = some 3 ∧ (withStatus 1 0).t.stall = .rwait 1 ∧
    ((withStatus 2 0x12).t.transfer? 1).map (fun x => causeOf x.cause) = some (some .pageFault) ∧ (withStatus 2 0x12).t.skip = none ∧ (withStatus 0 0).t.transfer? 9 = none := by
  decide

/-- A record in the window: 4 elements of 4 bytes from the window's start. -/
def recordBytes : Nat := 0xFF00000000000000 * 2 ^ 192 + 4 * 2 ^ 64 + 2 * 2 ^ 50
def streamAt : State := { vecAt 6 2 1 (regs3 (win 64) 0 0) with mem := memWriteN [] (2 ^ 53 + 64) (leBytes 32 recordBytes) }
theorem witness_sbind : streamAt.t.vty = some .n32 ∧ streamAt.t.streams.length < 4 ∧ (streamAt.t.reg 1).extractLsb' 0 5 = 0 ∧
    ∃ ps s1, Accessible streamAt (streamAt.t.reg 1) 32 accLoad ps s1 ∧ Clean ps s1 ∧ recordBad (loaded ps s1) = false :=
  ⟨rfl, by decide, by decide, _, _, ⟨rfl, by decide⟩, by unfold Clean; decide +kernel, by decide +kernel⟩
/-- The stream of that record, bound to v3. -/
def bound3 : State := streamAt.modT fun t => { t with streams := [streamOf 3 (win 64) recordBytes] }
theorem witness_runahead : bound3.t.stream? 3 = some (streamOf 3 (win 64) recordBytes) ∧ (streamOf 3 (win 64) recordBytes).wantsAhead bound3.t.vl.toNat = true ∧
    bound3.t.vl.toNat ≤ 128 ∧ ∃ xs s1, (aheadGo (streamOf 3 (win 64) recordBytes) bound3.t.vl.toNat (streamOf 3 (win 64) recordBytes).nextAhead (streamOf 3 (win 64) recordBytes).window).exec bound3 = (.ok xs, s1) :=
  ⟨by decide +kernel, by decide +kernel, by decide, runs_of (by decide +kernel)⟩

/-- Landing 0 of four entries at the window's start, of which one waits; stage 0 appends to it and pops from it. -/
def landing0 : Landing := { pmask := 1, home := 0, cstg := 0, wide := false, lsz := 2, base := win 0, head := 3, tail := 4 }
def popStage : Stage := { stage2 with inv := true, inl := 0 }
def landLaunch : Launch := { launch2 with stages := [popStage], landings := [landing0] }
def landAt (vl : Nat) : State := { vecAt 6 vl 1 (fun t => { regs3 0 100 0 t with task := some (task2 0) }) with launches := [landLaunch] }
theorem witness_landing : (landAt 3).launchHere = some landLaunch ∧ (landAt 3).t.task = some (task2 0) ∧ landLaunch.landings[0]? = some landing0 ∧
    ((landAt 3).launches.filter fun y => y.key == landLaunch.key) = [landLaunch] ∧ (landAt 3).stageHere = some popStage ∧ popStage.inv = true ∧
    popStage.inl = 0 ∧ landing0.head < landing0.tail ∧ landing0.pmask.getLsbD (task2 0).stage = true := by decide
/-- Three appends fill it: the entries wrap at the ring's end. -/
theorem witness_capp : ∃ l s1 pl s2, VecReady (landAt 3) clsAll true none [] ⟨.n32, 3, 1⟩ l s1 ∧ (landAt 3).t.past 3 = false ∧
    (List.range 3).length ≤ 2 ^ landing0.lsz - (landing0.tail - landing0.head) ∧
    (entryPlaces 4 accStore (landingEntries landing0 landing0.tail (List.range 3))).exec s1 = (.ok (pl, []), s2) ∧ PlainEntries pl :=
  ⟨[], _, _, _, ⟨fun _ => ⟨rfl, rfl⟩, rfl, rfl, rfl, rfl, by decide, by decide, fun _ h => (nomatch h), rfl⟩, by decide, by decide, rfl, by unfold PlainEntries; decide +kernel⟩
theorem witness_qpop : ∃ pl s2 vals s3, VecReady (landAt 3) clsAll true (some 2) [] ⟨.n32, 3, 1⟩ [] (landAt 3) ∧
    (entryPlaces 4 accLoad (landingEntries landing0 landing0.head (List.range 1))).exec ((landAt 3).acquire .p) = (.ok (pl, []), s2) ∧
    (readEntries (fun _ => 0) pl).exec s2 = (.ok (vals, []), s3) ∧ PlainEntries pl :=
  ⟨_, _, _, _, ⟨fun _ => ⟨rfl, rfl⟩, rfl, rfl, rfl, rfl, by decide, by decide, fun _ _ => rfl, rfl⟩, rfl, rfl, by unfold PlainEntries; decide +kernel⟩
theorem test_capp_idx : (fun t : State => (t.t.reg 4, memReadN t.mem (2 ^ 53) 12, t.launches.map fun (l : Launch) => l.landings.map (·.tail)))
    (after (.capp 4 .idx 2 0 0) (landAt 3)) = (3, [100, 0, 0, 0, 101, 0, 0, 0, 102, 0, 0, 0], [[7]]) := by decide +kernel
theorem test_qpop : (fun t : State => (t.t.reg 4, (List.range 3).map fun p => vget (t.t.vreg 2) p 0))
    (after (.qpop 4 0 2) { landAt 2 with mem := [(2 ^ 53 + 12, 0x2A)] }) = (1, [0x2A, 0, 0]) := by decide +kernel

/-- A free list of capacity 2 that holds one entry; its descriptor and its array lie in HBM, lane words in the window. -/
def listBytes : Nat := 0x400040 * 2 ^ 192 + 2 * 2 ^ 160 + 1 * 2 ^ 128
def listAt : State :=
  ({ vecAt 6 2 1 (regs3 (win 0) 0x400000 0) with
      asids := [{ asid := 1, part := 0, valid := true, root := 0x100000 }], mem := memWriteN [] 0x200000 (leBytes 32 listBytes) }).modCore 0 fun k =>
    { k with tlb := [placedTlb] }
theorem witness_free_list : ((readFreeList (listAt.t.reg 2)).exec listAt).1.toOption.map (·.1) = some { base := 0x400040, cap := 2, count := 1, rsvd := 0 } := by
  decide +kernel
/-- A pop of two lanes serves one; a push of two lanes, one. -/
theorem witness_free_list_served : min 2 1 = 1 ∧ min 2 (2 - 1) = 1 := by decide
theorem test_flpop : (fun t : State => (t.t.qreg 1, memReadN t.mem (2 ^ 53) 16, memRead t.mem 0x200010))
    (after (.flpop 1 1 2 0 0) { listAt with mem := memWriteN listAt.mem 0x200040 [5] }) =
      (1, [5, 0, 0, 0, 0, 0, 0, 0, 255, 255, 255, 255, 255, 255, 255, 255], 0) := by decide +kernel

/-! ## Remote tiles, ticks, leases -/

/-- Package 1 with port 0 up; all other packages are reached through it. -/
def linked (s : State) : State := { s with pkgId := some 1, ports := s.ports.set 0 { enabled := true, up := true, lanes := 4, asym := 4, stranded := false } }
/-- A message from package 2 for package 1. -/
def msg (typ seq : Nat) (words : List Word) : LinkMsg :=
  { common := word (typ * 2 ^ 60 + 2 * 2 ^ 50 + 1 * 2 ^ 40 + seq * 2 ^ 24), words := words, pmap := [], payload := [] }
theorem witness_reachable : Reachable (linked (tileAt id)) 2 ∧ Received (linked (tileAt id)) (msg 4 0 [5]) 4 ∧ Received (linked (tileAt id)) (msg 2 9 []) 2 := by
  unfold Reachable Received; decide +kernel

/-- `msend` of m1, four rows of eight FP16 columns, to m9 of address space 3 in partition 4 of package 2. -/
def sendAt : State := linked (tileAt fun t => { regs3 (word (7 * 2 ^ 48 + 3 * 2 ^ 32 + 2 * 2 ^ 22 + 4 * 2 ^ 16 + 9)) 0 0 t with tshape := 0x400804 })
theorem witness_msend : (sendAt.t.reg 1).extractLsb' 9 7 = 0 ∧ sendAt.t.shape.ok = true ∧ colsFit half.ety sendAt.t.shape.cols = true ∧
    (sendAt.win (destPkg (sendAt.t.reg 1))).unacked.length < 32 ∧ destPkg (sendAt.t.reg 1) = 2 := by decide +kernel
theorem witness_mwait : Holds (tileAt id) 1 half ∧ (∃ e, HasEntry (tileAt id) 5 e ∧ entV e = false) ∧ (tileAt fun t => { t with stall := .mwait 1 }).t.stall = .mwait 1 :=
  ⟨holds_m1, witness_mput_new, rfl⟩
theorem witness_window_open : ((tileAt fun t => { t with stall := .msendWindow 2 }).win 2).unacked.length < 32 := by decide

/-- A TILE of one FP16 element for m5 of partition 0, address space 1, tag 7. -/
def oneTile (seq : Nat) : LinkMsg :=
  { common := word (1 * 2 ^ 60 + 2 * 2 ^ 50 + 1 * 2 ^ 40 + seq * 2 ^ 24 + 2 * 2 ^ 8), words := [word (1 * 2 ^ 48 + 5 * 2 ^ 33 + 0x10 * 2 ^ 27), 7, 0], pmap := []
    payload := 0x34 :: 0x12 :: List.replicate 62 0 }
def registered (first last : Nat) : State := { linked (tileAt id) with rxRegs := [{ part := 0, asid := 1, tag := 7, base := 0x1000000, first := first, last := last }] }
theorem witness_tile : (registered 5 5).tileBad (oneTile 0) = false ∧ msgSeq (oneTile 0) = (registered 5 5).expected (msgSrc (oneTile 0)) ∧
    (registered 5 5).registration (oneTile 0) = some { part := 0, asid := 1, tag := 7, base := 0x1000000, first := 5, last := 5 } ∧ tileReg (oneTile 0) = 5 ∧
    etyOf (tileCode (oneTile 0)) = some .fp16 ∧ colsFit .fp16 (tileCols (oneTile 0)) = true ∧
    (registered 5 5).activeSlot { part := 0, asid := 1, base := 0x1000000 } = some (registered 5 5).cur := by decide +kernel
theorem witness_tile_refused : (linked (tileAt id)).registration (oneTile 0) = none ∧
    ((registered 6 511).registration (oneTile 0)).map (fun r => decide ((tileReg (oneTile 0)).toNat < r.first)) = some true ∧
    ((registered 0 4).registration (oneTile 0)).map (fun r => decide (r.last < (tileReg (oneTile 0)).toNat)) = some true := by decide +kernel
/-- The sequence numbers just before and just after the one expected. -/
theorem witness_tile_order : (msgSeq (oneTile 0xFFFF) - (registered 5 5).expected (msgSrc (oneTile 0xFFFF))).msb = true ∧
    msgSeq (oneTile 1) ≠ (registered 5 5).expected (msgSrc (oneTile 1)) ∧ (msgSeq (oneTile 1) - (registered 5 5).expected (msgSrc (oneTile 1))).msb = false := by
  decide +kernel
theorem test_tile_payload : payloadElem 16 1 (oneTile 0).payload.toArray 0 0 = 0x1234 := by decide +kernel

/-- One message of the thread in hand awaits an answer from package 2; `r` resends have gone out, BUSY has come back for `b`. -/
def sent1 : Sent := { seq := 9, msg := { common := word (1 * 2 ^ 60 + 1 * 2 ^ 50 + 2 * 2 ^ 40 + 9 * 2 ^ 24), words := [0, 0, 0], pmap := [], payload := [] }, uid := 0, ord := 0, injected := true }
def awaiting (r : Nat) (b : Option (BitVec 16)) : State :=
  { linked (tileAt id) with tx := [{ dest := 2, next := 10, unacked := [sent1], resends := r, backoff := b }] }
theorem witness_tack : ({ dest := 2, next := 10, unacked := [sent1], resends := 0, backoff := none } : TxWin) ∈ (awaiting 0 none).tx ∧
    Received (awaiting 0 none) (msg 2 9 []) 2 ∧ msgSrc (msg 2 9 []) = 2 := by unfold Received; decide +kernel
theorem witness_tnak : ∀ reason ∈ [0, 1, 2, 3, 5], Received (awaiting 0 none) (msg 3 9 [word (reason * 2 ^ 60)]) 3 ∧
    reason = ((msgWord (msg 3 9 [word (reason * 2 ^ 60)]) 1).extractLsb' 60 4).toNat ∧
    (((awaiting 0 none).win 2).unacked.find? fun y => y.injected && y.seq == msgSeq (msg 3 9 [word (reason * 2 ^ 60)])) = some sent1 ∧
    (awaiting 0 none).t.task.map (·.uid) = some sent1.uid ∧ ∀ a ∈ (awaiting 0 none).t.pend, a.cause ≠ .remoteNak := by unfold Received; decide +kernel
theorem witness_resend : (∀ x ∈ ((awaiting 3 none).win 2).unacked, ((x.msg.common.extractLsb' 40 10).toNat : Nat) = 2) ∧
    ((awaiting 3 none).win 2).unacked.any (·.injected) = true ∧ ((awaiting 3 none).win 2).resends < 4 ∧ 4 ≤ ((awaiting 4 none).win 2).resends ∧
    ((awaiting 0 (some 9)).win 2).backoff = some 9 := by decide +kernel

/-- Neighbour 2 on port 0 is upstream, and a TSYNC of tick 100 is in flight. -/
def ticking (joined : Bool) : State :=
  { linked (bound id) with tick := 140, ts := { State.reset.ts with upstream := some 2, sent := some 100, joined := joined } }
theorem witness_tsync_period : (ticking true).pkgId = some 1 ∧ (ticking true).ts.config = none ∧ (ticking true).ts.upstream = some 2 ∧ Reachable (ticking true) 2 := by unfold Reachable; decide
/-- Answers that put the package 10 ns behind, and 2 µs behind. -/
theorem witness_tsyncr : Received (ticking true) (msg 5 0 [100, 130, 130, 4]) 5 ∧ (msgWord (msg 5 0 [100, 130, 130, 4]) 4).extractLsb' 32 32 = 0 ∧
    (ticking true).ts.sent = some (msgWord (msg 5 0 [100, 130, 130, 4]) 1) ∧ ((130 - 100 : Word).toInt - (140 - 130 : Word).toInt) / 2 = 10 ∧
    Received (ticking false) (msg 5 0 [100, 2120, 2120, 4]) 5 ∧ (ticking false).nextLaunch = 1 ∧
    1000 < ((2120 - 100 : Word).toInt - (140 - 2120 : Word).toInt) / 2 := by unfold Received; decide +kernel
theorem witness_synced : 10000000 < ({ ticking true with ts := { State.reset.ts with err := 11 } } : State).errBound ∧
    ({ ticking true with ts := { State.reset.ts with err := 10, joined := true, lastGood := 140 } } : State).errBound ≤ 10000000 := by decide

theorem witness_tick_config : ({ ticking true with ts := { (ticking true).ts with config := some (true, [4, 5]) } } : State).ts.config = some (true, [4, 5]) := rfl

/-- A lender with two free units from 64 MiB on; LREQ of both by package 2, lease 5 of partition 35. -/
def lender : State := { linked (bound id) with lendable := [(1, 2)] }
def lreq (units : Nat) : LinkMsg := msg 6 0 [word (5 * 2 ^ 32 + (units - 1) * 2 ^ 18 + 35 * 2 ^ 12)]
theorem witness_lreq : Received lender (lreq 2) 6 ∧ (msgWord (lreq 2) 1).extractLsb' 0 12 = 0 ∧ ((msgWord (lreq 2) 1).extractLsb' 12 6).toNat ≤ 35 ∧
    ((msgWord (lreq 2) 1).extractLsb' 18 14).toNat + 1 = 2 ∧ lender.lendSpan 2 = some 1 ∧ 1 < 2 ^ 14 ∧ lender.freeLease = some 0 ∧ lender.lendSpan 3 = none := by
  unfold Received; decide +kernel
/-- A borrowed or lent entry of package 2, lease 5, in a state. -/
def entryIn (st : Nat) (lent draining : Bool) : Lease := { entry := leaseEntry st 2 35 5 1 2 lent, deadline := 1000, drop := false, draining := draining }
/-- With a span to lend, but all 256 entries taken. -/
theorem witness_lease_table_full : ({ lender with leases := (List.range 256).map fun i => (i, entryIn 0 false false) } : State).lendSpan 2 = some 1 ∧
    ({ lender with leases := (List.range 256).map fun i => (i, entryIn 0 false false) } : State).freeLease = none := by decide +kernel
def leasing (l : Lease) : State := { linked (bound id) with leases := [(0, l)] }
theorem witness_lgrant : (leasing (entryIn 0 false false)).leaseBy (msg 7 0 [word (5 * 2 ^ 32 + 3 * 2 ^ 18)]) false (· == 0) = some (0, entryIn 0 false false) ∧
    Received (leasing (entryIn 0 false false)) (msg 7 0 [word (5 * 2 ^ 32 + 3 * 2 ^ 18)]) 7 ∧
    (msgWord (msg 7 0 [word (5 * 2 ^ 32 + 3 * 2 ^ 18)]) 1).extractLsb' 0 18 = 0 ∧ Reachable (leasing (entryIn 0 false false)) (entryIn 0 false false).peer ∧
    Received (leasing (entryIn 0 false false)) (msg 8 0 [word (5 * 2 ^ 32 + 2 ^ 28)]) 8 ∧ ((msgWord (msg 8 0 [word (5 * 2 ^ 32 + 2 ^ 28)]) 1).extractLsb' 28 4).toNat ≤ 1 := by
  unfold Received Reachable; decide +kernel
theorem witness_lrevoke : (leasing (entryIn 1 false false)).leaseBy (msg 9 0 [word (5 * 2 ^ 32), 1000]) false (· == 1) = some (0, entryIn 1 false false) ∧
    Received (leasing (entryIn 1 false false)) (msg 9 0 [word (5 * 2 ^ 32), 1000]) 9 ∧
    (∀ tid ∈ (leasing (entryIn 1 false false)).slots, ((leasing (entryIn 1 false false)).thread tid).ntf = false) := by unfold Received; decide +kernel
theorem witness_lease_steps : (leasing (entryIn 1 false false)).lease? 0 = some (entryIn 1 false false) ∧ (entryIn 1 false false).v = true ∧
    (entryIn 1 false false).lent = false ∧ (entryIn 1 false false).st = 1 ∧ (entryIn 2 false false).st = 2 ∧ (entryIn 2 false false).draining = false ∧
    (entryIn 2 false true).draining = true ∧ (leasing (entryIn 2 false true)).leaseQuiet 35 = true ∧
    (∀ d < 9, ((leasing (entryIn 2 false true)).getDie d).l2 = []) ∧ (entryIn 2 true false).lent = true := by decide +kernel
theorem witness_lreleased : (leasing (entryIn 2 true false)).leaseBy (msg 10 0 [word (5 * 2 ^ 32)]) true (fun st => st == 1 || st == 2) = some (0, entryIn 2 true false) ∧
    Received (leasing (entryIn 2 true false)) (msg 10 0 [word (5 * 2 ^ 32)]) 10 := by unfold Received; decide +kernel


/-! ## Requests of other packages, ports -/

theorem witness_link_requests : 64 ≤ 256 ∧ (leasing (entryIn 1 true false)).reaches 2 = true ∧ (leasing (entryIn 1 true false)).lentTo 2 0x4000000 256 = some (entryIn 1 true false) ∧
    (leasing (entryIn 1 true false)).lentTo 2 0x3FFFFF8 256 = none ∧
    reqOk 0x4000000 (.read 32) = false ∧ reqBytes (.read 256) = 256 ∧
    (leasing (entryIn 1 true false)).lentTo 2 0x4000008 8 = some (entryIn 1 true false) ∧
    ((leasing (entryIn 1 true false)).lentRead (entryIn 1 true false).part 0x4000008 8).2.1 = false ∧ 0x4000008 % 8 = 0 ∧ (leasing (entryIn 1 true false)).poison = [] ∧
    memWf (leasing (entryIn 1 true false)).mem = true ∧ amoOf 0 0 = some .add ∧
    AmoOp.add.new 64 (leNat (memReadN (leasing (entryIn 1 true false)).mem 0x4000008 8)) ((7 : Word).toNat % 2 ^ 64) = some 7 := by decide +kernel
/-- A request that a task or a write-back has sent and that awaits its answer. -/
def answering (who : Asker) : State := { bound (fun t => { t with stall := .lease }) with asks := [{ tag := 3, who := who, part := 0, req := { dest := 2, offset := 0x4000000, req := .read 64 }, reply := none }] }
theorem witness_completion (who : Asker) : ((answering who).asks.find? fun x => x.tag == 3 && x.reply.isNone).map (·.who) = some who := rfl
/-- Ports 0 and 3 are up; all destinations are on port 0. -/
def twoPorts : State := { linked (bound id) with ports := ((linked (bound id)).ports.set 3 { enabled := true, up := true, lanes := 4, asym := 4, stranded := false }) }
theorem witness_ports : (0 : Nat) < 16 ∧ (twoPorts.port 0).up = true ∧ 3 < 16 ∧ 3 ≠ 0 ∧ (twoPorts.port 3).up = true ∧ (∀ j < 3, j ≠ 0 → (twoPorts.port j).up = false) ∧
    (twoPorts.port 0).enabled = true ∧ 1 < (twoPorts.port 0).lanes := by decide
theorem test_lanes_halve : ((after (.ualinkLaneFailure 0) twoPorts).port 0).lanes = 2 := by decide

/-! ## Steps of a core -/

theorem witness_issue : inIssue.t.task = some placedTask ∧ placedTask.translator = false ∧ inIssue.t.ending = false ∧ inIssue.t.preempt = false ∧ inIssue.t.pend = [] ∧
    inIssue.t.stall = .none ∧ inIssue.t.skip = none ∧ inIssue.t.lineBuf = some (lineAddr inIssue.t.pc, haltLine) ∧
    lineValues haltLine = some haltValues ∧ (inIssue.t.pc.extractLsb' 1 5).toNat < haltValues.length ∧
    convoyBad inIssue.act haltValues (inIssue.t.pc.extractLsb' 1 5).toNat = none ∧
    convoyOf (haltValues.drop (inIssue.t.pc.extractLsb' 1 5).toNat) = some haltConvoy ∧ haltConvoy[inIssue.t.member]? = some (haltConvoy.headD 0) ∧
    decode inIssue.act (haltConvoy.headD 0) = .instr .halt := by decide +kernel
/-- A thread at a boundary with two pending causes and a handler. -/
def delivering : State := bound fun t =>
  { t with xvec := 0x8000, pend := [{ cause := .leaseRevoke, xaddr := 1000, xelem := 5, reg := 0 }, { cause := .spillFault, xaddr := 0x2000000, xelem := 9, reg := 0 }] }
theorem witness_delivery : ({ cause := .spillFault, xaddr := 0x2000000, xelem := 9, reg := 0 } : Async) ∈ delivering.t.pend ∧
    (∀ b ∈ delivering.t.pend, b ≠ { cause := .spillFault, xaddr := 0x2000000, xelem := 9, reg := 0 } → Cause.spillFault.code < b.cause.code) ∧
    delivering.t.inh = false ∧ delivering.t.xvec ≠ 0 ∧ delivering.t.stall = .none ∧ delivering.t.member = 0 ∧
    delivering.t.ending = false ∧ delivering.t.resumed = false ∧ delivering.t.skip = none ∧ delivering.entryRuns delivering.cur = false := by
  decide +kernel
theorem test_delivery_takes_the_lowest : (fun t : State => (t.t.xcause, t.t.xelem, t.t.pc, t.t.pend.length)) (after (.asyncDelivery 0) delivering) =
    (0x8000000000000000 + Cause.spillFault.code.setWidth 64, 9, 0x8000, 1) := by decide +kernel
theorem witness_preemption : (bound fun t => { t with preempt := true }).t.preempt = true ∧ (bound fun t => { t with preempt := true }).t.atBoundary = true ∧
    (bound fun t => { t with preempt := true }).entryRuns 0 = false ∧ (bound fun t => { t with preempt := true }).t.changedGroups = [] ∧
    (bound fun t => { t with preempt := true }).t.resumed = false ∧ (bound fun t => { t with preempt := true }).t.ending = false ∧
    (bound fun t => { t with preempt := true }).saveFor = some 0 := by decide +kernel
/-- A tile entry of slot 0 in a state. -/
def queued (st : TqState) (fault : Option (Cause × Word × Word)) : State := (tileAt id).modCore 0 fun k =>
  { k with tileq := [{ tid := 0, instr := .mzero 5 0x10, st := st, fills := [], uses := [1, 5], fault := fault }] }
theorem witness_tile_queue : (queued .resolved none).entry? (queued .resolved none).cur =
      some { tid := 0, instr := .mzero 5 0x10, st := .resolved, fills := [], uses := [1, 5], fault := none } ∧
    (queued .resolved none).canStart (queued .resolved none).cur = true ∧
    ((queued .executing none).entry? 0).map (·.st) = some .executing ∧
    ((queued .faulted (some (.fillFault, 0x2000000, 1))).entry? 0).map (fun e => (e.st, e.fault)) = some (.faulted, some (.fillFault, 0x2000000, 1)) ∧
    (queued .resolved none).t.ending = false := by decide +kernel

theorem packed_length (w : Nat) (f : Nat → Nat → Nat) (l : List Nat) : (l.flatMap fun g => packEight w (f g)).length = l.length * w := by
  induction l with
  | nil => simp
  | cons a l ih => rw [List.flatMap_cons, List.length_append, ih, packEight, leBytes_length, List.length_cons, Nat.succ_mul, Nat.add_comm]
theorem tileBytes_length (s : State) (t : Tile) : (tileBytes s t).length = 512 * backWidth s t :=
  (packed_length _ _ _).trans (by rw [List.length_range])
theorem witness_map_fill : unfilled.t.tmapbase ≠ 0 ∧ unfilled.t.task.isSome = true ∧ unfilled.t.line? 9 = none ∧ unfilled.awaits (.map unfilled.t.uid 9) = false ∧
    ∃ s1, (fsePlaces unfilled.t.ctx unfilled.t.sup (unfilled.t.tmapbase + word (64 * ((9 : MReg).toNat / 4))) 64).run
      { unfilled with agent := some (.map unfilled.t.uid 9) } = (.ok (hbms 0x400080 64), s1) :=
  ⟨by decide, by decide, by decide, by decide, _, of_places (by decide +kernel)⟩
/-- A version of m6, of CB4, that is being filled, and one that is being spilled. -/
def moving (filling spilling : Bool) : TileSet :=
  { ctx := { part := 0, asid := 1, base := 0x1000000 }, reg := 6, tile := zeroTile (.cb4 0), dirty := spilling, lastUsed := false, filling := filling, hinted := false
    spilling := spilling, blocked := none, granules := [0], job := 0 }
def movingAt (filling spilling : Bool) : State := unfilled.modCore 0 fun k => { k with sets := [moving filling spilling] }
theorem moving_places (b c : Bool) : ∃ s1, (fsePlaces (moving b c).ctx (movingAt b c).t.sup (backAddr (moving b c).ctx.base 6) 2048).run
    { movingAt b c with agent := some (.tiles (moving b c).job) } = (.ok (hbms 0x420000 2048), s1) :=
  ⟨_, placesGo_from _ _ 2047 0x420000 _ _ (of_first (by cases b <;> cases c <;> decide +kernel)) (by cases b <;> cases c <;> decide +kernel) (by decide)⟩
theorem witness_fill : (movingAt true false).fillOf (movingAt true false).cur 6 = some (moving true false) ∧ (moving true false).reg = 6 ∧
    (moving true false).ctx = (movingAt true false).t.ctx ∧ (movingAt true false).activeSlot (moving true false).ctx = some (movingAt true false).cur ∧
    (moving true false).tile.ety = .cb4 0 ∧ (moving true false).tile.narrow = none ∧ (ETy.cb4 0).bytes = 2048 ∧ (movingAt true false).t.checked = none ∧
    moving true false ∈ ((movingAt true false).getCore (movingAt true false).core).sets ∧ ((movingAt true false).getCore (movingAt true false).core).gone = [] :=
  ⟨by rfl, by decide, by decide, by decide, by decide, by decide, by decide, by decide, .head _, by decide⟩
theorem witness_spill : (movingAt false true).spillOf (movingAt false true).cur 6 = some (moving false true) ∧ (moving false true).reg = 6 ∧
    (moving false true).ctx = (movingAt false true).t.ctx ∧ (movingAt false true).activeSlot (moving false true).ctx = some (movingAt false true).cur ∧
    memWf (movingAt false true).mem = true ∧ (∃ l, (movingAt false true).t.line? 6 = some l) ∧
    (tileBytes (movingAt false true) (moving false true).tile).length = 2048 ∧ (hbms 0x420000 2048).all plainPlace = true ∧ ((hbms 0x420000 2048).map keyOf).Nodup :=
  ⟨by rfl, by decide, by decide, by decide, by decide, ⟨_, rfl⟩, (tileBytes_length _ _).trans (by rfl), hbms_plain _ _, hbms_nodup _ _⟩
/-- The state in which a dirty version is spilled: nothing is in the accumulator bank, and counter 28 has counted it. -/
theorem witness_spill_dirty : findSet ((movingAt false true).getCore (movingAt false true).core).sets (moving false true).ctx 6 = some (moving false true) ∧
    (moving false true).dirty = true ∧ (movingAt false true).tileOf (movingAt false true).core (moving false true).ctx 6 = some (moving false true).tile ∧
    ((movingAt false true).getCore (movingAt false true).core).acc = none ∧
    ∃ s1, (fsePlaces (moving false true).ctx (movingAt false true).t.sup (backAddr (moving false true).ctx.base 6) 2048).run
      (({ movingAt false true with agent := some (.tiles (moving false true).job) } : State).count (moving false true).ctx.part 28 1) = (.ok (hbms 0x420000 2048), s1) :=
  ⟨rfl, rfl, rfl, rfl, _, placesGo_from _ _ 2047 0x420000 _ _ (of_first (by decide +kernel)) (by decide +kernel) (by decide)⟩
/-- A thread that waits for a vector unit, both free, and one that both units' holders keep waiting. -/
def unitWaiter : State := bound fun t => { t with stall := .vectorUnit 10 }
def starving : State := (unitWaiter.modCore 0 fun k =>
  { k with unit0 := { k.unit0 with holder := some 1, acquired := 5 }, unit1 := { k.unit1 with holder := some 2, acquired := 3 } })
theorem witness_unit : unitWaiter.t.stall = .vectorUnit 10 ∧ unitWaiter.firstWaiter unitWaiter.core = some unitWaiter.cur ∧
    unitWaiter.mayTake unitWaiter.cur 0 = true ∧ (unitWaiter.getCore unitWaiter.core).unit0.available = true ∧ starving.firstWaiter starving.core = some starving.cur ∧ 2 ≠ starving.cur ∧
    (starving.cycleTo (10 + 65536)).starveVictim starving.cur = some 2 := by decide +kernel
/-- A partition whose save record 0 lies at 2^30. -/
def framePart : Partition := Partition.fresh 0 0xFFFFFFFFF (2 ^ 30 - Config.saveBase 0 % 768 * saveStep) bootMemBytes
/-- A resumed thread whose frame holds no element and the stream of `bound3` at position 2. -/
def resumed : State :=
  let s := bound3.modT fun t => { t with stall := .vectorRestore, save := some 0, streams := t.streams.map fun st => { st with pos := 2 } }
  { s with parts := [framePart]
           mem := memWriteN (memWriteN s.mem (2 ^ 30 + Machine.recordBytes + 48) (leBytes 16 (2 ^ 53 + (192 * 2 ^ 32 + 2 ^ 24) * 2 ^ 64)))
             (2 ^ 30 + Machine.recordBytes + 176) (leBytes 16 ((win 64).toNat + 2 * 2 ^ 64 + 3 * 2 ^ 96)) }
theorem resumed_saveAddr : resumed.saveAddr resumed.t.part 0 = 2 ^ 30 := by
  have hp : resumed.part? resumed.t.part = some framePart := rfl
  have ht : resumed.t.part = 0 := rfl
  rw [State.saveAddr, hp, ht]
  simp only [Option.map_some, Option.getD_some, Nat.add_zero, framePart, Partition.fresh]
  have h : Config.saveBase 0 % 768 * saveStep ≤ 767 * saveStep := Nat.mul_le_mul_right _ (by omega)
  have : 767 * saveStep ≤ 2 ^ 30 := by decide
  omega
/-- What VECTOR_STATE_RESTORE reads of its frame. -/
def readsHeader : State × List Byte := (resumed.modT fun t => { t with stall := .none }).readOwn 0 (2 ^ 30 + Machine.recordBytes) 64
def readsFrame : State × List Byte := readsHeader.1.readOwn 0 (2 ^ 30 + Machine.recordBytes) (frameLen (wordsOf readsHeader.2))
theorem witness_restore : resumed.t.stall = .vectorRestore ∧ resumed.t.save = some 0 ∧ resumed.t.part = 0 ∧
    headerBad (wordsOf readsHeader.2) = false ∧ entriesBad (wordsOf readsFrame.2) = false ∧ frameStreamsN (wordsOf readsFrame.2) = 1 ∧
    ∃ l s1, (frameStreams (wordsOf readsFrame.2) (List.range (frameStreamsN (wordsOf readsFrame.2)))).exec readsFrame.1 = (.ok l, s1) :=
  ⟨rfl, rfl, rfl, by decide +kernel, by decide +kernel, by decide +kernel, runs_of (by decide +kernel)⟩

/-! ## The control page -/

/-- Partition 0 has address space 1 selected and assigned, and a low lease word of two units. -/
def paged : State := { linked (tileAt id) with
  asids := [{ asid := 1, part := 0, valid := false, root := 0 }], parts := [{ Partition.fresh 0 0xFFFFFFFFF 0 bootMemBytes with asidSel := 1, leaseLow := 0x400000 }] }
theorem witness_partition : ∃ p, paged.part? 0 = some p ∧ p.id = 0 ∧ p.asidSel.extractLsb' 0 16 = 1 ∧ p.pairs.getLsbD 0 = true ∧
    paged.lease? (p.leaseIdx.toNat % 256) = none := ⟨_, rfl, by decide⟩
theorem witness_asid_root : (∃ e ∈ paged.asids, e.asid = 1 ∧ e.part = 0) ∧ (paged.asids.map (·.asid)).Nodup := by decide
theorem witness_kept : ((0x000 : Nat), (0xFFFFFFFFFFFFFFFF : Word)) ∈ ctlKept ∧ ((0x0F8 : Nat), (0xFFFFFFFFFFFFFFFF : Word)) ∈ ctlKept ∧ (0x110 ≤ 0xFF8 ∧ 0xFF8 < 0x1000) := by decide
/-- A new borrowed entry: lease 5 of package 2 for partition 0. -/
theorem witness_lease_entry : leaseOk ((0x8008000000000005 : Word) ++ (0x400000 : Word)) = true ∧
    ({ entry := (0x8008000000000005 : Word) ++ (0x400000 : Word), deadline := 0, drop := false, draining := false } : Lease).v = true ∧
    ({ entry := (0x8008000000000005 : Word) ++ (0x400000 : Word), deadline := 0, drop := false, draining := false } : Lease).lent = false ∧
    ({ entry := (0x8008000000000005 : Word) ++ (0x400000 : Word), deadline := 0, drop := false, draining := false } : Lease).st = 0 ∧
    Reachable paged ({ entry := (0x8008000000000005 : Word) ++ (0x400000 : Word), deadline := 0, drop := false, draining := false } : Lease).peer := by
  unfold Reachable; decide +kernel
/-- The translator's queue and cache: a module of 32 bytes at the window's start, asked for with H = 1, its translation kept or not. -/
def moduleHead : List Byte := leBytes 32 (32 * 2 ^ 32)
def requesting (cache : List TransEntry) : State := { bound id with
  mem := memWriteN [] (2 ^ 53) moduleHead
  parts := [{ Partition.fresh 0 0xFFFFFFFFF 0 bootMemBytes with transVa := win 0, transCache := cache }] }
def askingH (cache : List TransEntry) : State := (requesting cache).modPart 0 fun q => { q with transH := 1 &&& 63 }
theorem of_module {r : Except Nat (List Byte) × State} {bs : List Byte} (h : (match r.1 with | .ok q => q == bs | .error _ => false) = true) : r = (.ok bs, r.2) := by
  obtain ⟨r, s⟩ := r
  cases r <;> simp_all
theorem witness_translation_request (cache : List TransEntry) (hc : cache = [] ∨ cache = [{ key := transKeyOf moduleHead (requesting []).gen 1, pa := 0x2000000, bytes := 64 }]) :
    ∃ p s1 s2, (requesting cache).part? 0 = some p ∧ p.id = 0 ∧ (1 : Word) &&& 63 ≠ 0 ∧ ((1 : Word) &&& 63).toNat ≤ 32 ∧ p.transCache = cache ∧
      (moduleBytes p.transVa 32).run (askingH cache) = (.ok moduleHead, s1) ∧
      (moduleBytes p.transVa (leNat ((moduleHead.drop 4).take 4))).run s1 = (.ok moduleHead, s2) := by
  rcases hc with rfl | rfl
  · exact ⟨_, ((moduleBytes (win 0) 32).run (askingH [])).2, _, rfl, rfl, by decide, by decide, rfl, of_module (by decide +kernel), of_module (by decide +kernel)⟩
  · exact ⟨_, ((moduleBytes (win 0) 32).run (askingH _)).2, _, rfl, rfl, by decide, by decide, rfl, of_module (by decide +kernel), of_module (by decide +kernel)⟩
/-- With no entry every entry has another key; the one entry is found by its key. -/
theorem witness_translation_cache : (∀ e ∈ ([] : List TransEntry), e.key ≠ transKeyOf moduleHead (requesting []).gen 1) ∧
    ([{ key := transKeyOf moduleHead (requesting []).gen 1, pa := 0x2000000, bytes := 64 }] : List TransEntry).find? (fun x => x.key == transKeyOf moduleHead (requesting []).gen 1) =
      some { key := transKeyOf moduleHead (requesting []).gen 1, pa := 0x2000000, bytes := 64 } := ⟨fun _ h => (nomatch h), by simp⟩
theorem witness_request_words : (1 : Word).getLsbD 0 = true ∧ ((0 : Word) &&& 63 = 0) ∧ 32 < ((33 : Word) &&& 63).toNat := by decide
/-- A module of no blocks, accepted; its image comes to lie behind the save records of partition 0. The translator of partition 0 is the thread in hand. -/
def moduleJob : TransJob := { key := 0, h := 1, code := moduleHead, bad := none }
def translating : State := { bound (fun t => { t with task := some { placedTask with translator := true } }) with
  parts := [{ Partition.fresh 0 0xFFFFFFFFF 0 bootMemBytes with transState := 1, transJobs := [moduleJob] }] }
theorem witness_translation : translating.t.task = some { placedTask with translator := true } ∧
    (∃ p, translating.part? 0 = some p ∧ p.transState = 1 ∧ p.transJobs.head? = some moduleJob ∧ translating.translated p moduleJob (translating.translation moduleJob) 0 (1016 * 32768) = true) ∧
    (translating.bound.find? fun x => x.2.translator && x.2.part == 0) = some (translating.cur, { placedTask with translator := true }) ∧
    (translating.part? 0).map (·.transState) = some 1 := by
  refine ⟨by decide +kernel, ⟨_, rfl, by decide, rfl, ?_⟩, by decide +kernel, by decide +kernel⟩
  rw [State.translated, beq_self_eq_true]
  decide +kernel
/-- `tmaprx` with V = 0, with V = 1 for all 512 registers, and with LAST below FIRST. -/
def mapRx (v : Word) : State := { boundSup (fun t => { regs3 v 0 0 t with tmapbase := 0x1000000 }) with rxRegs := [] }
theorem witness_tmaprx : (mapRx 0).t.sup = true ∧ (mapRx 0).t.tmapbase ≠ 0 ∧ (mapRx 0).t.part = 0 ∧ ((mapRx 0).part? 0).map (fun p => p.pairs.getLsbD 0) = some true ∧
    ((mapRx 0).t.reg 1 &&& 0x8000FFFF0003FFFF).getLsbD 63 = false ∧ ((mapRx 0x800000070003FE00).t.reg 1 &&& 0x8000FFFF0003FFFF).getLsbD 63 = true ∧
    ((0x800000070003FE00 : Word).extractLsb' 0 9).toNat ≤ ((0x800000070003FE00 : Word).extractLsb' 9 9).toNat ∧
    ((0x8000000700000001 : Word).extractLsb' 9 9).toNat < ((0x8000000700000001 : Word).extractLsb' 0 9).toNat := by decide +kernel
theorem test_tmaprx_registers : ((after (.tmaprxWrite .write 1) (mapRx 0x800000070003FE00)).rxRegs.map fun r => (r.tag, r.first, r.last)) = [(7, 0, 511)] := by decide +kernel

/-! ## The distributor -/

/-- One pending task of a launch that no core runs yet. -/
def offering : State := { State.reset with launches := [{ launch2 with stages := [{ stage2 with barf := 0 }] }], pending := [Pending.fresh (task2 1)] }
theorem witness_place : offering.pending = [Pending.fresh (task2 1)] ∧ (task2 1).mapSlot = none ∧ offering.pickDie (task2 1) ((task2 1).heat == 2) true = some (0, 0) ∧
    offering.freeSlot 0 [] = some 0 ∧ offering.awaits (task2 1).poolAsker = false ∧ memWf offering.mem = true ∧ (offering.part? 0).all (fun p => !p.closing) = true ∧
    ((task2 1).launch.bind offering.launch?).map (fun l => l.stages.map fun st => (st.tiles, st.tlim)) = some [(false, 0)] := by decide +kernel
/-- A quarter of core 9 in a state, lent to the launch of the first task. -/
def quarterAt (st : QState) : State := (pair .none .none).modCore 9 fun k => { k with quarters := k.quarters.set 3 { st := st, launch := some 1, split := 0 } }
theorem witness_quarters : QuarterIs (quarterAt .reserved) 9 3 .reserved ∧ (quarterAt .reserved).quarterUsed 9 3 = false ∧ QuarterIs (quarterAt .draining) 9 3 .draining ∧
    (quarterAt .draining).emptied 9 (ownRange 3) = true ∧ QuarterIs (quarterAt .reclaim) 9 3 .reclaim ∧ neighbour 9 3 = some 8 ∧
    (quarterAt .reclaim).emptied 8 (galleryRange 3) = true ∧ QuarterIs (quarterAt .scrub) 9 3 .scrub ∧ (∀ b, neighbour 9 3 = some b → (quarterAt .scrub).boundOn b = []) ∧
    memWf (quarterAt .scrub).mem = true := by
  unfold QuarterIs
  refine ⟨by decide +kernel, by decide +kernel, by decide +kernel, by decide +kernel, by decide +kernel, by decide, by decide +kernel, by decide +kernel, fun b hb => ?_, rfl⟩
  obtain rfl : 8 = b := Option.some.inj hb
  decide +kernel
/-- A gang whose tasks are bound and wait for GSTART, with time that is synchronised or not. -/
def gangAt (synced : Bool) : State := { pair .gang .gang with launches := [{ launch2 with gang := true, gstart := 1000, started := false }], synced := synced, ts := { State.reset.ts with joined := synced, master := true } }
theorem witness_gang : (gangAt true).launch? 1 = some { launch2 with gang := true, gstart := 1000, started := false } ∧ ((gangAt true).tickTo 1000).synced = true ∧
    (gangAt true).stagePending 1 0 = 0 ∧ (gangAt true).t.launch = some 1 ∧ (gangAt true).t.stall = .gang ∧ ((gangAt false).tickTo 1000).synced = false ∧
    (∀ p ∈ (gangAt false).pending, p.saved = none) := by decide
/-- A launch whose two tasks have ended. -/
def overAt : State := { State.reset with launches := [{ launch2 with stages := [{ stage2 with ended := 2 }], etick := some 5 }] }
theorem witness_over : overAt.launch? 1 = some { launch2 with stages := [{ stage2 with ended := 2 }], etick := some 5 } ∧
    overAt.launchOver { launch2 with stages := [{ stage2 with ended := 2 }], etick := some 5 } = true ∧ (∀ x ∈ overAt.sessions, x.part ≠ launch2.part) ∧
    (overAt.part? 0).isSome = true := by decide +kernel
/-- Die samples at the thresholds, and core currents at the ramp's. -/
theorem witness_epoch : [950].any (fun x => decide (950 ≤ x)) = true ∧ [920].any (fun x => decide (950 ≤ x)) = false ∧ [920].all (fun x => decide (x ≤ 920)) = true ∧
    [921].all (fun x => decide (x ≤ 920)) = false := by decide
theorem test_level_rises_and_falls : ((after (.dstEpoch 2) { State.reset with dies := State.reset.dies.set 2 { Die.reset with temps := Vector.replicate 16 950 } }).getDie 2).level = 1 ∧
    ((after (.dstEpoch 2) { State.reset with dies := State.reset.dies.set 2 { Die.reset with temps := Vector.replicate 16 920, level := 3, calm := 15 } }).getDie 2).level = 2 := by decide +kernel
theorem witness_governor : (17 : Nat) + 17 < 35 ∧ 34 ≤ 17 + 17 := by decide
/-- Partition 0 samples every 2^12 cycles into ring 0 of 256 entries. -/
def samplingPart : Partition := { Partition.fresh 0 0xFFFFFFFFF 0 bootMemBytes with
  pshift := 12, rings := (Partition.fresh 0 0xFFFFFFFFF 0 bootMemBytes).rings.set 0 { base := 0x10000, log2 := 8, head := 260, tail := 5 } }
def sampling : State := { bound id with parts := [samplingPart], now := 4096 - Config.cycleSkew 0 % 4096 }
theorem witness_sampling : sampling.cur < 2304 ∧ sampling.boundOn sampling.core = [(sampling.cur, placedTask)] ∧ sampling.t.task = some placedTask ∧
    sampling.part? placedTask.part = some samplingPart ∧ 12 ≤ samplingPart.pshift.toNat ∧ samplingPart.pshift.toNat ≤ 24 ∧
    vget samplingPart.rings 0 { base := 0, log2 := 0, head := 0, tail := 0 } = { base := 0x10000, log2 := 8, head := 260, tail := 5 } ∧
    ((260 : Word) - 5).toNat < 2 ^ 8 ∧ 0x10000 + 32 * (260 % 256) + 32 ≤ samplingPart.memPa + samplingPart.memBytes ∧ (0x10000 : Word).extractLsb' 0 12 = 0 := by decide +kernel
/-- The cycle count of the core has passed 4096 since the last sample. -/
theorem witness_samples : sampling.samplesDue sampling.core placedTask = 1 := by
  have h0 : (sampling.getCore 0).sampledAt = 0 := by decide
  have hc : sampling.core = 0 := by decide
  have hq : sampling.part? placedTask.part = some samplingPart := by decide +kernel
  have hp : samplingPart.pshift.toNat = 12 := by decide
  have hn : sampling.now = 4096 - Config.cycleSkew 0 % 4096 := rfl
  have hf : max placedTask.since samplingPart.pshiftAt = 0 := by decide
  rw [State.samplesDue, hq]
  simp only [hc, h0, hp, hf, hn]
  simp
  omega

/-! ## Messages of the host -/

/-- A session of partition `part` under the current version. -/
def sessionOf (part : Nat) : Session := { id := 1, part := part, ver := 3, received := [], expect := 9, frags := [], nextSeq := 1, unacked := [] }
def dkcp (typ part : Nat) (payload : List Byte) : DkcpMsg :=
  { magic := 0x4B44, ver := 3, typ := BitVec.ofNat 8 typ, part := BitVec.ofNat 6 part, rsvd := 0, ar := false, more := false, len := BitVec.ofNat 16 payload.length
    seq := 9, session := 1, payload := payload }
/-- A record of one stage with one task at 0x4000, in the address space 1 of partition 0 (Tables 4.1 to 4.3). -/
def recordNat : Nat := 7 + 2 ^ 64 + 1 * 2 ^ 336 + 1 * 2 ^ 512 + (0x4000 + 16 * 2 ^ 136) * 2 ^ 1024
def queue3 : Queue := { part := 0, qid := 3, base := 0x400000, size := 16, asid := 1, tail := 0, read := 0, unread := 0, session := 1 }
/-- An open session, queue 3 at the page of the placed word, and the record as its first entry. -/
def serving : State := { atHbm with sessions := [sessionOf 0], queues := [queue3], mem := memWriteN [] 0x200000 (leBytes 512 recordNat) }
theorem witness_launch : Arrives serving (dkcp 0x10 0 (launchPayload 3 1 0xFFFFFF 0)) 0x10 (sessionOf 0) ∧ serving.queue? 0 3 = some queue3 ∧ serving.waiting 0 3 = [] ∧
    serving.fences = [] ∧ serving.ts.ahead = false ∧ queue3.unread = 0 ∧ serving.awaits (.record 0 3) = false ∧ queue3.read = queue3.tail ∧
    1 < queue3.size ∧ queue3.tail < queue3.size ∧ (serving.part? 0).map (·.closing) = some false ∧ (queue3.tail + 1) % queue3.size = (1 : BitVec 32).toNat % queue3.size ∧ serving.qps = [] ∧
    (serving.part? 0).map (·.comps.length) = some 0 := by unfold Arrives; decide +kernel
theorem witness_launch_fenced : Arrives serving (dkcp 0x10 0 (launchPayload 3 1 9 4)) 0x10 (sessionOf 0) := by unfold Arrives; decide +kernel
/-- The state in which an accepted LAUNCH reads its record. -/
def launching : State := { serving with
  sessions := (serving.modSession 1 fun y => { y with received := keepNumbers 9 [9], expect := nextExpected (keepNumbers 9 [9]) (keepNumbers 9 [9]).length y.expect }).sessions
  nextFence := serving.nextFence + 1
  queues := serving.queues.map fun y => if y.part == 0 && y.qid == 3 then { y with session := 1, tail := 1, unread := y.unread + 1 } else y }
theorem of_record {r : Except Stop (Except Cause Nat) × State} {n : Nat}
    (h : (match r.1 with | .ok (.ok m) => m == n | _ => false) = true) : r = (.ok (.ok n), r.2) := by
  obtain ⟨r, s⟩ := r
  rcases r with _ | _ | _ <;> simp_all
theorem witness_record : (∃ s1, runAs (.record 0 3) (readRecordBytes queue3 0) launching = (.ok (.ok recordNat), s1)) ∧
    (∀ p, serving.part? 0 = some p → serving.recordFails recordNat (recLaunch recordNat serving.nextLaunch 0 3) p = false) ∧
    (recLaunch recordNat serving.nextLaunch 0 3).gang = false ∧ ((recLaunch recordNat serving.nextLaunch 0 3).stages.head?.map (·.entry)) = some 0x4000 ∧
    (recLaunch recordNat serving.nextLaunch 0 3).stage0Count = 1 := by
  refine ⟨⟨_, of_record (by decide +kernel)⟩, fun p hp => ?_, by decide +kernel, by decide +kernel, by decide +kernel⟩
  obtain rfl := Option.some.inj hp
  decide +kernel
/-- A LAUNCH that waits for PSN 4 of queue pair 9, whose last committed PSN is `n`. -/
def fence9 : FenceWait := { n := 0, session := 1, part := 0, qid := 3, tail := 1, qpn := 9, psn := 4 }
def qp9 (next : BitVec 24) : Qp := { qpn := 9, part := 0, remote := 77, mtu := 1, addr := (0, 0), sendPsn := 0, recvPsn := next, error := false }
def fencing (next : BitVec 24) : State := { serving with fences := [fence9], nextFence := 1, qps := [qp9 next] }
theorem witness_launch_fence : fence9 ∈ (fencing 5).fences ∧ (∀ g ∈ (fencing 5).fences, g.n = fence9.n → g = fence9) ∧ (fencing 5).waiting 0 3 = [fence9] ∧
    (fencing 5).queue? 0 3 = some queue3 ∧ qp9 5 ∈ (fencing 5).qps ∧ (((qp9 5).recvPsn - 1 - fence9.psn).msb = false) ∧ (fencing 4).fenceMet fence9 = false ∧
    (fencing 4).session? fence9.session = some (sessionOf 0) ∧ (sessionOf 0).ver = 3 := by decide +kernel
theorem witness_fence_record : ∃ s1, runAs (.record 0 3) (readRecordBytes queue3 queue3.tail)
    (((fencing 5).dropFence 0).modQueue 0 3 fun x => { x with tail := (queue3.tail + 1) % queue3.size, unread := x.unread + 1 }) = (.ok (.ok recordNat), s1) :=
  ⟨_, of_record (by decide +kernel)⟩
/-- ABORT of launch 7 of queue 3, whose task is the thread in hand. -/
def aborting : State := { pair .none .none with launches := [{ launch2 with qid := 3 }], sessions := [sessionOf 0] }
theorem witness_abort : Arrives aborting (dkcp 0x12 0 (leBytes 8 3 ++ leBytes 8 7)) 0x12 (sessionOf 0) ∧ ({ launch2 with qid := 3 } : Launch) ∈ aborting.launches ∧
    (∀ y ∈ aborting.pending, y.saved = none ∧ y.home = none) ∧ (∀ y ∈ aborting.launches, y.part = 0 → y.qid = 3 → y.id = 7 → y = { launch2 with qid := 3 }) ∧
    aborting.launch? 1 = some { launch2 with qid := 3 } ∧ aborting.t.launch = some 1 := by unfold Arrives; decide +kernel

/-- HELLO for a partition with the versions of the spec, and one for a later version only. -/
def hello (part minv maxv : Nat) : DkcpMsg :=
  { dkcp 0x01 0 (leBytes 4 (minv + maxv * 2 ^ 8 + part * 2 ^ 16)) with ver := 0, session := 0, part := BitVec.ofNat 6 part }
theorem witness_hello : (hello 0 2 3).len = 4 ∧ max 2 2 ≤ min 3 3 ∧ (State.reset.part? 0).map (fun p => (p.comps, p.closing)) = some ([], false) ∧
    (State.reset.sessions.filter fun y => y.part == 0).length < 4 ∧ State.reset.session? (BitVec.ofNat 32 State.reset.nextSession) = none ∧ State.reset.recovery = false ∧
    min 5 3 < max 4 2 ∧ State.reset.part? 5 = none ∧ State.reset.part? 63 = none ∧
    4 ≤ (({ State.reset with sessions := List.replicate 4 (sessionOf 0) } : State).sessions.filter fun y => y.part == 0).length := by decide +kernel
/-- A session with one message that awaits ACK after `n` tries. -/
def unacked (n : Nat) : Session := { sessionOf 0 with unacked := [{ seq := 1, typ := 0x21, ver := 3, more := false, payload := [1, 2], tries := n, comps := [] }] }
def talking (x : Session) : State := { bound id with sessions := [x] }
theorem witness_session : Arrives (talking (unacked 7)) (dkcp 0x04 0 (leBytes 4 1)) 0x04 (unacked 7) ∧ Arrives (talking (unacked 7)) (dkcp 0x05 0 []) 0x05 (unacked 7) ∧
    (talking (unacked 7)).session? 1 = some (unacked 7) ∧ (talking (unacked 8)).session? 1 = some (unacked 8) ∧
    Arrives (talking (sessionOf 0)) (dkcp 0x30 0 (List.replicate 32 0xA5)) 0x30 (sessionOf 0) := by unfold Arrives; decide +kernel
/-- A management session, and FW_LOAD of a whole core image of three bytes, whatever the signature check of the model answers. -/
def managing : State := { talking (sessionOf 63) with telemetry := 5 }
def fwBytes : List Byte := [1, 2, 3]
theorem witness_fw_load : Arrives managing (dkcp 0x32 63 (leBytes 16 (7 + 1 * 2 ^ 16 + fwBytes.length * 2 ^ 64) ++ fwBytes)) 0x32 (sessionOf 63) ∧ managing.fwLoads = [] ∧ (9 : BitVec 32) = (sessionOf 63).expect ∧
    managing.telemetry ≠ 0 ∧ managing.sessions = [sessionOf 63] := by unfold Arrives; decide +kernel
theorem witness_fw_signature : accepted fwBytes = true ∨ accepted fwBytes = false := by cases accepted fwBytes <;> simp

/-! ## Management requests -/

/-- A request of the session of partition `part`. -/
def ask (part op : Nat) (ws : List Word) : DkcpMsg := dkcp 0x20 part (leBytes 8 (5 + op * 2 ^ 16) ++ ws.flatMap fun w => leBytes 8 w.toNat)
/-- Partition 0 holds hall pair 0 alone and the first GiB, and has a region, queue 3, queue pair 9 and address space 1. -/
def smallPart : Partition := { Partition.fresh 0 1 0 0x40000000 with regions := [{ key := 8, asid := 1, read := true, write := true, va := 0, bytes := 4096 }] }
def managed (x : Session) : State := { bound id with
  sessions := [x], parts := [smallPart], asids := [{ asid := 2, part := 0, valid := true, root := 0x100000 }], queues := [queue3], qps := [qp9 5] }
/-- The same partitions with no task bound, and with partition 0 closing. -/
def bare (x : Session) : State := { managed x with t := Thread.reset }
def closingAt : State := { managed (sessionOf 63) with parts := [{ smallPart with closing := true }] }
theorem witness_part_create : Asks (managed (sessionOf 63)) (ask 63 2 [2, 0x40000000, 0x4000000]) (sessionOf 63) 5 2 [2, 0x40000000, 0x4000000] ∧
    (∀ q ∈ (managed (sessionOf 63)).parts, q.pairs &&& (2 : Word).setWidth 36 = 0) ∧ (managed (sessionOf 63)).partOverlap 0x40000000 0x4000000 = false ∧
    (managed (sessionOf 63)).lendableHit 0x40000000 0x4000000 = false ∧ (managed (sessionOf 63)).part? 1 = none ∧ (∀ j < 1, (managed (sessionOf 63)).part? j ≠ none) ∧
    (∃ q ∈ (managed (sessionOf 63)).parts, q.pairs &&& (1 : Word).setWidth 36 ≠ 0) := by unfold Asks Arrives; decide +kernel
theorem witness_part_destroy : Asks (managed (sessionOf 63)) (ask 63 3 [0]) (sessionOf 63) 5 3 [0] ∧ (managed (sessionOf 63)).part? 0 = some smallPart ∧
    smallPart.closing = false ∧ (managed (sessionOf 63)).pending = [] ∧ (∀ y ∈ (bare (sessionOf 63)).bound, y.2.part ≠ 0) ∧ (bare (sessionOf 63)).launches = [] ∧
    (bare (sessionOf 63)).part? 0 = some smallPart ∧ Asks (bare (sessionOf 63)) (ask 63 3 [0]) (sessionOf 63) 5 3 [0] ∧
    (∃ y ∈ (managed (sessionOf 63)).bound, y.2.part = 0) := by unfold Asks Arrives; decide +kernel
theorem witness_part_destroy_refused : Asks closingAt (ask 63 3 [0]) (sessionOf 63) 5 3 [0] ∧ closingAt.part? 0 = some { smallPart with closing := true } ∧
    Asks (managed (sessionOf 63)) (ask 63 3 [35]) (sessionOf 63) 5 3 [35] ∧ (managed (sessionOf 63)).part? 35 = none := by unfold Asks Arrives; decide +kernel
theorem witness_asids : Asks (managed (sessionOf 63)) (ask 63 4 [1]) (sessionOf 63) 5 4 [1] ∧ (managed (sessionOf 63)).asid? 1 = none ∧
    Asks (managed (sessionOf 63)) (ask 63 5 [2]) (sessionOf 63) 5 5 [2] ∧ (managed (sessionOf 63)).asid? 2 = some { asid := 2, part := 0, valid := true, root := 0x100000 } ∧
    (managed (sessionOf 63)).launches = [] ∧ (managed (sessionOf 63)).systemTask 0 (fun k => k.asid == 2) = false := by unfold Asks Arrives; decide +kernel
theorem witness_part_requests : Asks (managed (sessionOf 0)) (ask 0 1 []) (sessionOf 0) 5 1 [] ∧ Asks (managed (sessionOf 0)) (ask 0 6 [0x30002, 0, 8192]) (sessionOf 0) 5 6 [0x30002, 0, 8192] ∧
    Asks (managed (sessionOf 0)) (ask 0 7 [8]) (sessionOf 0) 5 7 [8] ∧ (∃ r ∈ smallPart.regions, r.key = (8 : Word).extractLsb' 0 32) := by
  unfold Asks Arrives; decide +kernel
theorem witness_queue_create : Asks (managed (sessionOf 0)) (ask 0 8 [4, 0x400000, 16, 2]) (sessionOf 0) 5 8 [4, 0x400000, 16, 2] ∧ (managed (sessionOf 0)).queue? 0 4 = none ∧ (16 : Word).toNat = 2 ^ 4 := by
  unfold Asks Arrives; decide +kernel
theorem witness_queue_requests : Asks (managed (sessionOf 0)) (ask 0 9 [3]) (sessionOf 0) 5 9 [3] ∧ (managed (sessionOf 0)).queue? 0 3 = some queue3 ∧ queue3.unread = 0 ∧ (managed (sessionOf 0)).waiting 0 3 = [] := by
  unfold Asks Arrives; decide +kernel
theorem witness_qp_requests : Asks (managed (sessionOf 0)) (ask 0 10 [0x500004D, 0, 0, 0x100000007]) (sessionOf 0) 5 10 [0x500004D, 0, 0, 0x100000007] ∧
    (0x100000007 : Word).toNat &&& 0x00FFFFFF00FFFFFF = (0x100000007 : Word).toNat ∧ ((0x500004D : Word).extractLsb' 24 4).toNat = 5 ∧
    Asks (managed (sessionOf 0)) (ask 0 11 [9]) (sessionOf 0) 5 11 [9] ∧ (∃ q ∈ (managed (sessionOf 0)).qps, q.part = 0 ∧ q.qpn = (9 : Word).toNat) := by
  unfold Asks Arrives; decide +kernel
/-- Session 63 of a package with port 0 enabled and up, an entry lent to package 2, and nothing lendable. -/
def package : State := { linked (managed (sessionOf 63)) with leases := [(0, entryIn 1 true false)] }
theorem witness_package_id : Asks (managed (sessionOf 63)) (ask 63 12 [3]) (sessionOf 63) 5 12 [3] ∧ (∀ q < 16, ((managed (sessionOf 63)).port q).enabled = false) ∧
    Asks package (ask 63 12 [3]) (sessionOf 63) 5 12 [3] ∧ (∃ q < 16, (package.port q).enabled = true) := by unfold Asks Arrives; decide +kernel
theorem witness_port_table : Asks package (ask 63 13 [0x203FE, 0x0F01]) (sessionOf 63) 5 13 [0x203FE, 0x0F01] ∧ (0x203FE : Word).toNat &&& 0x3FF03FF = (0x203FE : Word).toNat ∧
    ((0x203FE : Word).extractLsb' 16 10).toNat = 2 ∧ ((0x203FE : Word).extractLsb' 0 10).toNat + 2 = 1024 ∧
    (∀ i < 2, (([0x0F01] : List Word).flatMap fun v => leBytes 8 v.toNat).getD i 0 ≤ 15) ∧
    Asks package (ask 63 13 [0x003FE]) (sessionOf 63) 5 13 [0x003FE] ∧ (0x003FE : Word).toNat &&& 0x3FF03FF = (0x003FE : Word).toNat ∧ (0x003FE : Word).extractLsb' 16 10 = 0 := by unfold Asks Arrives; decide +kernel
theorem witness_ports_ticks : Asks package (ask 63 14 [3]) (sessionOf 63) 5 14 [3] ∧ package.pkgId.isSome = true ∧ (∀ q < 16, (package.port q).stranded = false) ∧ (∀ q < 16, (package.port q).up = true → (3 : Word).getLsbD q = true) ∧
    Asks package (ask 63 15 [1, 0, 0]) (sessionOf 63) 5 15 [1, 0, 0] := by unfold Asks Arrives; decide +kernel
theorem witness_lending : Asks package (ask 63 16 [0x40100]) (sessionOf 63) 5 16 [0x40100] ∧ (0x40100 : Word).toNat &&& 0x3FFF3FFF = (0x40100 : Word).toNat ∧
    ((0x40100 : Word).extractLsb' 16 14).toNat = 4 ∧ (((0x40100 : Word).extractLsb' 0 14).toNat + 4) * leaseUnit ≤ 0x861C468000 ∧
    package.partOverlap (256 * leaseUnit) (4 * leaseUnit) = false := by
  unfold Asks Arrives; decide +kernel
theorem witness_unlending : Asks (managed (sessionOf 63)) (ask 63 17 [0x40100]) (sessionOf 63) 5 17 [0x40100] ∧
    (managed (sessionOf 63)).lentSpans = [] ∧ Asks package (ask 63 18 [0x20000000005, 0]) (sessionOf 63) 5 18 [0x20000000005, 0] ∧ package.leases = [(0, entryIn 1 true false)] ∧
    (entryIn 1 true false).v = true ∧ (entryIn 1 true false).lent = true ∧ (entryIn 1 true false).st = 1 ∧ (entryIn 1 true false).lid = 5 ∧ (entryIn 1 true false).peer = 2 := by
  unfold Asks Arrives; decide +kernel
theorem witness_records : Asks package (ask 63 19 [word (11 + 63 * 2 ^ 8 + 14 * 2 ^ 16)]) (sessionOf 63) 5 19 [word (11 + 63 * 2 ^ 8 + 14 * 2 ^ 16)] ∧ package.testRefused 11 63 = false ∧
    package.entryErrors = [] := by
  unfold Asks Arrives; decide +kernel
theorem witness_reads : Asks package (ask 63 20 [8, 7984]) (sessionOf 63) 5 20 [8, 7984] ∧ 8 + 7984 ≤ lifetimeLen ∧ Asks package (ask 63 21 [10000]) (sessionOf 63) 5 21 [10000] := by
  unfold Asks Arrives; decide +kernel
theorem witness_supervisor : (∃ e ∈ package.asids, e.asid = 2 ∧ e.part = 0) ∧ Asks package (ask 63 22 [0x20000, 0x100001, 0x400000, 0x500000]) (sessionOf 63) 5 22 [0x20000, 0x100001, 0x400000, 0x500000] ∧
    (0x20000 : Word).toNat &&& 0xFFFF003F = (0x20000 : Word).toNat ∧ package.part? 0 = some smallPart ∧ package.systemTask 0 (fun k => !k.translator) = true ∧
    (managed (sessionOf 63)).asids = package.asids ∧ ({ package with t := Thread.reset } : State).systemTask 0 (fun k => !k.translator) = false ∧ (package.asids.map (·.asid)).Nodup := by
  unfold Asks Arrives; decide +kernel
theorem witness_measure : Asks package (ask 63 23 [7, 1, 2, 3, 4, 5, 6]) (sessionOf 63) 5 23 (word 7 :: [1, 2, 3, 4, 5, 6]) ∧
    Asks package (ask 63 24 [0, 33554432, 1, 2]) (sessionOf 63) 5 24 [0, 33554432, 1, 2] ∧ 33554432 + 8 * 2 ≤ smallPart.memBytes ∧ memWf package.mem = true := by
  unfold Asks Arrives; decide +kernel

/-! ## RDMA -/

/-- Two bytes of a page with SH = 1. -/
def shared (a : Nat) : List Place := [.hbm a .l2 true, .hbm (a + 1) .l2 true]
/-- Queue pair 9 of partition 0 with a region over a page with SH = 1. -/
def rdmaAt : State := { atHbm.modCore 0 (fun k => { k with tlb := [{ placedTlb with leaf := placedTlb.leaf ||| 0x80 }] }) with qps := [qp9 5], parts := [{ Partition.fresh 0 0xFFFFFFFFF 0 bootMemBytes with
  regions := [{ key := 8, asid := 1, read := true, write := true, va := 0x400000, bytes := 4096 }] }] }
theorem of_rdma {r : State × Option (List Place)} {ps : List Place} (h : r.2 = some ps) : r = (r.1, some ps) := Prod.ext rfl h
theorem witness_rdma : rdmaAt.liveQp 9 = some (qp9 5) ∧ (∃ s1, rdmaAt.rdmaPlaces 0 8 true 0x400FFE 2 = (s1, some (shared 0x200FFE))) ∧
    (∃ s1, rdmaAt.rdmaPlaces 0 8 true 0x400FFF 2 = (s1, none)) ∧ (∃ s1, rdmaAt.rdmaPlaces 0 8 false 0x400000 2 = (s1, some (shared 0x200000))) ∧
    ((shared 0x200FFE).map keyOf).Nodup ∧ memWf rdmaAt.mem = true ∧ rdmaAt.poison = [] ∧ rdmaAt.fenced = [] ∧ rdmaAt.latent = [] ∧
    (rdmaAt.part? 0).isSome = true :=
  ⟨by decide +kernel, ⟨_, of_rdma (by decide +kernel)⟩, ⟨_, Prod.ext rfl (by decide +kernel)⟩, ⟨_, of_rdma (by decide +kernel)⟩, by decide, rfl, rfl, rfl, rfl, rfl⟩

/-- The first of the two bytes lies in a poisoned word. -/
theorem witness_rdma_poison : ∃ s1, ({ rdmaAt with poison := [0x200000 / 8] } : State).rdmaPlaces 0 8 false 0x400000 2 = (s1, some (shared 0x200000)) ∧
    ∃ p ∈ shared 0x200000, (touchFor 0 (shared 0x200000) none s1).poisonAt p = true :=
  ⟨_, of_rdma (by decide +kernel), .hbm 0x200000 .l2 true, by decide, by decide +kernel⟩

/-! ## Boot, sensors, tests, memory -/

theorem witness_boot : State.reset.flashA = [] ∧ State.reset.flashB = [] := ⟨rfl, rfl⟩
/-- Stages 1 in flash that the device does not accept leave none to boot. Which images it accepts is a free value, so the witness is conditional (log 6). -/
theorem witness_recovery (h : accepted [1] = false) : ({ State.reset with flashA := [(0, [1])], flashB := [(0, [1])] } : State).wiped.bootImage 0 = none := by
  show [[1], [1]].find? accepted = none
  simp only [List.find?, h]
theorem witness_power : ({ State.reset with powered := false } : State).powered = false ∧ ({ State.reset with powered := false } : State).inbox.head? ≠ some .coldBoot := by decide
/-- A test of bank 14 of pseudo-channel 63 of stack 11, in a state; its entry is the first of the group. -/
def testing (st : Nat) : State := { State.reset with
  bists := [{ stack := 11, pch := 63, bank := 14, index := 2016, st := st, added := [] }], remap := [(11, 2016, remapEntry true 63 14 st 0 0)] }
theorem witness_bist : State.reset.testRefused 11 63 = false ∧ State.reset.groupFree 11 63 = 2016 :: (State.reset.groupFree 11 63).tail ∧ (testing 0).latent = [] ∧
    (testing 1).sparesFree { stack := 11, pch := 63, bank := 14, index := 2016, st := 1, added := [] } = 0 :: List.range' 1 31 ∧
    (testing 1).groupFree 11 63 = 2017 :: ((testing 1).groupFree 11 63).tail ∧ 2017 ≠ 2016 := by decide +kernel
theorem witness_worn_bank : (List.range 32).Nodup ∧ ((testing 1).groupFree 11 63).length < (List.range 32).length := by decide +kernel
theorem test_lanes : ((after (.laneMapRewrite 4 1) (State.reset.modCore 4 fun k => { k with unit1 := { k.unit1 with marked := [2] } })).getCore 4).unit1.laneMap =
    [0, 1, 3, 4, 5, 6, 7, 8, 9, 10, 11, 12, 13, 14, 15, 16] := by decide +kernel
theorem witness_lanes : (0 : Nat) < 18 ∧ 0 ∉ (State.reset.getCore 4).unit1.marked ∧ 0 ∉ (State.reset.getCore 4).unit1.retired ∧ ((State.reset.getCore 4).vunit 1).holder = none := by decide
theorem witness_memory : memWf [] = true ∧ memWf (memWrite [] 5 3) = true ∧ memRead (memWrite [] 5 3) 5 = 3 ∧ memRead (memWrite [] 5 3) 6 = 0 ∧
    memWrite (memWrite [] 5 3) 5 0 = [] := by decide
theorem witness_step : memWf ({ State.reset with inbox := [.orderlyShutdown] } : State).mem = true ∧
    ∃ t, Machine.step { State.reset with inbox := [.orderlyShutdown] } = .next t := ⟨rfl, _, rfl⟩

end Sys2Proof.Tests
end

/-! ## Lookups: what a table, a vector, a core or a die holds after an update -/

namespace Sys2Proof.Machine

@[simp] theorem alookup_ainsert_self {α : Type} (k : Nat) (v : α) (l : List (Nat × α)) : alookup k (ainsert k v l) = some v := by
  induction l with
  | nil => simp [ainsert, alookup]
  | cons p rest ih =>
    obtain ⟨k', v'⟩ := p
    simp only [ainsert]
    split
    · simp [alookup]
    · split
      · simp [alookup]
      · simpa [alookup, Ne.symm ‹¬k = k'›] using ih

theorem alookup_ainsert_other {α : Type} (k j : Nat) (v : α) (l : List (Nat × α)) (h : j ≠ k) : alookup j (ainsert k v l) = alookup j l := by
  induction l with
  | nil => simp [ainsert, alookup, h.symm]
  | cons p rest ih =>
    obtain ⟨k', v'⟩ := p
    simp only [ainsert]
    split
    · simp [alookup, h.symm]
    · split
      · rename_i hk
        simp [alookup, h.symm, ← hk]
      · simp [alookup, ih]

theorem mem_of_alookup {α : Type} {k : Nat} {v : α} {l : List (Nat × α)} (h : alookup k l = some v) : (k, v) ∈ l := by
  induction l with
  | nil => simp [alookup] at h
  | cons p rest ih =>
    obtain ⟨k', v'⟩ := p
    simp only [alookup] at h
    split at h
    · simp_all
    · exact List.mem_cons_of_mem _ (ih h)

theorem alookup_isSome_of_mem {α : Type} {p : Nat × α} {l : List (Nat × α)} (h : p ∈ l) : ∃ v, alookup p.1 l = some v := by
  induction l with
  | nil => simp at h
  | cons q rest ih =>
    obtain ⟨k', v'⟩ := q
    simp only [alookup]
    split
    · exact ⟨v', rfl⟩
    · rcases List.mem_cons.1 h with rfl | h
      · exact absurd rfl ‹_›
      · exact ih h

theorem vget_vtab {α : Type} (n : Nat) (f : Nat → α) (i : Nat) (d : α) (h : i < n) : vget (vtab n f) i d = f i := by
  simp [vget, vtab, h]

theorem vget_vput_self {α : Type} {n : Nat} (v : Vector α n) (i : Nat) (x d : α) (h : i < n) : vget (vput v i x) i d = x := by
  simp [vget, vput, h]

theorem vget_vput_other {α : Type} {n : Nat} (v : Vector α n) (i j : Nat) (x d : α) (h : i ≠ j) : vget (vput v i x) j d = vget v j d := by
  unfold vget vput
  split
  · rw [Vector.getElem_setIfInBounds_ne _ h]
  · rfl

theorem vget_map {α β : Type} {n : Nat} (f : α → β) (v : Vector α n) (i : Nat) (d : α) : vget (v.map f) i (f d) = f (vget v i d) := by
  unfold vget
  split <;> simp

theorem vget_replicate {α : Type} (n i : Nat) (x : α) : vget (Vector.replicate n x) i x = x := by
  unfold vget
  split <;> simp

@[simp] theorem State.getCore_modCore_self (s : State) (c : Nat) (f : Core → Core) : (s.modCore c f).getCore c = f (s.getCore c) := by
  simp [State.modCore, State.setCore, State.getCore]

theorem State.getDie_modDie_self (s : State) (d : Nat) (f : Die → Die) (h : d < 9) : (s.modDie d f).getDie d = f (s.getDie d) :=
  vget_vput_self _ _ _ _ h

theorem State.getDie_modDie_other (s : State) (d e : Nat) (f : Die → Die) (h : d ≠ e) : (s.modDie d f).getDie e = s.getDie e :=
  vget_vput_other _ _ _ _ _ h

/-- What every step of a fold keeps, the fold keeps. -/
theorem foldl_keeps {α β γ : Type} (φ : α → γ) (f : α → β → α) (h : ∀ a b, φ (f a b) = φ a) (l : List β) (a : α) : φ (l.foldl f a) = φ a :=
  List.foldlRecOn (motive := fun x => φ x = φ a) l f rfl fun b hb c _ => (h b c).trans hb

end Sys2Proof.Machine

/-! ## The stacks: what a read of a burst leaves as it was (R20, R25, R30) -/

namespace Sys2Proof.Machine

/-- The state without what reads of the stacks move: the remap tables and their errors, fenced banks and the log of them, errors met and poison. -/
def State.withoutStacks (s : State) : State :=
  { s with remap := [], remapCopy := [], bankTags := Vector.replicate 3 [], entryErrors := [], fenced := [], retiring := [], fenceNews := []
           mcLog := [], latent := [], life := Lifetime.empty, poison := [], dies := Vector.replicate 9 Die.reset }

theorem State.mem_of_withoutStacks {s t : State} (h : t.withoutStacks = s.withoutStacks) : t.mem = s.mem := by
  have := congrArg State.mem h
  exact this

theorem State.t_of_withoutStacks {s t : State} (h : t.withoutStacks = s.withoutStacks) : t.t = s.t := by
  have := congrArg State.t h
  exact this

theorem State.bists_of_withoutStacks {s t : State} (h : t.withoutStacks = s.withoutStacks) : t.bists = s.bists := by
  have := congrArg State.bists h
  exact this

@[simp] theorem State.countError_withoutStacks (s : State) (key : Nat) (ue : Bool) : (s.countError key ue).withoutStacks = s.withoutStacks := by
  unfold State.countError; split <;> rfl

@[simp] theorem State.lostEntry_withoutStacks (s : State) (stack i : Nat) : (s.lostEntry stack i).withoutStacks = s.withoutStacks := by
  unfold State.lostEntry
  dsimp only
  split
  · rfl
  · split <;> rfl

@[simp] theorem State.readEntry_withoutStacks (s : State) (stack i : Nat) : (s.readEntry stack i).withoutStacks = s.withoutStacks := by
  unfold State.readEntry
  dsimp only
  split
  · exact s.lostEntry_withoutStacks stack i
  · rfl

@[simp] theorem State.consult_withoutStacks (s : State) (stack pch : Nat) : (s.consult stack pch).withoutStacks = s.withoutStacks :=
  foldl_keeps State.withoutStacks _ (fun s _ => s.readEntry_withoutStacks _ _) _ s

@[simp] theorem State.poisonBelow_withoutStacks (s : State) (w : Nat) : (s.poisonBelow w).withoutStacks = s.withoutStacks := by
  unfold State.poisonBelow; split <;> rfl

@[simp] theorem State.meetError_withoutStacks (s : State) (burst : Nat) (x : DramSite) : (s.meetError burst x).withoutStacks = s.withoutStacks := by
  have counted : ∀ (l : List Latent) (s : State), (l.foldl (fun s e => s.countError (siteKey burst x) e.ue) s).withoutStacks = s.withoutStacks :=
    foldl_keeps State.withoutStacks _ fun s e => s.countError_withoutStacks _ e.ue
  unfold State.meetError
  dsimp only
  split
  · rw [foldl_keeps State.withoutStacks _ fun s i => s.poisonBelow_withoutStacks (4 * burst + i), counted]; rfl
  · rw [counted]; rfl

@[simp] theorem State.readBurst_withoutStacks (s : State) (burst : Nat) : (s.readBurst burst).withoutStacks = s.withoutStacks := by
  unfold State.readBurst
  split
  · rfl
  · simp

theorem State.readBursts_withoutStacks (s : State) (l : List Nat) : (l.foldl State.readBurst s).withoutStacks = s.withoutStacks :=
  foldl_keeps State.withoutStacks _ State.readBurst_withoutStacks l s

/-! ### The bytes that HBM holds below L2 -/

/-- An L2 line that differs from what HBM holds below it. -/
def differs (line : Nat) (m : L2Line) : Bool := m.num == line && (m.dirty || m.hurt)

/-- The lines of a slice with those of a line's number replaced. -/
def putLine (l : L2Line) (ls : List L2Line) : List L2Line := ls.map fun m => if m.num == l.num then l else m

theorem putLine_cons (l m : L2Line) (rest : List L2Line) :
    putLine l (m :: rest) = (if m.num == l.num then l else m) :: putLine l rest := rfl

theorem find_putLine_same (ls : List L2Line) (l : L2Line) (hl : differs l.num l = true) (h : ∃ m ∈ ls, m.num = l.num) :
    (putLine l ls).find? (differs l.num) = some l := by
  induction ls with
  | nil => simp at h
  | cons m rest ih =>
    by_cases hm : m.num = l.num
    · simp [putLine_cons, hm, hl]
    · have hrest : ∃ m ∈ rest, m.num = l.num := by simpa [hm] using h
      simpa [putLine_cons, hm, differs] using ih hrest

theorem find_putLine_other (ls : List L2Line) (l : L2Line) (line : Nat) (h : l.num ≠ line) :
    (putLine l ls).find? (differs line) = ls.find? (differs line) := by
  induction ls with
  | nil => rfl
  | cons m rest ih =>
    by_cases hm : m.num = l.num
    · simpa [putLine_cons, hm, differs, h] using ih
    · simp [putLine_cons, hm, List.find?_cons, ih]

theorem State.dirtyLine_eq (s : State) (line : Nat) : s.dirtyLine line = (s.getDie (line / 64 % 9)).l2.find? (differs line) := rfl

/-- A line of L2 below which word `w` is poisoned. -/
def L2Line.poisonedBelow (l : L2Line) (w : Nat) : L2Line := { l with belowBad := l.belowBad ||| BitVec.ofNat 8 (2 ^ (w % 8)) }

theorem State.poisonBelow_dirty (s : State) (w : Nat) (l : L2Line) (h : s.dirtyLine (w / 8) = some l) :
    s.poisonBelow w = s.modDie (w / 8 / 64 % 9) fun k => { k with l2 := putLine (l.poisonedBelow w) k.l2 } := by
  unfold State.poisonBelow
  rw [h]
  rfl

/-- The line that differs from what HBM holds keeps the bytes below it when a word there takes poison. -/
theorem State.dirtyLine_poisonBelow (s : State) (w line : Nat) :
    ((s.poisonBelow w).dirtyLine line).map (·.below) = (s.dirtyLine line).map (·.below) := by
  rcases hw : s.dirtyLine (w / 8) with _ | l
  · unfold State.poisonBelow
    rw [hw]
    rfl
  · rw [s.poisonBelow_dirty w l hw]
    rw [State.dirtyLine_eq] at hw
    obtain ⟨hnum, hdiff⟩ : l.num = w / 8 ∧ (l.dirty || l.hurt) = true := by simpa [differs] using List.find?_some hw
    simp only [State.dirtyLine_eq, ← hnum] at hw ⊢
    by_cases hdie : l.num / 64 % 9 = line / 64 % 9
    · rw [← hdie, State.getDie_modDie_self _ _ _ (Nat.mod_lt _ (by omega))]
      by_cases hline : l.num = line
      · have hput := find_putLine_same (s.getDie (l.num / 64 % 9)).l2 (l.poisonedBelow w) (by simpa [differs, L2Line.poisonedBelow] using hdiff)
          ⟨l, List.mem_of_find?_eq_some hw, rfl⟩
        rw [← hline, hw]
        exact congrArg (Option.map (·.below)) hput
      · exact congrArg (Option.map (·.below)) (find_putLine_other _ (l.poisonedBelow w) line hline)
    · rw [State.getDie_modDie_other _ _ _ _ hdie]

/-- A byte of HBM is fixed by memory and by what lies below the line that differs from it. -/
theorem State.hbmByte_eq (s : State) (pa : Nat) :
    s.hbmByte pa = (((s.dirtyLine (pa / 64)).map (·.below)).map fun b => b.extractLsb' (8 * (pa % 64)) 8).getD (memRead s.mem pa) := by
  unfold State.hbmByte
  split <;> simp [*]

theorem State.hbmByte_congr {s t : State} (hm : t.mem = s.mem)
    (hd : ∀ line, (t.dirtyLine line).map (·.below) = (s.dirtyLine line).map (·.below)) (pa : Nat) : t.hbmByte pa = s.hbmByte pa := by
  rw [State.hbmByte_eq, State.hbmByte_eq, hd, hm]

theorem State.poisonBelow_hbmByte (s : State) (w : Nat) : (s.poisonBelow w).hbmByte = s.hbmByte :=
  funext (State.hbmByte_congr (State.mem_of_withoutStacks (s.poisonBelow_withoutStacks w)) (s.dirtyLine_poisonBelow w))

/-- What changes neither memory nor the dies leaves every byte of HBM. -/
theorem State.hbmByte_of_dies {s t : State} (hm : t.mem = s.mem) (hd : t.dies = s.dies) : t.hbmByte = s.hbmByte := by
  have hdirty : ∀ line, t.dirtyLine line = s.dirtyLine line := fun line => by
    unfold State.dirtyLine State.getDie
    rw [hd]
  exact funext (State.hbmByte_congr hm fun line => by rw [hdirty])

theorem State.readEntry_hbmByte (s : State) (stack i : Nat) : (s.readEntry stack i).hbmByte = s.hbmByte := by
  refine State.hbmByte_of_dies (State.mem_of_withoutStacks (s.readEntry_withoutStacks stack i)) ?_
  unfold State.readEntry State.lostEntry
  dsimp only
  split
  · split
    · rfl
    · split <;> rfl
  · rfl

theorem State.countError_hbmByte (s : State) (key : Nat) (ue : Bool) : (s.countError key ue).hbmByte = s.hbmByte := by
  unfold State.countError
  split <;> exact State.hbmByte_of_dies rfl rfl

theorem State.meetError_hbmByte (s : State) (burst : Nat) (x : DramSite) : (s.meetError burst x).hbmByte = s.hbmByte := by
  have counted : ∀ (l : List Latent) (s : State), (l.foldl (fun s e => s.countError (siteKey burst x) e.ue) s).hbmByte = s.hbmByte :=
    foldl_keeps State.hbmByte _ fun s e => s.countError_hbmByte _ e.ue
  unfold State.meetError
  dsimp only
  split
  · rw [foldl_keeps State.hbmByte _ fun s i => s.poisonBelow_hbmByte (4 * burst + i), counted]
    exact State.hbmByte_of_dies rfl rfl
  · rw [counted]
    exact State.hbmByte_of_dies rfl rfl

theorem State.readBurst_hbmByte (s : State) (burst : Nat) : (s.readBurst burst).hbmByte = s.hbmByte := by
  unfold State.readBurst
  split
  · rfl
  · rw [State.meetError_hbmByte]
    exact foldl_keeps State.hbmByte _ (fun s _ => s.readEntry_hbmByte _ _) _ s

theorem State.readBursts_hbmByte (s : State) (l : List Nat) : (l.foldl State.readBurst s).hbmByte = s.hbmByte :=
  foldl_keeps State.hbmByte _ State.readBurst_hbmByte l s

end Sys2Proof.Machine

/-! ## Gathers at the GXUs (R21 to R23, R193) -/

namespace Sys2Proof.Machine

open Sys2Proof.Claims

/-! ### Requests served by a stack -/

theorem State.gather?_modGather (s : State) (req : Nat) (f : Gather → Gather) (hf : ∀ g, (f g).req = g.req) :
    (s.modGather req f).gather? req = (s.gather? req).map f := by
  unfold State.gather? State.modGather
  dsimp only
  induction s.gathers with
  | nil => rfl
  | cons g rest ih =>
    by_cases hg : g.req = req
    · simp [hg, hf]
    · simpa [hg] using ih

/-- The indices of a gather that lie in a stack's blocks. -/
def Gather.mine (g : Gather) (stack : Nat) : List (Nat × Nat) := g.idx.filter fun x => stackOf x.2 == stack

/-- The state once a stack has read the bursts of a gather's indices. -/
def State.readFor (s : State) (g : Gather) (stack : Nat) : State :=
  ((g.mine stack).flatMap fun x => burstsOf g.size x.2).eraseDups.foldl State.readBurst s

/-- A gather once a stack has served its indices, as `s` holds them. -/
def Gather.servedBy (g : Gather) (stack : Nat) (s : State) : Gather :=
  { g with idx := g.idx.filter fun x => stackOf x.2 != stack, got := g.got ++ (g.mine stack).map (s.gxRead g.size) }

theorem State.readFor_withoutStacks (s : State) (g : Gather) (stack : Nat) : (s.readFor g stack).withoutStacks = s.withoutStacks :=
  s.readBursts_withoutStacks _

theorem State.readFor_hbmByte (s : State) (g : Gather) (stack : Nat) : (s.readFor g stack).hbmByte = s.hbmByte :=
  s.readBursts_hbmByte _

theorem State.serveStack_mem (s : State) (g : Gather) (stack : Nat) : (s.serveStack g stack).mem = s.mem :=
  State.mem_of_withoutStacks (t := s.readFor g stack) (s.readFor_withoutStacks g stack)

/-- A gather that a stack serves, whether or not it is still noted as waiting. -/
theorem State.gather?_serveStack (s : State) (g : Gather) (stack : Nat) (b : Bool) (hs : s.gather? g.req = some { g with sent := b }) :
    (s.serveStack g stack).gather? g.req = some (Gather.servedBy { g with sent := b } stack (s.readFor g stack)) := by
  have hread : (s.readFor g stack).gather? g.req = some { g with sent := b } :=
    (congrArg (fun u : State => u.gather? g.req) (s.readFor_withoutStacks g stack)).trans hs
  have hserve := (s.readFor g stack).gather?_modGather g.req (fun k => { k with
    idx := k.idx.filter fun x => stackOf x.2 != stack, got := k.got ++ (g.mine stack).map ((s.readFor g stack).gxRead k.size) }) fun _ => rfl
  rw [hread] at hserve
  exact hserve

theorem Gather.servedBy_idx (g : Gather) (stack : Nat) (s : State) :
    (g.servedBy stack s).idx = g.idx.filter fun x => x.2 / 4096 % 12 ≠ stack :=
  List.filter_congr fun x _ => by simp [stackOf, bne, ← Bool.beq_eq_decide_eq]

/-- What a stack returns for its indices, poison apart, are the bytes that HBM holds (R23, R191). -/
theorem Gather.servedBy_got (g : Gather) (stack : Nat) (s : State) :
    (g.servedBy stack s).got.map (fun x => (x.1, x.2.1)) = g.got.map (fun x => (x.1, x.2.1)) ++
      (g.idx.filter fun x => x.2 / 4096 % 12 = stack).map fun x =>
        (x.1, BitVec.ofNat 32 (leNat ((List.range g.size).map fun j => s.hbmByte (x.2 + j)))) := by
  have hmine : g.mine stack = g.idx.filter fun x => x.2 / 4096 % 12 = stack :=
    List.filter_congr fun x _ => by simp [stackOf, ← Bool.beq_eq_decide_eq]
  simp [Gather.servedBy, ← hmine, State.gxRead]

theorem gxuRequest_served (s : State) (g : Gather) (hg : s.gather? g.req = some g)
    (hfirst : (s.gathers.find? fun x => x.tid == g.tid && !x.sent && x.dst == g.dst && x.size == g.size && x.idx == g.idx) = some g) :
    ∃ t h, exec (.gxuRequest g.tid g.dst g.size g.idx) s = .next t ∧ t.gather? g.req = some h ∧ h.sent = true ∧
      h.idx = g.idx.filter (fun x => x.2 / 4096 % 12 ≠ g.origin) ∧ SameMemory s t := by
  let s1 := s.modGather g.req fun g => { g with sent := true }
  have hsent : s1.gather? g.req = some { g with sent := true } := by
    have h := s.gather?_modGather g.req (fun g => { g with sent := true }) fun _ => rfl
    rwa [hg] at h
  have hexec : exec (.gxuRequest g.tid g.dst g.size g.idx) s = .next (s1.serveStack g g.origin) := by
    show execGxuRequest _ _ _ _ s = _
    rw [execGxuRequest, hfirst]
  exact ⟨_, _, hexec, s1.gather?_serveStack g g.origin true hsent, rfl, Gather.servedBy_idx _ _ _,
    fun a => congrArg (memRead · a) (s1.serveStack_mem g g.origin)⟩

theorem gxuForeignRequest_served (s : State) (g : Gather) (stack : Nat) (hg : s.gather? g.req = some g) (hsent : g.sent = true) :
    ∃ t h, exec (.gxuForeignRequest g.req stack) s = .next t ∧ t.gather? g.req = some h ∧ h.idx = g.idx.filter (fun x => x.2 / 4096 % 12 ≠ stack) ∧
      h.got.map (fun x => (x.1, x.2.1)) = g.got.map (fun x => (x.1, x.2.1)) ++
        (g.idx.filter fun x => x.2 / 4096 % 12 = stack).map (fun x => (x.1, BitVec.ofNat 32 (leNat ((List.range g.size).map fun j => s.hbmByte (x.2 + j))))) ∧
      SameMemory s t := by
  have hexec : exec (.gxuForeignRequest g.req stack) s = .next (s.serveStack g stack) := by
    show execGxuForeignRequest _ _ s = _
    rw [execGxuForeignRequest, hg]
    exact congrArg Host.Outcome.next (if_pos hsent)
  have hgot := g.servedBy_got stack (s.readFor g stack)
  rw [State.readFor_hbmByte] at hgot
  exact ⟨_, _, hexec, s.gather?_serveStack g stack g.sent hg, Gather.servedBy_idx _ _ _, hgot,
    fun a => congrArg (memRead · a) (s.serveStack_mem g stack)⟩

/-! ### Groups that land -/

/-- A gather in which nothing that the core refused and nothing poisoned stands has no fault. -/
theorem Gather.faults_eq_nil (g : Gather) (hr : g.refused = []) (hp : ∀ x ∈ g.got, x.2.2 = false) : g.faults = [] := by
  rw [Gather.faults, hr, List.nil_append, List.filterMap_eq_nil_iff]
  intro e _
  rcases hv : g.value e.2.1 with _ | ⟨v, bad⟩
  · rfl
  · obtain rfl : bad = false := hp _ (mem_of_alookup hv)
    rfl

/-- Every element of a complete group has arrived. -/
theorem Gather.value_of_complete (g : Gather) (grp : Nat) (h : g.complete grp = true) (e : Nat × Nat × Word) (he : e ∈ g.elems)
    (hgrp : e.2.1 / 16 = grp) (hp : ∀ x ∈ g.got, x.2.2 = false) : ∃ v, alookup e.2.1 g.got = some (v, false) := by
  obtain ⟨x, hx, hpos⟩ : ∃ x ∈ g.got, x.1 = e.2.1 := by
    have := List.all_eq_true.1 h e he
    simpa [hgrp] using this
  obtain ⟨⟨v, bad⟩, hv⟩ := alookup_isSome_of_mem hx
  rw [hpos] at hv
  obtain rfl : bad = false := hp _ (mem_of_alookup hv)
  exact ⟨v, hv⟩

theorem Thread.land_other (t : Thread) (ty : ETy) (g : Gather) (grp p : Nat) (hp : p < 128) (h : p / 16 ≠ grp) :
    vget ((t.land ty g grp).vreg g.dst) p 0 = vget (t.vreg g.dst) p 0 := by
  rw [Thread.land, Thread.vreg_setV_self, vget_vtab _ _ _ _ hp, if_neg (by simpa using h)]

theorem Thread.land_self (t : Thread) (ty : ETy) (g : Gather) (p : Nat) (v : BitVec 32) (bad : Bool) (hp : p < 128) (hz : g.zero = [])
    (he : ∃ e ∈ g.elems, e.2.1 = p) (hv : alookup p g.got = some (v, bad)) :
    vget ((t.land ty g (p / 16)).vreg g.dst) p 0 = canon ty v.toNat := by
  obtain ⟨e, hfind⟩ : ∃ e, g.elems.find? (fun e => e.2.1 == p) = some e := by
    simpa [← Option.isSome_iff_exists, List.find?_isSome] using he
  rw [Thread.land, Thread.vreg_setV_self, vget_vtab _ _ _ _ hp]
  simp [hz, hfind, Gather.value, hv]

/-- The thread once the groups of a list have landed. -/
def Thread.landAll (t : Thread) (ty : ETy) (g : Gather) (l : List Nat) : Thread := l.foldl (fun t grp => t.land ty g grp) t

/-- Once the groups of a list have landed, one of them that holds `p` has given it its element. -/
theorem Thread.landAll_vreg (ty : ETy) (g : Gather) (p : Nat) (v : BitVec 32) (bad : Bool) (hp : p < 128) (hz : g.zero = [])
    (he : ∃ e ∈ g.elems, e.2.1 = p) (hv : alookup p g.got = some (v, bad)) (l : List Nat) (t : Thread)
    (h : p / 16 ∈ l ∨ vget (t.vreg g.dst) p 0 = canon ty v.toNat) :
    vget ((t.landAll ty g l).vreg g.dst) p 0 = canon ty v.toNat := by
  induction l generalizing t with
  | nil => simpa [Thread.landAll] using h
  | cons grp rest ih =>
    refine ih (t.land ty g grp) ?_
    by_cases hgrp : p / 16 = grp
    · exact .inr (hgrp ▸ t.land_self ty g p v bad hp hz he hv)
    · rw [t.land_other ty g grp p hp hgrp]
      simpa [hgrp] using h

theorem State.switchTo_cur (s : State) (tid : Nat) : (s.switchTo tid).cur = tid := by
  unfold State.switchTo
  split
  · exact (‹tid = s.cur›).symm
  · rfl

theorem State.switchTo_mem (s : State) (tid : Nat) : (s.switchTo tid).mem = s.mem := by
  unfold State.switchTo
  split <;> rfl

theorem State.modGather_switchTo_t (s : State) (req tid : Nat) (f : Gather → Gather) :
    ((s.modGather req f).switchTo tid).t = (s.switchTo tid).t := by
  unfold State.switchTo
  by_cases h : tid = s.cur
  · rw [if_pos h, if_pos (show tid = (s.modGather req f).cur from h)]
    rfl
  · rw [if_neg h, if_neg (show ¬tid = (s.modGather req f).cur from h)]
    rfl

/-- The thread in which a register's stream has delivered a vector, and element writes have reached a position. -/
def Thread.delivered (t : Thread) (c : VCfg) (r : BitVec 5) : Thread :=
  { t.reach c.extent with streams := t.streams.map fun st => if [r].contains st.reg then st.advance c.vl else st }

theorem Thread.delivered_vreg (t : Thread) (c : VCfg) (r x : BitVec 5) : (t.delivered c r).vreg x = t.vreg x := rfl

/-- The end of a vector instruction that has changed its destination: the reach is noted and the stream of its source advances. -/
theorem exec_deliver (c : VCfg) (r : BitVec 5) (f : Thread → Thread) (s : State) :
    M.exec (do
      modT fun t => (f t).reach c.extent
      advance c [r]) s = (.ok (), s.modT fun t => (f t).delivered c r) := rfl

theorem Gather.done_exec (g : Gather) (c : VCfg) (a : VSrc) (s : State) (h : g.faults = []) :
    (g.done c a).exec s = (.ok (), { s with gathers := s.gathers.filter fun x => x.req != g.req }.modT fun t =>
      (t.landAll c.ty g (List.range 8)).delivered c a.reg) := by
  unfold Gather.done
  rw [h, exec_bind, exec_modify]
  exact exec_deliver c a.reg (fun t => t.landAll c.ty g (List.range 8)) _

/-- A gather with one more of its groups returned. -/
def Gather.returning (g : Gather) (group : Nat) : Gather := { g with returned := group :: g.returned }

/-- The last group of a gather without faults: its thread is in hand with every group landed, and its `vldx` retires. -/
theorem gxuGroupReturn_last (s : State) (g : Gather) (group : Nat) (ty : ETy) (hg : s.gather? g.req = some g) (hsent : g.sent = true)
    (hcomplete : g.complete group = true) (hgroup : group ∈ g.groups) (hnew : group ∉ g.returned) (hidx : g.idx = []) (hf : g.faults = [])
    (hall : ∀ x ∈ g.groups, x = group ∨ x ∈ g.returned) (hty : (s.switchTo g.tid).t.vty = some ty) :
    ∃ (u : State) (t0 : Thread) (c : VCfg) (r : BitVec 5), exec (.gxuGroupReturn g.req group) s = .next u.retire ∧ u.cur = g.tid ∧ u.mem = s.mem ∧
      c.ty = ty ∧ u.t = (t0.landAll ty (g.returning group) (List.range 8)).delivered c r := by
  have hgo : (g.sent && g.complete group && g.groups.contains group && !g.returned.contains group) = true := by simp [*]
  have hend : (g.groups.all fun x => (group :: g.returned).contains x) = true := by
    simpa [List.all_eq_true] using fun x hx => hall x hx
  show ∃ u t0 c r, execGxuGroupReturn g.req group s = _ ∧ _
  unfold execGxuGroupReturn
  simp only [hg, hgo, if_true, State.modGather_switchTo_t, hty, hidx, List.isEmpty_nil, Bool.true_and]
  rw [if_pos (by exact hend), if_pos (by exact List.isEmpty_iff.2 hf)]
  refine ⟨_, _, _, _, congrArg Host.Outcome.next (finish_ok (Gather.done_exec _ _ _ _ hf)), ?_, ?_, rfl, rfl⟩
  · exact State.switchTo_cur _ g.tid
  · exact State.switchTo_mem _ g.tid

/-- Settles O31: a request changes its gather as the stack that serves it does, and the last group lands all groups, among them that of each element. -/
theorem gathersLandInGroups : Obligations.GathersLandInGroups := by
  unfold Obligations.GathersLandInGroups
  intro s g hg
  refine ⟨fun _ hfirst => gxuRequest_served s g hg hfirst, fun stack hsent => gxuForeignRequest_served s g stack hg hsent, ?_⟩
  intro group ty hsent hcomplete hgroup hnew hidx hrefused hclean hall hwhole hzero hty _ _
  obtain ⟨u, t0, c, r, hexec, hcur, hmem, -, hthread⟩ :=
    gxuGroupReturn_last s g group ty hg hsent hcomplete hgroup hnew hidx (g.faults_eq_nil hrefused hclean) hall hty
  refine ⟨u.retire, hexec, hcur, ?_, fun a => congrArg (memRead · a) hmem, fun e he hp => ?_⟩
  · rw [State.retire_t, Thread.retire_stall]
  · have hmine : e.2.1 / 16 ∈ g.groups := by
      simpa [Gather.groups] using ⟨by omega, e.1, e.2.1, ⟨e.2.2, he⟩, rfl⟩
    obtain ⟨v, hv⟩ := g.value_of_complete _ (hwhole _ hmine) e he rfl hclean
    refine ⟨v, hv, ?_⟩
    rw [State.retire_t, Thread.retire_vreg, hthread, Thread.delivered_vreg]
    exact Thread.landAll_vreg ty (g.returning group) e.2.1 v false hp hzero ⟨e, he, rfl⟩ hv _ t0
      (.inl (List.mem_range.2 (by omega)))

end Sys2Proof.Machine

/-! ## Boot, reset, shutdown and loss of power (R31, R32, R73, R74, R256) -/

namespace Sys2Proof.Machine

open Sys2Proof.Claims

/-! ### What boot loads before firmware runs -/

/-- The state without what boot trains or loads from flash: training records, the remap table and its tests, and the lifetime record. -/
def State.beforeLoads (s : State) : State :=
  { s with free := 0, training := [], rates := [], mcLog := [], remap := [], remapCopy := [], bankTags := Vector.replicate 3 [], bists := []
           remapFlash := [], remapOld := [], life := Lifetime.empty }

theorem State.train_beforeLoads (s : State) (k : Nat) : (s.train k).beforeLoads = s.beforeLoads := rfl

theorem State.restoreTraining_beforeLoads (s : State) (k : Nat) : (s.restoreTraining k).beforeLoads = s.beforeLoads := by
  unfold State.restoreTraining
  dsimp only
  split
  · split <;> rfl
  · rfl

theorem State.loadRemap_beforeLoads (s : State) : s.loadRemap.beforeLoads = s.beforeLoads := rfl

/-- Every stack that a training has been recorded for keeps a record. -/
theorem State.train_training (s : State) (k j : Nat) : (∃ v, alookup j (s.train k).training = some v) ↔ j = k ∨ ∃ v, alookup j s.training = some v := by
  unfold State.train
  dsimp only
  by_cases h : j = k
  · simp [h]
  · simp [alookup_ainsert_other k j _ _ h, h]

theorem State.restoreTraining_training (s : State) (k j : Nat) :
    (∃ v, alookup j (s.restoreTraining k).training = some v) ↔ j = k ∨ ∃ v, alookup j s.training = some v := by
  unfold State.restoreTraining
  dsimp only
  split
  case h_2 => exact State.train_training _ k j
  case h_1 r hr =>
    split
    case isFalse => exact State.train_training _ k j
    case isTrue =>
      exact ⟨.inr, fun h => h.elim (fun hj => ⟨r, hj ▸ hr⟩) id⟩

/-- After a step for each of a list of stacks that leaves its stack a record, each of them has one. -/
theorem foldl_training (f : State → Nat → State)
    (hf : ∀ s k j, (∃ v, alookup j (f s k).training = some v) ↔ j = k ∨ ∃ v, alookup j s.training = some v) (l : List Nat) (s : State) (j : Nat)
    (h : j ∈ l ∨ ∃ v, alookup j s.training = some v) : ∃ v, alookup j (l.foldl f s).training = some v := by
  induction l generalizing s with
  | nil => simpa using h
  | cons k rest ih =>
    refine ih (f s k) ?_
    rw [hf]
    simpa [or_assoc, or_left_comm] using h

/-- The state in which firmware is verified: as the reset left it but for what was trained and loaded, with no test under way and a record of each stack. -/
structure LoadedFrom (s t : State) : Prop where
  same : t.beforeLoads = s.beforeLoads
  bists : t.bists = []
  training : ∀ k < 12, ∃ v, alookup k t.training = some v

/-- Training or restoring every stack and loading the remap table. -/
theorem loadedFrom_foldl (f : State → Nat → State) (hsame : ∀ s k, (f s k).beforeLoads = s.beforeLoads)
    (hf : ∀ s k j, (∃ v, alookup j (f s k).training = some v) ↔ j = k ∨ ∃ v, alookup j s.training = some v) (s : State) :
    LoadedFrom s ((List.range 12).foldl f s).loadRemap where
  same := (State.loadRemap_beforeLoads _).trans (foldl_keeps State.beforeLoads f hsame _ s)
  bists := rfl
  training k hk := foldl_training f hf (List.range 12) s k (.inl (List.mem_range.2 hk))

/-- COLD_BOOT and WARM_RESET end in secure boot from such a state. -/
theorem exec_boot (s : State) (i : Instr) (h : i = .coldBoot ∨ i = .warmReset) : ∃ u, exec i s = .next u.secureBoot ∧ LoadedFrom s.wiped u := by
  rcases h with rfl | rfl
  · have hload := loadedFrom_foldl State.train State.train_beforeLoads State.train_training { s.wiped.loadLife with rates := [] }
    exact ⟨_, rfl, hload.same, hload.bists, hload.training⟩
  · exact ⟨_, rfl, loadedFrom_foldl State.restoreTraining State.restoreTraining_beforeLoads State.restoreTraining_training s.wiped⟩

/-! ### Secure boot -/

/-- The state without what secure boot sets: measurements, recovery, partitions and the decode table. -/
def State.beforeFirmware (s : State) : State :=
  { s with meas := Vector.replicate 8 0, recovery := false, parts := [], gen := 0, decodeOver := [], typeDescs := [] }

theorem bootImages_beforeFirmware (l : List Nat) (s : State) : (bootImages l s).beforeFirmware = s.beforeFirmware := by
  induction l generalizing s with
  | nil => rfl
  | cons k rest ih =>
    unfold bootImages
    split
    · exact ih _
    · rfl

theorem State.secureBoot_beforeFirmware (s : State) : s.secureBoot.beforeFirmware = s.beforeFirmware := by
  rw [← bootImages_beforeFirmware [0, 1, 2, 3] s]
  unfold State.secureBoot
  generalize bootImages [0, 1, 2, 3] s = u
  dsimp only
  split
  · rfl
  · split
    all_goals
      split
      · rfl
      · split <;> rfl

theorem bootImages_bootImage (l : List Nat) (s : State) (k : Nat) : (bootImages l s).bootImage k = s.bootImage k := by
  have h := congrArg (fun u : State => u.bootImage k) (bootImages_beforeFirmware l s)
  exact h

/-- A stage that no slot gives leaves the device in recovery with no partition (R74). -/
theorem bootImages_recovery (l : List Nat) (s : State) (k : Nat) (hk : k ∈ l) (h : s.bootImage k = none) :
    (bootImages l s).recovery = true ∧ (bootImages l s).parts = [] := by
  induction l generalizing s with
  | nil => simp at hk
  | cons j rest ih =>
    unfold bootImages
    split
    case h_2 => exact ⟨rfl, rfl⟩
    case h_1 i hi =>
      have hne : k ≠ j := fun e => by simp [← e, h] at hi
      exact ih (s.extend j (sha384 i)) ((List.mem_cons.1 hk).resolve_left hne) h

/-- Measurements of a list of images, each into the register of its kind. -/
def State.measureAll (s : State) (img : Nat → List Byte) (l : List Nat) : State := l.foldl (fun s k => s.extend k (sha384 (img k))) s

theorem bootImages_measureAll (img : Nat → List Byte) (l : List Nat) (s : State) (h : ∀ k ∈ l, s.bootImage k = some (img k)) :
    bootImages l s = s.measureAll img l := by
  induction l generalizing s with
  | nil => rfl
  | cons k rest ih =>
    unfold bootImages
    rw [h k (List.mem_cons_self ..)]
    exact ih (s.extend k (sha384 (img k))) fun j hj => h j (List.mem_cons_of_mem _ hj)

theorem State.measureAll_meas (img : Nat → List Byte) (l : List Nat) (hl : l.Nodup) (s : State) (i : Nat) (hi : i < 8) :
    vget (s.measureAll img l).meas i 0 =
      if i ∈ l then sha384 (digestBytes (vget s.meas i 0) ++ digestBytes (sha384 (img i))) else vget s.meas i 0 := by
  induction l generalizing s with
  | nil => rfl
  | cons k rest ih =>
    obtain ⟨hk, hrest⟩ := List.nodup_cons.1 hl
    have h := ih hrest (s.extend k (sha384 (img k)))
    by_cases hik : i = k
    · subst hik
      rw [if_neg hk] at h
      rw [if_pos (List.mem_cons_self ..)]
      exact h.trans (vget_vput_self _ _ _ _ hi)
    · have hkeep : vget (s.extend k (sha384 (img k))).meas i 0 = vget s.meas i 0 := vget_vput_other _ _ _ _ _ (Ne.symm hik)
      rw [hkeep] at h
      simp only [List.mem_cons, hik, false_or]
      exact h

theorem State.measureAll_keeps {γ : Type} (φ : State → γ) (hφ : ∀ s k d, φ (s.extend k d) = φ s) (img : Nat → List Byte) (l : List Nat) (s : State) :
    φ (s.measureAll img l) = φ s :=
  foldl_keeps φ _ (fun s k => hφ s k _) l s

theorem State.secureBoot_recovery (s : State) (k : Nat) (hk : k < 4) (h : s.bootImage k = none) :
    s.secureBoot.recovery = true ∧ s.secureBoot.parts = [] := by
  have hboot := bootImages_recovery [0, 1, 2, 3] s k (List.mem_range.2 hk) h
  unfold State.secureBoot
  simpa [hboot.1] using hboot

/-- Flash that names no image gives the shipped one, when it is accepted. -/
theorem State.bootImage_shipped (s : State) (k : Nat) (hA : s.flashA = []) (hB : s.flashB = []) (h : accepted (Config.shippedImage k) = true) :
    s.bootImage k = some (Config.shippedImage k) := by
  simp [State.bootImage, hA, hB, slotImage, alookup, h]

/-- The end of secure boot with no decode table in flash: the configuration record is measured, and partition 0 takes its range. -/
theorem State.secureBoot_record (s u : State) (record : List Byte) (hu : bootImages [0, 1, 2, 3] s = u) (hr : u.recovery = false)
    (h4 : u.bootImage 4 = some record) (hA : u.flashA = []) (hB : u.flashB = []) :
    s.secureBoot = { u.extend 4 (sha384 record) with parts := [bootPartition record] } := by
  have hagain : (u.extend 4 (sha384 record)).bootImage 4 = some record := h4
  have hflash : (alookup 3 u.flashA).isNone && (alookup 3 u.flashB).isNone := by simp [hA, hB, alookup]
  unfold State.secureBoot
  rw [hu]
  simp only [hr, h4, hagain, Bool.false_eq_true, if_false, Option.getD_some]
  exact if_pos hflash

theorem State.measureAll_append (s : State) (img : Nat → List Byte) (l : List Nat) (k : Nat) :
    s.measureAll img (l ++ [k]) = (s.measureAll img l).extend k (sha384 (img k)) := by
  simp only [State.measureAll, List.foldl_append, List.foldl_cons, List.foldl_nil]

/-- Secure boot with no image in flash measures the shipped ones, all five, and takes partition 0 from the shipped record. -/
theorem State.secureBoot_shipped (s : State) (hA : s.flashA = []) (hB : s.flashB = []) (hr : s.recovery = false)
    (h : ∀ k < 5, accepted (Config.shippedImage k) = true) :
    s.secureBoot = { s.measureAll Config.shippedImage ([0, 1, 2, 3] ++ [4]) with parts := [bootPartition (Config.shippedImage 4)] } := by
  have hfirst := bootImages_measureAll Config.shippedImage [0, 1, 2, 3] s fun k hk =>
    s.bootImage_shipped k hA hB (h k (by simp at hk; omega))
  have hlast := (bootImages_bootImage [0, 1, 2, 3] s 4).trans (s.bootImage_shipped 4 hA hB (h 4 (by omega)))
  rw [State.measureAll_append]
  rw [hfirst] at hlast
  have keeps {γ : Type} (φ : State → γ) (hφ : ∀ s k d, φ (s.extend k d) = φ s) := State.measureAll_keeps φ hφ Config.shippedImage [0, 1, 2, 3] s
  exact s.secureBoot_record _ _ hfirst ((keeps (·.recovery) fun _ _ _ => rfl).trans hr) hlast
    ((keeps (·.flashA) fun _ _ _ => rfl).trans hA) ((keeps (·.flashB) fun _ _ _ => rfl).trans hB)

theorem State.secureBoot_bootedShipped (s : State) (hA : s.flashA = []) (hB : s.flashB = []) (hr : s.recovery = false)
    (hm : s.meas = Vector.replicate 8 0) (h : ∀ k < 5, accepted (Config.shippedImage k) = true) : BootedShipped s.secureBoot := by
  rw [s.secureBoot_shipped hA hB hr h]
  refine ⟨(State.measureAll_keeps (·.recovery) (fun _ _ _ => rfl) _ _ s).trans hr, rfl, fun i hi => ?_⟩
  have hmeas := State.measureAll_meas Config.shippedImage ([0, 1, 2, 3] ++ [4]) (by decide) s i (by omega)
  rwa [if_pos (by simp; omega), hm, vget_replicate] at hmeas

/-! ### What is left after boot -/

/-- What neither the loads nor firmware set is as the reset left it. -/
theorem LoadedFrom.keeps {s u : State} (h : LoadedFrom s u) {γ : Type} (φ : State → γ) (hl : ∀ v, φ v.beforeLoads = φ v := by exact fun _ => rfl)
    (hf : ∀ v, φ v.beforeFirmware = φ v := by exact fun _ => rfl) : φ u.secureBoot = φ s := by
  rw [← hf, u.secureBoot_beforeFirmware, hf, ← hl, h.same, hl]

/-- What the loads leave and firmware does not set. -/
theorem State.secureBoot_keeps (s : State) {γ : Type} (φ : State → γ) (hf : ∀ v, φ v.beforeFirmware = φ v := by exact fun _ => rfl) :
    φ s.secureBoot = φ s := by
  rw [← hf, s.secureBoot_beforeFirmware, hf]

theorem LoadedFrom.loads {s u : State} (h : LoadedFrom s u) {γ : Type} (φ : State → γ) (hl : ∀ v, φ v.beforeLoads = φ v := by exact fun _ => rfl) :
    φ u = φ s := by
  rw [← hl, h.same, hl]

/-- Without power and without a COLD_BOOT that waits, nothing happens (R256). -/
theorem step_noPower (s : State) (hp : s.powered = false) (hi : s.inbox.head? ≠ some .coldBoot) : Machine.step s = .fault .noPower := by
  have hlive : s.live = false := by simp [State.live, hp, hi]
  unfold Machine.step
  rw [hlive]
  rfl

/-- Settles O57: a boot or reset trains and loads, and then verifies firmware; what neither of the two sets is as the reset left it, and the stages that
the flash slots give decide between the shipped images and recovery. What a boot clears and keeps is log 52's choice. -/
theorem bootResetAndPowerLoss : Obligations.BootResetAndPowerLoss := by
  unfold Obligations.BootResetAndPowerLoss
  refine fun s i => ⟨fun hi => ?_, rfl, rfl, ⟨_, rfl, rfl, rfl, rfl, rfl, rfl, rfl, rfl, rfl⟩, step_noPower s⟩
  obtain ⟨u, hexec, hload⟩ := exec_boot s i hi
  have htraining : u.secureBoot.training = u.training := u.secureBoot_keeps (·.training)
  refine ⟨_, hexec, hload.keeps (·.powered), hload.keeps (·.t), hload.keeps (·.parked), hload.keeps (·.cores), hload.keeps (·.mem),
    hload.keeps (·.launches), hload.keeps (·.pending), hload.keeps (·.sessions), hload.keeps (·.queues), hload.keeps (·.qps),
    hload.keeps (·.asids), hload.keeps (·.leases), hload.keeps (·.pkgId), (u.secureBoot_keeps (·.bists)).trans hload.bists,
    hload.keeps (·.inbox), hload.keeps (·.flashA), hload.keeps (·.flashB), htraining ▸ hload.training, fun hA hB h => ?_, fun k hk h => ?_⟩
  · exact u.secureBoot_bootedShipped ((hload.loads (·.flashA)).trans hA) ((hload.loads (·.flashB)).trans hB) (hload.loads (·.recovery))
      (hload.loads (·.meas)) h
  · exact u.secureBoot_recovery k hk ((hload.loads (·.bootImage k)).trans h)

end Sys2Proof.Machine

/-! ## Bank tests (R24 to R27, Table 1.3) -/

namespace Sys2Proof.Machine

/-! ### Remap tables without errors -/

theorem State.consult_noErrors (s : State) (stack pch : Nat) (h : s.entryErrors = []) : s.consult stack pch = s := by
  simp [State.consult, h]

theorem State.consultAll_noErrors (s : State) (h : s.entryErrors = []) : s.consultAll = s := by
  simp [State.consultAll, h]

theorem mem_putAt_self {α : Type} (stack i : Nat) (v : α) (l : List (Nat × Nat × α)) : (stack, i, v) ∈ putAt stack i (some v) l := by
  simp [putAt]

theorem mem_putAt_other {α : Type} {stack i : Nat} {v : Option α} {l : List (Nat × Nat × α)} {x : Nat × Nat × α} (h : x ∈ l)
    (hi : x.2.1 ≠ i) : x ∈ putAt stack i v l :=
  List.mem_append_left _ (List.mem_filter.2 ⟨h, by simp [hi]⟩)

theorem not_mem_putAt_none {α : Type} (stack i : Nat) (l : List (Nat × Nat × α)) : ∀ y ∈ putAt stack i none l, ¬(y.1 = stack ∧ y.2.1 = i) := by
  intro y hy
  rw [putAt, List.append_nil, List.mem_filter] at hy
  rintro ⟨h1, h2⟩
  simp [h1, h2] at hy

theorem State.flashRemap_noErrors (s : State) (h : s.entryErrors = []) :
    s.flashRemap = { s with remapFlash := s.remap, remapOld := s.remapFlash } := by
  rw [State.flashRemap, s.consultAll_noErrors h]

/-- A table without errors goes to flash as it stands, and what flash held is the generation before. -/
theorem State.flashRemap_tables (s : State) (h : s.entryErrors = []) :
    s.flashRemap.remap = s.remap ∧ s.flashRemap.remapFlash = s.remap ∧ s.flashRemap.remapOld = s.remapFlash ∧ s.flashRemap.bists = s.bists := by
  rw [s.flashRemap_noErrors h]
  exact ⟨rfl, rfl, rfl, rfl⟩

theorem State.setRemap_entryErrors (s : State) (stack i : Nat) (e : BitVec 64) (h : s.entryErrors = []) : (s.setRemap stack i e).entryErrors = [] := by
  simp [State.setRemap, State.writeEntry, h]

/-- The state without what a step of a bank test moves: what reads of the stacks move, the tests and the table in flash. -/
def State.withoutTests (s : State) : State := { s.withoutStacks with bists := [], remapFlash := [], remapOld := [] }

theorem State.withoutTests_of_stacks {s t : State} (h : t.withoutStacks = s.withoutStacks) : t.withoutTests = s.withoutTests := by
  rw [State.withoutTests, h]
  rfl

/-- A bank test leaves the thread in hand and memory. -/
theorem State.same_of_withoutTests {s t : State} (h : t.withoutTests = s.withoutTests) : t.t = s.t ∧ t.mem = s.mem := by
  have ht := congrArg State.t h
  have hmem := congrArg State.mem h
  exact ⟨ht, hmem⟩

theorem State.moveBist_withoutTests (s : State) (b : Bist) (st : Nat) (added : List Nat) : (s.moveBist b st added).withoutTests = s.withoutTests := rfl
theorem State.dropBist_withoutTests (s : State) (stack : Nat) : (s.dropBist stack).withoutTests = s.withoutTests := rfl
theorem State.loggedRemap_withoutTests (s : State) (stack i : Nat) (e : BitVec 64) : ((s.setRemap stack i e).logRemap stack e).withoutTests = s.withoutTests := rfl

theorem State.flashRemap_withoutTests (s : State) : s.flashRemap.withoutTests = s.withoutTests := by
  have hread : s.consultAll.withoutStacks = s.withoutStacks := foldl_keeps State.withoutStacks _ (fun s _ => s.readEntry_withoutStacks _ _) _ s
  rw [← State.withoutTests_of_stacks hread]
  rfl

theorem State.moveBist_remap (s : State) (b : Bist) (st : Nat) (added : List Nat) :
    (b.stack, b.index, remapEntry true b.pch b.bank st 0 0) ∈ (s.moveBist b st added).remap :=
  mem_putAt_self _ _ _ _

theorem State.moveBist_remap_other (s : State) (b : Bist) (st : Nat) (added : List Nat) {x : Nat × Nat × BitVec 64} (h : x ∈ s.remap)
    (hi : x.2.1 ≠ b.index) : x ∈ (s.moveBist b st added).remap := by
  have hput : (s.moveBist b st added).remap = putAt b.stack b.index (some (remapEntry true b.pch b.bank st 0 0)) s.remap := rfl
  exact hput ▸ mem_putAt_other h hi

theorem State.moveBist_bists (s : State) (b : Bist) (st : Nat) (added : List Nat) (h : s.bists = [b]) :
    (s.moveBist b st added).bists = [{ b with st := st, added := added }] := by
  have : (s.moveBist b st added).bists = s.bists.map fun x => if x.stack == b.stack then { x with st := st, added := added } else x := rfl
  simp [this, h]

theorem State.bistIn_only (s : State) (b : Bist) (h : s.bists = [b]) : s.bistIn b.stack b.st = some b := by
  simp [State.bistIn, h]

theorem State.copyBank_clean (s : State) (b : Bist) (h : s.latent = []) : s.copyBank b = s := by
  simp [State.copyBank, h]

theorem State.copyBank_withoutStacks (s : State) (b : Bist) : (s.copyBank b).withoutStacks = s.withoutStacks :=
  s.readBursts_withoutStacks _

/-- A list without repetitions is its own set of members. -/
theorem eraseDups_of_nodup (l : List Nat) (h : l.Nodup) : l.eraseDups = l := by
  induction l with
  | nil => rfl
  | cons a rest ih =>
    obtain ⟨ha, hrest⟩ := List.nodup_cons.1 h
    rw [List.eraseDups_cons, List.filter_eq_self.2 fun x hx => by simpa using fun e : x = a => ha (e ▸ hx), ih hrest]

/-! ### The steps of a test -/

theorem bistScheduled_starts (s : State) (stack pch bank i : Nat) (tail : List Nat) (hs : stack < 12) (hp : pch < 64) (hb : bank < 15)
    (he : s.entryErrors = []) (hr : s.testRefused stack pch = false) (hf : s.groupFree stack pch = i :: tail) :
    ∃ t, exec (.bistScheduled stack pch bank) s = .next t ∧
      t.bists = s.bists ++ [{ stack := stack, pch := pch, bank := bank, index := i, st := 0, added := [] }] ∧
      (stack, i, remapEntry true pch bank 0 0 0) ∈ t.remap ∧ t.t = s.t ∧ t.mem = s.mem := by
  have hexec : exec (.bistScheduled stack pch bank) s = .next (s.startTest stack pch bank) := by
    show execBistScheduled stack pch bank s = _
    simp [execBistScheduled, s.consult_noErrors stack pch he, bankOk, hs, hp, hb, hr]
  refine ⟨_, hexec, ?_⟩
  unfold State.startTest
  rw [hf]
  exact ⟨rfl, mem_putAt_self _ _ _ _, rfl, rfl⟩

theorem bistParkComplete_parks (s : State) (b : Bist) (hs : s.bists = [b]) (hst : b.st = 0) (hl : s.latent = []) :
    ∃ t, exec (.bistParkComplete b.stack) s = .next t ∧ t.bists = [{ b with st := 1, added := [] }] ∧
      (b.stack, b.index, remapEntry true b.pch b.bank 1 0 0) ∈ t.remap ∧ t.t = s.t ∧ t.mem = s.mem := by
  have hexec : exec (.bistParkComplete b.stack) s = .next (s.moveBist b 1) := by
    show execBistParkComplete b.stack s = _
    rw [execBistParkComplete, ← hst, s.bistIn_only b hs]
    exact congrArg (fun u : State => Host.Outcome.next (u.moveBist b 1)) (s.copyBank_clean b hl)
  exact ⟨_, hexec, s.moveBist_bists b 1 [] hs, s.moveBist_remap b 1 [], rfl, rfl⟩

theorem bistReturnComplete_clears (s : State) (b : Bist) (hs : s.bists = [b]) (hst : b.st = 2) :
    ∃ t, exec (.bistReturnComplete b.stack) s = .next t ∧ t.bists = [] ∧ (∀ y ∈ t.remap, ¬(y.1 = b.stack ∧ y.2.1 = b.index)) ∧
      t.t = s.t ∧ t.mem = s.mem := by
  have hexec : exec (.bistReturnComplete b.stack) s =
      .next ((((s.copyBank b).clearRemap b.stack b.index).logRemap b.stack 0).dropBist b.stack) := by
    show execBistReturnComplete b.stack s = _
    rw [execBistReturnComplete, ← hst, s.bistIn_only b hs]
  have hcopy := s.copyBank_withoutStacks b
  have hbists : (s.copyBank b).bists = s.bists := State.bists_of_withoutStacks hcopy
  refine ⟨_, hexec, ?_, not_mem_putAt_none _ _ _, State.t_of_withoutStacks (t := s.copyBank b) hcopy, State.mem_of_withoutStacks (t := s.copyBank b) hcopy⟩
  show (s.copyBank b).bists.filter _ = []
  simp [hbists, hs]

/-- What a passed test, or one whose failing rows are remapped or too many, does to the package. -/
theorem execBistTestComplete_eq (s : State) (b : Bist) (r : TestResult) (hs : s.bists = [b]) (hst : b.st = 1) (he : s.entryErrors = [])
    (hr : r.failing.Nodup) : exec (.bistTestComplete b.stack r) s = .next (
      if r.failing.isEmpty then s.moveBist b 2
      else if r.failing.length ≤ (s.sparesFree b).length ∧ r.failing.length ≤ (s.groupFree b.stack b.pch).length then
        ((addRemaps b (r.failing.zip ((s.groupFree b.stack b.pch).zip (s.sparesFree b))) s).flashRemap).moveBist b 2
          ((s.groupFree b.stack b.pch).take r.failing.length)
      else ((s.moveBist b 3).flashRemap).dropBist b.stack) := by
  show execBistTestComplete b.stack r s = _
  rw [execBistTestComplete, ← hst, s.bistIn_only b hs]
  simp only [s.consult_noErrors b.stack b.pch he, eraseDups_of_nodup _ hr]

theorem bistTestComplete_passes (s : State) (b : Bist) (r : TestResult) (hs : s.bists = [b]) (hst : b.st = 1) (he : s.entryErrors = [])
    (hr : r.failing = []) : ∃ t, exec (.bistTestComplete b.stack r) s = .next t ∧ t.bists = [{ b with st := 2, added := [] }] ∧
      (b.stack, b.index, remapEntry true b.pch b.bank 2 0 0) ∈ t.remap ∧ t.t = s.t ∧ t.mem = s.mem := by
  have hexec := execBistTestComplete_eq s b r hs hst he (by simp [hr])
  rw [if_pos (by simp [hr])] at hexec
  exact ⟨_, hexec, s.moveBist_bists b 2 [] hs, s.moveBist_remap b 2 [], rfl, rfl⟩

/-- One failing row takes the first free entry and the first free spare row. -/
theorem addRemaps_one (s : State) (b : Bist) (row i spare : Nat) (moreI more : List Nat) :
    addRemaps b ([row].zip ((i :: moreI).zip (spare :: more))) s =
      (s.setRemap b.stack i (remapEntry false b.pch b.bank 0 row spare)).logRemap b.stack (remapEntry false b.pch b.bank 0 row spare) := by
  simp only [List.zip_cons_cons, List.zip_nil_left, addRemaps]

theorem bistTestComplete_remaps (s : State) (b : Bist) (r : TestResult) (row spare i : Nat) (more moreI : List Nat) (hs : s.bists = [b])
    (hst : b.st = 1) (he : s.entryErrors = []) (hr : r.failing = [row]) (hspare : s.sparesFree b = spare :: more)
    (hfree : s.groupFree b.stack b.pch = i :: moreI) (hi : i ≠ b.index) :
    ∃ t, exec (.bistTestComplete b.stack r) s = .next t ∧ t.bists = [{ b with st := 2, added := [i] }] ∧
      (b.stack, i, remapEntry false b.pch b.bank 0 row spare) ∈ t.remap ∧
      (b.stack, i, remapEntry false b.pch b.bank 0 row spare) ∈ t.remapFlash ∧ t.remapOld = s.remapFlash ∧ t.t = s.t ∧ t.mem = s.mem := by
  have hexec := execBistTestComplete_eq s b r hs hst he (by simp [hr])
  rw [hr, hspare, hfree, if_neg (by simp), if_pos (by simp), addRemaps_one] at hexec
  generalize remapEntry false b.pch b.bank 0 row spare = e at hexec ⊢
  have hentry : (b.stack, i, e) ∈ ((s.setRemap b.stack i e).logRemap b.stack e).remap := mem_putAt_self _ _ _ _
  have hnone : ((s.setRemap b.stack i e).logRemap b.stack e).entryErrors = [] := s.setRemap_entryErrors b.stack i e he
  have hsame := s.loggedRemap_withoutTests b.stack i e
  have hbists : ((s.setRemap b.stack i e).logRemap b.stack e).bists = [b] := hs
  have hold : ((s.setRemap b.stack i e).logRemap b.stack e).remapFlash = s.remapFlash := rfl
  generalize (s.setRemap b.stack i e).logRemap b.stack e = u at hexec hentry hnone hsame hbists hold
  obtain ⟨hremap, hflash, hbefore, htests⟩ := u.flashRemap_tables hnone
  refine ⟨_, hexec, State.moveBist_bists _ b 2 [i] (htests.trans hbists), State.moveBist_remap_other _ b 2 [i] (hremap ▸ hentry) hi, ?_, ?_,
    State.same_of_withoutTests ((u.flashRemap.moveBist_withoutTests b 2 _).trans (u.flashRemap_withoutTests.trans hsame))⟩
  · exact hflash ▸ hentry
  · exact hbefore.trans hold

theorem bistTestComplete_swaps (s : State) (b : Bist) (r : TestResult) (hs : s.bists = [b]) (hst : b.st = 1) (he : s.entryErrors = [])
    (hr : r.failing.Nodup) (hmany : (s.sparesFree b).length < r.failing.length ∨ (s.groupFree b.stack b.pch).length < r.failing.length) :
    ∃ t, exec (.bistTestComplete b.stack r) s = .next t ∧ t.bists = [] ∧ (b.stack, b.index, remapEntry true b.pch b.bank 3 0 0) ∈ t.remap ∧
      (b.stack, b.index, remapEntry true b.pch b.bank 3 0 0) ∈ t.remapFlash ∧ t.t = s.t ∧ t.mem = s.mem := by
  have hexec := execBistTestComplete_eq s b r hs hst he hr
  have hsome : ¬r.failing.isEmpty = true := by
    intro h
    simp [List.isEmpty_iff.1 h] at hmany
  rw [if_neg hsome, if_neg (by omega)] at hexec
  have hentry := s.moveBist_remap b 3 []
  have hnone : (s.moveBist b 3).entryErrors = [] := s.setRemap_entryErrors b.stack b.index (remapEntry true b.pch b.bank 3 0 0) he
  have hsame := s.moveBist_withoutTests b 3 []
  have hbists := s.moveBist_bists b 3 [] hs
  generalize s.moveBist b 3 = u at hexec hentry hnone hsame hbists
  obtain ⟨hremap, hflash, -, htests⟩ := u.flashRemap_tables hnone
  refine ⟨_, hexec, ?_, hremap ▸ hentry, hflash ▸ hentry,
    State.same_of_withoutTests ((u.flashRemap.dropBist_withoutTests b.stack).trans (u.flashRemap_withoutTests.trans hsame))⟩
  rw [State.dropBist, htests, hbists]
  simp

end Sys2Proof.Machine

/-! ## Sensors, lanes and write-assist (R34, R35, R138, R139) -/

namespace Sys2Proof.Machine

/-! ### Errors that come into the arrays -/

theorem vput_map {α β : Type} {n : Nat} (f : α → β) (v : Vector α n) (i : Nat) (x d : α) (h : f x = f (vget v i d)) :
    (vput v i x).map f = v.map f := by
  ext j hj
  by_cases hij : i = j
  · subst hij
    simpa [vput, vget, hj] using h
  · simp [vput, hij]

/-- A die without the lines of its L2 slice. -/
def Die.withoutL2 (k : Die) : Die := { k with l2 := [] }

/-- The state without what errors in arrays move: the errors that lie there, tags, poison, counts, and the tiles and lines that an error hits. -/
def State.withoutErrors (s : State) : State :=
  { s with t := { s.t with held := [] }, parked := [], cores := [], dies := s.dies.map Die.withoutL2, latent := [], entryErrors := []
           bankTags := Vector.replicate 3 [], poison := [], life := Lifetime.empty }

theorem State.modL2_withoutErrors (s : State) (d : Nat) (f : List L2Line → List L2Line) :
    (s.modDie d fun k => { k with l2 := f k.l2 }).withoutErrors = s.withoutErrors := by
  have hdies : (s.modDie d fun k => { k with l2 := f k.l2 }).dies.map Die.withoutL2 = s.dies.map Die.withoutL2 :=
    vput_map Die.withoutL2 s.dies d _ Die.reset rfl
  unfold State.withoutErrors
  rw [hdies]
  rfl

theorem State.countError_withoutErrors (s : State) (key : Nat) (ue : Bool) : (s.countError key ue).withoutErrors = s.withoutErrors := by
  unfold State.countError
  split <;> rfl

theorem State.hitGranule_withoutErrors (s : State) (core g w : Nat) : (s.hitGranule core g w).withoutErrors = s.withoutErrors := by
  have ht : { (s.hitGranule core g w).t with held := [] } = { s.t with held := [] } := by
    unfold State.hitGranule State.mapThreads
    dsimp only
    split <;> rfl
  unfold State.withoutErrors
  rw [ht]
  rfl

theorem State.hitL2_withoutErrors (s : State) (line w : Nat) : (s.hitL2 line w).withoutErrors = s.withoutErrors := by
  unfold State.hitL2
  dsimp only
  split
  · rfl
  · exact State.modL2_withoutErrors s _ (List.map _)

theorem State.arrayError_withoutErrors (s : State) (e : ArrayError) : (s.arrayError e).withoutErrors = s.withoutErrors := by
  cases e with
  | burst b site ue => rfl
  | entry stack i second ue => rfl
  | tag stack i copy v => rfl
  | msm core g w ue =>
    unfold State.arrayError
    dsimp only
    split
    · split
      · rw [State.hitGranule_withoutErrors, State.hitGranule_withoutErrors, State.countError_withoutErrors]
      · rw [State.hitGranule_withoutErrors, State.countError_withoutErrors]
    · exact s.countError_withoutErrors _ _
  | l2 line w ue =>
    unfold State.arrayError
    dsimp only
    split
    · rw [State.hitL2_withoutErrors, State.countError_withoutErrors]
    · exact s.countError_withoutErrors _ _

theorem State.getDie_withoutErrors (s : State) (d : Nat) : s.withoutErrors.getDie d = (s.getDie d).withoutL2 :=
  vget_map Die.withoutL2 s.dies d Die.reset

/-! ### The samples of the dies -/

/-- The sample of one die. -/
def State.sampleDie (x : Sample) (s : State) (d : Nat) : State :=
  (s.modDie d fun k => k.sampled (vget x.temps d (Vector.replicate 16 0)) (vget x.vdd d 0) (vget x.idd d 0) (s.inAssist d)).countSample d

/-- The state once the errors of a sample have come and before its dies are looked at. -/
def State.erred (s : State) (x : Sample) : State :=
  x.errors.foldl State.arrayError { s with power := x.power, current := x.current, syncedSeen := s.synced, levelSeen := s.level }

theorem execMcSample_eq (s : State) (x : Sample) : exec (.mcSample x) s = .next ((List.range 9).foldl (State.sampleDie x) (s.erred x)) := rfl

/-- The state without what sampling the dies moves. -/
def State.withoutSamples (s : State) : State := { s with dies := Vector.replicate 9 Die.reset, life := Lifetime.empty }

theorem State.sampleDies_keeps {γ : Type} (φ : State → γ) (x : Sample) (l : List Nat) (s : State)
    (h : ∀ v, φ v.withoutSamples = φ v := by exact fun _ => rfl) : φ (l.foldl (State.sampleDie x) s) = φ s := by
  have hkeep := foldl_keeps State.withoutSamples (State.sampleDie x) (fun _ _ => rfl) l s
  rw [← h, hkeep, h]

theorem State.countSample_getDie (s : State) (d e : Nat) : (s.countSample d).getDie e = s.getDie e := rfl

theorem State.getDie_sampleDie_other (x : Sample) (s : State) (d e : Nat) (h : d ≠ e) : (s.sampleDie x d).getDie e = s.getDie e :=
  (State.countSample_getDie _ d e).trans (s.getDie_modDie_other d e _ h)

theorem State.getDie_sampleDie_self (x : Sample) (s : State) (d : Nat) (h : d < 9) : (s.sampleDie x d).getDie d =
    (s.getDie d).sampled (vget x.temps d (Vector.replicate 16 0)) (vget x.vdd d 0) (vget x.idd d 0) (s.inAssist d) :=
  (State.countSample_getDie _ d d).trans (s.getDie_modDie_self d _ h)

theorem State.getDie_sampleDies_other (x : Sample) (l : List Nat) (d : Nat) (h : d ∉ l) (s : State) :
    (l.foldl (State.sampleDie x) s).getDie d = s.getDie d := by
  induction l generalizing s with
  | nil => rfl
  | cons e rest ih =>
    obtain ⟨hde, hrest⟩ : ¬d = e ∧ d ∉ rest := by simpa using h
    exact (ih hrest _).trans (s.getDie_sampleDie_other x e d (Ne.symm hde))

/-- Sampling the dies of a list, each once, samples each of them. -/
theorem State.getDie_sampleDies (x : Sample) (l : List Nat) (hl : l.Nodup) (d : Nat) (h : d ∈ l) (hd : d < 9) (s : State) :
    ∃ wac, (l.foldl (State.sampleDie x) s).getDie d =
      (s.getDie d).sampled (vget x.temps d (Vector.replicate 16 0)) (vget x.vdd d 0) (vget x.idd d 0) wac := by
  induction l generalizing s with
  | nil => simp at h
  | cons e rest ih =>
    obtain ⟨he, hrest⟩ := List.nodup_cons.1 hl
    by_cases hde : d = e
    · subst hde
      exact ⟨_, (State.getDie_sampleDies_other x rest d he _).trans (s.getDie_sampleDie_self x d hd)⟩
    · obtain ⟨wac, hwac⟩ := ih hrest ((List.mem_cons.1 h).resolve_left hde) (s.sampleDie x e)
      exact ⟨wac, hwac.trans (congrArg (fun k : Die => k.sampled _ _ _ wac) (s.getDie_sampleDie_other x e d (Ne.symm hde)))⟩

/-- What the errors of a sample leave of the state. -/
theorem State.erred_keeps {γ : Type} (φ : State → γ) (s : State) (x : Sample) (h : ∀ v, φ v.withoutErrors = φ v := by exact fun _ => rfl) :
    φ (s.erred x) = φ { s with power := x.power, current := x.current, syncedSeen := s.synced, levelSeen := s.level } := by
  have hkeep := foldl_keeps State.withoutErrors State.arrayError State.arrayError_withoutErrors x.errors
    { s with power := x.power, current := x.current, syncedSeen := s.synced, levelSeen := s.level }
  rw [← h, State.erred, hkeep, h]

theorem State.erred_getDie (s : State) (x : Sample) (d : Nat) : ((s.erred x).getDie d).withoutL2 = (s.getDie d).withoutL2 := by
  have hdie := s.erred_keeps (fun v => (v.getDie d).withoutL2) x fun v => by rw [v.getDie_withoutErrors]; rfl
  exact hdie

/-- A sampled die keeps the samples; whether placement stops there follows the temperatures, and its grant level is the one seen (R35). -/
theorem mcSample_die (s : State) (x : Sample) (d : Nat) (hd : d < 9) (temps : Vector Nat 16) (ht : temps = vget x.temps d (Vector.replicate 16 0))
    (t : State) (h : t = (List.range 9).foldl (State.sampleDie x) (s.erred x)) :
    (t.getDie d).temps = temps ∧ (t.getDie d).vdd = vget x.vdd d 0 ∧ (t.getDie d).idd = vget x.idd d 0 ∧
      (t.getDie d).level = (s.getDie d).level ∧ (t.getDie d).levelSeen = (s.getDie d).level ∧
      (t.getDie d).stop = if temps.any (fun v => decide (1050 ≤ v)) then true else if temps.all (fun v => decide (v ≤ 1000)) then false
        else (s.getDie d).stop := by
  obtain ⟨wac, hwac⟩ := State.getDie_sampleDies x (List.range 9) List.nodup_range d (List.mem_range.2 hd) hd (s.erred x)
  have hdie := s.erred_getDie x d
  have hlevel : ((s.erred x).getDie d).level = (s.getDie d).level := by have := congrArg Die.level hdie; exact this
  have hstop : ((s.erred x).getDie d).stop = (s.getDie d).stop := by have := congrArg Die.stop hdie; exact this
  rw [h, hwac, ht, ← hlevel, ← hstop]
  exact ⟨rfl, rfl, rfl, rfl, rfl, rfl⟩

/-! ### Lanes and write-assist -/

theorem Core.vunit_setVunit (k : Core) (unit : Nat) (u : VUnit) : (k.setVunit unit u).vunit unit = u := by
  unfold Core.setVunit Core.vunit
  split <;> rfl

theorem regulatorTrim_marks (s : State) (c unit lane : Nat) (u : VUnit) (hu : u = (s.getCore c).vunit unit) (hl : lane < 18)
    (hm : lane ∉ u.marked) (hr : lane ∉ u.retired) :
    ∃ t, exec (.regulatorTrim c unit lane true true) s = .next t ∧ (t.getCore c).vunit unit = { u with marked := u.marked ++ [lane] } ∧
      t.t = s.t ∧ t.mem = s.mem := by
  have hexec : exec (.regulatorTrim c unit lane true true) s =
      .next (s.modCore c fun k => k.setVunit unit { u with marked := u.marked ++ [lane] }) := by
    show execRegulatorTrim c unit lane true true s = _
    simp [execRegulatorTrim, ← hu, hl, hm, hr]
  refine ⟨_, hexec, ?_, rfl, rfl⟩
  rw [State.getCore_modCore_self, Core.vunit_setVunit]

theorem laneMapRewrite_maps (s : State) (c unit : Nat) (u : VUnit) (hu : u = (s.getCore c).vunit unit) (hfree : u.holder = none)
    (hm : u.marked ≠ []) (good : List Nat) (hgood : good = (List.range 18).filter fun l => !(u.retired ++ u.marked).contains l) :
    ∃ t, exec (.laneMapRewrite c unit) s = .next t ∧ (t.getCore c).vunit unit = { u with
        retired := u.retired ++ u.marked, marked := []
        laneMap := if 16 ≤ good.length then good.take 16 else if 8 ≤ good.length then good.take 8 else [] } ∧ t.t = s.t ∧ t.mem = s.mem := by
  have hgo : (u.holder.isNone && !u.marked.isEmpty) = true := by simp [hfree, hm]
  have hmap : laneMapOf (u.retired ++ u.marked) =
      if 16 ≤ good.length then good.take 16 else if 8 ≤ good.length then good.take 8 else [] := hgood ▸ rfl
  have hcore : (s.modCore c fun k => k.setVunit unit { u with
      retired := u.retired ++ u.marked, marked := [], laneMap := laneMapOf (u.retired ++ u.marked) }).getCore c =
        (s.getCore c).setVunit unit { u with
          retired := u.retired ++ u.marked, marked := [], laneMap := laneMapOf (u.retired ++ u.marked) } := State.getCore_modCore_self ..
  refine ⟨_, congrArg Host.Outcome.next (if_pos (hu ▸ hgo)), ?_, rfl, rfl⟩
  rw [← hmap, ← Core.vunit_setVunit (s.getCore c) unit { u with
    retired := u.retired ++ u.marked, marked := [], laneMap := laneMapOf (u.retired ++ u.marked) }, ← hcore, hu]
  rfl

theorem mcSample_samples (s : State) (x : Sample) :
    ∃ t, exec (.mcSample x) s = .next t ∧ t.power = x.power ∧ t.current = x.current ∧ t.syncedSeen = s.synced ∧ t.levelSeen = s.level ∧
      t.t.regs = s.t.regs ∧ t.mem = s.mem ∧ (x.errors = [] → t.t = s.t ∧ t.poison = s.poison ∧ t.latent = s.latent) ∧
      (∀ n site ue, x.errors = [.burst n site ue] → t.t = s.t ∧ t.latent = s.latent ++ [{ burst := n, site := site, ue := ue }]) ∧
      ∀ d < 9, ∀ temps, temps = vget x.temps d (Vector.replicate 16 0) →
        (t.getDie d).temps = temps ∧ (t.getDie d).vdd = vget x.vdd d 0 ∧ (t.getDie d).idd = vget x.idd d 0 ∧
        (t.getDie d).level = (s.getDie d).level ∧ (t.getDie d).levelSeen = (s.getDie d).level ∧
        (t.getDie d).stop = if temps.any (fun v => decide (1050 ≤ v)) then true else if temps.all (fun v => decide (v ≤ 1000)) then false
          else (s.getDie d).stop := by
  have keeps {γ : Type} (φ : State → γ) (hs : ∀ v, φ v.withoutSamples = φ v) : φ ((List.range 9).foldl (State.sampleDie x) (s.erred x)) = φ (s.erred x) :=
    State.sampleDies_keeps φ x _ _ hs
  have both {γ : Type} (φ : State → γ) (hs : ∀ v, φ v.withoutSamples = φ v) (he : ∀ v, φ v.withoutErrors = φ v) :=
    (keeps φ hs).trans (s.erred_keeps φ x he)
  refine ⟨_, execMcSample_eq s x, both (·.power) (fun _ => rfl) fun _ => rfl, both (·.current) (fun _ => rfl) fun _ => rfl,
    both (·.syncedSeen) (fun _ => rfl) fun _ => rfl, both (·.levelSeen) (fun _ => rfl) fun _ => rfl,
    both (·.t.regs) (fun _ => rfl) fun _ => rfl, both (·.mem) (fun _ => rfl) fun _ => rfl, fun hnone => ?_, fun n site ue hone => ?_,
    fun d hd temps ht => mcSample_die s x d hd temps ht _ rfl⟩
  · have herred : s.erred x = { s with power := x.power, current := x.current, syncedSeen := s.synced, levelSeen := s.level } := by
      rw [State.erred, hnone, List.foldl_nil]
    exact ⟨(keeps (·.t) fun _ => rfl).trans (herred ▸ rfl), (keeps (·.poison) fun _ => rfl).trans (herred ▸ rfl),
      (keeps (·.latent) fun _ => rfl).trans (herred ▸ rfl)⟩
  · have herred : s.erred x = State.arrayError { s with power := x.power, current := x.current, syncedSeen := s.synced, levelSeen := s.level }
        (.burst n site ue) := by
      rw [State.erred, hone, List.foldl_cons, List.foldl_nil]
    exact ⟨(keeps (·.t) fun _ => rfl).trans (herred ▸ rfl), (keeps (·.latent) fun _ => rfl).trans (herred ▸ rfl)⟩

/-- Settles O58 from one lemma for each step of a bank test and of the controller. That array errors come with MC_SAMPLE and lie latent until a read meets
them is log 53's choice, and which entries and spare rows a test takes is log 82's. -/
theorem sensorsLanesAndBankTests : Obligations.SensorsLanesAndBankTests := by
  unfold Obligations.SensorsLanesAndBankTests
  intro s c unit lane stack pch bank i x b u r tail
  refine ⟨bistScheduled_starts s stack pch bank i tail, fun hs hstack he => ?_, mcSample_samples s x, fun hu _ => ⟨?_, ?_⟩, ?_, ?_⟩
  · subst hstack
    exact ⟨bistParkComplete_parks s b hs, fun hst hr => bistTestComplete_passes s b r hs hst he hr,
      fun row spare more moreI hst hr hspare hfree hi => bistTestComplete_remaps s b r row spare i more moreI hs hst he hr hspare hfree hi,
      fun hst hr hmany => bistTestComplete_swaps s b r hs hst he hr hmany, bistReturnComplete_clears s b hs⟩
  · exact regulatorTrim_marks s c unit lane u hu
  · exact laneMapRewrite_maps s c unit u hu
  · exact ⟨_, rfl, s.getCore_modCore_self c _, rfl, rfl⟩
  · exact ⟨_, rfl, s.getCore_modCore_self c _, rfl, rfl⟩

end Sys2Proof.Machine

/-! ## Records of events (R253), and the lending states that they tell of (R107 to R111) -/

namespace Sys2Proof.Machine

open Sys2Proof.Claims

/-! ### Tables of partitions and launches -/

theorem State.part?_modPart (s : State) (p j : Nat) (f : Partition → Partition) (hf : ∀ q, (f q).id = q.id) :
    (s.modPart p f).part? j = if j = p then (s.part? j).map f else s.part? j := by
  unfold State.part? State.modPart
  dsimp only
  induction s.parts with
  | nil => simp [Machine.modPart]
  | cons q rest ih =>
    by_cases hq : q.id = p
    · by_cases hj : j = p
      · simp [Machine.modPart, hq, hj, hf]
      · simp [Machine.modPart, hq, hj, hf, Ne.symm hj]
    · by_cases hj : q.id = j
      · have hjp : j ≠ p := fun e => hq (hj.trans e)
        simp [Machine.modPart, hj, hjp]
      · simpa [Machine.modPart, hq, hj] using ih

theorem State.launch?_modLaunch_self (s : State) (key : Nat) (f : Launch → Launch) (hf : ∀ l, (f l).key = l.key) :
    (s.modLaunch key f).launch? key = (s.launch? key).map f := by
  unfold State.launch? State.modLaunch
  dsimp only
  induction s.launches with
  | nil => rfl
  | cons l rest ih =>
    by_cases hl : l.key = key
    · simp [Machine.modLaunch, hl, hf]
    · simpa [Machine.modLaunch, hl] using ih

/-! ### Threads in hand and parked -/

theorem alookup_aerase_other {α : Type} (k j : Nat) (l : List (Nat × α)) (h : j ≠ k) : alookup j (aerase k l) = alookup j l := by
  induction l with
  | nil => rfl
  | cons p rest ih =>
    obtain ⟨k', v⟩ := p
    by_cases hk : k' = k
    · simp [aerase, alookup, hk, h.symm]
    · simp [aerase, alookup, hk, ih]

theorem State.thread_setThread_self (s : State) (tid : Nat) (t : Thread) : (s.setThread tid t).thread tid = t := by
  unfold State.setThread
  split <;> simp [State.thread, *]

theorem State.thread_setThread_other (s : State) (tid j : Nat) (t : Thread) (h : j ≠ tid) : (s.setThread tid t).thread j = s.thread j := by
  unfold State.setThread
  split
  · have hj : j ≠ s.cur := fun e => h (e.trans (‹tid = s.cur›).symm)
    simp [State.thread, hj]
  · simp [State.thread, alookup_ainsert_other tid j t s.parked h]

theorem State.switchTo_t (s : State) (tid : Nat) : (s.switchTo tid).t = s.thread tid := by
  unfold State.switchTo
  split
  · simp [State.thread, *]
  · rfl

theorem State.thread_switchTo (s : State) (tid j : Nat) : (s.switchTo tid).thread j = s.thread j := by
  by_cases h : j = tid
  · rw [State.thread, State.switchTo_cur, if_pos h, State.switchTo_t, h]
  · rw [State.thread, State.switchTo_cur, if_neg h]
    unfold State.switchTo
    split
    · simp [State.thread, ← ‹tid = s.cur›, h]
    · rw [alookup_aerase_other tid j _ h]
      by_cases hj : j = s.cur
      · simp [State.thread, hj]
      · simp [State.thread, hj, alookup_ainsert_other s.cur j s.t s.parked hj]

theorem State.switchTo_parts (s : State) (tid : Nat) : (s.switchTo tid).parts = s.parts := by
  unfold State.switchTo
  split <;> rfl

theorem State.switchTo_pending (s : State) (tid : Nat) : (s.switchTo tid).pending = s.pending := by
  unfold State.switchTo
  split <;> rfl

/-! ### What a record moves -/

/-- A byte lies in an event ring of a partition. -/
def Partition.ringHas (p : Partition) (x : Nat) : Prop :=
  ∃ j < 4, ∀ r, vget p.rings j { base := 0, log2 := 0, head := 0, tail := 0 } = r →
    8 ≤ r.log2.toNat ∧ r.log2.toNat ≤ 24 ∧ r.base.toNat ≤ x ∧ x < r.base.toNat + 32 * 2 ^ r.log2.toNat

theorem anyEventByte_iff (s : State) (x : Nat) : AnyEventByte s x ↔ ∃ j p, s.part? j = some p ∧ p.ringHas x := Iff.rfl

theorem anyEventByte_of_parts {s t : State} (h : t.parts = s.parts) (x : Nat) : AnyEventByte t x ↔ AnyEventByte s x := by
  simp only [anyEventByte_iff, State.part?, h]

/-- A change of a partition that leaves its id and where its rings lie leaves the bytes of all rings. -/
theorem anyEventByte_modPart (s : State) (p : Nat) (f : Partition → Partition) (hf : ∀ q, (f q).id = q.id) (x : Nat)
    (hr : ∀ q, s.part? p = some q → ((f q).ringHas x ↔ q.ringHas x)) : AnyEventByte (s.modPart p f) x ↔ AnyEventByte s x := by
  simp only [anyEventByte_iff, s.part?_modPart p _ f hf]
  refine exists_congr fun j => ?_
  by_cases hj : j = p
  · subst hj
    rcases hq : s.part? j with _ | q
    · simp
    · simpa using hr q hq
  · simp [hj]

/-- Advancing the head of a ring leaves where the rings of its partition lie. -/
theorem Partition.ringHas_advance (p : Partition) (ring x : Nat) (head : Word) :
    ({ p with rings := vput p.rings ring { vget p.rings ring { base := 0, log2 := 0, head := 0, tail := 0 } with head := head } } : Partition).ringHas x ↔
      p.ringHas x := by
  refine exists_congr fun j => and_congr_right fun hj => ?_
  by_cases h : ring = j
  · subst h
    simp [vget_vput_self _ _ _ _ hj]
  · simp [vget_vput_other _ _ _ _ _ h]

/-- The state without what event records and lending states move. -/
def State.withoutLending (s : State) : State := { s with mem := [], poison := [], inbox := [], parts := [], cores := [] }

/-- What a step that only writes event records and moves lending states does: the threads, the tasks and the tables of the distributor are as before, the
rings lie where they lay, and memory changes within them alone. -/
structure Emits (s t : State) : Prop where
  same : t.withoutLending = s.withoutLending
  rings : ∀ x, AnyEventByte t x ↔ AnyEventByte s x
  wf : memWf s.mem = true → memWf t.mem = true
  reads : memWf s.mem = true → ∀ x, ¬ AnyEventByte s x → memRead t.mem x = memRead s.mem x

theorem Emits.of_mem {s t : State} (same : t.withoutLending = s.withoutLending) (rings : ∀ x, AnyEventByte t x ↔ AnyEventByte s x)
    (hm : t.mem = s.mem) : Emits s t :=
  ⟨same, rings, fun h => hm ▸ h, fun _ _ _ => hm ▸ rfl⟩

theorem Emits.refl (s : State) : Emits s s := .of_mem rfl (fun _ => Iff.rfl) rfl

theorem Emits.trans {s t u : State} (h : Emits s t) (g : Emits t u) : Emits s u where
  same := g.same.trans h.same
  rings x := (g.rings x).trans (h.rings x)
  wf hw := g.wf (h.wf hw)
  reads hw x hx := (g.reads (h.wf hw) x fun hb => hx ((h.rings x).1 hb)).trans (h.reads hw x hx)

theorem Emits.foldl {β : Type} (f : State → β → State) (h : ∀ s b, Emits s (f s b)) (l : List β) (s : State) : Emits s (l.foldl f s) :=
  List.foldlRecOn (motive := fun t => Emits s t) l f (.refl s) fun t ht b _ => ht.trans (h t b)

theorem Emits.thread {s t : State} (h : Emits s t) (j : Nat) : t.thread j = s.thread j := by
  have := congrArg (fun u : State => u.thread j) h.same
  exact this

theorem Emits.pending {s t : State} (h : Emits s t) : t.pending = s.pending := by
  have := congrArg State.pending h.same
  exact this

/-- Waking the threads that wait on a line moves the inbox alone. -/
theorem State.wakeLine_keeps {γ : Type} (φ : State → γ) (h : ∀ (v : State) (box : List Instr), φ { v with inbox := box } = φ v) (s : State) (line : Nat) :
    φ (s.wakeLine line) = φ s := by
  unfold State.wakeLine
  split
  · rfl
  · exact h ..

theorem State.devWrite_mem (s : State) (pa : Nat) (bs : List Byte) : (s.devWrite pa bs).mem = memWriteN s.mem pa bs :=
  foldl_keeps State.mem _ (fun u _ => u.wakeLine_keeps State.mem (fun _ _ => rfl) _) _ _

theorem State.devWrite_parts (s : State) (pa : Nat) (bs : List Byte) : (s.devWrite pa bs).parts = s.parts :=
  foldl_keeps State.parts _ (fun u _ => u.wakeLine_keeps State.parts (fun _ _ => rfl) _) _ _

theorem State.devWrite_withoutLending (s : State) (pa : Nat) (bs : List Byte) : (s.devWrite pa bs).withoutLending = s.withoutLending :=
  foldl_keeps State.withoutLending _ (fun u _ => u.wakeLine_keeps State.withoutLending (fun _ _ => rfl) _) _ _

/-- A write of the device within event rings. -/
theorem State.devWrite_emits (s : State) (pa : Nat) (bs : List Byte) (h : ∀ x, pa ≤ x → x < pa + bs.length → AnyEventByte s x) :
    Emits s (s.devWrite pa bs) where
  same := s.devWrite_withoutLending pa bs
  rings := anyEventByte_of_parts (s.devWrite_parts pa bs)
  wf hw := s.devWrite_mem pa bs ▸ memWf_writeN _ _ _ hw
  reads hw x hx := by
    rw [State.devWrite_mem]
    refine memRead_writeN_other _ _ _ _ hw ?_
    rcases Nat.lt_or_ge x pa with hlo | hlo
    · exact .inl hlo
    · exact .inr (Nat.le_of_not_lt fun hhi => hx (h x hlo hhi))

theorem State.modPart_emits (s : State) (p : Nat) (f : Partition → Partition) (hf : ∀ q, (f q).id = q.id)
    (hr : ∀ q, s.part? p = some q → ∀ x, (f q).ringHas x ↔ q.ringHas x) : Emits s (s.modPart p f) :=
  .of_mem rfl (fun x => anyEventByte_modPart s p f hf x fun q hq => hr q hq x) rfl

theorem State.count_emits (s : State) (part idx n : Nat) : Emits s (s.count part idx n) :=
  s.modPart_emits part _ (fun _ => rfl) fun _ _ _ => Iff.rfl

theorem eventRecord_length (typ ring core slot : Nat) (asid : BitVec 16) (tick : Word) (payload : Nat) :
    (eventRecord typ ring core slot asid tick payload).length = 32 := leBytes_length ..

/-- A record lies in the ring that takes it, or is counted as dropped. -/
theorem State.emit_emits (s : State) (part ring typ core slot : Nat) (asid : BitVec 16) (payload : Nat) (hring : ring < 4) :
    Emits s (s.emit part ring typ core slot asid payload) := by
  unfold State.emit
  split
  · exact .refl s
  rename_i p hp
  dsimp only
  split
  · rename_i hfits
    simp only [Bool.and_eq_true, decide_eq_true_eq] at hfits
    obtain ⟨⟨⟨⟨⟨hlo, hhi⟩, -⟩, -⟩, -⟩, -⟩ := hfits
    refine (s.devWrite_emits _ _ fun x hx hlt => ?_).trans (State.modPart_emits _ part _ (fun _ => rfl) fun q hq x => ?_)
    · rw [eventRecord_length] at hlt
      have hslot := Nat.mod_lt (vget p.rings ring { base := 0, log2 := 0, head := 0, tail := 0 }).head.toNat
        (Nat.two_pow_pos (vget p.rings ring { base := 0, log2 := 0, head := 0, tail := 0 }).log2.toNat)
      exact ⟨part, p, hp, ring, hring, fun r hr => by subst hr; omega⟩
    · rw [State.part?, State.devWrite_parts, ← State.part?, hp] at hq
      obtain rfl : p = q := Option.some.inj hq
      exact p.ringHas_advance ring x _
  · exact s.count_emits ..

theorem State.emitTask_emits (s : State) (tid ring typ payload : Nat) (hring : ring < 4) : Emits s (s.emitTask tid ring typ payload) :=
  s.emit_emits _ _ _ _ _ _ _ hring

/-! ### The lending states of a core -/

theorem State.moveQuarter_emits (s : State) (d q : Nat) (x : Quarter) : Emits s (s.moveQuarter d q x) := by
  have hset : Emits s (s.setQuarter d q x) := .of_mem rfl (fun _ => Iff.rfl) rfl
  refine hset.trans (Emits.foldl _ (fun u p => ?_) _ _)
  split
  · exact u.emit_emits _ _ _ _ _ _ _ (by decide)
  · exact .refl u

theorem State.scanQuarter_emits (s : State) (d q : Nat) : Emits s (s.scanQuarter d q) := by
  unfold State.scanQuarter
  dsimp only
  split
  · exact .refl s
  · split
    · split
      · exact s.moveQuarter_emits ..
      · exact .refl s
    · split
      · exact .refl s
      · exact s.moveQuarter_emits ..
    · split
      · exact .refl s
      · exact s.moveQuarter_emits ..
    · exact .refl s

theorem State.scanCore_emits (s : State) (c : Nat) : Emits s (s.scanCore c) := by
  refine Emits.foldl _ (fun u dir => (u.scanQuarter_emits c dir).trans ?_) _ _
  split
  · exact State.scanQuarter_emits ..
  · exact .refl _

end Sys2Proof.Machine

/-! ## Placement (R95, R97, R458, Table 4.6) -/

namespace Sys2Proof.Machine

open Sys2Proof.Claims

/-! ### The scratchpad of a task -/

theorem memRead_of_unlisted {m : List Host.Cell} {x : Nat} (h : ∀ p ∈ m, p.1 ≠ x) : memRead m x = unlisted := by
  induction m with
  | nil => rfl
  | cons p rest ih =>
    obtain ⟨k, b⟩ := p
    have hk : k ≠ x := h (k, b) List.mem_cons_self
    simp only [memRead, if_neg hk, ih fun q hq => h q (List.mem_cons_of_mem _ hq), ite_self]

theorem State.zeroRange_reads (s : State) (lo n j : Nat) (h : j < n) : memRead (s.zeroRange lo n).mem (lo + j) = 0 := by
  refine memRead_of_unlisted fun p hp e => ?_
  have hout := (List.mem_filter.1 hp).2
  simp [e, h] at hout

/-! ### The thread of a task at its start -/

theorem flightSize_mul (fs : List Flight) (n a : Nat) (h : fs.length ≤ n) : flightSize fs n * a = fs.foldl (fun m f => m * f.count) a := by
  induction fs generalizing n a with
  | nil => simp [flightSize]
  | cons f rest ih =>
    obtain ⟨m, rfl⟩ : ∃ m, n = m + 1 := ⟨n - 1, by simp at h; omega⟩
    rw [List.foldl_cons, ← ih m (a * f.count) (Nat.le_of_succ_le_succ h), flightSize, Nat.mul_comm f.count, Nat.mul_assoc, Nat.mul_comm f.count]

theorem Launch.stage0Total_eq (l : Launch) :
    l.stage0Total = (l.flights.filter fun f => f.domain != 5).foldl (fun n f => n * f.count) (if l.gang then l.npkg + 1 else 1) :=
  flightSize_mul _ _ _ (List.length_filter_le ..)

theorem Launch.fixDom_eq (l : Launch) (k : Task) (c : Nat) : ∃ d, l.fixDom k c = { l with fixedDom := d } := by
  unfold Launch.fixDom
  split
  · exact ⟨l.fixedDom, rfl⟩
  · exact ⟨_, rfl⟩

theorem Launch.noteBound_key (l : Launch) (k : Task) (c : Nat) (tick : Word) : (l.noteBound k c tick).key = l.key := by
  obtain ⟨d, h⟩ := l.fixDom_eq k c
  rw [Launch.noteBound, h]

theorem Launch.noteBound_args (l : Launch) (k : Task) (c : Nat) (tick : Word) : (l.noteBound k c tick).args = l.args := by
  obtain ⟨d, h⟩ := l.fixDom_eq k c
  rw [Launch.noteBound, h]

theorem Launch.noteBound_stage0Total (l : Launch) (k : Task) (c : Nat) (tick : Word) : (l.noteBound k c tick).stage0Total = l.stage0Total := by
  obtain ⟨d, h⟩ := l.fixDom_eq k c
  rw [Launch.noteBound, h]
  rfl

/-- What a launch notes of a binding does not reach the registers of its tasks. -/
theorem startRegs_noteBound (s u : State) (k : Task) (c : Nat)
    (h : k.launch.bind u.launch? = (k.launch.bind s.launch?).map fun l => l.noteBound k c s.tick) : startRegs u k = startRegs s k := by
  unfold startRegs
  rw [h]
  rcases k.launch.bind s.launch? with _ | l
  · rfl
  · simp only [Option.map_some, Launch.noteBound_args, Launch.noteBound_stage0Total]

theorem startThread_noteBound (s u : State) (k : Task) (c : Nat) (held : Bool) (hslot : k.mapSlot = none) (hparts : u.parts = s.parts)
    (h : k.launch.bind u.launch? = (k.launch.bind s.launch?).map fun l => l.noteBound k c s.tick) : startThread u k held = startThread s k held := by
  unfold startThread
  rw [startRegs_noteBound s u k c h, hslot, State.part?, State.part?, hparts]

/-- Registers set in turn leave the rest of a thread. -/
theorem Thread.setRegs_keeps {γ : Type} (φ : Thread → γ) (h : ∀ (t : Thread) (r : SReg) (v : Word), φ (t.setReg r v) = φ t)
    (l : List (SReg × Word)) (t : Thread) : φ (l.foldl (fun t r => t.setReg r.1 r.2) t) = φ t :=
  foldl_keeps φ _ (fun t r => h t r.1 r.2) l t

theorem getD_lookup_cons {α β : Type} [DecidableEq α] (a k : α) (v d : β) (l : List (α × β)) :
    (((k, v) :: l).lookup a).getD d = if a = k then v else (l.lookup a).getD d := by
  rw [List.lookup_cons]
  by_cases h : a = k
  · simp [h]
  · rw [if_neg h, beq_false_of_ne h]

/-- Each of the registers set in turn reads as it was set, and the others as before. -/
theorem Thread.setRegs_reg (l : List (SReg × Word)) (hz : ∀ p ∈ l, p.1 ≠ 0) (hn : (l.map (·.1)).Nodup) (t : Thread) (r : SReg) :
    (l.foldl (fun t r => t.setReg r.1 r.2) t).reg r = (l.lookup r).getD (t.reg r) := by
  induction l generalizing t with
  | nil => rfl
  | cons p rest ih =>
    obtain ⟨a, v⟩ := p
    obtain ⟨ha, hrest⟩ := List.nodup_cons.1 hn
    rw [List.foldl_cons, ih (fun q hq => hz q (List.mem_cons_of_mem _ hq)) hrest, getD_lookup_cons]
    by_cases hr : r = a
    · subst hr
      have hnone : rest.lookup r = none := List.lookup_eq_none_iff.2 fun q hq =>
        bne_iff_ne.2 fun e => ha (List.mem_map.2 ⟨q, hq, e.symm⟩)
      rw [hnone, if_pos rfl, Option.getD_none, Thread.reg_setReg_self t r v (hz _ List.mem_cons_self)]
    · rw [if_neg hr, Thread.reg_setReg_other t a r v hr]

theorem Thread.reset_reg (t : Thread) (h : t.regs = Thread.reset.regs) (r : SReg) : t.reg r = 0 := by
  unfold Thread.reg
  split
  · rfl
  · simp [h, Thread.reset]

/-- The registers of Table 4.6. -/
theorem startThread_reg (s : State) (k : Task) (held : Bool) (r : SReg) : (startThread s k held).reg r =
    if r = 2 then 0xFF00000000000000 + word (k.spadu * 4096 - 4096)
    else if r = 3 then 0xFF00000000000000
    else match k.launch.bind s.launch? with
      | some l => if r = 4 then l.args else if r = 5 then word k.index
        else if r = 6 then (if k.stage = 0 then word ((l.flights.filter fun f => f.domain != 5).foldl (fun n f => n * f.count) (if l.gang then l.npkg + 1 else 1)) else 0)
        else if r = 7 then k.sarg else 0
      | none => if r = 4 then word (0xF000000000000 + k.part * 4096) else if r = 5 then word k.part else 0 := by
  have hkeys : (∀ p ∈ startRegs s k, p.1 ≠ 0) ∧ ((startRegs s k).map (·.1)).Nodup := by
    unfold startRegs
    rcases k.launch.bind s.launch? with _ | l <;> simp
  unfold startThread
  rw [Thread.setRegs_reg _ hkeys.1 hkeys.2, Thread.reset_reg _ (by exact rfl)]
  unfold startRegs windowBase ctlBase
  rcases k.launch.bind s.launch? with _ | l
  · simp [getD_lookup_cons]
  · simp [← Launch.stage0Total_eq, getD_lookup_cons]

/-- The thread of a task with no tile map at its start, its registers apart. -/
theorem startThread_start (s : State) (k : Task) (held : Bool) (h : k.mapSlot = none) :
    (startThread s k held).task = some k ∧ (startThread s k held).pc = k.entry ∧ (startThread s k held).sup = k.supervisor ∧
      (startThread s k held).tmapbase = 0 ∧ (startThread s k held).inh = false ∧
      (startThread s k held).xvec = ((s.part? k.part).map (·.xvec)).getD 0 &&& ~~~1 ∧
      (startThread s k held).stall = if held then .gang else .none := by
  unfold startThread
  refine ⟨Thread.setRegs_keeps (·.task) Thread.setReg_task _ _, Thread.setRegs_keeps (·.pc) Thread.setReg_pc _ _,
    Thread.setRegs_keeps (·.sup) Thread.setReg_sup _ _, (Thread.setRegs_keeps (·.tmapbase) Thread.setReg_tmapbase _ _).trans ?_,
    Thread.setRegs_keeps (·.inh) Thread.setReg_inh _ _, (Thread.setRegs_keeps (·.xvec) Thread.setReg_xvec _ _).trans ?_,
    Thread.setRegs_keeps (·.stall) Thread.setReg_stall _ _⟩
  · simp only [h]
  · rcases s.part? k.part <;> rfl

/-! ### What is bound -/

/-- The launch of a task notes its binding. -/
def State.noteBound (s : State) (k : Task) (c : Nat) : State :=
  match k.launch with
  | some key => s.modLaunch key fun l => l.noteBound k c s.tick
  | none => s

theorem State.noteBound_keeps {γ : Type} (φ : State → γ) (h : ∀ (v : State) (l : List Launch), φ { v with launches := l } = φ v)
    (s : State) (k : Task) (c : Nat) : φ (s.noteBound k c) = φ s := by
  unfold State.noteBound
  split
  · exact h ..
  · rfl

theorem State.noteBound_launch? (s : State) (k : Task) (c : Nat) :
    k.launch.bind (s.noteBound k c).launch? = (k.launch.bind s.launch?).map fun l => l.noteBound k c s.tick := by
  unfold State.noteBound
  rcases k.launch with _ | key
  · rfl
  · exact s.launch?_modLaunch_self key _ fun l => l.noteBound_key k c s.tick

/-- A pending task is no longer offered, as one that is bound for the first time. -/
def State.unoffered (s : State) (p : Pending) : State := { s with pending := s.pending.erase p, nextUid := s.nextUid + 1 }

/-- A core with its split and a launch have taken a task. -/
def State.taken (s : State) (p : Pending) (k : Task) (c : Nat) : State :=
  ((s.unoffered p).modCore c fun x => { x with split := (s.unoffered p).splitWith k c }).noteBound k c

/-- A task has its slot and its scratchpad; the record of its start is not written yet. -/
def State.seated (s : State) (p : Pending) (k : Task) (c i base : Nat) : State :=
  ((s.taken p k c).setThread (4 * c + i) (startThread (s.taken p k c) k ((k.launch.bind s.launch?).any fun l => !l.started))).zeroRange
    (spadKey c base) (k.spadu * 4096)

/-- The record of its start is written. -/
def State.startNoted (s : State) (p : Pending) (k : Task) (c i base : Nat) : State :=
  let u := s.seated p k c i base
  u.emitTask (4 * c + i) 3 0x30 ((u.launchId k).toNat + k.stage % 8 * 2 ^ 64 + k.index % 2 ^ 32 * 2 ^ 67)

theorem State.taken_keeps {γ : Type} (φ : State → γ) (s : State) (p : Pending) (k : Task) (c : Nat)
    (h : ∀ (v : State) (l : List Launch), φ { v with launches := l } = φ v := by exact fun _ _ => rfl)
    (hs : φ ((s.unoffered p).modCore c fun x => { x with split := (s.unoffered p).splitWith k c }) = φ s := by rfl) : φ (s.taken p k c) = φ s :=
  (State.noteBound_keeps φ h _ k c).trans hs

theorem State.setThread_keeps {γ : Type} (φ : State → γ) (s : State) (tid : Nat) (t : Thread)
    (h : ∀ (v : State) (x : Thread) (l : List (Nat × Thread)), φ { v with t := x, parked := l } = φ v := by exact fun _ _ _ => rfl) :
    φ (s.setThread tid t) = φ s := by
  unfold State.setThread
  split
  · exact h s t s.parked
  · exact h s s.t (ainsert tid t s.parked)

theorem State.seated_thread_self (s : State) (p : Pending) (k : Task) (c i base : Nat) (h : k.mapSlot = none) :
    (s.seated p k c i base).thread (4 * c + i) = startThread s k ((k.launch.bind s.launch?).any fun l => !l.started) :=
  (State.thread_setThread_self ..).trans
    (startThread_noteBound s (s.taken p k c) k c _ h (State.taken_keeps State.parts s p k c) (State.noteBound_launch? _ k c))

theorem State.seated_thread_other (s : State) (p : Pending) (k : Task) (c i base j : Nat) (h : j ≠ 4 * c + i) :
    (s.seated p k c i base).thread j = s.thread j :=
  (State.thread_setThread_other _ _ _ _ h).trans (State.taken_keeps (·.thread j) s p k c)

theorem State.seated_parts (s : State) (p : Pending) (k : Task) (c i base : Nat) : (s.seated p k c i base).parts = s.parts :=
  (State.setThread_keeps State.parts _ _ _).trans (State.taken_keeps State.parts s p k c)

theorem State.seated_pending (s : State) (p : Pending) (k : Task) (c i base : Nat) : (s.seated p k c i base).pending = s.pending.erase p :=
  (State.setThread_keeps State.pending _ _ _).trans (State.noteBound_keeps State.pending (fun _ _ => rfl) _ k c)

theorem State.seated_memWf (s : State) (p : Pending) (k : Task) (c i base : Nat) (h : memWf s.mem = true) :
    memWf (s.seated p k c i base).mem = true := by
  have hmem : (s.taken p k c).mem = s.mem := State.taken_keeps State.mem s p k c
  exact memWf_filter _ _ (((State.setThread_keeps State.mem _ _ _).trans hmem) ▸ h)

theorem State.startNoted_emits (s : State) (p : Pending) (k : Task) (c i base : Nat) : Emits (s.seated p k c i base) (s.startNoted p k c i base) :=
  State.emitTask_emits _ _ _ _ _ (by decide)

theorem State.startMap_unmapped (s : State) (who : Asker) (h : s.t.tmapbase = 0) : s.startMap who = .done s := by
  unfold State.startMap
  rw [h]
  rfl

/-- A task of a stage with no tile map is bound: it is seated, its start is recorded, and the quarters about its core move on. -/
theorem State.bindFresh_done (s : State) (p : Pending) (k : Task) (c i base heat : Nat) (hfree : s.freeSlot c [] = some i)
    (htiles : ∀ l st, p.task.launch.bind s.launch? = some l → l.stages[p.task.stage]? = some st → st.tiles = false)
    (hk : k = { p.task with spadBase := base, heat := heat, since := s.now, uid := s.nextUid, mapSlot := none }) :
    s.bindFresh p c base heat = .done ((((s.startNoted p k c i base).switchTo (4 * c + i)).switchTo s.cur).scanCore c) := by
  have hnone : (((p.task.launch.bind s.launch?).bind fun l => l.stages[p.task.stage]?).map (·.tiles)).getD false = false := by
    rcases hl : p.task.launch.bind s.launch? with _ | l
    · rfl
    · rcases hst : l.stages[p.task.stage]? with _ | st
      · simp [hst]
      · simp [hst, htiles l st hl hst]
  have hslot : k.mapSlot = none := by rw [hk]
  have hunmapped : ((s.startNoted p k c i base).switchTo (4 * c + i)).t.tmapbase = 0 := by
    obtain ⟨-, -, -, hmap, -⟩ := startThread_start s k ((k.launch.bind s.launch?).any fun l => !l.started) hslot
    rw [State.switchTo_t, (s.startNoted_emits p k c i base).thread, s.seated_thread_self p k c i base hslot, hmap]
  have hbind : s.bindFresh p c base heat = match ((s.startNoted p k c i base).switchTo (4 * c + i)).startMap p.task.poolAsker with
      | .done u => .done ((u.switchTo s.cur).scanCore c)
      | w => w := by
    unfold State.bindFresh
    rw [hfree]
    subst hk
    simp only [hnone, Bool.false_eq_true, if_false]
    rfl
  rw [hbind, State.startMap_unmapped _ _ hunmapped]

/-- What follows the record of a start leaves the threads, the pending tasks, and every byte outside the event rings. -/
theorem State.startNoted_leaves (s t : State) (p : Pending) (k : Task) (c i base me : Nat)
    (ht : (((s.startNoted p k c i base).switchTo (4 * c + i)).switchTo me).scanCore c = t) :
    (∀ j, t.thread j = (s.seated p k c i base).thread j) ∧ t.pending = s.pending.erase p ∧
      (memWf s.mem = true → ∀ x, ¬ AnyEventByte s x → memRead t.mem x = memRead (s.seated p k c i base).mem x) := by
  subst ht
  have hnote := s.startNoted_emits p k c i base
  have hscan := State.scanCore_emits (((s.startNoted p k c i base).switchTo (4 * c + i)).switchTo me) c
  have hmem : (((s.startNoted p k c i base).switchTo (4 * c + i)).switchTo me).mem = (s.startNoted p k c i base).mem := by
    rw [State.switchTo_mem, State.switchTo_mem]
  have hparts : (((s.startNoted p k c i base).switchTo (4 * c + i)).switchTo me).parts = (s.startNoted p k c i base).parts := by
    rw [State.switchTo_parts, State.switchTo_parts]
  refine ⟨fun j => ?_, ?_, fun hwf x hx => ?_⟩
  · rw [hscan.thread, State.thread_switchTo, State.thread_switchTo, hnote.thread]
  · rw [hscan.pending, State.switchTo_pending, State.switchTo_pending, hnote.pending, State.seated_pending]
  · have hseated := s.seated_memWf p k c i base hwf
    have hring : ¬ AnyEventByte (s.seated p k c i base) x := fun hb =>
      hx ((anyEventByte_of_parts (s.seated_parts p k c i base) x).1 hb)
    have hscanned : ¬ AnyEventByte (((s.startNoted p k c i base).switchTo (4 * c + i)).switchTo me) x := fun hb =>
      hring ((hnote.rings x).1 ((anyEventByte_of_parts hparts x).1 hb))
    rw [hscan.reads (hmem ▸ hnote.wf hseated) x hscanned, hmem, hnote.reads hseated x hring]

/-! ### One pending task is offered -/

theorem State.offered_single (s : State) (p : Pending) (hp : s.pending = [p]) (hopen : (s.part? p.task.part).all (fun q => !q.closing) = true) :
    s.offered = [p] := by
  have hany : (s.part? p.task.part).any (·.closing) = false := by
    rcases hq : s.part? p.task.part with _ | q
    · rfl
    · simpa [hq] using hopen
  simp [State.offered, hp, hany, State.insertPending]

theorem State.unitOf_single (s : State) (p : Pending) (hp : s.pending = [p]) (hhome : p.home = none) : s.unitOf p = [p] := by
  unfold State.unitOf
  split
  · rename_i l hl
    split
    · rename_i h
      have hstage : p.task.stage = 0 := by simpa [hhome] using h
      simp [hp, hhome, hstage]
    · rfl
  · rfl

/-- A task that is not hot and lies alone among the offered ones has no hot rival. -/
theorem State.hotRival_single (s : State) (p : Pending) (h : s.offered = [p]) : s.hotRival p = none := by
  unfold State.hotRival State.litTaken
  rw [h]
  by_cases hhot : p.task.heat = 2
  · simp [hhot]
  · simp [hhot]

theorem State.underTlim_of (s : State) (k : Task)
    (h : ∀ l st, k.launch.bind s.launch? = some l → l.stages[k.stage]? = some st → st.tlim = 0 ∨ s.stageBound l.key k.stage < st.tlim) :
    s.underTlim k = true := by
  unfold State.underTlim
  split
  · rfl
  · rename_i l hl
    split
    · rfl
    · rename_i st hst
      simpa using h l st hl hst

/-- The one pending task is bound, when it can be: TASK_PLACE goes on from what the binding leaves. -/
theorem taskPlace_single (s t : State) (p : Pending) (hp : s.pending = [p]) (hhome : p.home = none)
    (hopen : (s.part? p.task.part).all (fun q => !q.closing) = true) (htlim : s.underTlim p.task = true)
    (hbind : s.bindOne true p = some (.done t)) : exec .taskPlace s = .next t := by
  have hoffered := s.offered_single p hp hopen
  have hunit : s.bindUnit p = some (.done t) := by
    rw [State.bindUnit, if_pos htlim, s.unitOf_single p hp hhome, State.bindAll, hbind]
    rfl
  have hplace : s.placeUnit p = some t := by
    rw [State.placeUnit, hunit, s.hotRival_single p hoffered]
    rfl
  have hone : s.placeOne = some t := by
    rw [State.placeOne, hoffered, State.placeFirst, hplace]
    rfl
  exact congrArg (fun o : Option State => Host.Outcome.next (o.getD s)) hone

/-- Settles O50: the one pending task is bound and seated, and the record of its start and the quarters about its core leave threads, tasks and the
zeroed scratchpad as they are. That `s6` of a gang counts the threads of all its packages is log 69's choice. -/
theorem pendingTasksStartAsTable46Says : Obligations.PendingTasksStartAsTable46Says := by
  unfold Obligations.PendingTasksStartAsTable46Says
  intro s k c base i hp hslot hopen hstage hfree hdie hi hwf
  generalize hk' : ({ k with spadBase := base, since := s.now, uid := s.nextUid } : Task) = k'
  have hk : k' = { (Pending.fresh k).task with spadBase := base, heat := k.heat, since := s.now, uid := s.nextUid, mapSlot := none } := by
    rw [← hk', ← hslot]
    rfl
  have hslot' : k'.mapSlot = none := by rw [hk]
  have hdone := s.bindFresh_done (Pending.fresh k) k' c i base k.heat hi (fun l st hl hst => (hstage l st hl hst).1) hk
  generalize ht : (((s.startNoted (Pending.fresh k) k' c i base).switchTo (4 * c + i)).switchTo s.cur).scanCore c = t at hdone
  have hbind : s.bindOne true (Pending.fresh k) = some (.done t) := by
    have hwait : s.awaits (Pending.fresh k).task.poolAsker = false := hfree
    have hpick : s.pickDie (Pending.fresh k).task ((Pending.fresh k).task.heat == 2) true = some (c, base) := hdie
    rw [State.bindOne, hwait]
    simp only [hpick]
    exact congrArg some hdone
  have hplace := taskPlace_single s t (Pending.fresh k) hp rfl hopen
    (s.underTlim_of k fun l st hl hst => (hstage l st hl hst).2) hbind
  obtain ⟨hthread, hpending, hreads⟩ := s.startNoted_leaves t (Pending.fresh k) k' c i base s.cur ht
  have hstart := (hthread (4 * c + i)).trans (s.seated_thread_self (Pending.fresh k) k' c i base hslot')
  obtain ⟨htask, hpc, hsup, hmap, hinh, hxvec, hstall⟩ :=
    startThread_start s k' ((k'.launch.bind s.launch?).any fun l => !l.started) hslot'
  refine ⟨t, k', hplace, ?_, ?_, rfl, ?_, ?_, ?_, ?_, ?_, ?_, fun r => ?_, fun j hj hring => ?_, fun j hj => ?_⟩
  · rw [hpending, hp, List.erase_cons_head]
  · rw [hstart, htask]
  · rw [hstart, hpc, ← hk']
  · rw [hstart, hsup, ← hk']
  · rw [hstart, hmap]
  · rw [hstart, hinh]
  · rw [hstart, hxvec, ← hk']
  · rw [hstart, hstall, ← hk']
  · rw [hstart, ← hk']
    exact startThread_reg s _ _ r
  · have hkey : spadKey c (base + j) = spadKey c base + j := by unfold spadKey; omega
    rw [hreads hwf _ hring, hkey]
    exact State.zeroRange_reads _ _ _ j (by rw [← hk']; exact hj)
  · rw [hthread, s.seated_thread_other (Pending.fresh k) k' c i base j hj]

end Sys2Proof.Machine

/-! ## The epoch of a die over memory that is not canonical (R98, R113) -/

namespace Sys2Proof.Machine

open Sys2Proof.Claims

/-- A partition whose event rings lie at 64 KiB, with 256 records. -/
def recordingPart : Partition :=
  { Partition.fresh 0 0xFFFFFFFFF 0 bootMemBytes with rings := Vector.replicate 4 { base := 0x10000, log2 := 8, head := 0, tail := 0 } }

/-- An epoch in which die 0 is at 95.0 degrees, over a list of memory cells that does not rise: the cell of address 5 stands behind that of address 65,536,
where no read finds it. -/
def unsortedEpoch : State :=
  { State.reset with
    mem := [(0x10000, 1), (5, 7)]
    dies := State.reset.dies.set 0 { Die.reset with temps := Vector.replicate 16 950 }
    parts := [recordingPart] }

theorem unsortedEpoch_eventByte (x : Nat) (h : AnyEventByte unsortedEpoch x) : 0x10000 ≤ x := by
  obtain ⟨part, p, hp, j, hj, hring⟩ := h
  obtain rfl : p = recordingPart := List.mem_singleton.1 (List.mem_of_find?_eq_some hp)
  obtain ⟨-, -, hbase, -⟩ := hring { base := 0x10000, log2 := 8, head := 0, tail := 0 } (by simp [recordingPart, vget, hj])
  exact hbase

/-- The record of the new level begins with a byte 0, which takes the first cell off the list: the cell of address 5 is read now. -/
theorem unsortedEpoch_dstEpoch : memRead unsortedEpoch.mem 5 = 0 ∧ ∃ t, exec (.dstEpoch 0) unsortedEpoch = .next t ∧ memRead t.mem 5 = 7 :=
  ⟨rfl, _, rfl, by decide +kernel⟩

/-- Refutes O51 at its clause on DST_EPOCH: unlike the clauses on lending states and samples it does not ask that memory be canonical (`memWf`). In the
epoch of a hot die over a list of cells that does not rise, the record of the level (R113) changes what address 5 reads as, which lies in no event ring. -/
theorem not_theDistributorMovesOn : ¬ Obligations.TheDistributorMovesOn := by
  unfold Obligations.TheDistributorMovesOn
  rintro ⟨-, hmoves⟩
  obtain ⟨t, hexec, -, hkept, -⟩ := (hmoves unsortedEpoch 0 0).1 (by decide)
  obtain ⟨hbefore, t', hexec', hafter⟩ := unsortedEpoch_dstEpoch
  obtain rfl : t = t' := Host.Outcome.next.inj (hexec.symm.trans hexec')
  have hsame := hkept 5 fun h => absurd (unsortedEpoch_eventByte 5 h) (by decide)
  rw [hbefore, hafter] at hsame
  exact absurd hsame (by decide)

end Sys2Proof.Machine

/-! ## Retirement (R128, R237) -/

namespace Sys2Proof.Machine

open Sys2Proof.Claims

/-- With members left, the convoy stays at its PC. -/
theorem Thread.retire_next (t : Thread) (h : t.member + 1 < t.convoyLen) : t.retire.pc = t.pc ∧ t.retire.member = t.member + 1 := by
  unfold Thread.retire
  dsimp only
  rw [if_pos h]
  exact ⟨rfl, rfl⟩

/-- After the last member, sequential fetch goes on. -/
theorem Thread.retire_last (t : Thread) (h : t.convoyLen ≤ t.member + 1) : t.retire.pc = t.nextPc ∧ t.retire.member = 0 := by
  unfold Thread.retire
  dsimp only
  rw [if_neg (Nat.not_lt.2 h)]
  exact ⟨rfl, rfl⟩

theorem Thread.retire_progress (t : Thread) : t.retire = progress t t.retire := by
  unfold Thread.retire
  dsimp only
  split <;> rfl

theorem State.retire_turn_eq (s : State) : s.retire.turn = if s.t.member + 1 < s.t.convoyLen then .slot s.cur else .arbiter := rfl

/-- Settles O5: the thread moves as the convoy has members left or not; what the state does besides is `State.retire` itself. That `vstart` stays inside a
handler is log 10's choice. -/
theorem retirementMovesToTheNextMember : Obligations.RetirementMovesToTheNextMember := by
  unfold Obligations.RetirementMovesToTheNextMember
  intro s
  refine ⟨fun hinh => ?_, fun hinh => ?_, fun hmore => ?_, fun hlast => ?_, rfl, s.t.retire_progress⟩
  · simp [hinh]
  · simp [hinh]
  · obtain ⟨hpc, hmember⟩ := s.t.retire_next hmore
    exact ⟨hpc, hmember, by rw [s.retire_turn_eq, if_pos hmore]⟩
  · obtain ⟨hpc, hmember⟩ := s.t.retire_last hlast
    exact ⟨hpc, hmember, by rw [s.retire_turn_eq, if_neg (Nat.not_lt.2 hlast)]⟩

end Sys2Proof.Machine

/-! ## Writes to HBM through L2 (R190 to R192): what they leave -/

namespace Sys2Proof.Machine

open Sys2Proof.Claims

/-- A partition with its counters cleared. -/
def Partition.uncounted (p : Partition) : Partition := { p with counters := Vector.replicate 64 0 }

/-- The state without what the home slices of lines move: the stacks and L2, what leaves over UALink, and the counters of partitions. -/
def State.withoutHome (s : State) : State :=
  { s.withoutStacks with out := [], asks := [], nextTag := 0, linkWait := [], parts := s.parts.map Partition.uncounted }

theorem State.withoutHome_of_stacks {s t : State} (h : t.withoutStacks = s.withoutStacks) : t.withoutHome = s.withoutHome :=
  show t.withoutStacks.withoutHome = s.withoutStacks.withoutHome by rw [h]

theorem State.mem_of_withoutHome {s t : State} (h : t.withoutHome = s.withoutHome) : t.mem = s.mem := by
  have := congrArg State.mem h
  exact this

theorem map_modPart {β : Type} (g : Partition → β) (p : Nat) (f : Partition → Partition) (h : ∀ q, g (f q) = g q) (l : List Partition) :
    (Machine.modPart p f l).map g = l.map g := by
  induction l with
  | nil => rfl
  | cons q rest ih =>
    unfold Machine.modPart
    split <;> simp [h, ih]

@[simp] theorem State.count_withoutHome (s : State) (p idx n : Nat) : (s.count p idx n).withoutHome = s.withoutHome := by
  have hparts := map_modPart Partition.uncounted p (fun q => { q with counters := vput q.counters idx (vget q.counters idx 0 + word n) }) (fun _ => rfl) s.parts
  exact congrArg (fun l => { s.withoutHome with parts := l }) hparts

@[simp] theorem State.modDie_withoutHome (s : State) (d : Nat) (f : Die → Die) : (s.modDie d f).withoutHome = s.withoutHome := rfl

@[simp] theorem State.stackRead_withoutHome (s : State) (line : Nat) : (s.stackRead line).withoutHome = s.withoutHome :=
  State.withoutHome_of_stacks (by simp [State.stackRead])

@[simp] theorem State.stackWrite_withoutHome (s : State) (line : Nat) : (s.stackWrite line).withoutHome = s.withoutHome := by
  unfold State.stackWrite
  split
  · rfl
  · exact State.withoutHome_of_stacks (foldl_keeps State.withoutStacks _ (fun u _ => u.consult_withoutStacks _ _) _ s)

@[simp] theorem State.fenceLine_withoutHome (s : State) (line : Nat) : (s.fenceLine line).withoutHome = s.withoutHome :=
  foldl_keeps State.withoutHome _ (fun _ _ => by split <;> rfl) _ s

@[simp] theorem State.ask_withoutHome (s : State) (who : Asker) (part : Nat) (r : LeaseReq) : (s.ask who part r).withoutHome = s.withoutHome := by
  unfold State.ask State.depart
  split <;> rfl

@[simp] theorem State.unhurt_withoutHome (s : State) (l : L2Line) : (s.unhurt l).withoutHome = s.withoutHome := by
  unfold State.unhurt
  split <;> rfl

@[simp] theorem State.writeBack_withoutHome (s : State) (l : L2Line) : (s.writeBack l).withoutHome = s.withoutHome := by
  unfold State.writeBack
  split <;> simp

@[simp] theorem State.fillL2_withoutHome (s : State) (part : Nat) (new : L2Line) : (s.fillL2 part new).withoutHome = s.withoutHome := by
  unfold State.fillL2
  dsimp only
  split
  · simp
  · split
    · simp
    · split <;> simp

theorem State.touchL2_withoutHome (s : State) (part line : Nat) (write : Bool) : (s.touchL2 part line write).withoutHome = s.withoutHome := by
  unfold State.touchL2
  dsimp only
  split
  · split <;> simp
  · split <;> simp

/-- Bytes that a core puts change memory and L1 alone. -/
theorem putBytes_keeps {γ : Type} (φ : State → γ) (hm : ∀ (u : State) (m : List Host.Cell), φ { u with mem := m } = φ u)
    (hc : ∀ (u : State) (c : Nat) (f : List Line → List Line), φ (u.modCore c fun k => { k with l1 := f k.l1 }) = φ u)
    (core key : Nat) (bs : List Byte) (s : State) : φ (putBytes core key bs s) = φ s := by
  induction bs generalizing key s with
  | nil => rfl
  | cons b rest ih =>
    rw [putBytes, ih, State.putByte]
    split
    · rw [hc, hm]
    · exact hm ..

theorem putBytes_mem (core key : Nat) (bs : List Byte) (s : State) : (putBytes core key bs s).mem = memWriteN s.mem key bs := by
  induction bs generalizing key s with
  | nil => rfl
  | cons b rest ih =>
    rw [putBytes, ih, memWriteN, State.putByte]
    split <;> rfl

/-- What a write does beside its bytes changes poison, L1, the inbox and the streams of the thread in hand alone. -/
theorem State.noteWrite_keeps {γ : Type} (φ : State → γ) (hp : ∀ (u : State) (l : List Nat), φ { u with poison := l } = φ u)
    (hc : ∀ (u : State) (c : Nat) (f : List Line → List Line), φ (u.modCore c fun k => { k with l1 := f k.l1 }) = φ u)
    (hb : ∀ (u : State) (box : List Instr), φ { u with inbox := box } = φ u)
    (ht : ∀ (u : State) (f : List Stream → List Stream), φ (u.modT fun t => { t with streams := f t.streams }) = φ u)
    (s : State) (key n : Nat) : φ (s.noteWrite key n) = φ s := by
  have hwake : ∀ (l : List Nat) (u : State), φ (l.foldl State.wakeLine u) = φ u := foldl_keeps φ _ fun u => u.wakeLine_keeps φ hb
  simp only [State.noteWrite, apply_ite φ, ht, hwake, hc, hp, ite_self]

/-- A write to HBM through L2: its home slices take the lines, its bytes are put, and the rest follows. -/
theorem State.writeHbm_keeps {γ : Type} (φ : State → γ) (hh : ∀ u v : State, u.withoutHome = v.withoutHome → φ u = φ v)
    (hm : ∀ (u : State) (m : List Host.Cell), φ { u with mem := m } = φ u)
    (hc : ∀ (u : State) (c : Nat) (f : List Line → List Line), φ (u.modCore c fun k => { k with l1 := f k.l1 }) = φ u)
    (hb : ∀ (u : State) (box : List Instr), φ { u with inbox := box } = φ u)
    (ht : ∀ (u : State) (f : List Stream → List Stream), φ (u.modT fun t => { t with streams := f t.streams }) = φ u)
    (s : State) (part pa : Nat) (bs : List Byte) : φ (s.writeHbm part pa .l2 bs) = φ s := by
  unfold State.writeHbm
  dsimp only
  rw [State.noteWrite_keeps φ (fun u l => hh _ u rfl) hc hb ht, putBytes_keeps φ hm hc]
  exact foldl_keeps φ _ (fun u l => hh _ _ (u.touchL2_withoutHome part l true)) _ s

theorem State.writeHbm_mem (s : State) (part pa : Nat) (bs : List Byte) : (s.writeHbm part pa .l2 bs).mem = memWriteN s.mem pa bs := by
  have htouched : ((linesOf pa bs.length).foldl (fun u l => u.touchL2 part l true) s).mem = s.mem :=
    foldl_keeps State.mem _ (fun u l => State.mem_of_withoutHome (u.touchL2_withoutHome part l true)) _ s
  unfold State.writeHbm
  dsimp only
  rw [State.noteWrite_keeps State.mem (fun _ _ => rfl) (fun _ _ _ => rfl) (fun _ _ => rfl) (fun _ _ => rfl), putBytes_mem]
  exact congrArg (memWriteN · pa bs) htouched

end Sys2Proof.Machine

/-! ## Pre-emption with an event ring over the save record (R249, R250, R253) -/

namespace Sys2Proof.Machine

open Sys2Proof.Claims

/-! ### Quarters that move on, and those that stay -/

theorem State.scanQuarter_edge (s : State) (d q : Nat) (h : borrower d q = none) : s.scanQuarter d q = s := by
  simp [State.scanQuarter, h]

/-- A free quarter stays free at a lit core, and at a core whose neighbour holds no task. -/
theorem State.scanQuarter_free (s : State) (d q : Nat) (hfree : ((s.getCore d).quarter q).st = .free)
    (h : ∀ b, borrower d q = some b → lit d = true ∨ s.boundOn b = []) : s.scanQuarter d q = s := by
  rcases hb : borrower d q with _ | b
  · exact s.scanQuarter_edge d q hb
  · have hlend : s.lendTo d q = none := by
      rcases h b hb with hlit | hnone
      · simp [State.lendTo, hb, hlit]
      · simp [State.lendTo, hb, State.hotLaunch, hnone]
    simp [State.scanQuarter, hb, hfree, hlend]

/-- A quarter RESERVED for a core that holds no task any more is given up (Table 4.7). -/
theorem State.scanQuarter_reserved (s : State) (d q b : Nat) (hb : borrower d q = some b) (hst : ((s.getCore d).quarter q).st = .reserved)
    (hnone : s.boundOn b = []) : s.scanQuarter d q = s.moveQuarter d q noQuarter := by
  simp [State.scanQuarter, hb, hst, State.holdsHot, hnone]

/-- Core 0 lies in a corner of its die: once it holds no task, a quarter RESERVED for it on core 8 is given up, and free ones stay free. -/
theorem State.scanCore_corner (s : State) (hown : ∀ q < 4, ((s.getCore 0).quarter q).st = .free) (heast : ((s.getCore 1).quarter 3).st = .free)
    (hsouth : ((s.getCore 8).quarter 0).st = .reserved) (hnone : s.boundOn 0 = []) : s.scanCore 0 = s.moveQuarter 8 0 noQuarter := by
  have hlit : ∀ q < 4, s.scanQuarter 0 q = s := fun q hq => s.scanQuarter_free 0 q (hown q hq) fun _ _ => .inl (by decide)
  have hstays : s.scanQuarter 1 3 = s := s.scanQuarter_free 1 3 heast fun b hb => .inr (by
    obtain rfl : 0 = b := Option.some.inj ((by decide : borrower 1 3 = some 0).symm.trans hb)
    exact hnone)
  have hgiven := s.scanQuarter_reserved 8 0 0 (by decide) hsouth hnone
  have hedge := (s.moveQuarter 8 0 noQuarter).scanQuarter_edge 0 3 (by decide)
  show List.foldl _ s [0, 1, 2, 3] = _
  simp [neighbour, coreX, coreY, quarterOf, hlit, hstays, hgiven, hedge]

/-! ### Where a record goes -/

/-- A ring of a partition has room, and its head stands at an address in the partition's memory (R253; log 19). -/
def Partition.RecordsAt (p : Partition) (ring a : Nat) : Prop :=
  let r := vget p.rings ring { base := 0, log2 := 0, head := 0, tail := 0 }
  a = r.base.toNat + 32 * (r.head.toNat % 2 ^ r.log2.toNat) ∧ 8 ≤ r.log2.toNat ∧ r.log2.toNat ≤ 24 ∧ r.base.extractLsb' 0 12 = 0 ∧
    (r.head - r.tail).toNat < 2 ^ r.log2.toNat ∧ p.memPa ≤ a ∧ a + 32 ≤ p.memPa + p.memBytes

theorem State.emit_mem (s : State) (p : Partition) (part ring typ core slot a : Nat) (asid : BitVec 16) (payload : Nat) (hp : s.part? part = some p)
    (h : p.RecordsAt ring a) : (s.emit part ring typ core slot asid payload).mem = memWriteN s.mem a (eventRecord typ ring core slot asid s.tick payload) := by
  obtain ⟨rfl, hlo, hhi, hbase, hroom, hmin, hmax⟩ := h
  unfold State.emit
  rw [hp]
  dsimp only
  rw [if_pos]
  · exact State.devWrite_mem ..
  · simp only [Bool.and_eq_true, decide_eq_true_eq, beq_iff_eq]
    exact ⟨⟨⟨⟨⟨hlo, hhi⟩, hbase⟩, hroom⟩, hmin⟩, hmax⟩

/-- The move of a quarter of a core of the one partition is recorded in ring 3. -/
theorem State.moveQuarter_mem (s : State) (p : Partition) (d q a : Nat) (x : Quarter) (hparts : s.parts = [p]) (hp : p.holds d = true) (h : p.RecordsAt 3 a) :
    (s.moveQuarter d q x).mem = memWriteN s.mem a (eventRecord 0x34 3 d 0 0 s.tick (d + q * 2 ^ 10 + x.st.code * 2 ^ 12)) := by
  have hset : (s.setQuarter d q x).parts = [p] := hparts
  have hpart : (s.setQuarter d q x).part? p.id = some p := by simp [State.part?, hset]
  simp only [State.moveQuarter, hset, List.foldl_cons, List.foldl_nil, hp, if_true]
  exact State.emit_mem _ p p.id 3 0x34 d 0 a 0 _ hpart h

/-! ### What the quarters about a core move by -/

/-- What records and lending states turn on: the partitions but for their counters, the quarters, the slots that are not in hand, and the tick. -/
def State.lending (s : State) : List Partition × (Nat → Vector Quarter 4) × List (Nat × Thread) × Word :=
  (s.parts.map Partition.uncounted, fun c => (s.getCore c).quarters, s.parked, s.tick)

theorem State.of_lending {s t : State} (h : t.lending = s.lending) : t.parts.map Partition.uncounted = s.parts.map Partition.uncounted ∧
    (∀ c, (t.getCore c).quarters = (s.getCore c).quarters) ∧ t.parked = s.parked ∧ t.tick = s.tick :=
  ⟨congrArg (·.1) h, congrFun (congrArg (·.2.1) h), congrArg (·.2.2.1) h, congrArg (·.2.2.2) h⟩

theorem State.lending_of_withoutHome {s t : State} (h : t.withoutHome = s.withoutHome) : t.lending = s.lending := by
  have := congrArg (fun u : State => (u.parts, fun c => (u.getCore c).quarters, u.parked, u.tick)) h
  exact this

theorem State.lending_modCore (s : State) (c : Nat) (f : Core → Core) (hf : ∀ k, (f k).quarters = k.quarters) : (s.modCore c f).lending = s.lending := by
  have hcores : ∀ j, ((s.modCore c f).getCore j).quarters = (s.getCore j).quarters := fun j => by
    by_cases hj : j = c
    · rw [hj, State.getCore_modCore_self, hf]
    · rw [State.getCore, State.modCore, State.setCore, alookup_ainsert_other c j _ _ hj, State.getCore]
  exact congrArg (fun g => (s.parts.map Partition.uncounted, g, s.parked, s.tick)) (funext hcores)

theorem State.writeHbm_lending (s : State) (part pa : Nat) (bs : List Byte) : (s.writeHbm part pa .l2 bs).lending = s.lending :=
  State.writeHbm_keeps State.lending (fun _ _ => State.lending_of_withoutHome) (fun _ _ => rfl) (fun u c _ => u.lending_modCore c _ fun _ => rfl)
    (fun _ _ => rfl) (fun _ _ => rfl) s part pa bs

/-! ### Pre-emption, step by step -/

theorem State.switchTo_cur_self (s : State) : s.switchTo s.cur = s := if_pos rfl

theorem Emits.hand {s t : State} (h : Emits s t) : t.t = s.t := by
  have := congrArg State.t h.same
  exact this

/-- A pre-emption is counted and recorded, and the slot in hand lets its entries and its unit go. -/
def State.left (s : State) (k : Task) : State :=
  (((s.count s.t.part 46 1).emitTask s.cur 3 0x32 ((s.launchId k).toNat + s.t.pc.toNat * 2 ^ 64)).dropEntries s.cur).dropUnit s.cur

/-- The slot in hand is free, and its task pending. -/
def State.vacate (s : State) (p : Pending) : State := { s with t := Thread.reset, turn := .arbiter, pending := s.pending ++ [p] }

theorem State.left_emits (s : State) (k : Task) :
    Emits (s.count s.t.part 46 1) ((s.count s.t.part 46 1).emitTask s.cur 3 0x32 ((s.launchId k).toNat + s.t.pc.toNat * 2 ^ 64)) :=
  State.emitTask_emits _ _ _ _ _ (by decide)

theorem State.left_t (s : State) (k : Task) : (s.left k).t = s.t := (s.left_emits k).hand

theorem State.left_memWf (s : State) (k : Task) (h : memWf s.mem = true) : memWf (s.left k).mem = true := (s.left_emits k).wf h

/-- A thread with no group of its map cache to write back leaves its slot once its save record is written, and the quarters about its core move on. -/
theorem State.preemptNow_eq (s : State) (k : Task) (i : Nat) (htask : s.t.task = some k) (hsave : s.saveFor = some i) (hwake : s.wake = s)
    (hgroups : s.t.changedGroups = []) : ∃ p, s.preemptNow = (((s.left k).writeSave i).vacate p).scanCore s.core := by
  generalize he : (s.count s.t.part 46 1).emitTask s.cur 3 0x32 ((s.launchId k).toNat + s.t.pc.toNat * 2 ^ 64) = e
  have hback : ((writeBackEach e.t.changedGroups).exec e).2 = e := by
    rw [← he, (s.left_emits k).hand, State.count_t, hgroups]
    rfl
  have hleft : (e.dropEntries s.cur).dropUnit s.cur = s.left k := by
    rw [← he]
    rfl
  unfold State.preemptNow
  rw [htask, hsave, hwake]
  dsimp only
  rw [he, hback, hleft]
  exact ⟨_, rfl⟩

/-- PREEMPTION of a victim in hand at its boundary. -/
theorem exec_preemption_hand (s : State) (hpre : s.t.preempt = true) (hat : s.t.atBoundary = true) (hres : s.t.resumed = false) (hend : s.t.ending = false)
    (htask : s.t.task.isSome = true) (hruns : s.entryRuns s.cur = false) : exec (.preemption s.cur) s = .next s.preemptNow := by
  have hthread : s.thread s.cur = s.t := if_pos rfl
  show execPreemption s.cur s = _
  simp [execPreemption, hthread, hpre, hat, hres, hend, htask, hruns, s.switchTo_cur_self]

/-- A thread that still has its save record writes no frame: the one that has not been restored stays (R134). -/
theorem State.writeSave_kept (s : State) (i : Nat) (h : s.t.save.isSome = true) :
    s.writeSave i = s.writeHbm s.t.part (s.saveAddr s.t.part i) .l2 s.t.saveRecord := by
  simp [State.writeSave, Option.isSome_iff_ne_none.1 h]

theorem State.vacate_lending (s : State) (p : Pending) : (s.vacate p).lending = s.lending := rfl

/-- With no other slot in use, no task is bound once the one in hand has left. -/
theorem State.vacate_boundOn (s : State) (p : Pending) (c : Nat) (h : s.parked = []) : (s.vacate p).boundOn c = [] := by
  have hnone : ∀ j, ((s.vacate p).thread j).task = none := fun j => by
    have hparked : (s.vacate p).parked = [] := h
    unfold State.thread
    split
    · rfl
    · rw [hparked]
      rfl
  simp [State.boundOn, hnone]

/-! ### The record that is written over -/

/-- A hot task of launch 1. -/
def hotTask : Task := { placedTask with launch := some 1, heat := 2 }

/-- The number of the save record that lies at 64 KiB, where `recordingPart` has its event rings. -/
def overlaidSave : Nat := (770 - Config.saveBase 0 % 768) % 768

/-- A resumed hot task on core 0, whose vector state still waits in its save record, is to be pre-empted; the quarter of core 8 is RESERVED for its launch. -/
def overlaid : State :=
  { State.reset with
    t := { Thread.reset with task := some hotTask, preempt := true, vlive := true, save := some overlaidSave }
    parts := [recordingPart]
    cores := [(8, { Core.reset with quarters := Core.reset.quarters.set 0 { st := .reserved, launch := some 1, split := 0 } })] }

theorem saveAddr_overlaid (s : State) (h : (s.part? 0).map (·.memPa) = some 0) : s.saveAddr 0 overlaidSave = 0x10000 := by
  have hplace : (Config.saveBase 0 + overlaidSave) % 768 = 2 := by unfold overlaidSave; omega
  rw [State.saveAddr, h, hplace]
  rfl

/-- `recordingPart` once its ring 3 has taken one record. -/
def recordedPart : Partition :=
  { recordingPart with rings := vput recordingPart.rings 3 { base := 0x10000, log2 := 8, head := 1, tail := 0 } }

theorem overlaid_left_parts : (overlaid.left hotTask).parts.map Partition.uncounted = [recordedPart] := by decide +kernel

theorem overlaid_left_rest : (overlaid.left hotTask).parked = [] ∧
    (∀ q < 4, (vget ((overlaid.left hotTask).getCore 0).quarters q noQuarter).st = .free) ∧
    (vget ((overlaid.left hotTask).getCore 1).quarters 3 noQuarter).st = .free ∧
    (vget ((overlaid.left hotTask).getCore 8).quarters 0 noQuarter).st = .reserved ∧ (overlaid.left hotTask).tick = 0 := by decide +kernel

theorem overlaid_record : overlaid.t.saveRecord[47]? = some 0 := by decide +kernel

theorem overlaid_writeSave :
    (overlaid.left hotTask).writeSave overlaidSave = (overlaid.left hotTask).writeHbm 0 0x10000 .l2 overlaid.t.saveRecord := by
  have ht := overlaid.left_t hotTask
  have hpart : (overlaid.left hotTask).t.part = 0 := by rw [ht]; rfl
  rw [State.writeSave_kept _ _ (by rw [ht]; rfl), hpart, saveAddr_overlaid _ (by decide +kernel), ht]

/-- Once its task is gone, the quarter of core 8 is given up, and the second record of ring 3 tells of it. -/
theorem overlaid_scanCore (u : State) (h : u.lending = (overlaid.left hotTask).lending) (hnone : u.boundOn 0 = []) (hwf : memWf u.mem = true) :
    memRead (u.scanCore 0).mem (0x10020 + 15) = 0x34 := by
  obtain ⟨-, hown, heast, hsouth, htick⟩ := overlaid_left_rest
  obtain ⟨hparts, hquarters, -, hsame⟩ := State.of_lending h
  obtain ⟨p, hp, hrecorded⟩ := List.map_eq_singleton_iff.1 (hparts.trans overlaid_left_parts)
  have hholds : p.uncounted.holds 8 = true := by rw [hrecorded]; decide
  have hat : p.uncounted.RecordsAt 3 0x10020 := by rw [hrecorded]; unfold Partition.RecordsAt; decide
  have hgiven : u.scanCore 0 = u.moveQuarter 8 0 noQuarter :=
    u.scanCore_corner (fun q hq => by rw [Core.quarter, hquarters]; exact hown q hq) (by rw [Core.quarter, hquarters]; exact heast)
      (by rw [Core.quarter, hquarters]; exact hsouth) hnone
  rw [hgiven, u.moveQuarter_mem p 8 0 0x10020 noQuarter hp hholds hat, hsame, htick, memRead_writeN_at _ _ 15 _ hwf (by decide)]
  decide

/-- The save record is written over when the quarters about the core move on. -/
theorem overlaid_overwritten (u : State) (p : Pending) (h : u = (overlaid.left hotTask).writeHbm 0 0x10000 .l2 overlaid.t.saveRecord) :
    memRead ((u.vacate p).scanCore 0).mem (0x10020 + 15) = 0x34 := by
  have hlending : u.lending = (overlaid.left hotTask).lending := by rw [h, State.writeHbm_lending]
  have hwf : memWf u.mem = true := by
    rw [h, State.writeHbm_mem]
    exact memWf_writeN _ _ _ (overlaid.left_memWf hotTask rfl)
  obtain ⟨hparked, -⟩ := overlaid_left_rest
  obtain ⟨-, -, hfree, -⟩ := State.of_lending hlending
  exact overlaid_scanCore (u.vacate p) ((u.vacate_lending p).trans hlending) (u.vacate_boundOn p 0 (hfree.trans hparked)) hwf

/-- After the pre-emption, byte 47 of the save record is the type of the record about the quarter. -/
theorem overlaid_preemption : ∃ t, exec (.preemption 0) overlaid = .next t ∧ memRead t.mem (0x10020 + 15) = 0x34 := by
  obtain ⟨p, hleaves⟩ := overlaid.preemptNow_eq hotTask overlaidSave rfl rfl rfl (by decide +kernel)
  have hexec := exec_preemption_hand overlaid rfl rfl rfl rfl rfl (by decide +kernel)
  rw [hleaves] at hexec
  exact ⟨_, hexec, overlaid_overwritten _ p overlaid_writeSave⟩

/-- Refutes O47 at its clause on PREEMPTION. Software may lay an event ring over the place of a save record, which lies in the partition's memory too (logs
19 and 56). When a hot task leaves its core, a quarter RESERVED for it is given up after its record is written, and the event record that tells of it
overwrites zero words near the record's start (Table 9.5). -/
theorem not_issueDeliveryAndTheTileQueue : ¬ Obligations.IssueDeliveryAndTheTileQueue := by
  unfold Obligations.IssueDeliveryAndTheTileQueue
  intro h
  obtain ⟨-, -, hpreempt, -⟩ := h overlaid hotTask rfl
  obtain ⟨t, hexec, -, hrecord, -⟩ := hpreempt overlaidSave overlaid.t rfl rfl rfl rfl rfl (by decide +kernel) (by decide +kernel) rfl
  obtain ⟨t', hexec', hbyte⟩ := overlaid_preemption
  obtain rfl : t = t' := Host.Outcome.next.inj (hexec.symm.trans hexec')
  have hsaved := congrArg (·[47]?) (hrecord rfl)
  have haddr : overlaid.saveAddr overlaid.t.part overlaidSave = 0x10000 := saveAddr_overlaid overlaid rfl
  rw [haddr, overlaid_record, List.getElem?_map, List.getElem?_range (by decide), Option.map_some, hbyte] at hsaved
  exact absurd hsaved (by decide)

end Sys2Proof.Machine

/-! ## The restore of a vector frame over memory that is not canonical (R134, R197, R421) -/

namespace Sys2Proof.Machine

open Sys2Proof.Claims

/-! ### The device reads its own bytes through L2 -/

theorem touchFor_l2_withoutHome (part : Nat) (ps : List Place) (h : ∀ p ∈ ps, ∃ pa sh, p = .hbm pa .l2 sh) (last : Option (Nat × Via)) (s : State) :
    (touchFor part ps last s).withoutHome = s.withoutHome := by
  induction ps generalizing last s with
  | nil => rfl
  | cons p rest ih =>
    obtain ⟨⟨pa, sh, rfl⟩, hrest⟩ := List.forall_mem_cons.1 h
    simp only [touchFor, Place.line?]
    split
    · exact ih hrest _ s
    · exact (ih hrest _ _).trans (s.touchL2_withoutHome part (pa / 64) false)

theorem State.readOwn_withoutHome (s : State) (part pa n : Nat) : (s.readOwn part pa n).1.withoutHome = s.withoutHome := by
  refine touchFor_l2_withoutHome part _ (fun p hp => ?_) none s
  obtain ⟨i, -, rfl⟩ := List.mem_map.1 hp
  exact ⟨pa + i, false, rfl⟩

theorem State.readOwn_t (s : State) (part pa n : Nat) : (s.readOwn part pa n).1.t = s.t := by
  have := congrArg State.t (s.readOwn_withoutHome part pa n)
  exact this

/-! ### A frame that is accepted -/

/-- What the device reads of a frame at `a`: the header, and then the frame, of the length that the header gives. -/
def State.headerRead (s : State) (a : Nat) : State × List Byte := s.readOwn s.t.part a 64
def State.frameRead (s : State) (a : Nat) : State × List Byte := (s.headerRead a).1.readOwn s.t.part a (frameLen (wordsOf (s.headerRead a).2))

/-- The frame of the thread in hand lies at `a`, its header and its entries are accepted, and the records of its streams are read again as `l`. -/
structure RestoresTo (s : State) (i a : Nat) (l : List Stream) (s1 : State) : Prop where
  save : s.t.save = some i
  place : a = s.saveAddr s.t.part i + recordBytes
  header : headerBad (wordsOf (s.headerRead a).2) = false
  entries : entriesBad (wordsOf (s.frameRead a).2) = false
  streams : (frameStreams (wordsOf (s.frameRead a).2) (List.range (frameStreamsN (wordsOf (s.frameRead a).2)))).exec (s.frameRead a).1 = (.ok l, s1)

theorem exec_restoreFrame {s s1 : State} {i a : Nat} {l : List Stream} (h : RestoresTo s i a l s1) :
    restoreFrame.exec s = (.ok (), s1.modT fun t => { (t.fromFrame (wordsOf (s.frameRead a).2)) with streams := l, save := none }) := by
  obtain ⟨hsave, hplace, hheader, hentries, hstreams⟩ := h
  have hpart : (s.readOwn s.t.part a 64).1.t.part = s.t.part := congrArg Thread.part (s.readOwn_t s.t.part a 64)
  simp only [State.frameRead, State.headerRead] at hheader hentries hstreams ⊢
  simp [restoreFrame, exec_bind, hsave, ← hplace, hpart, hheader, hentries, hstreams]

/-- The state in which a thread's vector state is restored: the thread in hand waits no more. -/
def State.unstalled (s : State) : State := s.modT fun t => { t with stall := .none }

@[simp] theorem State.unstalled_mem (s : State) : s.unstalled.mem = s.mem := rfl

theorem exec_vectorStateRestore {s m : State} (hstall : s.t.stall = .vectorRestore) (h : restoreFrame.exec s.unstalled = (.ok (), m)) :
    exec (.vectorStateRestore s.cur) s = .next m.unstalled := by
  have hthread : s.thread s.cur = s.t := if_pos rfl
  have hrun : M.exec (do restoreFrame; modT fun t => { t with stall := .none }) s.unstalled = (.ok (), m.unstalled) := by
    rw [exec_bind, h]
    rfl
  have hmoved := finishMoved_ok hrun
  show execVectorStateRestore s.cur s = _
  unfold execVectorStateRestore
  rw [hthread, hstall, s.switchTo_cur_self]
  exact congrArg Host.Outcome.next hmoved

/-- The restore moves no more of memory than the reads of the records have. -/
theorem exec_vectorStateRestore_mem {s s1 : State} {i a : Nat} {l : List Stream} (hstall : s.t.stall = .vectorRestore)
    (h : RestoresTo s.unstalled i a l s1) : ∃ t, exec (.vectorStateRestore s.cur) s = .next t ∧ t.mem = s1.mem := by
  have hexec := exec_vectorStateRestore hstall (exec_restoreFrame h)
  exact ⟨_, hexec, by rw [State.unstalled_mem, State.modT_mem]⟩

/-- What the clause on VECTOR_STATE_RESTORE says of memory: the reads of the records leave every byte outside the aperture. -/
theorem sameOwnMemory_of_claim (hclaim : Obligations.FillsSpillsAndVectorUnitsComplete) {s s1 : State} {i a : Nat} {l : List Stream}
    (hstall : s.t.stall = .vectorRestore) (h : RestoresTo s.unstalled i a l s1) : SameOwnMemory s s1 := by
  unfold Obligations.FillsSpillsAndVectorUnitsComplete at hclaim
  obtain ⟨-, -, -, -, hrestore⟩ := hclaim s s1 0 []
  obtain ⟨t, hexec, -, -, -, -, -, -, hsame⟩ := hrestore i a _ _ l _ _ hstall h.save h.place rfl rfl h.header rfl rfl h.entries h.streams
  obtain ⟨t', hexec', hmem⟩ := exec_vectorStateRestore_mem hstall h
  obtain rfl : t = t' := Host.Outcome.next.inj (hexec.symm.trans hexec')
  exact fun x hx => hmem ▸ hsame x hx

/-! ### A record of a bound stream in leased memory -/

/-- A resumed task whose frame, behind the save record at 64 KiB, names one stream. The record of that stream lies in the first line of the lease aperture,
and the lender has answered the read of it with zeros. The list of memory cells does not rise: the cell of address 0x20000 stands behind that of the
aperture's first byte, where no read finds it. -/
def leasedRecord : State :=
  { State.reset with
    t := { Thread.reset with task := some placedTask, stall := .vectorRestore, vlive := true, save := some overlaidSave }
    mem := [(0x11450 + 54, 0x20), (0x11450 + 59, 1), (0x11450 + 60, 192), (0x11450 + 178, 0x20), (apertureBase, 1), (0x20000, 7)]
    asids := [{ asid := 1, part := 0, valid := true, root := 0 }]
    cores := [(0, { Core.reset with tlb := [{ asid := 1, page := 0x200, sizeLog := 12, leaf := word (apertureBase + 7) }] })]
    leases := [(0, { entry := BitVec.ofNat 128 (2 ^ 127 + 2 ^ 125 + 5 * 2 ^ 114), deadline := 0, drop := false, draining := false })]
    asks := [{ tag := 0, who := .member 0, part := 0, req := { dest := 5, offset := 0, req := .read 64 }, reply := some (false, List.replicate 64 0) }] }

theorem leasedRecord_place : 0x11450 = leasedRecord.unstalled.saveAddr leasedRecord.unstalled.t.part overlaidSave + recordBytes := by
  rw [show leasedRecord.unstalled.saveAddr leasedRecord.unstalled.t.part overlaidSave = 0x10000 from saveAddr_overlaid leasedRecord.unstalled rfl]
  rfl

theorem eq_ok_of_toOption {ε α σ : Type} {r : Except ε α × σ} {x : α} (h : r.1.toOption = some x) : r = (.ok x, r.2) := by
  obtain ⟨result, s⟩ := r
  cases result with
  | error e => cases h
  | ok y =>
    obtain rfl : y = x := Option.some.inj h
    rfl

/-- What the device does as it reads the records of the frame's streams again. -/
def leasedRecordStreams : Except Stop (List Stream) × State :=
  (frameStreams (wordsOf (leasedRecord.unstalled.frameRead 0x11450).2)
    (List.range (frameStreamsN (wordsOf (leasedRecord.unstalled.frameRead 0x11450).2)))).exec (leasedRecord.unstalled.frameRead 0x11450).1

theorem leasedRecordStreams_ok : leasedRecordStreams.1.toOption = some [streamOf 0 0x200000 0] := by decide +kernel

/-- The frame is accepted, and the one stream that it names is bound to v0 at its record of zeros. -/
theorem leasedRecord_restoresTo : RestoresTo leasedRecord.unstalled overlaidSave 0x11450 [streamOf 0 0x200000 0] leasedRecordStreams.2 where
  save := rfl
  place := leasedRecord_place
  header := by decide +kernel
  entries := by decide +kernel
  streams := eq_ok_of_toOption leasedRecordStreams_ok

/-- The line that arrives from the lender begins with a byte 0, which takes the aperture's cell off the list: the cell of address 0x20000 is read now. -/
theorem leasedRecord_memRead : memRead leasedRecord.mem 0x20000 = 0 ∧ memRead leasedRecordStreams.2.mem 0x20000 = 7 := by decide +kernel

/-- Refutes O48 at its clause on VECTOR_STATE_RESTORE: unlike the clause on spills it does not ask that memory be canonical (`memWf`). The record of a
bound stream may lie in leased memory, whose lines the device copies into the aperture (R52). Over a list of cells that does not rise, the copy of the line
changes what address 0x20000 reads as, which lies below the aperture. -/
theorem not_fillsSpillsAndVectorUnitsComplete : ¬ Obligations.FillsSpillsAndVectorUnitsComplete := by
  intro hclaim
  obtain ⟨hbefore, hafter⟩ := leasedRecord_memRead
  have hsame := sameOwnMemory_of_claim hclaim rfl leasedRecord_restoresTo 0x20000 (.inl (by decide))
  rw [hafter, hbefore] at hsame
  exact absurd hsame (by decide)

end Sys2Proof.Machine

/-! ## What is noted of launches, and what leaves it (R94, R96) -/

namespace Sys2Proof.Machine

/-- The key and the noted cause of every launch (R94). -/
def State.notedCauses (s : State) : List (Nat × Option (BitVec 16)) := s.launches.map fun l => (l.key, l.cause)

theorem State.notedCauses_of_launches {s t : State} (h : t.launches = s.launches) : t.notedCauses = s.notedCauses := by
  rw [State.notedCauses, h, State.notedCauses]

theorem State.launch?_cause_eq (s : State) (key : Nat) : (s.launch? key).map (·.cause) = (s.notedCauses.find? (·.1 == key)).map (·.2) := by
  unfold State.launch? State.notedCauses
  induction s.launches with
  | nil => rfl
  | cons l rest ih => by_cases hl : l.key = key <;> simp [hl, ih]

/-- A launch that keeps its key and its noted cause leaves what is noted. -/
theorem State.modLaunch_notedCauses (s : State) (key : Nat) (f : Launch → Launch) (hf : ∀ l, (f l).key = l.key ∧ (f l).cause = l.cause) :
    (s.modLaunch key f).notedCauses = s.notedCauses := by
  unfold State.notedCauses State.modLaunch
  dsimp only
  induction s.launches with
  | nil => rfl
  | cons l rest ih =>
    unfold Machine.modLaunch
    split <;> simp [hf, ih]

theorem Launch.noteEnd_noted (l : Launch) (k : Task) (tick : Word) : (l.noteEnd k tick).key = l.key ∧ (l.noteEnd k tick).cause = l.cause := ⟨rfl, rfl⟩

/-! ### Threads and records -/

theorem State.switchTo_launches (s : State) (tid : Nat) : (s.switchTo tid).launches = s.launches := by
  unfold State.switchTo
  split <;> rfl

theorem Emits.launches {s t : State} (h : Emits s t) : t.launches = s.launches := by
  have := congrArg State.launches h.same
  exact this

/-! ### Home slices and leased lines -/

theorem State.launches_of_withoutHome {s t : State} (h : t.withoutHome = s.withoutHome) : t.launches = s.launches := by
  have := congrArg State.launches h
  exact this

theorem State.unhurtAll_withoutHome (l : List L2Line) (s : State) : (l.foldl State.unhurt s).withoutHome = s.withoutHome :=
  foldl_keeps State.withoutHome _ State.unhurt_withoutHome l s

theorem State.touchHome_withoutHome (s : State) (part line : Nat) (write : Bool) (via : Via) : (s.touchHome part line write via).withoutHome = s.withoutHome := by
  unfold State.touchHome
  split
  · exact s.touchL2_withoutHome part line write
  · exact s.touchL2_withoutHome part line write
  all_goals
    split
    · rw [State.modDie_withoutHome, State.stackWrite_withoutHome, State.unhurtAll_withoutHome]
    · exact s.stackRead_withoutHome line

theorem State.dropLease_withoutHome (s : State) (p : L2Line → Bool) : (s.dropLease p).withoutHome = s.withoutHome := by
  have hout : ∀ (l : List L2Line) (u : State), (l.foldl (fun u l => if l.dirty then (u.count l.part 6 1).writeBack l else u) u).withoutHome = u.withoutHome :=
    foldl_keeps State.withoutHome _ fun u l => by split <;> simp
  have herase : ∀ (l : List Nat) (f : List L2Line → List L2Line) (u : State),
      (l.foldl (fun u d => u.modDie d fun k => { k with l2 := f k.l2 }) u).withoutHome = u.withoutHome :=
    fun l f => foldl_keeps State.withoutHome _ (fun u d => u.modDie_withoutHome d _) l
  unfold State.dropLease
  dsimp only
  split
  · rfl
  · exact (herase ..).trans (hout ..)

/-! ### Writes -/

theorem State.noteWrite_launches (s : State) (key n : Nat) : (s.noteWrite key n).launches = s.launches :=
  State.noteWrite_keeps State.launches (fun _ _ => rfl) (fun _ _ _ => rfl) (fun _ _ => rfl) (fun _ _ => rfl) s key n

/-- Bytes that are put and noted leave the launches. -/
theorem State.put_launches (s : State) (core key : Nat) (bs : List Byte) (n : Nat) : ((putBytes core key bs s).noteWrite key n).launches = s.launches := by
  rw [State.noteWrite_launches, putBytes_keeps State.launches (fun _ _ => rfl) (fun _ _ _ => rfl)]

theorem State.writeHbm_launches (s : State) (part pa : Nat) (via : Via) (bs : List Byte) : (s.writeHbm part pa via bs).launches = s.launches :=
  (State.put_launches ..).trans
    (foldl_keeps State.launches _ (fun u l => State.launches_of_withoutHome (u.touchHome_withoutHome part l true via)) _ s)

theorem State.putLease_launches (s : State) (part pa : Nat) (bs : List Byte) : (s.putLease part pa bs).launches = s.launches :=
  (State.put_launches ..).trans
    (foldl_keeps State.launches _ (fun u l => State.launches_of_withoutHome ((State.modDie_withoutHome ..).trans (u.touchL2_withoutHome part l true))) _ s)

theorem postRuns_launches (part : Nat) (runs : List (Place × List Byte)) (s : State) : (postRuns part runs s).launches = s.launches := by
  induction runs generalizing s with
  | nil => rfl
  | cons run rest ih =>
    obtain ⟨p, bs⟩ := run
    cases p with
    | hbm pa via sh => rw [postRuns, ih, State.writeHbm_launches]
    | spad key => rw [postRuns, ih, State.put_launches]
    | lease pa peer off via sh =>
      have hask : ∀ (l : List (Nat × List Byte)) (u : State), (l.foldl (fun u x => u.ask (.post [] (pa / 64)) part
          { dest := peer, offset := (maskedWrite x.1 x.2).1, req := .write (maskedWrite x.1 x.2).2 }) u).launches = u.launches :=
        foldl_keeps State.launches _ fun u x => State.launches_of_withoutHome (u.ask_withoutHome ..)
      rw [postRuns, ih]
      dsimp only
      split
      · exact s.putLease_launches part pa bs
      · rw [State.noteWrite_launches, hask]
        exact State.launches_of_withoutHome (s.dropLease_withoutHome _)
    | ctl o => exact ih s
    | dtab o => exact ih s

/-! ### Translation -/

theorem State.walkFails_launches (s : State) (d : Nat) (asid : BitVec 16) (va : Nat) : (s.walkFails d asid va).launches = s.launches := by
  unfold State.walkFails
  split <;> rfl

theorem State.lookup_launches (s : State) (part : Nat) (asid : BitVec 16) (root va : Nat) : (s.lookup part asid root va).1.launches = s.launches := by
  have htouched : ∀ (l : List Nat) (u : State), (l.foldl (fun u a => u.touchL2 part (a / 64) false) u).launches = u.launches :=
    foldl_keeps State.launches _ fun u a => State.launches_of_withoutHome (u.touchL2_withoutHome part (a / 64) false)
  unfold State.lookup
  dsimp only
  split
  · rfl
  · split
    · rfl
    · split
      · rfl
      · rfl
      · split <;> simp [htouched, State.walkFails_launches]

theorem placeFor_launches (asid : BitVec 16) (sup : Bool) (part : Nat) (va : Word) (acc : Acc) (s : State) :
    ((placeFor asid sup part va acc).run s).2.launches = s.launches := by
  unfold placeFor
  simp only [StateT.run_bind, StateT.run_get, pure_bind]
  split
  · rfl
  · split
    · rfl
    · split
      · rfl
      · split
        · rfl
        · rename_i ent _ _
          have hlook := s.lookup_launches part asid ent.root (va.extractLsb' 0 56).toNat
          simp only [StateT.run_bind, StateT.run_set, pure_bind]
          split <;> exact hlook

theorem run_bind_keeps {α β γ : Type} (φ : State → γ) {m : StateM State α} {f : α → StateM State β} (hm : ∀ s, φ (m.run s).2 = φ s)
    (hf : ∀ a s, φ ((f a).run s).2 = φ s) (s : State) : φ ((m >>= f).run s).2 = φ s :=
  (hf (m.run s).1 (m.run s).2).trans (hm s)

theorem placesGo_launches (pf : Word → StateM State (Except Cause Place)) (hpf : ∀ a s, ((pf a).run s).2.launches = s.launches) (va : Word) (n k : Nat)
    (prev : Option Place) (s : State) : ((placesGo pf va n k prev).run s).2.launches = s.launches := by
  induction n generalizing k prev s with
  | zero => rfl
  | succ n ih =>
    unfold placesGo
    cases prev
    case' none => refine run_bind_keeps State.launches (hpf _) (fun p u => ?_) s
    case' some q =>
      dsimp only
      split
      case' isTrue => refine run_bind_keeps State.launches (hpf _) (fun p u => ?_) s
      case' isFalse => refine run_bind_keeps State.launches (m := pure _) (fun _ => rfl) (fun p u => ?_) s
    all_goals
      cases p with
      | error c => rfl
      | ok q => exact run_bind_keeps State.launches (ih _ _) (fun _ _ => rfl) u

theorem fsePlaces_launches (c : Ctx) (sup : Bool) (va : Word) (n : Nat) (s : State) : ((fsePlaces c sup va n).run s).2.launches = s.launches := by
  refine placesGo_launches _ (fun a u => ?_) va n 0 none s
  exact placeFor_launches c.asid sup c.part a accTile u

/-! ### The end of a context (R96) -/

theorem writeBackGroup_launches (part g : Nat) (s : State) : ((writeBackGroup (fun runs => modify (postRuns part runs)) g).exec s).2.launches = s.launches := by
  have hplaces := fsePlaces_launches s.t.ctx s.t.sup (s.t.tmapbase + word (64 * g)) 64 s
  unfold writeBackGroup
  simp only [exec_bind, exec_get, exec_lift]
  split
  · exact hplaces
  · simp only [exec_bind, exec_modify, exec_modT, exec_pure]
    exact (postRuns_launches ..).trans hplaces

theorem writeBackEach_launches (groups : List Nat) (s : State) : ((writeBackEach groups).exec s).2.launches = s.launches := by
  induction groups generalizing s with
  | nil => rfl
  | cons g rest ih =>
    have hgroup := writeBackGroup_launches s.t.part g s
    simp only [writeBackEach, exec_bind, exec_get]
    split
    · rename_i heq
      rw [heq] at hgroup
      exact (ih _).trans hgroup
    · rename_i heq
      rw [heq] at hgroup
      exact hgroup

theorem State.setCached_launches {s t : State} {c : Ctx} {r : MReg} {f : BitVec 128 → BitVec 128} (h : s.setCached c r f = some t) :
    t.launches = s.launches := by
  unfold State.setCached at h
  dsimp only at h
  split at h
  · obtain rfl := Option.some.inj h
    exact State.setThread_keeps State.launches _ _ _
  · split at h
    · obtain rfl := Option.some.inj h
      rfl
    · cases h

theorem State.endEntry_launches (s : State) (x : TileSet) : (s.endEntry x).launches = s.launches := by
  have hplaces := fsePlaces_launches x.ctx s.t.sup (entAddr x.ctx.base x.reg) 16 s
  unfold State.endEntry
  split
  · exact State.setCached_launches ‹_›
  · split
    · rename_i heq
      rw [heq] at hplaces
      exact (postRuns_launches ..).trans hplaces
    · rename_i heq
      rw [heq] at hplaces
      exact hplaces

theorem State.dropTiles_launches (s : State) : s.dropTiles.launches = s.launches := by
  have hend : ∀ (l : List TileSet) (u : State),
      (l.foldl (fun u x => (if x.hinted then u.count x.ctx.part 25 1 else u).endEntry x) u).launches = u.launches :=
    foldl_keeps State.launches _ fun u x => by
      rw [State.endEntry_launches]
      split <;> rfl
  unfold State.dropTiles
  dsimp only
  split
  · rfl
  · rw [writeBackEach_launches, State.modCore_launches, hend]
    rfl

/-! ### The end of a task (R94, R96) -/

theorem State.endSaved_launches (s : State) (p : Pending) : (s.endSaved p).launches = s.launches := by
  unfold State.endSaved
  split
  · dsimp only
    rw [State.switchTo_launches]
    refine (State.dropTiles_launches _).trans ?_
    exact ((State.emitTask_emits _ _ _ _ _ (by decide)).launches).trans (s.switchTo_launches _)
  · rfl

theorem State.dropPending_notedCauses (s : State) (gone : Pending → Bool) : (s.dropPending gone).notedCauses = s.notedCauses := by
  unfold State.dropPending
  dsimp only
  rw [foldl_keeps State.notedCauses, foldl_keeps State.notedCauses, foldl_keeps State.notedCauses]
  · rfl
  · exact fun u p => State.notedCauses_of_launches (u.endSaved_launches p)
  · intro u p
    split
    · exact u.modLaunch_notedCauses _ _ fun _ => Launch.noteEnd_noted ..
    · rfl
  · intro u p
    split
    · exact State.notedCauses_of_launches (u.scanCore_emits _).launches
    · rfl

/-- The first unresumed trap of a launch is noted (R94). -/
theorem State.faultLaunch_cause (s : State) (key : Nat) (code : BitVec 16) :
    ((s.faultLaunch key code).launch? key).map (·.cause) = (s.launch? key).map fun l => some (l.cause.getD code) := by
  have hnoted : (s.faultLaunch key code).notedCauses = (s.modLaunch key fun l => { l with cause := some (l.cause.getD code) }).notedCauses :=
    State.dropPending_notedCauses _ _
  have hmod := s.launch?_modLaunch_self key (fun l => { l with cause := some (l.cause.getD code) }) fun _ => rfl
  rw [State.launch?_cause_eq, hnoted, ← State.launch?_cause_eq, hmod, Option.map_map]
  rfl

/-- New consumer tasks change the pending tasks and the stages of their launch alone. -/
theorem State.activate_keeps {γ : Type} (φ : State → γ) (hp : ∀ (u : State) (l : List Pending), φ { u with pending := l } = φ u)
    (hl : ∀ (u : State) (key j : Nat) (f : Stage → Stage), φ (u.modLaunch key fun l => l.modStage j f) = φ u) (s : State) (key : Nat) :
    φ (s.activate key) = φ s := by
  have hstage : ∀ (j fuel : Nat) (u : State), φ (activateStage key j fuel u) = φ u := by
    intro j fuel
    induction fuel with
    | zero => exact fun _ => rfl
    | succ fuel ih =>
      intro u
      unfold activateStage
      split
      · rfl
      · split
        · rfl
        · split
          · rfl
          · dsimp only
            split
            · rw [ih, hl, hp]
            · rfl
  exact foldl_keeps φ _ (fun u j => hstage j 2305 u) _ s

theorem State.activate_t (s : State) (key : Nat) : (s.activate key).t = s.t :=
  State.activate_keeps State.t (fun _ _ => rfl) (fun _ _ _ _ => rfl) s key

theorem State.activate_notedCauses (s : State) (key : Nat) : (s.activate key).notedCauses = s.notedCauses :=
  State.activate_keeps State.notedCauses (fun _ _ => rfl) (fun u k _ _ => u.modLaunch_notedCauses k _ fun _ => ⟨rfl, rfl⟩) s key

/-- A task that ends leaves its slot as at reset. -/
theorem State.endTask_t (s : State) (cause : Option (BitVec 16)) : (s.endTask cause).t = Thread.reset := by
  unfold State.endTask
  split
  · rfl
  · dsimp only
    rw [(State.scanCore_emits _ _).hand]
    split
    · exact State.activate_t ..
    · rfl

/-- What a task's end lets go before its launch hears of it: its tiles, its vector unit and its tile entries (R96). -/
def State.letGo (s : State) (k : Task) (code : BitVec 16) : State :=
  (((s.emitTask s.cur 3 0x31 ((s.launchId k).toNat + code.toNat * 2 ^ 64)).dropTiles).dropUnit s.cur).dropEntries s.cur

theorem State.letGo_launches (s : State) (k : Task) (code : BitVec 16) : (s.letGo k code).launches = s.launches :=
  (State.dropTiles_launches _).trans (s.emitTask_emits _ _ _ _ (by decide)).launches

/-- The launch of a task that an unresumed trap ends has noted the first such cause (R94). -/
theorem State.endTask_cause (s : State) (key : Nat) (code : BitVec 16) (h : s.t.launch = some key) :
    ((s.endTask (some code)).launch? key).map (·.cause) = (s.launch? key).map fun l => some (l.cause.getD code) := by
  obtain ⟨k, htask, hlaunch⟩ : ∃ k, s.t.task = some k ∧ k.launch = some key := by
    unfold Thread.launch at h
    split at h
    · exact ⟨_, ‹_›, h⟩
    · cases h
  have hnoted : (s.endTask (some code)).notedCauses = ((s.letGo k code).faultLaunch key code).notedCauses := by
    unfold State.endTask
    rw [htask]
    dsimp only
    rw [hlaunch]
    refine (State.notedCauses_of_launches (State.scanCore_emits _ _).launches).trans ?_
    refine (State.activate_notedCauses _ _).trans ?_
    exact State.modLaunch_notedCauses _ _ _ fun _ => Launch.noteEnd_noted ..
  have hfound : (s.letGo k code).launch? key = s.launch? key := by
    unfold State.launch?
    rw [s.letGo_launches]
  rw [State.launch?_cause_eq, hnoted, ← State.launch?_cause_eq, State.faultLaunch_cause, hfound]

end Sys2Proof.Machine

/-! ## Trap entry (R240) -/

namespace Sys2Proof.Machine

open Sys2Proof.Claims

/-- The state in which a trap finds its handler or ends its task: the CSRs are set, the trap is counted, and the slot's tile entries are discarded. -/
def State.trapped (s : State) (r : TrapRec) (async : Bool) : State :=
  let u := ((s.modT fun t => t.trapCsrs r async).dropEntries s.cur).count s.t.part 38 1
  { u with turn := .arbiter, asks := dropAsks (· == Asker.member s.t.uid) u.asks }

@[simp] theorem State.dropEntries_t (s : State) (tid : Nat) : (s.dropEntries tid).t = s.t := rfl

theorem State.dropEntries_sets (s : State) (tid : Nat) : ((s.dropEntries tid).getCore (tid / 4)).sets = (s.getCore (tid / 4)).sets := by
  rw [State.dropEntries, State.getCore_modCore_self]

@[simp] theorem State.trapped_t (s : State) (r : TrapRec) (async : Bool) : (s.trapped r async).t = s.t.trapCsrs r async := rfl
@[simp] theorem State.trapped_mem (s : State) (r : TrapRec) (async : Bool) : (s.trapped r async).mem = s.mem := rfl

@[simp] theorem State.trapped_sets (s : State) (r : TrapRec) (async : Bool) : ((s.trapped r async).getCore s.core).sets = (s.getCore s.core).sets :=
  (s.modT fun t => t.trapCsrs r async).dropEntries_sets s.cur

theorem State.trap_enters (s : State) (r : TrapRec) (async : Bool) (hinh : s.t.inh = false) (hvec : s.t.xvec ≠ 0) :
    s.trap r async = (s.trapped r async).modT Thread.enter :=
  if_neg (by simpa [hinh, Thread.trapCsrs] using hvec)

theorem State.trap_ends (s : State) (r : TrapRec) (async : Bool) (h : s.t.inh = true ∨ s.t.xvec = 0) :
    s.trap r async = (s.trapped r async).endTask (some r.cause.code) :=
  if_pos (by simpa [Thread.trapCsrs] using h)

/-- Settles O6: a trap that finds a handler changes the thread's CSRs and its mode, and the end of a task notes the cause with its launch; whatever else the
end does leaves the noted causes. -/
theorem trapEntrySavesAndGoesToTheHandler : Obligations.TrapEntrySavesAndGoesToTheHandler := by
  unfold Obligations.TrapEntrySavesAndGoesToTheHandler
  rintro s _ r async rfl
  refine ⟨fun hinh hvec => ?_, fun h => ?_⟩
  · rw [s.trap_enters r async hinh hvec]
    have hsets : (((s.trapped r async).modT Thread.enter).getCore s.core).sets = (s.getCore s.core).sets := s.trapped_sets r async
    simp [Thread.enter, Thread.trapCsrs, hsets]
  · rw [s.trap_ends r async (h.imp_left And.left)]
    refine ⟨State.endTask_t .., fun key l hkey hl => ?_⟩
    have hnoted := (s.trapped r async).endTask_cause key r.cause.code hkey
    have hfound : (s.trapped r async).launch? key = some l := hl
    rw [hnoted, hfound, Option.map_some]

/-! ## The return from a trap (R241) -/

theorem exec_eret (s : State) (hsup : s.t.sup = true) (hinh : s.t.inh = true) : exec .eret s = .next s.eret := by
  show execEret s = _
  simp [execEret, hsup, hinh]

@[simp] theorem State.eret_t (s : State) : s.eret.t = s.t.eret := rfl
@[simp] theorem State.eret_mem (s : State) : s.eret.mem = s.mem := rfl

theorem causeOf_code (c : Cause) : causeOf c.code = some c := by cases c <;> rfl

theorem skipHonoured_eq (c : Cause) : skipHonoured c = (c.skipsMember || c.skipsElements) := by cases c <;> rfl

/-- The skip that `eret` notes for a synchronous cause. -/
theorem Thread.eret_skip (t : Thread) (c : Cause) (h : t.xcause = c.code.setWidth 64) :
    t.eret.skip = if t.skipBit && skipHonoured c then some { cause := c, elem := t.xelem.toNat, mask := t.xmask } else none := by
  have hcode : t.xcause.extractLsb' 0 16 = c.code := by
    rw [h]
    ext i hi
    simp [hi]
    omega
  have hsync : t.xcause.getLsbD 63 = false := by simp [h]
  unfold Thread.eret
  dsimp only
  rw [hcode, causeOf_code, hsync, skipHonoured_eq]
  cases t.skipBit <;> simp

/-- The member that a trap notes is read back where a convoy has it. -/
theorem word_member (n : Nat) (h : n < 4) : ((word n).extractLsb' 0 2).toNat = n := by
  simp [word]
  omega

/-- Settles O8: what `eret` does to the thread in hand, and that it undoes the entry of a trap. -/
theorem eretResumesWhereTheHandlerSays : Obligations.EretResumesWhereTheHandlerSays := by
  unfold Obligations.EretResumesWhereTheHandlerSays
  refine ⟨fun s hsup hinh => ?_, fun s r hinh hvec hmember => ?_⟩
  · exact ⟨s.eret, exec_eret s hsup hinh, rfl, rfl, rfl, rfl, rfl, rfl, rfl, rfl, rfl, s.t.eret_skip⟩
  · rw [s.trap_enters r false hinh hvec]
    refine ⟨_, exec_eret _ rfl rfl, ?_⟩
    simp [Thread.eret, Thread.enter, Thread.trapCsrs, word_member _ hmember]

end Sys2Proof.Machine

/-! ## What raises ILLEGAL (R233, R272, R341) -/

namespace Sys2Proof.Machine

open Sys2Proof.Claims

/-! ### The checks of Table 11.2 -/

theorem mem_csrBlocks (n : Nat) :
    n ∈ ((List.range 10).flatMap fun i => [0x090 + i, 0x0A0 + i, 0x0B0 + i]) ↔ csrIn n 0x090 ∨ csrIn n 0x0A0 ∨ csrIn n 0x0B0 := by
  simp only [List.mem_flatMap, List.mem_range, List.mem_cons, List.not_mem_nil, or_false, csrIn, Bool.and_eq_true, decide_eq_true_eq]
  constructor
  · rintro ⟨i, hi, h⟩
    omega
  · rintro (h | h | h)
    · exact ⟨n - 0x090, by omega⟩
    · exact ⟨n - 0x0A0, by omega⟩
    · exact ⟨n - 0x0B0, by omega⟩

theorem mem_supervisorOnly (n : Nat) : n ∈ supervisorOnly ↔ csrSup n := by
  simp only [supervisorOnly, csrSup, List.mem_cons, List.not_mem_nil, or_false, Bool.or_eq_true, Bool.and_eq_true, beq_iff_eq, decide_eq_true_eq]
  omega

/-- The model's check of a read is that of Table 11.2. -/
theorem csrReadable_eq_mayRead (sup : Bool) (n : Nat) : csrReadable sup n = mayRead sup n := by
  rw [Bool.eq_iff_iff]
  cases sup <;>
    simp only [csrReadable, csrCopy, csrSup, csrIn, mayRead, userReads, List.contains_eq_mem, List.mem_append, mem_csrBlocks, mem_supervisorOnly, List.mem_cons,
      List.not_mem_nil, or_false, Bool.or_eq_true, Bool.and_eq_true, Bool.false_and, Bool.true_and, Bool.false_eq_true, beq_iff_eq, decide_eq_true_eq]
  all_goals omega

/-- The model's check of a write is that of Table 11.2. -/
theorem csrWritable_eq_mayWrite (sup : Bool) (n : Nat) : csrWritable sup n = mayWrite sup n := by
  rw [Bool.eq_iff_iff]
  cases sup <;>
    simp only [csrWritable, csrCopy, csrSup, csrIn, mayWrite, userWrites, supervisorWrites, List.contains_eq_mem, List.mem_append, mem_csrBlocks,
      mem_supervisorOnly, List.mem_cons, List.not_mem_nil, or_false, Bool.or_eq_true, Bool.and_eq_true, Bool.false_and, Bool.true_and,
      Bool.false_eq_true, beq_iff_eq, decide_eq_true_eq]
  all_goals omega

theorem user_mayRead_supervisorOnly : ∀ n ∈ supervisorOnly, mayRead false n = false := by decide
theorem user_mayWrite_supervisorOnly : ∀ n ∈ supervisorOnly, mayWrite false n = false := by decide

/-! ### Members that stop at a check -/

/-- ILLEGAL of a member that has done nothing: its entry, with the raw bits that R233 gives it. -/
theorem finish_illegal (s : State) :
    finish illegal s = s.trap { cause := .illegal, xaddr := s.raw, xelem := word s.rawHigh, xmask := 0, vstart := none } false :=
  finish_trap (exec_illegal s)

/-- A member that looks at the state first does what it does from there. -/
theorem finish_get_bind (f : State → M Unit) (s : State) : finish (get >>= f) s = finish (f s) s := by
  unfold finish finishBy
  rw [exec_bind, exec_get]

theorem exec_eret_illegal (s : State) (h : s.t.sup = false ∨ s.t.inh = false) : exec .eret s = .next (finish illegal s) :=
  congrArg Host.Outcome.next (if_pos (by simpa using h))

theorem exec_tmsw_user (b : SReg) (e : Bool) (s : State) (h : s.t.sup = false) : exec (.tmsw b e) s = .next (finish illegal s) :=
  congrArg Host.Outcome.next ((finish_get_bind _ s).trans (congrArg (finish · s) (if_pos (by simp [h]))))

theorem exec_tlbinv_user (kind : BitVec 2) (b c : SReg) (s : State) (h : s.t.sup = false) : exec (.tlbinv kind b c) s = .next (finish illegal s) :=
  congrArg Host.Outcome.next (if_pos (by simp [h]))

theorem exec_tmaprxWrite_user (op : CsrOp) (b : SReg) (s : State) (h : s.t.sup = false) : exec (.tmaprxWrite op b) s = .next (finish illegal s) :=
  congrArg (fun m => Host.Outcome.next (finish m s)) (if_neg (by simp [h]))

theorem exec_csrr_refused (a : SReg) (csr : BitVec 12) (s : State) (h : mayRead s.t.sup csr.toNat = false) :
    exec (.csrr a csr) s = .next (finish illegal s) :=
  congrArg (fun m => Host.Outcome.next (finish m s)) (if_neg (by simp [csrReadable_eq_mayRead, h]))

/-- The three CSR writes are one write, of the number and the value that R339 gives each. -/
theorem exec_of_csrWriteOf {i : Instr} {s : State} {n : Nat} {v : Word} (h : csrWriteOf s i = some (n, v)) :
    exec i s = .next (finish (csrWrite n v) s) := by
  unfold csrWriteOf at h
  split at h
  case h_4 => cases h
  all_goals
    cases h
    rfl

theorem finish_csrWrite_refused (n : Nat) (v : Word) (s : State) (h : mayWrite s.t.sup n = false) : finish (csrWrite n v) s = finish illegal s :=
  (finish_get_bind _ s).trans (congrArg (finish · s) (if_pos (by simp [csrWritable_eq_mayWrite, h])))

theorem exec_csrWrite_refused {i : Instr} {s : State} {n : Nat} {v : Word} (hi : csrWriteOf s i = some (n, v)) (h : mayWrite s.t.sup n = false) :
    exec i s = .next (finish illegal s) := by
  rw [exec_of_csrWriteOf hi, finish_csrWrite_refused n v s h]

/-- A CSR of the supervisor is neither read nor written in user mode. -/
theorem exec_csr_user {i : Instr} {s : State} {a : SReg} {csr : BitVec 12} (hsup : s.t.sup = false) (hcsr : csr.toNat ∈ supervisorOnly)
    (hi : i = .csrr a csr ∨ i = .csrw a csr ∨ i = .csrs a csr ∨ i = .csrc a csr) : exec i s = .next (finish illegal s) := by
  have hread : mayRead s.t.sup csr.toNat = false := hsup ▸ user_mayRead_supervisorOnly _ hcsr
  have hwrite : mayWrite s.t.sup csr.toNat = false := hsup ▸ user_mayWrite_supervisorOnly _ hcsr
  rcases hi with rfl | rfl | rfl | rfl
  · exact exec_csrr_refused a csr s hread
  all_goals exact exec_csrWrite_refused rfl hwrite

/-- Settles O13: each member stops at the check of its mode or of its CSR, before it changes anything. -/
theorem whatTheModeForbidsRaisesIllegal : Obligations.WhatTheModeForbidsRaisesIllegal := by
  unfold Obligations.WhatTheModeForbidsRaisesIllegal
  refine ⟨fun i s hinh _ h => ?_, fun i s h => ?_⟩
  · rw [← finish_illegal]
    rcases h with rfl | ⟨hsup, ⟨b, e, rfl⟩ | ⟨kind, b, c, rfl⟩ | ⟨a, csr, hcsr, hi⟩ | ⟨op, b, rfl⟩⟩
    · exact exec_eret_illegal s (.inr hinh)
    · exact exec_tmsw_user b e s hsup
    · exact exec_tlbinv_user kind b c s hsup
    · exact exec_csr_user hsup hcsr hi
    · exact exec_tmaprxWrite_user op b s hsup
  · rw [← finish_illegal]
    rcases h with ⟨a, csr, rfl, _, hread⟩ | ⟨n, v, hi, hwrite⟩
    · exact exec_csrr_refused a csr s hread
    · exact exec_csrWrite_refused hi hwrite

end Sys2Proof.Machine
